-- ==== Sys2Proof/Word.lean ====
section
/-! DEFINITION. The word and the byte of the YAVC block engine (spec/00_scope.md R11, R12). -/

namespace Sys2Proof

/-- A word: `XLEN` = 32 bits, the width of every register, command and memory word (R11, R12). -/
abbrev Word := BitVec 32

/-- A byte: one character of the token stream (R221), and one cell of the model's memory. -/
abbrev Byte := BitVec 8

/-- `u32(w)` (R12): the word as an unsigned integer. -/
abbrev u32 (w : Word) : Nat := w.toNat

/-- `s32(w)` (R12): the word as a two's-complement integer. -/
abbrev s32 (w : Word) : Int := w.toInt

/-- `w32(n)` (R12): the word whose `s32` (n < 0) or `u32` (n ≥ 0) value is `n`. -/
abbrev w32 (n : Int) : Word := BitVec.ofInt 32 n

end Sys2Proof
end

