-- ==== Sys2Proof/Syntax.lean ====
section
/-! DEFINITION. The commands of the engine: one constructor for each row of spec/opcode_table.json
(spec/30_encoding.md R84, R86). -/

namespace Sys2Proof

/-- The raster selector, command bits [23:20] (R81): 0 `CUR`, 1 `AUX`, 2 `REF`, 3 to 15 reserved. A
reserved selector has an encoding, and a command that carries one raises `IllegalOperand` (R82, R87),
so it is kept as a constructor of its own. -/
inductive RasterSel where
  | cur
  | aux
  | ref
  | reserved (code : BitVec 4)
deriving DecidableEq, Repr

/-- A command. Commands whose raster column is "any", "writable" or "REF" carry the selector `rs` and
the drawback `d` of the command word; the others carry nothing (R84, R88). Every other operand is an
argument register latched at issue (R83). -/
inductive Instr where
  | rasGet (rs : RasterSel) (d : BitVec 4)
  | rasSet (rs : RasterSel) (d : BitVec 4)
  | blkLd (rs : RasterSel) (d : BitVec 4)
  | blkSt (rs : RasterSel) (d : BitVec 4)
  | refPush
  | refReset
  | colRgb2Ycc
  | colYcc2Rgb
  | colGray
  | colBlk2Ycc
  | colBlk2Rgb
  | sobPix (rs : RasterSel) (d : BitVec 4)
  | sobMap (rs : RasterSel) (d : BitVec 4)
  | sobBlkFlag
  | dctFwd
  | dctInv
  | motSearch (rs : RasterSel) (d : BitVec 4)
  | motBatch (rs : RasterSel) (d : BitVec 4)
  | serMeta
  | serIntra (rs : RasterSel) (d : BitVec 4)
  | serFrame (rs : RasterSel) (d : BitVec 4)
  | serVecs
  | parPeek
  | parMeta
  | parIntra (rs : RasterSel) (d : BitVec 4)
  | parFrame (rs : RasterSel) (d : BitVec 4)
  | parVecs
deriving DecidableEq, Repr

end Sys2Proof
end

