-- ==== Sys2Proof/WellFormed.lean ====
section
/-! DEFINITION. Which commands have an encoding of their own (spec/30_encoding.md R81). -/

namespace Sys2Proof

/-- A selector is well formed when a reserved one is one of the codes 3 to 15 (R81): the codes 0, 1 and 2
are `CUR`, `AUX` and `REF`. -/
def RasterSel.wf : RasterSel → Bool
  | .cur => true
  | .aux => true
  | .ref => true
  | .reserved code => decide (3 ≤ code.toNat)

/-- A command is well formed when its selector is: every drawback of four bits has an encoding. -/
def Instr.wf : Instr → Bool
  | .rasGet rs _ => rs.wf
  | .rasSet rs _ => rs.wf
  | .blkLd rs _ => rs.wf
  | .blkSt rs _ => rs.wf
  | .refPush => true
  | .refReset => true
  | .colRgb2Ycc => true
  | .colYcc2Rgb => true
  | .colGray => true
  | .colBlk2Ycc => true
  | .colBlk2Rgb => true
  | .sobPix rs _ => rs.wf
  | .sobMap rs _ => rs.wf
  | .sobBlkFlag => true
  | .dctFwd => true
  | .dctInv => true
  | .motSearch rs _ => rs.wf
  | .motBatch rs _ => rs.wf
  | .serMeta => true
  | .serIntra rs _ => rs.wf
  | .serFrame rs _ => rs.wf
  | .serVecs => true
  | .parPeek => true
  | .parMeta => true
  | .parIntra rs _ => rs.wf
  | .parFrame rs _ => rs.wf
  | .parVecs => true

end Sys2Proof
end

