-- ==== Sys2Proof/Decode.lean ====
section
/-! DEFINITION. Decoding and encoding of command words (spec/30_encoding.md R80 to R88). -/

namespace Sys2Proof

/-- Why a word is no command; the completion step turns each into the engine's fault of the same name
(R82, R87). -/
inductive DecodeError where
  /-- `opc` names no command: R82 (1). -/
  | illegalCommand
  /-- `zero` is not 0, or a command without a raster operand has `rs` or `d` not 0: R82 (2), (3). -/
  | illegalOperand
deriving DecidableEq, Repr

/-- Bits [23:20] as a selector (R81). -/
def RasterSel.ofBits (code : BitVec 4) : RasterSel :=
  if code = 0 then .cur else if code = 1 then .aux else if code = 2 then .ref else .reserved code

/-- The selector's code (R81). -/
def RasterSel.toBits : RasterSel → BitVec 4
  | .cur => 0
  | .aux => 1
  | .ref => 2
  | .reserved code => code

/-- What the raster column of R84 says of a row: "none", or one of "any", "writable", "REF". -/
inductive DecodeRow where
  | plain (i : Instr)
  | raster (build : RasterSel → BitVec 4 → Instr)

/-- The row of R84 with operation code `opc`, if there is one (R86, R87). -/
def decodeRow (opc : Nat) : Option DecodeRow :=
  match opc with
  | 0x10 => some (.raster .rasGet)
  | 0x11 => some (.raster .rasSet)
  | 0x12 => some (.raster .blkLd)
  | 0x13 => some (.raster .blkSt)
  | 0x14 => some (.plain .refPush)
  | 0x15 => some (.plain .refReset)
  | 0x20 => some (.plain .colRgb2Ycc)
  | 0x21 => some (.plain .colYcc2Rgb)
  | 0x22 => some (.plain .colGray)
  | 0x23 => some (.plain .colBlk2Ycc)
  | 0x24 => some (.plain .colBlk2Rgb)
  | 0x30 => some (.raster .sobPix)
  | 0x31 => some (.raster .sobMap)
  | 0x32 => some (.plain .sobBlkFlag)
  | 0x40 => some (.plain .dctFwd)
  | 0x41 => some (.plain .dctInv)
  | 0x50 => some (.raster .motSearch)
  | 0x51 => some (.raster .motBatch)
  | 0x60 => some (.plain .serMeta)
  | 0x61 => some (.raster .serIntra)
  | 0x62 => some (.raster .serFrame)
  | 0x63 => some (.plain .serVecs)
  | 0x68 => some (.plain .parPeek)
  | 0x69 => some (.plain .parMeta)
  | 0x6A => some (.raster .parIntra)
  | 0x6B => some (.raster .parFrame)
  | 0x6C => some (.plain .parVecs)
  | _ => none

/-- The command of a word, or why there is none. The tests stand in the order of R82: the operation code,
the `zero` field, then `rs` and `d` of a row whose raster column is "none". The other requirements on
`rs` and `d` depend on the state (R40) and are the command's own (log 18). -/
def decode (w : Word) : Except DecodeError Instr :=
  match decodeRow (w.extractLsb' 24 8).toNat with
  | none => .error .illegalCommand
  | some row =>
    if w.extractLsb' 0 16 = 0 then
      match row with
      | .raster build => .ok (build (RasterSel.ofBits (w.extractLsb' 20 4)) (w.extractLsb' 16 4))
      | .plain i => if w.extractLsb' 16 8 = 0 then .ok i else .error .illegalOperand
    else .error .illegalOperand

/-- Format C (R81, R90): `(opc << 24) | (rs << 20) | (d << 16)`. -/
def formatC (opc : BitVec 8) (rs d : BitVec 4) : Word := opc ++ rs ++ d ++ 0#16

/-- The word of a command (R84, R90). -/
def encode : Instr → Word
  | .rasGet rs d => formatC 0x10 rs.toBits d
  | .rasSet rs d => formatC 0x11 rs.toBits d
  | .blkLd rs d => formatC 0x12 rs.toBits d
  | .blkSt rs d => formatC 0x13 rs.toBits d
  | .refPush => formatC 0x14 0 0
  | .refReset => formatC 0x15 0 0
  | .colRgb2Ycc => formatC 0x20 0 0
  | .colYcc2Rgb => formatC 0x21 0 0
  | .colGray => formatC 0x22 0 0
  | .colBlk2Ycc => formatC 0x23 0 0
  | .colBlk2Rgb => formatC 0x24 0 0
  | .sobPix rs d => formatC 0x30 rs.toBits d
  | .sobMap rs d => formatC 0x31 rs.toBits d
  | .sobBlkFlag => formatC 0x32 0 0
  | .dctFwd => formatC 0x40 0 0
  | .dctInv => formatC 0x41 0 0
  | .motSearch rs d => formatC 0x50 rs.toBits d
  | .motBatch rs d => formatC 0x51 rs.toBits d
  | .serMeta => formatC 0x60 0 0
  | .serIntra rs d => formatC 0x61 rs.toBits d
  | .serFrame rs d => formatC 0x62 rs.toBits d
  | .serVecs => formatC 0x63 0 0
  | .parPeek => formatC 0x68 0 0
  | .parMeta => formatC 0x69 0 0
  | .parIntra rs d => formatC 0x6A rs.toBits d
  | .parFrame rs d => formatC 0x6B rs.toBits d
  | .parVecs => formatC 0x6C 0 0

/-- The command the decoder reads from the `nbits` low bits of `w`; every bit above them is 0. A command is one
word (R80), so bits above 31 must be 0 too. -/
def decodeTableWord (nbits w : Nat) : Option Instr :=
  if w % 2 ^ nbits < 2 ^ 32 then
    match decode (BitVec.ofNat 32 (w % 2 ^ nbits)) with
    | .ok i => some i
    | .error _ => none
  else none

end Sys2Proof
end

