-- ==== Sys2Proof/Config.lean ====
section
/-! DEFINITION. The parameters of the engine (spec/00_scope.md R9, R11) and the one free value:
what memory that nothing has written holds (spec/10_state.md R57, spec/93 U1). -/

namespace Sys2Proof

/-- Block sizes a block may have (R9). -/
def Config.blockSizes : List Nat := [4, 8, 16, 32, 64]

/-- Block sizes the transform accepts (R9, R160). -/
def Config.xformSizes : List Nat := [4, 8, 16]

/-- `REFCAP_DEFAULT` (R9, R30). -/
def Config.refCapDefault : Nat := 5

/-- `REFCAP_MAX` (R11). -/
def Config.refCapMax : Nat := 15

/-- `STEP0`, the first step of the motion search (R9, R193). -/
def Config.step0 : Nat := 8

/-- `CHROMA_BIAS` (R9, R165, R168). -/
def Config.chromaBias : Int := 128

/-- `SENTINEL` (R9, R231): 89658667. -/
def Config.sentinel : Word := 0x0558152B#32

/-- `MAXDIM` (R11). -/
def Config.maxDim : Nat := 4096

/-- `VTAB_N` (R11). -/
def Config.vtabN : Nat := 4096

/-- `STRM_CAP` (R11), in bytes. -/
def Config.strmCap : Nat := 16777216

/-- `PLANE_LIMIT` (R11, R163): 2^20. -/
def Config.planeLimit : Nat := 1048576

/-- `ID` (R24). -/
def Config.idWord : Word := 0x59415643#32

/-- The free value (R57, U1): the byte at an address that nothing has written since the hardware
reset number `epoch`. It has no body, so a claim holds whatever the bytes are. DESIGN CHOICE, log 3;
safe. -/
opaque Config.unwrittenByte (epoch address : Nat) : Byte

end Sys2Proof
end

