-- ==== Sys2Proof/Machine/State.lean ====
section
/-! DEFINITION. The state of the engine as plain data (spec/10_state.md R20 to R57), the reasons a step can stop, and
the state after hardware reset (R55). -/

namespace Sys2Proof.Machine

/-- Why a step stops with a fault of the model. The engine's own twelve faults (spec/60_exceptions.md R301) are
none of these: they are taken, as next states (`EngineFault`, `State.takeFault`). -/
inductive Fault where
  /-- Raised by a host access to an address inside no region of R60: the bus error of R67. The engine's
  state does not change on the hardware, whose host sees an error response. Safe: the model stops where
  the host goes on. Log 4. -/
  | unmappedAddress (address : Nat)
deriving DecidableEq, Repr

/-- Why a step is refused. -/
inductive Refusal where
  /-- Raised by an arm of `exec` whose command has no meaning yet. No arm of this model is one. Safe. -/
  | notModelled (mnemonic : String)
  /-- Raised by a host access of a size other than 4 bytes (R63, R67, U3). Safe: the engine's state does not change on
  the hardware. Log 4. -/
  | busSize (address size : Nat)
  /-- Raised by a host access to an address that is no multiple of 4 (R63, R67, U3). Safe, as `busSize`. Log 4. -/
  | busMisaligned (address : Nat)
  /-- Raised by a host access to a buffer or raster while `BUSY` = 1 (R67, R71, U3). Safe, as `busSize`. Log 4. -/
  | busBusy (address : Nat)
  /-- Raised by `exec` in a state with no command in flight: a completion is enabled exactly when `BUSY` = 1
  (R52). `step` never calls `exec` there. Safe. Log 5. -/
  | noCommandInFlight
deriving DecidableEq, Repr

/-- The memory: (byte address, byte) pairs over the engine's address space (R60). An address with no pair holds no byte
of its own: nothing has written it since hardware reset (R57), and the machine reads it as a free value. Log 3. -/
abbrev Memory := List Host.Cell

/-- The canonical form of the memory: addresses strictly rising. An unlisted address holds no byte, so no pair is equal to
what an unlisted address holds, and equal memories are equal lists. -/
abbrev Memory.wf (m : Memory) : Prop := m.Pairwise (fun a b => a.1 < b.1)

/-- One raster of the reference window: the triple `(w, h, pix)` of R41, `pix` in raster order (R13). -/
structure Raster where
  w : Nat
  h : Nat
  pix : List Word
deriving DecidableEq, Repr

/-- `PEND` (R49): the command word accepted at issue and the values of `A0` to `A7` at that moment. -/
structure Pend where
  cmd : Word
  args : Vector Word 8
deriving DecidableEq, Repr

/-- A host access to the address space (R61): `MemRead(addr, size)`, `MemWrite(addr, size, v)`. Addresses are byte
offsets from `YBE_BASE` (log 15). -/
inductive HostAccess where
  | read (address size : Nat)
  | write (address size : Nat) (v : Word)
deriving DecidableEq, Repr

/-- One move of one of the three agents of R350. -/
inductive Event where
  /-- The host performs one access. -/
  | host (a : HostAccess)
  /-- The engine completes the command in flight, if there is one. -/
  | completion
  /-- The platform applies hardware reset. -/
  | hardReset
deriving DecidableEq, Repr

/-- The state of the machine. `BUSY`, `REFCNT` and `ID` are not fields: they are views (`State.busy`, `State.refCnt`,
`Config.idWord`; log 8). The last three fields are the model's own. -/
structure State where
  /-- `CTRL` bit 8 (R25). -/
  ieDone : Bool
  /-- `CTRL` bit 9 (R25). -/
  ieFault : Bool
  /-- `CTRL` bit 10 (R25). -/
  ieCmdErr : Bool
  /-- `STATUS` bit 1 (R26). -/
  statusDone : Bool
  /-- `STATUS` bit 2 (R26). -/
  statusFault : Bool
  /-- `STATUS` bit 3 (R26). -/
  statusCmdErr : Bool
  /-- `CMD` (R27). -/
  cmd : Word
  /-- `FAULTCODE` bits [7:0] (R28). -/
  faultCode : BitVec 8
  /-- `FAULTINFO` (R28). -/
  faultInfo : Word
  /-- `FRAME_W` bits [12:0] (R29). -/
  frameW : BitVec 13
  /-- `FRAME_H` bits [12:0] (R29). -/
  frameH : BitVec 13
  /-- `REFCAP` bits [3:0] (R30). -/
  refCap : BitVec 4
  /-- `MADTOL` (R31). -/
  madTol : Word
  /-- `EDGETHR` (R32). -/
  edgeThr : Word
  /-- `BLKPOSX` (R33). -/
  blkPosX : Word
  /-- `BLKPOSY` (R33). -/
  blkPosY : Word
  /-- `BLKSZ.SIZE`, bits [7:0] (R33). -/
  blkSize : BitVec 8
  /-- `BLKSZ.EDGE`, bit 8 (R33). -/
  blkEdge : Bool
  /-- `SPLSZ` bits [7:0] (R34). -/
  splSize : BitVec 8
  /-- `COEFSZ` bits [7:0] (R35). -/
  coefSize : BitVec 8
  /-- `EMAPDIM` bits [12:0], the width (R36). -/
  emapW : BitVec 13
  /-- `EMAPDIM` bits [28:16], the height (R36). -/
  emapH : BitVec 13
  /-- `SLEN` (R37). -/
  sLen : Word
  /-- `RPTR` (R37). -/
  rPtr : Word
  /-- `A0`..`A7` (R21). -/
  args : Vector Word 8
  /-- `R0`..`R7` (R22). -/
  results : Vector Word 8
  /-- `refs`, the reference window, oldest first (R41). -/
  refs : List Raster
  /-- `PEND`: present exactly while `BUSY` = 1 (R49). -/
  pend : Option Pend
  /-- The buffers, the stream and the rasters `CUR`, `AUX` (R60). -/
  mem : Memory
  /-- The MODEL's own: how many hardware resets there have been, the argument that makes the free values of R57
  fresh after each. Log 3. -/
  epoch : Nat
  /-- The MODEL's own: the moves to come of the three agents, in the order in which they happen. Log 1. -/
  agenda : List Event
  /-- The MODEL's own: the word the host's latest read returned. Log 9. -/
  lastRead : Option Word
deriving DecidableEq, Repr

/-- The machine right after hardware reset (R55). `epoch`, `agenda` and `lastRead` are the model's own: DESIGN CHOICE, logs 1, 3
and 9. -/
def State.reset : State where
  ieDone := false
  ieFault := false
  ieCmdErr := false
  statusDone := false
  statusFault := false
  statusCmdErr := false
  cmd := 0#32
  faultCode := 0#8
  faultInfo := 0#32
  frameW := 0#13
  frameH := 0#13
  refCap := 5#4
  madTol := 0#32
  edgeThr := 0#32
  blkPosX := 0#32
  blkPosY := 0#32
  blkSize := 0#8
  blkEdge := false
  splSize := 0#8
  coefSize := 0#8
  emapW := 0#13
  emapH := 0#13
  sLen := 0#32
  rPtr := 0#32
  args := Vector.replicate 8 0#32
  results := Vector.replicate 8 0#32
  refs := []
  pend := none
  mem := []
  epoch := 0
  agenda := []
  lastRead := none

end Sys2Proof.Machine
end

