-- ==== Sys2Proof/Machine/Ops.lean ====
section
/-! DEFINITION. The named operations over memory and registers, taking a fault and returning from one
(spec/10_state.md, spec/20_memory.md, spec/60_exceptions.md). -/

namespace Sys2Proof.Machine

/-! ### Memory -/

/-- The byte listed at address `a`, or none when nothing has written it. -/
def Memory.find : Memory → Nat → Option Byte
  | [], _ => none
  | (b, v) :: rest, a => if b = a then some v else Memory.find rest a

/-- The cells of a byte string laid out from address `a` up. -/
def Memory.run : Nat → List Byte → Memory
  | _, [] => []
  | a, b :: bs => (a, b) :: Memory.run (a + 1) bs

/-- The memory after the byte string `bytes` is stored from address `base` up. -/
def Memory.writeRun (m : Memory) (base : Nat) (bytes : List Byte) : Memory :=
  m.filter (fun c => decide (c.1 < base)) ++ Memory.run base bytes
    ++ m.filter (fun c => decide (base + bytes.length ≤ c.1))

/-- The four bytes of a word, lowest address first: the order R64 fixes for the stream. In the other
regions no access is narrower than a word, so the order cannot be seen. DEDUCED, log 6; safe. -/
def wordBytes (w : Word) : List Byte :=
  [w.extractLsb' 0 8, w.extractLsb' 8 8, w.extractLsb' 16 8, w.extractLsb' 24 8]

/-- The byte at address `a`: the one listed, else the free value (R57, U1; log 3). -/
def State.byteAt (s : State) (a : Nat) : Byte :=
  (s.mem.find a).getD (Config.unwrittenByte s.epoch a)

/-- The word at address `a` (R61, R64). -/
def State.wordAt (s : State) (a : Nat) : Word :=
  s.byteAt (a + 3) ++ s.byteAt (a + 2) ++ s.byteAt (a + 1) ++ s.byteAt a

/-- Store a byte string from address `base` up. -/
def State.writeBytes (s : State) (base : Nat) (bytes : List Byte) : State :=
  { s with mem := s.mem.writeRun base bytes }

/-- Store words from address `base` up. -/
def State.writeWords (s : State) (base : Nat) (ws : List Word) : State :=
  s.writeBytes base (ws.flatMap wordBytes)

/-- Store one word at address `a`. -/
def State.writeWord (s : State) (a : Nat) (w : Word) : State := s.writeBytes a (wordBytes w)

/-! ### Where each buffer stands (R20, R60) -/

/-- First byte of `BLK.PIX`. -/
def blkPixBase : Nat := 0x00010000
/-- First byte of `BLK.IGN`. -/
def blkIgnBase : Nat := 0x00014000
/-- First byte of `SPL.Y`. -/
def splYBase : Nat := 0x00020000
/-- First byte of `SPL.CB`. -/
def splCbBase : Nat := 0x00020400
/-- First byte of `SPL.CR`. -/
def splCrBase : Nat := 0x00020800
/-- First byte of `COEF.Y`. -/
def coefYBase : Nat := 0x00030000
/-- First byte of `COEF.CB`. -/
def coefCbBase : Nat := 0x00030400
/-- First byte of `COEF.CR`. -/
def coefCrBase : Nat := 0x00030500
/-- First byte of `VTAB`. -/
def vtabBase : Nat := 0x00040000
/-- First byte of `STRM`. -/
def strmBase : Nat := 0x01000000
/-- First byte of `CUR`. -/
def curBase : Nat := 0x04000000
/-- First byte of `AUX`. -/
def auxBase : Nat := 0x08000000
/-- First byte of `EMAP`. -/
def emapBase : Nat := 0x0C000000

/-- `BLK.PIX[k]` (R42). -/
def State.blkPix (s : State) (k : Nat) : Word := s.wordAt (blkPixBase + 4 * k)

/-- `BLK.IGN[k]`, bit 0 of its word (R42). -/
def State.blkIgn (s : State) (k : Nat) : Bool := (s.wordAt (blkIgnBase + 4 * k)).getLsbD 0

/-- The word that holds an ignore flag: bits [31:1] are 0 (R42). -/
def ignWord (b : Bool) : Word := if b then 1#32 else 0#32

/-- Word `k` of entry `e` of the vector table (R46, R60). -/
def State.vtab (s : State) (e k : Nat) : Word := s.wordAt (vtabBase + 64 * e + 4 * k)

/-- Stream byte `k` (R47, R64). -/
def State.strmByte (s : State) (k : Nat) : Byte := s.byteAt (strmBase + k)

/-- `EMAP[k]` (R45). -/
def State.emap (s : State) (k : Nat) : Word := s.wordAt (emapBase + 4 * k)

/-! ### Registers -/

/-- `STATUS.BUSY` (R26): 1 while a command is in flight, which is while `PEND` exists (R49). -/
def State.busy (s : State) : Bool := s.pend.isSome

/-- `REFCNT` (R30): the number of rasters in the reference window. -/
def State.refCnt (s : State) : BitVec 4 := BitVec.ofNat 4 s.refs.length

/-- Argument register `Ak` as latched at issue (R16, R21). -/
def Pend.arg (p : Pend) (k : Fin 8) : Word := p.args[k]

/-- `R[k] <- v` (R16). -/
def State.setResult (s : State) (k : Fin 8) (v : Word) : State :=
  { s with results := s.results.set k v }

/-! ### Faults of the engine -/

/-- The twelve faults of R301. -/
inductive FaultName where
  | illegalCommand
  | illegalOperand
  | illegalConfig
  | zeroSizeBlock
  | illegalSize
  | dimensionMismatch
  | outOfBounds
  | maskedCell
  | operandRange
  | malformedStream
  | streamOverflow
  | tableOverflow
deriving DecidableEq, Repr

/-- `FAULTCODE` of a fault (R301). -/
def FaultName.code : FaultName → BitVec 8
  | .illegalCommand => 1
  | .illegalOperand => 2
  | .illegalConfig => 3
  | .zeroSizeBlock => 4
  | .illegalSize => 5
  | .dimensionMismatch => 6
  | .outOfBounds => 7
  | .maskedCell => 8
  | .operandRange => 9
  | .malformedStream => 10
  | .streamOverflow => 11
  | .tableOverflow => 12

/-- `raise F(I)` (R16): a fault and its information word. -/
structure EngineFault where
  name : FaultName
  info : Word
deriving DecidableEq, Repr

/-- `{y[15:0], x[15:0]}` (R100, R301): the information word of a position or of a pair of dimensions. -/
def pairInfo (x y : Nat) : Word := BitVec.ofNat 16 y ++ BitVec.ofNat 16 x

/-- A count saturated to 0xFFFFFFFF (R301). -/
def saturated (n : Nat) : Word := BitVec.ofNat 32 (min n 0xFFFFFFFF)

/-- Fault entry, the whole of it (R306): `FAULTCODE`, `FAULTINFO`, `STATUS.FAULT` and `STATUS.BUSY`. -/
def State.takeFault (s : State) (f : EngineFault) : State :=
  { s with faultCode := f.name.code, faultInfo := f.info, statusFault := true, pend := none }

/-- Return from a fault (R307): the host's write of 1 to `STATUS.FAULT` clears that bit and restores nothing,
since the faulting command changed nothing. -/
def State.returnFromFault (s : State) : State := { s with statusFault := false }

/-- The end of a command that does not fault (R52): `DONE` is set and `BUSY` cleared. -/
def State.complete (s : State) : State := { s with statusDone := true, pend := none }

/-- The completion step of a command whose rule is `body` (R52, R305): `body` answers the state with all the
command's writes, or the fault it raises; in the second case none of its writes happen. A completion is
enabled only while a command is in flight (log 5). -/
def State.runCommand (s : State) (body : Pend → Except EngineFault State) :
    Host.Outcome State Fault Refusal :=
  match s.pend with
  | none => .refused .noCommandInFlight
  | some p =>
    match body p with
    | .ok t => .next t.complete
    | .error f => .next (s.takeFault f)

end Sys2Proof.Machine
end

