-- ==== Sys2Proof/Machine/Flags.lean ====
section
/-! DEFINITION. The flags of the engine: `STATUS`, `CTRL`, `BLKSZ.EDGE`, the `irq` line (spec/10_state.md R25, R26, R33,
R48, spec/60_exceptions.md R308, R310). -/

namespace Sys2Proof.Machine

/-- The word that has bit `k` equal to `b` and every other bit 0. -/
def flagBit (k : Nat) (b : Bool) : Word := if b then 1#32 <<< k else 0#32

/-- `STATUS` as the host reads it (R26). -/
def State.statusWord (s : State) : Word :=
  flagBit 0 s.busy ||| flagBit 1 s.statusDone ||| flagBit 2 s.statusFault ||| flagBit 3 s.statusCmdErr

/-- `CTRL` as the host reads it; `SRST` reads 0 (R25). -/
def State.ctrlWord (s : State) : Word :=
  flagBit 8 s.ieDone ||| flagBit 9 s.ieFault ||| flagBit 10 s.ieCmdErr

/-- `BLKSZ` as the host reads it (R33). -/
def State.blkSzWord (s : State) : Word := flagBit 8 s.blkEdge ||| s.blkSize.setWidth 32

/-- `EMAPDIM` as the host reads it (R36). -/
def State.emapDimWord (s : State) : Word := s.emapH.setWidth 16 ++ s.emapW.setWidth 16

/-- `STATUS.CMDERR` <- 1: a host write is dropped (R50, R308). -/
def State.commandError (s : State) : State := { s with statusCmdErr := true }

/-- A host write to `STATUS` clears exactly the bits among 1, 2, 3 whose written value is 1 (R26). Clearing bit 2 is the
return from a fault (R307). -/
def State.writeStatus (s : State) (v : Word) : State :=
  let s1 := if v.getLsbD 1 then { s with statusDone := false } else s
  let s2 := if v.getLsbD 2 then s1.returnFromFault else s1
  if v.getLsbD 3 then { s2 with statusCmdErr := false } else s2

/-- The interrupt output, a level (R310). -/
def State.irq (s : State) : Bool :=
  (s.statusDone && s.ieDone) || (s.statusFault && s.ieFault) || (s.statusCmdErr && s.ieCmdErr)

end Sys2Proof.Machine
end

