-- ==== Sys2Proof/Machine/Bus.lean ====
section
/-! DEFINITION. What the host does to the engine: the address map, register reads and writes, issue, soft reset, hardware
reset and buffer accesses (spec/10_state.md R20 to R57, spec/20_memory.md R60 to R71, spec/70_reset_and_hazards.md R350). -/

namespace Sys2Proof.Machine

/-! ### Registers -/

/-- The registers of R20. -/
inductive Reg where
  | id | ctrl | status | cmd | faultCode | faultInfo | frameW | frameH | refCap | refCnt
  | madTol | edgeThr | blkPosX | blkPosY | blkSz | splSz | coefSz | emapDim | sLen | rPtr
  | a (k : Fin 8)
  | r (k : Fin 8)
deriving DecidableEq, Repr

/-- The byte offset of a register (R20). -/
def Reg.offset : Reg → Nat
  | .id => 0x000
  | .ctrl => 0x004
  | .status => 0x008
  | .cmd => 0x00C
  | .faultCode => 0x010
  | .faultInfo => 0x014
  | .frameW => 0x018
  | .frameH => 0x01C
  | .refCap => 0x020
  | .refCnt => 0x024
  | .madTol => 0x028
  | .edgeThr => 0x02C
  | .blkPosX => 0x030
  | .blkPosY => 0x034
  | .blkSz => 0x038
  | .splSz => 0x03C
  | .coefSz => 0x040
  | .emapDim => 0x044
  | .sLen => 0x048
  | .rPtr => 0x04C
  | .a k => 0x080 + 4 * k.val
  | .r k => 0x0A0 + 4 * k.val

/-- Every register, in the order of R20. -/
def Reg.all : List Reg :=
  [.id, .ctrl, .status, .cmd, .faultCode, .faultInfo, .frameW, .frameH, .refCap, .refCnt, .madTol, .edgeThr, .blkPosX,
    .blkPosY, .blkSz, .splSz, .coefSz, .emapDim, .sLen, .rPtr] ++ (List.finRange 8).map .a ++ (List.finRange 8).map .r

/-- The register at an offset, if R20 lists one. -/
def regAt (offset : Nat) : Option Reg := Reg.all.find? fun g => g.offset == offset

/-- What a host read of a register returns (R22, R24 to R37); a read has no side effect (R50). -/
def State.readReg (s : State) : Reg → Word
  | .id => Config.idWord
  | .ctrl => s.ctrlWord
  | .status => s.statusWord
  | .cmd => s.cmd
  | .faultCode => s.faultCode.setWidth 32
  | .faultInfo => s.faultInfo
  | .frameW => s.frameW.setWidth 32
  | .frameH => s.frameH.setWidth 32
  | .refCap => s.refCap.setWidth 32
  | .refCnt => s.refCnt.setWidth 32
  | .madTol => s.madTol
  | .edgeThr => s.edgeThr
  | .blkPosX => s.blkPosX
  | .blkPosY => s.blkPosY
  | .blkSz => s.blkSzWord
  | .splSz => s.splSize.setWidth 32
  | .coefSz => s.coefSize.setWidth 32
  | .emapDim => s.emapDimWord
  | .sLen => s.sLen
  | .rPtr => s.rPtr
  | .a k => s.args[k]
  | .r k => s.results[k]

/-- Issue (R52): a write to `CMD` latches the command and the eight arguments, or is dropped while `BUSY` = 1 or
`FAULT` = 1. -/
def State.issue (s : State) (c : Word) : State :=
  if s.busy || s.statusFault then s.commandError
  else { s with pend := some ⟨c, s.args⟩, cmd := c, statusDone := false }

/-- Soft reset (R56): every register and `refs` at the values of R55 except `CTRL` bits 8 to 10; memories keep their contents,
and a command in flight is discarded. The model's own fields are kept. -/
def State.softReset (s : State) : State :=
  { State.reset with
    ieDone := s.ieDone, ieFault := s.ieFault, ieCmdErr := s.ieCmdErr
    mem := s.mem, epoch := s.epoch, agenda := s.agenda, lastRead := s.lastRead }

/-- A host write to `CTRL` (R25, R56, 90 C11): bits 8 to 10 take the values written; bit 0 written 1 is soft reset, which
leaves those three alone. -/
def State.writeCtrl (s : State) (v : Word) : State :=
  let t := { s with ieDone := v.getLsbD 8, ieFault := v.getLsbD 9, ieCmdErr := v.getLsbD 10 }
  if v.getLsbD 0 then t.softReset else t

/-- A write to a configuration register is performed only while `BUSY` = 0, else dropped with `CMDERR` (R50). -/
def State.whenIdle (s : State) (t : State) : State := if s.busy then s.commandError else t

/-- A host write to a register (R21 to R37, R50 to R52). Bits a rule does not name ignore writes. -/
def State.writeReg (s : State) (g : Reg) (v : Word) : State :=
  match g with
  | .ctrl => s.writeCtrl v
  | .status => s.writeStatus v
  | .cmd => s.issue v
  | .a k => { s with args := s.args.set k v }
  | .frameW => s.whenIdle { s with frameW := v.setWidth 13 }
  | .frameH => s.whenIdle { s with frameH := v.setWidth 13 }
  | .refCap => s.whenIdle { s with refCap := v.setWidth 4 }
  | .madTol => s.whenIdle { s with madTol := v }
  | .edgeThr => s.whenIdle { s with edgeThr := v }
  | .blkPosX => s.whenIdle { s with blkPosX := v }
  | .blkPosY => s.whenIdle { s with blkPosY := v }
  | .blkSz => s.whenIdle { s with blkSize := v.setWidth 8, blkEdge := v.getLsbD 8 }
  | .splSz => s.whenIdle { s with splSize := v.setWidth 8 }
  | .coefSz => s.whenIdle { s with coefSize := v.setWidth 8 }
  | .sLen => s.whenIdle { s with sLen := v }
  | .rPtr => s.whenIdle { s with rPtr := v }
  | .id => s.commandError
  | .faultCode => s.commandError
  | .faultInfo => s.commandError
  | .refCnt => s.commandError
  | .emapDim => s.commandError
  | .r _ => s.commandError

/-! ### The address map -/

/-- The regions of R60. -/
inductive Region where
  | registers | blkPix | blkIgn | splY | splCb | splCr | coefY | coefCb | coefCr | vtab | strm | cur | aux | emap
deriving DecidableEq, Repr

/-- A region with its first byte and its size in bytes. -/
structure Window where
  region : Region
  base : Nat
  size : Nat
deriving DecidableEq, Repr

/-- The address map (R60). -/
def addressMap : List Window :=
  [⟨.registers, 0, 0x100⟩,
   ⟨.blkPix, blkPixBase, 4 * 4096⟩,
   ⟨.blkIgn, blkIgnBase, 4 * 4096⟩,
   ⟨.splY, splYBase, 4 * 256⟩,
   ⟨.splCb, splCbBase, 4 * 256⟩,
   ⟨.splCr, splCrBase, 4 * 256⟩,
   ⟨.coefY, coefYBase, 4 * 256⟩,
   ⟨.coefCb, coefCbBase, 4 * 64⟩,
   ⟨.coefCr, coefCrBase, 4 * 64⟩,
   ⟨.vtab, vtabBase, 64 * Config.vtabN⟩,
   ⟨.strm, strmBase, Config.strmCap⟩,
   ⟨.cur, curBase, 4 * (Config.maxDim * Config.maxDim)⟩,
   ⟨.aux, auxBase, 4 * (Config.maxDim * Config.maxDim)⟩,
   ⟨.emap, emapBase, 4 * (Config.maxDim * Config.maxDim)⟩]

/-- The region of an address, none for an unmapped one (R60). -/
def regionAt (a : Nat) : Option Region :=
  (addressMap.find? fun w => decide (w.base ≤ a) && decide (a < w.base + w.size)).map (·.region)

/-- The bits of a word that a region stores: bit 0 in `BLK.IGN`, whose bits [31:1] read 0 and ignore writes (R42); all
of them elsewhere. -/
def storedBits (g : Region) (v : Word) : Word := if g = .blkIgn then ignWord (v.getLsbD 0) else v

/-- What a host read of an aligned word returns (R50, R60, R61). -/
def State.readWordAt (s : State) (g : Region) (a : Nat) : Word :=
  if g = .registers then
    match regAt a with
    | some reg => s.readReg reg
    | none => 0#32
  else storedBits g (s.wordAt a)

/-- A host write of an aligned word (R50, R60, R61); a write to an empty register offset is dropped with `CMDERR`. -/
def State.writeWordAt (s : State) (g : Region) (a : Nat) (v : Word) : State :=
  if g = .registers then
    match regAt a with
    | some reg => s.writeReg reg v
    | none => s.commandError
  else s.writeWord a (storedBits g v)

/-- The region of an access that the bus accepts (R63, R67, R71), or the stop of one that it refuses: log 4. -/
def State.grant (s : State) (a size : Nat) (k : Region → State) : Host.Outcome State Fault Refusal :=
  if size ≠ 4 then .refused (.busSize a size)
  else if a % 4 ≠ 0 then .refused (.busMisaligned a)
  else
    match regionAt a with
    | none => .fault (.unmappedAddress a)
    | some g => if g ≠ .registers ∧ s.busy then .refused (.busBusy a) else .next (k g)

/-- One host step (R61, R350). A read leaves the engine as it is; the model keeps the word it returned (log 9). -/
def State.hostAccess (s : State) : HostAccess → Host.Outcome State Fault Refusal
  | .read a size => s.grant a size fun g => { s with lastRead := some (s.readWordAt g a) }
  | .write a size v => s.grant a size fun g => s.writeWordAt g a v

/-- Hardware reset (R55, R330): every register and `refs` at its reset value, every memory unspecified, so that the
free values of a new epoch are read. The moves to come are kept (log 13). -/
def State.hardReset (s : State) : State :=
  { State.reset with epoch := s.epoch + 1, agenda := s.agenda, lastRead := s.lastRead }

end Sys2Proof.Machine
end

