-- ==== Sys2Proof/Machine/Numeric.lean ====
section
/-! DEFINITION. Rounding, clamping and the channels of a pixel (spec/00_scope.md R14, R15). -/

namespace Sys2Proof.Machine

/-- `rnd(a/b)` for `b > 0` (R15): the nearest integer, a tie going up; `(2a + b) div (2b)`, floor division. -/
def rndDiv (a b : Int) : Int := (2 * a + b) / (2 * b)

/-- `clamp255` (R15). -/
def clamp255 (n : Int) : Int := max 0 (min 255 n)

/-- Channel R of a pixel, bits [23:16] (R14). -/
def chR (p : Word) : Nat := (p.extractLsb' 16 8).toNat

/-- Channel G of a pixel, bits [15:8] (R14). -/
def chG (p : Word) : Nat := (p.extractLsb' 8 8).toNat

/-- Channel B of a pixel, bits [7:0] (R14). -/
def chB (p : Word) : Nat := (p.extractLsb' 0 8).toNat

/-- `ARGB(a, r, g, b)` (R14). -/
def argb (a r g b : Int) : Word :=
  BitVec.ofInt 8 a ++ BitVec.ofInt 8 r ++ BitVec.ofInt 8 g ++ BitVec.ofInt 8 b

end Sys2Proof.Machine
end

