-- ==== Sys2Proof/Machine/Operands.lean ====
section
/-! DEFINITION. The operand forms: raster operands in their three kinds, block sizes, blocks (spec/10_state.md R40,
spec/30_encoding.md R82 to R84, spec/40_raster_block.md R104). -/

namespace Sys2Proof.Machine

/-- A raster value `(w, h, pix)` as a command reads it (R40): the pixel of index `k`. -/
structure RasterView where
  w : Nat
  h : Nat
  pix : Nat → Word

/-- The pixel at `(x, y)`: element `y·w + x` (R13). -/
def RasterView.at (v : RasterView) (x y : Nat) : Word := v.pix (y * v.w + x)

/-- All the pixels in raster order (R13). -/
def RasterView.pixels (v : RasterView) : List Word := (List.range (v.w * v.h)).map v.pix

/-- An entry of the reference window as a raster value. Every index a command reads is below `w·h`, the length of
`pix` (R41), so the default is never read. -/
def Raster.view (r : Raster) : RasterView := ⟨r.w, r.h, fun k => r.pix.getD k 0#32⟩

/-- `FRAME_W` and `FRAME_H` are legal: 1 to `MAXDIM` (R29). -/
abbrev State.frameLegal (s : State) : Prop :=
  1 ≤ s.frameW.toNat ∧ s.frameW.toNat ≤ Config.maxDim ∧ 1 ≤ s.frameH.toNat ∧ s.frameH.toNat ≤ Config.maxDim

/-- The raster value of the host-addressable raster at `base`, under the present frame dimensions (R38, R39). -/
def State.frameView (s : State) (base : Nat) : RasterView :=
  ⟨s.frameW.toNat, s.frameH.toNat, fun k => s.wordAt (base + 4 * k)⟩

/-- A writable raster: the address of its element 0 and its dimensions. -/
structure RasterTarget where
  base : Nat
  w : Nat
  h : Nat
deriving DecidableEq, Repr

/-- The raster value of a writable raster. -/
def RasterTarget.view (t : RasterTarget) (s : State) : RasterView :=
  ⟨t.w, t.h, fun k => s.wordAt (t.base + 4 * k)⟩

/-- `Raster(rs, d)` for a command whose raster column is "any" (R40, R82). -/
def State.resolveRaster (s : State) (cmd : Word) (rs : RasterSel) (d : BitVec 4) :
    Except EngineFault RasterView :=
  match rs with
  | .cur =>
    if d ≠ 0 then .error ⟨.illegalOperand, cmd⟩
    else if ¬ s.frameLegal then .error ⟨.illegalConfig, 0⟩
    else .ok (s.frameView curBase)
  | .aux =>
    if d ≠ 0 then .error ⟨.illegalOperand, cmd⟩
    else if ¬ s.frameLegal then .error ⟨.illegalConfig, 0⟩
    else .ok (s.frameView auxBase)
  | .ref =>
    if d = 0 then .error ⟨.illegalOperand, cmd⟩
    else if s.refs.length < d.toNat then .error ⟨.illegalOperand, cmd⟩
    else match s.refs[s.refs.length - d.toNat]? with
      | some r => .ok r.view
      | none => .error ⟨.illegalOperand, cmd⟩
  | .reserved _ => .error ⟨.illegalOperand, cmd⟩

/-- `Raster(rs, d)` for a command whose raster column is "writable": `rs` must be `CUR` or `AUX` (R40, R82). -/
def State.resolveWritable (s : State) (cmd : Word) (rs : RasterSel) (d : BitVec 4) :
    Except EngineFault RasterTarget :=
  match rs with
  | .cur =>
    if d ≠ 0 then .error ⟨.illegalOperand, cmd⟩
    else if ¬ s.frameLegal then .error ⟨.illegalConfig, 0⟩
    else .ok ⟨curBase, s.frameW.toNat, s.frameH.toNat⟩
  | .aux =>
    if d ≠ 0 then .error ⟨.illegalOperand, cmd⟩
    else if ¬ s.frameLegal then .error ⟨.illegalConfig, 0⟩
    else .ok ⟨auxBase, s.frameW.toNat, s.frameH.toNat⟩
  | .ref => .error ⟨.illegalOperand, cmd⟩
  | .reserved _ => .error ⟨.illegalOperand, cmd⟩

/-- `Raster(2, d)` for a command whose raster column is "REF": `rs` must be `REF` (R82, R198). -/
def State.resolveRef (s : State) (cmd : Word) (rs : RasterSel) (d : BitVec 4) :
    Except EngineFault RasterView :=
  match rs with
  | .ref => s.resolveRaster cmd .ref d
  | .cur => .error ⟨.illegalOperand, cmd⟩
  | .aux => .error ⟨.illegalOperand, cmd⟩
  | .reserved _ => .error ⟨.illegalOperand, cmd⟩

/-- The two size tests in their order: 0 is `ZeroSizeBlock`, a size not in `sizes` is `IllegalSize` (R105, R127, R170). -/
def sizeFault (sizes : List Nat) (size : Nat) (zeroInfo sizeInfo : Word) : Option EngineFault :=
  if size = 0 then some ⟨.zeroSizeBlock, zeroInfo⟩
  else if size ∉ sizes then some ⟨.illegalSize, sizeInfo⟩
  else none

/-- `OutOfBounds` at position `(x, y)` (R100). -/
def outOfBoundsAt (x y : Nat) : EngineFault := ⟨.outOfBounds, pairInfo x y⟩

/-! ### Blocks -/

/-- One cell of a block: its column and row in the block, its colour and its ignore flag (R13, R42). -/
structure BlockCell where
  i : Nat
  j : Nat
  colour : Word
  ignored : Bool
deriving DecidableEq, Repr

/-- `LoadBlock(ras, x, y, s)` (R104), the cells in row-major order. -/
def loadBlock (v : RasterView) (x y s : Nat) : List BlockCell :=
  (List.range (s * s)).map fun k =>
    if x + k % s < v.w ∧ y + k / s < v.h then ⟨k % s, k / s, v.at (x + k % s) (y + k / s), false⟩
    else ⟨k % s, k / s, Config.sentinel, true⟩

/-- The cells of the block of size `s` held in `BLK`, in row-major order (R42). -/
def State.heldBlock (s : State) (size : Nat) : List BlockCell :=
  (List.range (size * size)).map fun k => ⟨k % size, k / size, s.blkPix k, s.blkIgn k⟩

/-- A cell that is not ignored lies outside a `w` by `h` raster when its block stands at `(x0, y0)` (R106): the sums are
natural numbers and do not wrap (R290). -/
def BlockCell.outside (q : BlockCell) (x0 y0 w h : Nat) : Bool :=
  !q.ignored && (decide (w ≤ x0 + q.i) || decide (h ≤ y0 + q.j))

end Sys2Proof.Machine
end

