-- ==== Sys2Proof/Machine/Colour.lean ====
section
/-! DEFINITION. Family 0x2: the colour-space converter (spec/41_colour.md). -/

namespace Sys2Proof.Machine

/-- `T(r,g,b)` (R121): the luma times 1000, not rounded. -/
def lumaSum (r g b : Int) : Int := 299 * r + 587 * g + 114 * b

/-- `Luma(r,g,b)` (R121). -/
def luma (r g b : Int) : Int := rndDiv (lumaSum r g b) 1000

/-- `Cb(r,g,b)` (R122). Not clamped. -/
def chromaB (r g b : Int) : Int := 128 + rndDiv (1000 * b - lumaSum r g b) 1772

/-- `Cr(r,g,b)` (R122). Not clamped. -/
def chromaR (r g b : Int) : Int := 128 + rndDiv (1000 * r - lumaSum r g b) 1402

/-- `Rinv(y,cb,cr)` (R123). -/
def invR (y _cb cr : Int) : Int := clamp255 (rndDiv (1000 * y + 1402 * (cr - 128)) 1000)

/-- `Ginv(y,cb,cr)` (R123). -/
def invG (y cb cr : Int) : Int :=
  clamp255 (rndDiv (587000 * y - (202008 * (cb - 128) + 419198 * (cr - 128))) 587000)

/-- `Binv(y,cb,cr)` (R123). -/
def invB (y cb _cr : Int) : Int := clamp255 (rndDiv (1000 * y + 1772 * (cb - 128)) 1000)

/-- The luma of a pixel; its alpha is ignored (R120, R121, R140). -/
def pixLuma (p : Word) : Int := luma (chR p) (chG p) (chB p)

/-- The Cb of a pixel (R122). -/
def pixCb (p : Word) : Int := chromaB (chR p) (chG p) (chB p)

/-- The Cr of a pixel (R122). -/
def pixCr (p : Word) : Int := chromaR (chR p) (chG p) (chB p)

/-- The pixel of three samples, alpha 0xFF (R125). -/
def yccPixel (y cb cr : Int) : Word := argb 0xFF (invR y cb cr) (invG y cb cr) (invB y cb cr)

/-- `COL.RGB2YCC` (R124). -/
def execColRgb2Ycc (s : State) : Host.Outcome State Fault Refusal :=
  s.runCommand fun p =>
    .ok (((s.setResult 0 (w32 (pixLuma (p.arg 0)))).setResult 1 (w32 (pixCb (p.arg 0)))).setResult 2
      (w32 (pixCr (p.arg 0))))

/-- `COL.YCC2RGB` (R125). -/
def execColYcc2Rgb (s : State) : Host.Outcome State Fault Refusal :=
  s.runCommand fun p => .ok (s.setResult 0 (yccPixel (s32 (p.arg 0)) (s32 (p.arg 1)) (s32 (p.arg 2))))

/-- `COL.GRAY` (R126). -/
def execColGray (s : State) : Host.Outcome State Fault Refusal :=
  s.runCommand fun p => .ok (s.setResult 0 (w32 (pixLuma (p.arg 0))))

/-- `COL.BLK2YCC` (R127): the lowest ignored cell is reported. -/
def execColBlk2Ycc (s : State) : Host.Outcome State Fault Refusal :=
  s.runCommand fun _ =>
    match sizeFault Config.xformSizes s.blkSize.toNat 0 (s.blkSize.setWidth 32) with
    | some f => .error f
    | none =>
      let cells := List.range (s.blkSize.toNat * s.blkSize.toNat)
      match cells.find? s.blkIgn with
      | some k => .error ⟨.maskedCell, BitVec.ofNat 32 k⟩
      | none =>
        let t := ((s.writeWords splYBase (cells.map fun k => w32 (pixLuma (s.blkPix k)))).writeWords splCbBase
          (cells.map fun k => w32 (pixCb (s.blkPix k)))).writeWords splCrBase
          (cells.map fun k => w32 (pixCr (s.blkPix k)))
        .ok { t with splSize := s.blkSize }

/-- `COL.BLK2RGB` (R128). -/
def execColBlk2Rgb (s : State) : Host.Outcome State Fault Refusal :=
  s.runCommand fun _ =>
    match sizeFault Config.xformSizes s.splSize.toNat 0 (s.splSize.setWidth 32) with
    | some f => .error f
    | none =>
      let cells := List.range (s.splSize.toNat * s.splSize.toNat)
      let colour := fun k => yccPixel (s32 (s.wordAt (splYBase + 4 * k))) (s32 (s.wordAt (splCbBase + 4 * k)))
        (s32 (s.wordAt (splCrBase + 4 * k)))
      let t := (s.writeWords blkPixBase (cells.map colour)).writeWords blkIgnBase (cells.map fun _ => 0#32)
      .ok { t with blkSize := s.splSize }

end Sys2Proof.Machine
end

