-- ==== Sys2Proof/Machine/Motion.lean ====
section
/-! DEFINITION. Family 0x5: the motion block matcher (spec/44_motion.md). -/

namespace Sys2Proof.Machine

/-- The reference pixel that cell `q` of a block is compared with when the block's origin is put at `c`; both
coordinates are within the raster for a valid candidate (R191, R192). -/
def refPixel (ref : RasterView) (c : Int × Int) (q : BlockCell) : Word :=
  ref.at (c.1 + q.i).toNat (c.2 + q.j).toNat

/-- The sum over the cells that are not ignored of the absolute difference of one channel: `SR`, `SG` or `SB` (R191). -/
def channelSum (channel : Word → Nat) (cells : List BlockCell) (ref : RasterView) (c : Int × Int) : Nat :=
  ((cells.filter (!·.ignored)).map fun q =>
    ((channel q.colour : Int) - (channel (refPixel ref c q) : Int)).natAbs).sum

/-- `Cost2` (R191, 90 C3). -/
def cost2 (cells : List BlockCell) (ref : RasterView) (c : Int × Int) : Nat :=
  channelSum chR cells ref c ^ 2 + channelSum chG cells ref c ^ 2 + channelSum chB cells ref c ^ 2

/-- `Valid(cx, cy)` (R192). -/
def validAt (cells : List BlockCell) (ref : RasterView) (c : Int × Int) : Bool :=
  decide (0 ≤ c.1) && decide (0 ≤ c.2)
    && cells.all fun q => q.ignored || (decide (c.1 + q.i < ref.w) && decide (c.2 + q.j < ref.h))

/-- A position and its `Cost2`. -/
structure Candidate where
  pos : Int × Int
  cost : Nat
deriving DecidableEq, Repr

/-- One probe: it replaces the best so far only if it is valid and strictly cheaper (R194). -/
def probe (cells : List BlockCell) (ref : RasterView) (best : Candidate) (p : Int × Int) : Candidate :=
  if validAt cells ref p && decide (cost2 cells ref p < best.cost) then ⟨p, cost2 cells ref p⟩ else best

/-- The coarse probes of a centre and a step, in order (R193). -/
def coarseProbes (c : Int × Int) (t : Int) : List (Int × Int) :=
  [(c.1 - t, c.2), (c.1 + t, c.2), (c.1, c.2 - t), (c.1, c.2 + t)]

/-- The final probes of a centre, in order (R193). -/
def finalProbes (c : Int × Int) : List (Int × Int) :=
  [(c.1 - 1, c.2), (c.1 + 1, c.2), (c.1, c.2 - 1), (c.1, c.2 + 1),
    (c.1 - 1, c.2 - 1), (c.1 + 1, c.2 - 1), (c.1 - 1, c.2 + 1), (c.1 + 1, c.2 + 1)]

/-- The coarse rounds of R195 from centre `c`, best `best` and step `t`: the last centre and the best over all rounds.
Each round either lowers the centre's cost or halves the step, so `fuel` at least the centre's cost plus the number of halvings
left (three from step 8) lets the loop run to its end. DEDUCED from R196 (b), log 12. -/
def coarseSearch (cells : List BlockCell) (ref : RasterView) :
    (fuel t : Nat) → (c best : Candidate) → Candidate × Candidate
  | 0, _, c, best => (c, best)
  | fuel + 1, t, c, best =>
    if t ≤ 1 then (c, best)
    else
      let sb := (coarseProbes c.pos t).foldl (probe cells ref) c
      let best' := if sb.cost < best.cost then sb else best
      if sb.pos = c.pos then coarseSearch cells ref fuel (t / 2) c best'
      else coarseSearch cells ref fuel t sb best'

/-- `Search(B, Rf)` (R195) for a block at `(bx, by)`. -/
def motionSearch (cells : List BlockCell) (ref : RasterView) (bx by' : Nat) : Candidate :=
  let start : Candidate := ⟨(bx, by'), cost2 cells ref (bx, by')⟩
  let r := coarseSearch cells ref (start.cost + 4) Config.step0 start start
  (finalProbes r.1.pos).foldl (probe cells ref) r.2

/-- The result record (R197, R200, R201): `STAT`, `RX`, `RY`, `SX`, `SY`, `DBK`, `COST2LO`, `COST2HI`. -/
def searchRecord (cells : List BlockCell) (ref : RasterView) (bx by' : Nat) (edge : Bool) (d : BitVec 4)
    (madTol : Word) : List Word :=
  if edge then [2, 0, 0, 0, 0, 0, 0, 0]
  else
    let r := motionSearch cells ref bx by'
    [if r.cost ≤ u32 madTol * u32 madTol then 1 else 0, w32 r.pos.1, w32 r.pos.2,
      w32 (bx - r.pos.1), w32 (by' - r.pos.2), d.setWidth 32,
      BitVec.ofNat 32 (r.cost % 2 ^ 32), BitVec.ofNat 32 (r.cost / 2 ^ 32)]

/-- All eight result registers at once (R203). -/
def State.setResults (s : State) (rec : List Word) : State :=
  { s with results := Vector.ofFn fun k => rec.getD k.val 0#32 }

/-- `MOT.SEARCH` (R203). -/
def execMotSearch (rs : RasterSel) (d : BitVec 4) (s : State) : Host.Outcome State Fault Refusal :=
  s.runCommand fun p =>
    match s.resolveRef p.cmd rs d with
    | .error f => .error f
    | .ok ref =>
      if ¬ s.frameLegal then .error ⟨.illegalConfig, 0⟩
      else
        match sizeFault Config.blockSizes s.blkSize.toNat 0 (s.blkSize.setWidth 32) with
        | some f => .error f
        | none =>
          if ref.w ≠ s.frameW.toNat ∨ ref.h ≠ s.frameH.toNat then .error ⟨.dimensionMismatch, pairInfo ref.w ref.h⟩
          else
            match (s.heldBlock s.blkSize.toNat).find?
              (·.outside (u32 s.blkPosX) (u32 s.blkPosY) ref.w ref.h) with
            | some q => .error (outOfBoundsAt (u32 s.blkPosX + q.i) (u32 s.blkPosY + q.j))
            | none =>
              .ok (s.setResults (searchRecord (s.heldBlock s.blkSize.toNat) ref (u32 s.blkPosX) (u32 s.blkPosY)
                s.blkEdge d s.madTol))

/-- The size of the block of entry `e`: bits [7:0] of word 2 (R46). -/
def State.entrySize (s : State) (e : Nat) : Nat := ((s.vtab e 2).extractLsb' 0 8).toNat

/-- The test of one entry of a batch (R206); the information word is the entry's index. -/
def State.entryFault (s : State) (e : Nat) : Option EngineFault :=
  match sizeFault Config.blockSizes (s.entrySize e) (BitVec.ofNat 32 e) (BitVec.ofNat 32 e) with
  | some f => some f
  | none =>
    if s.frameW.toNat ≤ u32 (s.vtab e 0) ∨ s.frameH.toNat ≤ u32 (s.vtab e 1) then
      some ⟨.outOfBounds, BitVec.ofNat 32 e⟩
    else none

/-- The record of entry `e` (R206): its block is loaded from `CUR`. -/
def State.entryRecord (s : State) (ref : RasterView) (d : BitVec 4) (e : Nat) : List Word :=
  searchRecord (loadBlock (s.frameView curBase) (u32 (s.vtab e 0)) (u32 (s.vtab e 1)) (s.entrySize e)) ref
    (u32 (s.vtab e 0)) (u32 (s.vtab e 1)) ((s.vtab e 3).getLsbD 0) d s.madTol

/-- The work pass of a batch (R206, R208): every record is computed from the state `s` at completion, and stored in words
4 to 11 of its entry. -/
def State.writeRecords (s : State) (ref : RasterView) (d : BitVec 4) (n : Nat) : State :=
  (List.range n).foldl (fun t e => t.writeWords (vtabBase + 64 * e + 16) (s.entryRecord ref d e)) s

/-- `MOT.BATCH` (R206). -/
def execMotBatch (rs : RasterSel) (d : BitVec 4) (s : State) : Host.Outcome State Fault Refusal :=
  s.runCommand fun p =>
    match s.resolveRef p.cmd rs d with
    | .error f => .error f
    | .ok ref =>
      if ¬ s.frameLegal then .error ⟨.illegalConfig, 0⟩
      else if Config.vtabN < u32 (p.arg 0) then .error ⟨.tableOverflow, p.arg 0⟩
      else if ref.w ≠ s.frameW.toNat ∨ ref.h ≠ s.frameH.toNat then .error ⟨.dimensionMismatch, pairInfo ref.w ref.h⟩
      else
        match (List.range (u32 (p.arg 0))).findSome? s.entryFault with
        | some f => .error f
        | none => .ok (s.writeRecords ref d (u32 (p.arg 0)))

end Sys2Proof.Machine
end

