-- ==== Sys2Proof/Machine/RasterBlock.lean ====
section
/-! DEFINITION. Family 0x1: raster access, block load and store, reference window (spec/40_raster_block.md). -/

namespace Sys2Proof.Machine

/-- `RAS.GET` (R101). -/
def execRasGet (rs : RasterSel) (d : BitVec 4) (s : State) : Host.Outcome State Fault Refusal :=
  s.runCommand fun p =>
    match s.resolveRaster p.cmd rs d with
    | .error f => .error f
    | .ok v =>
      if v.w ≤ u32 (p.arg 0) ∨ v.h ≤ u32 (p.arg 1) then .error (outOfBoundsAt (u32 (p.arg 0)) (u32 (p.arg 1)))
      else .ok (s.setResult 0 (v.at (u32 (p.arg 0)) (u32 (p.arg 1))))

/-- `RAS.SET` (R102). -/
def execRasSet (rs : RasterSel) (d : BitVec 4) (s : State) : Host.Outcome State Fault Refusal :=
  s.runCommand fun p =>
    match s.resolveWritable p.cmd rs d with
    | .error f => .error f
    | .ok t =>
      if t.w ≤ u32 (p.arg 0) ∨ t.h ≤ u32 (p.arg 1) then .error (outOfBoundsAt (u32 (p.arg 0)) (u32 (p.arg 1)))
      else .ok (s.writeWord (t.base + 4 * (u32 (p.arg 1) * t.w + u32 (p.arg 0))) (p.arg 2))

/-- The state with the cells of a block of size `size` at `(x, y)` placed in `BLK` (R105). -/
def State.placeBlock (s : State) (cells : List BlockCell) (x y : Word) (size : Nat) : State :=
  let t := (s.writeWords blkPixBase (cells.map (·.colour))).writeWords blkIgnBase
    (cells.map fun q => ignWord q.ignored)
  { t with blkPosX := x, blkPosY := y, blkSize := BitVec.ofNat 8 size, blkEdge := false }

/-- `BLK.LD` (R105). -/
def execBlkLd (rs : RasterSel) (d : BitVec 4) (s : State) : Host.Outcome State Fault Refusal :=
  s.runCommand fun p =>
    match s.resolveRaster p.cmd rs d with
    | .error f => .error f
    | .ok v =>
      match sizeFault Config.blockSizes (u32 (p.arg 2)) 0 (p.arg 2) with
      | some f => .error f
      | none =>
        if v.w ≤ u32 (p.arg 0) ∨ v.h ≤ u32 (p.arg 1) then .error (outOfBoundsAt (u32 (p.arg 0)) (u32 (p.arg 1)))
        else .ok (s.placeBlock (loadBlock v (u32 (p.arg 0)) (u32 (p.arg 1)) (u32 (p.arg 2))) (p.arg 0) (p.arg 1)
          (u32 (p.arg 2)))

/-- The write pass of `BLK.ST` (R106): every cell that is not ignored is stored at its own position. -/
def State.storeCells (s : State) (t : RasterTarget) (x0 y0 : Nat) (cells : List BlockCell) : State :=
  cells.foldl
    (fun s q => if q.ignored then s else s.writeWord (t.base + 4 * ((y0 + q.j) * t.w + (x0 + q.i))) q.colour) s

/-- `BLK.ST` (R106): the test pass reports the first cell outside in row-major order, then the write pass. -/
def execBlkSt (rs : RasterSel) (d : BitVec 4) (s : State) : Host.Outcome State Fault Refusal :=
  s.runCommand fun p =>
    match s.resolveWritable p.cmd rs d with
    | .error f => .error f
    | .ok t =>
      match sizeFault Config.blockSizes s.blkSize.toNat 0 (s.blkSize.setWidth 32) with
      | some f => .error f
      | none =>
        match (s.heldBlock s.blkSize.toNat).find? (·.outside (u32 s.blkPosX) (u32 s.blkPosY) t.w t.h) with
        | some q => .error (outOfBoundsAt (u32 s.blkPosX + q.i) (u32 s.blkPosY + q.j))
        | none => .ok (s.storeCells t (u32 s.blkPosX) (u32 s.blkPosY) (s.heldBlock s.blkSize.toNat))

/-- The two configuration tests of `REF.PUSH` and `REF.RESET` (R110, R111). -/
def State.windowFault (s : State) : Option EngineFault :=
  if ¬ s.frameLegal then some ⟨.illegalConfig, 0⟩
  else if s.refCap = 0 then some ⟨.illegalConfig, 1⟩
  else none

/-- A copy of `CUR` as an entry of the window: `(w, h, copy of CUR[0..w*h-1])` (R110). -/
def State.curCopy (s : State) : Raster :=
  ⟨s.frameW.toNat, s.frameH.toNat, (s.frameView curBase).pixels⟩

/-- Keep the newest `cap` entries: the oldest are evicted once the capacity is exceeded (R110). -/
def evict (cap : Nat) (window : List Raster) : List Raster := window.drop (window.length - cap)

/-- `REF.PUSH` (R110). -/
def execRefPush (s : State) : Host.Outcome State Fault Refusal :=
  s.runCommand fun _ =>
    match s.windowFault with
    | some f => .error f
    | none => .ok { s with refs := evict s.refCap.toNat (s.refs ++ [s.curCopy]) }

/-- `REF.RESET` (R111). -/
def execRefReset (s : State) : Host.Outcome State Fault Refusal :=
  s.runCommand fun _ =>
    match s.windowFault with
    | some f => .error f
    | none => .ok { s with refs := [s.curCopy] }

end Sys2Proof.Machine
end

