-- ==== Sys2Proof/Machine/Stream.lean ====
section
/-! DEFINITION. The token stream: characters, numbers, the pixel stream as written and as accepted
(spec/45_bitstream.md R220 to R235). -/

namespace Sys2Proof.Machine

/-- The ASCII code of a character (R221). -/
def ascii (c : Char) : Byte := BitVec.ofNat 8 c.toNat

/-- A literal of the grammar as bytes (R221). -/
def asciiList (cs : List Char) : List Byte := cs.map ascii

/-! ### As written -/

/-- The character of a digit below 10. -/
def digitByte (n : Nat) : Byte := BitVec.ofNat 8 (0x30 + n)

/-- The digits of `n` in front of `tail`, without leading zeros; `fuel` at least the number of digits. -/
def decDigits : (fuel n : Nat) → List Byte → List Byte
  | 0, _, tail => tail
  | fuel + 1, n, tail =>
    if n < 10 then digitByte n :: tail else decDigits fuel (n / 10) (digitByte (n % 10) :: tail)

/-- `dec(n)` for a natural number (R223, R234). -/
def decNat (n : Nat) : List Byte := decDigits (n + 1) n []

/-- `dec(z)` for an integer (R223, R234): never `-0`. -/
def decInt (z : Int) : List Byte := if z < 0 then ascii '-' :: decNat z.natAbs else decNat z.natAbs

/-- The maximal runs of a list: each value with its number of repetitions, at least 1 (R225). -/
def runsOf : List Word → List (Word × Nat)
  | [] => []
  | w :: ws =>
    match runsOf ws with
    | [] => [(w, 1)]
    | (v, k) :: rest => if w = v then (v, k + 1) :: rest else (w, 1) :: (v, k) :: rest

/-- One token: the value, `~` and the repetitions beyond the first when there are any, and `.` (R225). -/
def tokenBytes (r : Word × Nat) : List Byte :=
  decInt (s32 r.1) ++ (if r.2 = 1 then [] else ascii '~' :: decNat (r.2 - 1)) ++ [ascii '.']

/-- `Enc(p)` (R225). -/
def encodePixels (ws : List Word) : List Byte := (runsOf ws).flatMap tokenBytes ++ [ascii '?']

/-! ### As accepted -/

/-- The largest value of a `<nat>` (R223). -/
def maxNat : Nat := 4294967295

/-- The value of a digit, or none for another character. -/
def digitValue (b : Byte) : Option Nat :=
  if 0x30 ≤ b.toNat ∧ b.toNat ≤ 0x39 then some (b.toNat - 0x30) else none

/-- The longest digit string at the front, read in base ten after `acc`, and the bytes behind it (R223). -/
def readDigits : (acc : Nat) → List Byte → Nat × List Byte
  | acc, [] => (acc, [])
  | acc, b :: bs =>
    match digitValue b with
    | some v => readDigits (10 * acc + v) bs
    | none => (acc, b :: bs)

/-- One or more digits of any value. -/
def readDigits1 (bs : List Byte) : Option (Nat × List Byte) :=
  match bs with
  | [] => none
  | b :: rest =>
    match digitValue b with
    | some v => some (readDigits v rest)
    | none => none

/-- A `<nat>` of value at most `limit` (R223). -/
def readNat (limit : Nat) (bs : List Byte) : Option (Nat × List Byte) :=
  match readDigits1 bs with
  | some (n, rest) => if n ≤ limit then some (n, rest) else none
  | none => none

/-- An `<int>`: `-` or nothing, then digits, the value in −2^31..2^31−1 (R223). -/
def readInt (bs : List Byte) : Option (Int × List Byte) :=
  match bs with
  | [] => none
  | b :: rest =>
    if b = ascii '-' then
      match readDigits1 rest with
      | some (n, r) => if n ≤ 2147483648 then some (-(n : Int), r) else none
      | none => none
    else
      match readDigits1 (b :: rest) with
      | some (n, r) => if n ≤ 2147483647 then some ((n : Int), r) else none
      | none => none

/-- A literal at the front, and the bytes behind it (R235). -/
def readLit : (lit bs : List Byte) → Option (List Byte)
  | [], bs => some bs
  | _ :: _, [] => none
  | c :: cs, b :: bs => if c = b then readLit cs bs else none

/-- A `token` of R226: a word and its number of repetitions. -/
def readToken (bs : List Byte) : Option ((Word × Nat) × List Byte) :=
  match readInt bs with
  | none => none
  | some (v, rest) =>
    match readLit [ascii '~'] rest with
    | some rest' =>
      match readNat maxNat rest' with
      | some (c, rest'') => some ((w32 v, c + 1), rest'')
      | none => none
    | none => some ((w32 v, 1), rest)

/-- The rest of a `pixstream` from a token on: `token ( "." token )* "."? "?"` (R226); `fuel` at least the number
of bytes, since every token takes one. -/
def readTokens : (fuel : Nat) → List Byte → Option (List (Word × Nat) × List Byte)
  | 0, _ => none
  | fuel + 1, bs =>
    match readToken bs with
    | none => none
    | some (r, rest) =>
      match readLit [ascii '?'] rest with
      | some after => some ([r], after)
      | none =>
        match readLit [ascii '.'] rest with
        | none => none
        | some rest' =>
          match readLit [ascii '?'] rest' with
          | some after => some ([r], after)
          | none =>
            match readTokens fuel rest' with
            | some (rs, after) => some (r :: rs, after)
            | none => none

/-- A `pixstream` (R226): its runs and the bytes behind the `?`. -/
def readPixels (bs : List Byte) : Option (List (Word × Nat) × List Byte) :=
  match readLit [ascii '?'] bs with
  | some after => some ([], after)
  | none => readTokens (bs.length + 1) bs

/-- The number of words a pixel stream means: a natural number without bound (R226). -/
def runTotal (rs : List (Word × Nat)) : Nat := (rs.map (·.2)).sum

/-- The words a pixel stream means (R226). -/
def expandRuns (rs : List (Word × Nat)) : List Word := rs.flatMap fun r => List.replicate r.2 r.1

/-- One group of a vector record: `x`, `y`, the span (R228). -/
structure VecGroup where
  x : Nat
  y : Nat
  sx : Int
  sy : Int
deriving DecidableEq, Repr

/-- The largest `x` or `y` of a group that the reader accepts (R247). -/
def maxGroupPos : Nat := 2147483647

/-- One group after its `[`: `<nat x> "," <nat y> ";" <int sx> "," <int sy> "]"` (R228, R247). -/
def readGroup (bs : List Byte) : Option (VecGroup × List Byte) :=
  match readNat maxGroupPos bs with
  | none => none
  | some (x, r1) =>
    match readLit [ascii ','] r1 with
    | none => none
    | some r2 =>
      match readNat maxGroupPos r2 with
      | none => none
      | some (y, r3) =>
        match readLit [ascii ';'] r3 with
        | none => none
        | some r4 =>
          match readInt r4 with
          | none => none
          | some (sx, r5) =>
            match readLit [ascii ','] r5 with
            | none => none
            | some r6 =>
              match readInt r6 with
              | none => none
              | some (sy, r7) =>
                match readLit [ascii ']'] r7 with
                | none => none
                | some r8 => some (⟨x, y, sx, sy⟩, r8)

/-- The groups of a vector record: the list ends before a `$` or at the end of the stream (R228); `fuel` at least the
number of bytes plus one. -/
def readGroups : (fuel : Nat) → List Byte → Option (List VecGroup × List Byte)
  | 0, _ => none
  | _ + 1, [] => some ([], [])
  | fuel + 1, b :: bs =>
    if b = ascii '$' then some ([], b :: bs)
    else if b = ascii '[' then
      match readGroup bs with
      | none => none
      | some (g, rest) =>
        match readGroups fuel rest with
        | some (gs, after) => some (g :: gs, after)
        | none => none
    else none

/-- A marker with an index: the literal, `<nat i>`, `$` (R227, R228, R243). -/
def readMarker (lit : List Byte) (bs : List Byte) : Option (Nat × List Byte) :=
  match readLit lit bs with
  | none => none
  | some r1 =>
    match readNat maxNat r1 with
    | none => none
    | some (i, r2) =>
      match readLit [ascii '$'] r2 with
      | none => none
      | some r3 => some (i, r3)

/-- The metadata record (R224): width, height, frame count and the bytes behind it. -/
def readMeta (bs : List Byte) : Option (Nat × Nat × Nat × List Byte) :=
  match readLit (asciiList ['M', 'E', 'T', 'A', '[', 'D', '[']) bs with
  | none => none
  | some r1 =>
    match readNat maxNat r1 with
    | none => none
    | some (w, r2) =>
      match readLit [ascii ','] r2 with
      | none => none
      | some r3 =>
        match readNat maxNat r3 with
        | none => none
        | some (h, r4) =>
          match readLit (asciiList [']', 'F', 'C', '[']) r4 with
          | none => none
          | some r5 =>
            match readNat maxNat r5 with
            | none => none
            | some (n, r6) =>
              match readLit (asciiList [']', ']']) r6 with
              | none => none
              | some r7 => some (w, h, n, r7)

end Sys2Proof.Machine
end

