-- ==== Sys2Proof/Machine/Writer.lean ====
section
/-! DEFINITION. Family 0x6, the writer: `SER.META`, `SER.INTRA`, `SER.FRAME`, `SER.VECS` (spec/45_bitstream.md). -/

namespace Sys2Proof.Machine

/-- The pointer test of every stream command (R222): `RPTR ≤ SLEN ≤ STRM_CAP`. -/
def State.pointerFault (s : State) : Option EngineFault :=
  if u32 s.rPtr ≤ u32 s.sLen ∧ u32 s.sLen ≤ Config.strmCap then none else some ⟨.illegalConfig, 2⟩

/-- `Append(t)` (R233): the whole record or nothing. -/
def State.append (s : State) (t : List Byte) : Except EngineFault State :=
  if Config.strmCap < u32 s.sLen + t.length then .error ⟨.streamOverflow, saturated t.length⟩
  else .ok { s.writeBytes (strmBase + u32 s.sLen) t with sLen := BitVec.ofNat 32 (u32 s.sLen + t.length) }

/-- The metadata record (R224, R236). -/
def metaRecord (w h fc : Nat) : List Byte :=
  asciiList ['M', 'E', 'T', 'A', '[', 'D', '['] ++ decNat w ++ [ascii ','] ++ decNat h
    ++ asciiList [']', 'F', 'C', '['] ++ decNat fc ++ asciiList [']', ']']

/-- The intra record of a raster (R227, R237). -/
def intraRecord (pixels : List Word) : List Byte := asciiList ['$', 'S', '$'] ++ encodePixels pixels

/-- The frame record of a raster (R227, R238). -/
def frameRecord (i : Nat) (pixels : List Word) : List Byte :=
  asciiList ['$', 'P'] ++ decNat i ++ [ascii '$'] ++ encodePixels pixels

/-- One group of a vector record (R228, R239). -/
def groupBytes (x y : Nat) (sx sy : Int) : List Byte :=
  [ascii '['] ++ decNat x ++ [ascii ','] ++ decNat y ++ [ascii ';'] ++ decInt sx ++ [ascii ','] ++ decInt sy
    ++ [ascii ']']

/-- What entry `e` adds to a vector record: a group when `STAT.FOUND` is 1, else nothing (R239). -/
def State.entryBytes (s : State) (e : Nat) : List Byte :=
  if (s.vtab e 4).getLsbD 0 then groupBytes (u32 (s.vtab e 5)) (u32 (s.vtab e 6)) (s32 (s.vtab e 7)) (s32 (s.vtab e 8))
  else []

/-- The vector record of the first `n` entries (R228, R239). -/
def State.vecsRecord (s : State) (i n : Nat) : List Byte :=
  asciiList ['$', 'V'] ++ decNat i ++ [ascii '$'] ++ (List.range n).flatMap s.entryBytes

/-- `SER.META` (R236). -/
def execSerMeta (s : State) : Host.Outcome State Fault Refusal :=
  s.runCommand fun p =>
    match s.pointerFault with
    | some f => .error f
    | none =>
      if ¬ s.frameLegal then .error ⟨.illegalConfig, 0⟩
      else s.append (metaRecord s.frameW.toNat s.frameH.toNat (u32 (p.arg 0)))

/-- `SER.INTRA` (R237). -/
def execSerIntra (rs : RasterSel) (d : BitVec 4) (s : State) : Host.Outcome State Fault Refusal :=
  s.runCommand fun p =>
    match s.resolveRaster p.cmd rs d with
    | .error f => .error f
    | .ok v =>
      match s.pointerFault with
      | some f => .error f
      | none => s.append (intraRecord v.pixels)

/-- `SER.FRAME` (R238). -/
def execSerFrame (rs : RasterSel) (d : BitVec 4) (s : State) : Host.Outcome State Fault Refusal :=
  s.runCommand fun p =>
    match s.resolveRaster p.cmd rs d with
    | .error f => .error f
    | .ok v =>
      match s.pointerFault with
      | some f => .error f
      | none => s.append (frameRecord (u32 (p.arg 0)) v.pixels)

/-- `SER.VECS` (R239). -/
def execSerVecs (s : State) : Host.Outcome State Fault Refusal :=
  s.runCommand fun p =>
    match s.pointerFault with
    | some f => .error f
    | none =>
      if Config.vtabN < u32 (p.arg 1) then .error ⟨.tableOverflow, p.arg 1⟩
      else s.append (s.vecsRecord (u32 (p.arg 0)) (u32 (p.arg 1)))

end Sys2Proof.Machine
end

