-- ==== Sys2Proof/Machine/Reader.lean ====
section
/-! DEFINITION. Family 0x6, the reader: `PAR.PEEK`, `PAR.META`, `PAR.INTRA`, `PAR.FRAME`, `PAR.VECS` (spec/45_bitstream.md).
A reader command works on `STRM[RPTR .. SLEN-1]` and bytes at and beyond `SLEN` are never read (R235). -/

namespace Sys2Proof.Machine

/-- The bytes a reader command works on (R235). -/
def State.unread (s : State) : List Byte :=
  (List.range (u32 s.sLen - u32 s.rPtr)).map fun k => s.strmByte (u32 s.rPtr + k)

/-- `raise MalformedStream(RPTR)` (R235). -/
def State.malformed (s : State) : EngineFault := ⟨.malformedStream, s.rPtr⟩

/-- `RPTR` <- the offset of the byte after the record, when `rest` is what is left of the bytes up to `SLEN` (R235). -/
def State.advanceTo (s : State) (rest : List Byte) : State :=
  { s with rPtr := BitVec.ofNat 32 (u32 s.sLen - rest.length) }

/-- The kind and index of the record whose bytes begin `bs` (R243). -/
def peekKind (bs : List Byte) : Option (Nat × Nat) :=
  if bs.isEmpty then some (0, 0)
  else if (readLit (asciiList ['M', 'E', 'T', 'A', '[']) bs).isSome then some (1, 0)
  else if (readLit (asciiList ['$', 'S', '$']) bs).isSome then some (2, 0)
  else
    match readMarker (asciiList ['$', 'P']) bs with
    | some (i, _) => some (3, i)
    | none =>
      match readMarker (asciiList ['$', 'V']) bs with
      | some (i, _) => some (4, i)
      | none => none

/-- `PAR.PEEK` (R243). -/
def execParPeek (s : State) : Host.Outcome State Fault Refusal :=
  s.runCommand fun _ =>
    match s.pointerFault with
    | some f => .error f
    | none =>
      match peekKind s.unread with
      | none => .error s.malformed
      | some (kind, i) => .ok ((s.setResult 0 (BitVec.ofNat 32 kind)).setResult 1 (BitVec.ofNat 32 i))

/-- `PAR.META` (R244). -/
def execParMeta (s : State) : Host.Outcome State Fault Refusal :=
  s.runCommand fun _ =>
    match s.pointerFault with
    | some f => .error f
    | none =>
      match readMeta s.unread with
      | none => .error s.malformed
      | some (w, h, n, rest) =>
        .ok ((((s.setResult 0 (BitVec.ofNat 32 w)).setResult 1 (BitVec.ofNat 32 h)).setResult 2
          (BitVec.ofNat 32 n)).advanceTo rest)

/-- The end of `PAR.INTRA` and `PAR.FRAME` (R245, R246): the word count is compared with the raster's, then the words are
stored in order and `RPTR` moves behind the `?`. -/
def State.storePixels (s : State) (t : RasterTarget) (runs : List (Word × Nat)) (rest : List Byte) :
    Except EngineFault State :=
  if runTotal runs ≠ t.w * t.h then .error ⟨.dimensionMismatch, saturated (runTotal runs)⟩
  else .ok ((s.writeWords t.base (expandRuns runs)).advanceTo rest)

/-- `PAR.INTRA` (R245). -/
def execParIntra (rs : RasterSel) (d : BitVec 4) (s : State) : Host.Outcome State Fault Refusal :=
  s.runCommand fun p =>
    match s.resolveWritable p.cmd rs d with
    | .error f => .error f
    | .ok t =>
      match s.pointerFault with
      | some f => .error f
      | none =>
        match readLit (asciiList ['$', 'S', '$']) s.unread with
        | none => .error s.malformed
        | some body =>
          match readPixels body with
          | none => .error s.malformed
          | some (runs, rest) => s.storePixels t runs rest

/-- `PAR.FRAME` (R246). -/
def execParFrame (rs : RasterSel) (d : BitVec 4) (s : State) : Host.Outcome State Fault Refusal :=
  s.runCommand fun p =>
    match s.resolveWritable p.cmd rs d with
    | .error f => .error f
    | .ok t =>
      match s.pointerFault with
      | some f => .error f
      | none =>
        match readMarker (asciiList ['$', 'P']) s.unread with
        | none => .error s.malformed
        | some (i, body) =>
          match readPixels body with
          | none => .error s.malformed
          | some (runs, rest) =>
            match s.storePixels t runs rest with
            | .error f => .error f
            | .ok u => .ok (u.setResult 0 (BitVec.ofNat 32 i))

/-- Words 0 to 11 of the entry of a parsed group (R247). -/
def groupEntry (g : VecGroup) : List Word :=
  [w32 (g.x + g.sx), w32 (g.y + g.sy), 0, 0, 1, BitVec.ofNat 32 g.x, BitVec.ofNat 32 g.y, w32 g.sx, w32 g.sy, 1, 0, 0]

/-- Store the parsed groups from entry `e` on (R247). -/
def State.storeGroups : (s : State) → (e : Nat) → List VecGroup → State
  | s, _, [] => s
  | s, e, g :: gs => State.storeGroups (s.writeWords (vtabBase + 64 * e) (groupEntry g)) (e + 1) gs

/-- `PAR.VECS` (R247). -/
def execParVecs (s : State) : Host.Outcome State Fault Refusal :=
  s.runCommand fun _ =>
    match s.pointerFault with
    | some f => .error f
    | none =>
      match readMarker (asciiList ['$', 'V']) s.unread with
      | none => .error s.malformed
      | some (i, body) =>
        match readGroups (body.length + 1) body with
        | none => .error s.malformed
        | some (groups, rest) =>
          if Config.vtabN < groups.length then .error ⟨.tableOverflow, saturated groups.length⟩
          else
            .ok ((((s.storeGroups 0 groups).setResult 0 (BitVec.ofNat 32 i)).setResult 1
              (BitVec.ofNat 32 groups.length)).advanceTo rest)

end Sys2Proof.Machine
end

