-- ==== Sys2Proof/Machine/Sobel.lean ====
section
/-! DEFINITION. Family 0x3: the Sobel edge detector (spec/42_sobel.md). -/

namespace Sys2Proof.Machine

/-- A coordinate clamped to `0..n-1` (R142). -/
def clampCoord (c : Int) (n : Nat) : Nat := (min (max c 0) ((n : Int) - 1)).toNat

/-- `S(x', y')` (R140, R142): the luma at the clamped position. -/
def sobelSample (v : RasterView) (x y : Int) : Int := pixLuma (v.at (clampCoord x v.w) (clampCoord y v.h))

/-- `Gx(x, y)` (R143). -/
def sobelGx (v : RasterView) (x y : Int) : Int :=
  (sobelSample v (x + 1) (y - 1) + 2 * sobelSample v (x + 1) y + sobelSample v (x + 1) (y + 1))
    - (sobelSample v (x - 1) (y - 1) + 2 * sobelSample v (x - 1) y + sobelSample v (x - 1) (y + 1))

/-- `Gy(x, y)` (R143). -/
def sobelGy (v : RasterView) (x y : Int) : Int :=
  (sobelSample v (x - 1) (y + 1) + 2 * sobelSample v x (y + 1) + sobelSample v (x + 1) (y + 1))
    - (sobelSample v (x - 1) (y - 1) + 2 * sobelSample v x (y - 1) + sobelSample v (x + 1) (y - 1))

/-- `Mag(x, y)` (R144). -/
def sobelMag (v : RasterView) (x y : Nat) : Nat := (sobelGx v x y).natAbs + (sobelGy v x y).natAbs

/-- The map of all magnitudes in raster order (R146). -/
def sobelMap (v : RasterView) : List Word :=
  (List.range (v.w * v.h)).map fun k => BitVec.ofNat 32 (sobelMag v (k % v.w) (k / v.w))

/-- `SOB.PIX` (R145). -/
def execSobPix (rs : RasterSel) (d : BitVec 4) (s : State) : Host.Outcome State Fault Refusal :=
  s.runCommand fun p =>
    match s.resolveRaster p.cmd rs d with
    | .error f => .error f
    | .ok v =>
      if v.w ≤ u32 (p.arg 0) ∨ v.h ≤ u32 (p.arg 1) then .error (outOfBoundsAt (u32 (p.arg 0)) (u32 (p.arg 1)))
      else .ok (s.setResult 0 (BitVec.ofNat 32 (sobelMag v (u32 (p.arg 0)) (u32 (p.arg 1)))))

/-- `SOB.MAP` (R146). -/
def execSobMap (rs : RasterSel) (d : BitVec 4) (s : State) : Host.Outcome State Fault Refusal :=
  s.runCommand fun p =>
    match s.resolveRaster p.cmd rs d with
    | .error f => .error f
    | .ok v =>
      .ok { s.writeWords emapBase (sobelMap v) with emapW := BitVec.ofNat 13 v.w, emapH := BitVec.ofNat 13 v.h }

/-- The largest magnitude of the map over the cells that are not ignored, 0 when there is none (R147). -/
def State.peakMagnitude (s : State) (cells : List BlockCell) : Nat :=
  cells.foldl
    (fun m q =>
      if q.ignored then m
      else max m (u32 (s.emap ((u32 s.blkPosY + q.j) * s.emapW.toNat + (u32 s.blkPosX + q.i))))) 0

/-- `SOB.BLKFLAG` (R147). -/
def execSobBlkFlag (s : State) : Host.Outcome State Fault Refusal :=
  s.runCommand fun _ =>
    match sizeFault Config.blockSizes s.blkSize.toNat 0 (s.blkSize.setWidth 32) with
    | some f => .error f
    | none =>
      if s.emapW = 0 ∨ s.emapW ≠ s.frameW ∨ s.emapH ≠ s.frameH then .error ⟨.dimensionMismatch, s.emapDimWord⟩
      else
        match (s.heldBlock s.blkSize.toNat).find?
          (·.outside (u32 s.blkPosX) (u32 s.blkPosY) s.emapW.toNat s.emapH.toNat) with
        | some q => .error (outOfBoundsAt (u32 s.blkPosX + q.i) (u32 s.blkPosY + q.j))
        | none =>
          let peak := s.peakMagnitude (s.heldBlock s.blkSize.toNat)
          .ok { s.setResult 0 (BitVec.ofNat 32 peak) with blkEdge := decide (u32 s.edgeThr < peak) }

end Sys2Proof.Machine
end

