-- ==== Sys2Proof/Machine/Exact.lean ====
section
/-! DEFINITION. Exact arithmetic in the real numbers the transform needs (spec/43_transform.md R161, R162, R181, R291).

`Tower L` holds numbers of the field made from the rationals by the square roots `s 1 = √2`, `s 2 = √(2 + s 1)`, …,
`s L = √(2 + s (L-1))`: level `L + 1` holds pairs `(a, b)` that stand for `a + b · s (L+1)`. As `s L = 2·cos(π/2^(L+1))`,
level `L` holds twice every cosine of the basis of length `n = 2^L`. Signs are decided exactly, so floors and `rnd`
are, with no approximation. DEDUCED from R161, log 11. -/

namespace Sys2Proof.Machine

/-- The numbers of level `L`, with integer coordinates. -/
def Tower : Nat → Type
  | 0 => Int
  | L + 1 => Tower L × Tower L

/-- An integer as a number of level `L`. -/
def Tower.ofInt : (L : Nat) → Int → Tower L
  | 0, a => a
  | L + 1, a => (Tower.ofInt L a, Tower.ofInt L 0)

/-- The sum. -/
def Tower.add : (L : Nat) → Tower L → Tower L → Tower L
  | 0, a, b => Int.add a b
  | L + 1, (a, b), (c, d) => (Tower.add L a c, Tower.add L b d)

/-- An integer times a number. -/
def Tower.smul : (L : Nat) → Int → Tower L → Tower L
  | 0, k, a => Int.mul k a
  | L + 1, k, (a, b) => (Tower.smul L k a, Tower.smul L k b)

/-- `s L` as a number of level `L`: `s 0 = 0`, and `s (L+1)` is the pair `(0, 1)`. -/
def Tower.root : (L : Nat) → Tower L
  | 0 => Tower.ofInt 0 0
  | L + 1 => (Tower.ofInt L 0, Tower.ofInt L 1)

/-- The square of the next root: `s (L+1)² = 2 + s L`. -/
def Tower.rootSq (L : Nat) : Tower L := Tower.add L (Tower.ofInt L 2) (Tower.root L)

/-- The product. -/
def Tower.mul : (L : Nat) → Tower L → Tower L → Tower L
  | 0, a, b => Int.mul a b
  | L + 1, (a, b), (c, d) =>
    (Tower.add L (Tower.mul L a c) (Tower.mul L (Tower.rootSq L) (Tower.mul L b d)),
      Tower.add L (Tower.mul L a d) (Tower.mul L b c))

/-- The difference. -/
def Tower.sub (L : Nat) (a b : Tower L) : Tower L := Tower.add L a (Tower.smul L (-1) b)

/-- The sign of `a + b·r` for `r > 0`, from the signs of `a`, of `b` and of `a² − b²·r²`: equal signs, or one of them
0, settle it; opposite signs leave the sign of `a` times that of `a² − b²·r²`. -/
def signOfSum (signA signB signDiff : Int) : Int :=
  if signA = 0 then signB
  else if signB = 0 then signA
  else if signA = signB then signA
  else signA * signDiff

/-- The sign of a number, −1, 0 or 1, decided exactly. -/
def Tower.sign : (L : Nat) → Tower L → Int
  | 0, a => Int.sign a
  | L + 1, (a, b) =>
    signOfSum (Tower.sign L a) (Tower.sign L b)
      (Tower.sign L (Tower.sub L (Tower.mul L a a) (Tower.mul L (Tower.rootSq L) (Tower.mul L b b))))

/-- A natural number at least the magnitude, since every root is below 2. -/
def Tower.bound : (L : Nat) → Tower L → Nat
  | 0, a => Int.natAbs a
  | L + 1, (a, b) => Tower.bound L a + 2 * Tower.bound L b

/-- Whether the number divided by `den` is at least the integer `k`. -/
def Tower.atLeast (L : Nat) (t : Tower L) (den : Nat) (k : Int) : Bool :=
  decide (0 ≤ Tower.sign L (Tower.sub L t (Tower.ofInt L (den * k))))

/-- The floor of a quotient known to lie in `[lo, lo + 2^bits)`, by halving the range. -/
def Tower.floorFrom (L : Nat) (t : Tower L) (den : Nat) : Nat → Int → Int
  | 0, lo => lo
  | bits + 1, lo =>
    if Tower.atLeast L t den (lo + 2 ^ bits) then Tower.floorFrom L t den bits (lo + 2 ^ bits)
    else Tower.floorFrom L t den bits lo

/-- The floor of `t / den` for `den > 0`: the magnitude of the quotient is below `2^j`. -/
def Tower.floorDiv (L : Nat) (t : Tower L) (den : Nat) : Int :=
  let j := Nat.log2 (Tower.bound L t / den + 1) + 1
  Tower.floorFrom L t den (j + 1) (-(2 ^ j))

/-- `rnd(t / den)` (R15): `floor((2t + den) / (2·den))`. -/
def Tower.rndDiv (L : Nat) (t : Tower L) (den : Nat) : Int :=
  Tower.floorDiv L (Tower.add L (Tower.smul L 2 t) (Tower.ofInt L den)) (2 * den)

/-- The sum of a list of numbers. -/
def Tower.sum (L : Nat) (ts : List (Tower L)) : Tower L := ts.foldr (Tower.add L) (Tower.ofInt L 0)

/-! ### Cosines -/

/-- The alternating sum `w m − w (m−1) + w (m−2) − … ± 1`: what `2·cos((2m+1)φ)` is `2·cos φ` times of, when
`w i = 2·cos(2iφ)`. -/
def Tower.oddFactor (L : Nat) (w : Nat → Tower L) : Nat → Tower L
  | 0 => Tower.ofInt L 1
  | m + 1 => Tower.sub L (w (m + 1)) (Tower.oddFactor L w m)

/-- `2·cos(j·π/2^(L+1))`: for even `j` it is a cosine of the level below, for odd `j` a multiple of the root. -/
def Tower.cosine : (L : Nat) → Nat → Tower L
  | 0, j => if j % 4 = 0 then Tower.ofInt 0 2 else if j % 4 = 2 then Tower.ofInt 0 (-2) else Tower.ofInt 0 0
  | L + 1, j =>
    if j % 2 = 0 then (Tower.cosine L (j / 2), Tower.ofInt L 0)
    else (Tower.ofInt L 0, Tower.oddFactor L (Tower.cosine L) (j / 2))

/-- `2·cos(j·π/2^(L+1))` for any `j`, by the period `2^(L+2)` and the cosine's symmetry. -/
def Tower.twoCos (L j : Nat) : Tower L :=
  let r := j % 2 ^ (L + 2)
  if 2 ^ (L + 1) < r then Tower.cosine L (2 ^ (L + 2) - r) else Tower.cosine L r

/-- `2·√n·T_n(k, x)` for `n = 2^L` (R161): 2 for `k = 0`, else `√2` times `2·cos((2x+1)kπ/2n)`, where
`√2 = 2·cos(π/4)`. -/
def Tower.basis (L k x : Nat) : Tower L :=
  if k = 0 then Tower.ofInt L 2
  else Tower.mul L (Tower.twoCos L (2 ^ (L - 1))) (Tower.twoCos L ((2 * x + 1) * k))

end Sys2Proof.Machine
end

