-- ==== Sys2Proof/Machine/Transform.lean ====
section
/-! DEFINITION. Family 0x4: the 2-D DCT-II / IDCT-II block transform (spec/43_transform.md). -/

namespace Sys2Proof.Machine

/-- `4n·DCT_n(f)(u, v)` for `n = 2^L` (R162): the exact double sum, taken row by row. -/
def dctSum (L : Nat) (f : Nat → Nat → Int) (u v : Nat) : Tower L :=
  Tower.sum L ((List.range (2 ^ L)).map fun y =>
    Tower.mul L (Tower.basis L v y)
      (Tower.sum L ((List.range (2 ^ L)).map fun x => Tower.smul L (f x y) (Tower.basis L u x))))

/-- `4n·IDCT_n(F)(x, y)` for `n = 2^L` (R167): the exact double sum, taken row by row. -/
def idctSum (L : Nat) (F : Nat → Nat → Int) (x y : Nat) : Tower L :=
  Tower.sum L ((List.range (2 ^ L)).map fun v =>
    Tower.mul L (Tower.basis L v y)
      (Tower.sum L ((List.range (2 ^ L)).map fun u => Tower.smul L (F u v) (Tower.basis L u x))))

/-- `rnd(DCT_n(f/scale)(u, v))` (R162, R166): the plane `f` holds `scale` times the samples. -/
def dctCoef (L : Nat) (scale : Nat) (f : Nat → Nat → Int) (u v : Nat) : Int :=
  Tower.rndDiv L (dctSum L f u v) (scale * (4 * 2 ^ L))

/-- `rnd(IDCT_n(F)(x, y))` (R167, R168). -/
def idctSample (L : Nat) (F : Nat → Nat → Int) (x y : Nat) : Int :=
  Tower.rndDiv L (idctSum L F x y) (4 * 2 ^ L)

/-- The level `L` of a plane of side `n = 2^L` (R160). -/
def planeLevel (n : Nat) : Nat := Nat.log2 n

/-- A plane of signed words in memory as a list in index order (R43, R44). -/
def State.plane (s : State) (base count : Nat) : List Int :=
  (List.range count).map fun k => s32 (s.wordAt (base + 4 * k))

/-- Element `(x, y)` of a plane of side `n`: index `y·n + x` (R161). -/
def planeAt (plane : List Int) (n x y : Nat) : Int := plane.getD (y * n + x) 0

/-- Four times `Sub(c)(i, j) − 128` (R164, R165) for a full-resolution chroma plane of side `m`: an integer. -/
def centredSub4 (plane : List Int) (m i j : Nat) : Int :=
  planeAt plane m (2 * i) (2 * j) + planeAt plane m (2 * i + 1) (2 * j) + planeAt plane m (2 * i) (2 * j + 1)
    + planeAt plane m (2 * i + 1) (2 * j + 1) - 4 * Config.chromaBias

/-- The words of an `n` by `n` plane in index order, from its elements by column and row. -/
def planeWords (n : Nat) (element : Nat → Nat → Int) : List Word :=
  (List.range (n * n)).map fun k => w32 (element (k % n) (k / n))

/-- The range test of R163 over planes (number, values) in the order given, each by rising index. -/
def rangeFault (planes : List (Nat × List Int)) : Option EngineFault :=
  planes.findSome? fun p =>
    (p.2.findIdx? fun z => decide (Config.planeLimit < z.natAbs)).map fun k =>
      ⟨.operandRange, BitVec.ofNat 2 p.1 ++ 0#14 ++ BitVec.ofNat 16 k⟩

/-- `DCT.FWD` (R170). -/
def execDctFwd (s : State) : Host.Outcome State Fault Refusal :=
  s.runCommand fun _ =>
    match sizeFault Config.xformSizes s.splSize.toNat 0 (s.splSize.setWidth 32) with
    | some f => .error f
    | none =>
      let m := s.splSize.toNat
      let h := m / 2
      let luma := s.plane splYBase (m * m)
      let cb := s.plane splCbBase (m * m)
      let cr := s.plane splCrBase (m * m)
      match rangeFault [(0, luma), (1, cb), (2, cr)] with
      | some f => .error f
      | none =>
        let t := ((s.writeWords coefYBase (planeWords m (dctCoef (planeLevel m) 1 (planeAt luma m)))).writeWords
          coefCbBase (planeWords h (dctCoef (planeLevel h) 4 (centredSub4 cb m)))).writeWords
          coefCrBase (planeWords h (dctCoef (planeLevel h) 4 (centredSub4 cr m)))
        .ok { t with coefSize := s.splSize }

/-- `DCT.INV` (R175). -/
def execDctInv (s : State) : Host.Outcome State Fault Refusal :=
  s.runCommand fun _ =>
    match sizeFault Config.xformSizes s.coefSize.toNat 0 (s.coefSize.setWidth 32) with
    | some f => .error f
    | none =>
      let m := s.coefSize.toNat
      let h := m / 2
      let luma := s.plane coefYBase (m * m)
      let cb := s.plane coefCbBase (h * h)
      let cr := s.plane coefCrBase (h * h)
      match rangeFault [(0, luma), (1, cb), (2, cr)] with
      | some f => .error f
      | none =>
        let chroma := fun (plane : List Int) (x y : Nat) =>
          idctSample (planeLevel h) (planeAt plane h) (x / 2) (y / 2) + Config.chromaBias
        let t := ((s.writeWords splYBase (planeWords m (idctSample (planeLevel m) (planeAt luma m)))).writeWords
          splCbBase (planeWords m (chroma cb))).writeWords
          splCrBase (planeWords m (chroma cr))
        .ok { t with splSize := s.coefSize }

end Sys2Proof.Machine
end

