-- ==== Sys2Proof/Machine/Dispatch.lean ====
section
/-! DEFINITION. What each command does at its completion: one arm per constructor of Instr (spec/30_encoding.md R86). -/

namespace Sys2Proof.Machine

/-- The completion of a command (R52). -/
def exec (i : Instr) (s : State) : Host.Outcome State Fault Refusal :=
  match i with
  | .rasGet rs d => Sys2Proof.Machine.execRasGet rs d s
  | .rasSet rs d => Sys2Proof.Machine.execRasSet rs d s
  | .blkLd rs d => Sys2Proof.Machine.execBlkLd rs d s
  | .blkSt rs d => Sys2Proof.Machine.execBlkSt rs d s
  | .refPush => Sys2Proof.Machine.execRefPush s
  | .refReset => Sys2Proof.Machine.execRefReset s
  | .colRgb2Ycc => Sys2Proof.Machine.execColRgb2Ycc s
  | .colYcc2Rgb => Sys2Proof.Machine.execColYcc2Rgb s
  | .colGray => Sys2Proof.Machine.execColGray s
  | .colBlk2Ycc => Sys2Proof.Machine.execColBlk2Ycc s
  | .colBlk2Rgb => Sys2Proof.Machine.execColBlk2Rgb s
  | .sobPix rs d => Sys2Proof.Machine.execSobPix rs d s
  | .sobMap rs d => Sys2Proof.Machine.execSobMap rs d s
  | .sobBlkFlag => Sys2Proof.Machine.execSobBlkFlag s
  | .dctFwd => Sys2Proof.Machine.execDctFwd s
  | .dctInv => Sys2Proof.Machine.execDctInv s
  | .motSearch rs d => Sys2Proof.Machine.execMotSearch rs d s
  | .motBatch rs d => Sys2Proof.Machine.execMotBatch rs d s
  | .serMeta => Sys2Proof.Machine.execSerMeta s
  | .serIntra rs d => Sys2Proof.Machine.execSerIntra rs d s
  | .serFrame rs d => Sys2Proof.Machine.execSerFrame rs d s
  | .serVecs => Sys2Proof.Machine.execSerVecs s
  | .parPeek => Sys2Proof.Machine.execParPeek s
  | .parMeta => Sys2Proof.Machine.execParMeta s
  | .parIntra rs d => Sys2Proof.Machine.execParIntra rs d s
  | .parFrame rs d => Sys2Proof.Machine.execParFrame rs d s
  | .parVecs => Sys2Proof.Machine.execParVecs s

end Sys2Proof.Machine
end

