-- ==== Sys2Proof/Machine/Completion.lean ====
section
/-! DEFINITION. The engine's step and the turn of the agents: fetching the command in flight, its completion, and the
next move of the agenda (spec/10_state.md R49, R52, spec/20_memory.md R70, spec/70_reset_and_hazards.md R350). -/

namespace Sys2Proof.Machine

/-- The engine's fault for a word that is no command (R82 (1) to (3), R87): the information word is the command word. -/
def decodeFault (e : DecodeError) (cmd : Word) : EngineFault :=
  match e with
  | .illegalCommand => ⟨.illegalCommand, cmd⟩
  | .illegalOperand => ⟨.illegalOperand, cmd⟩

/-- The command word in flight (R49): what the engine fetches, there being no program counter (R23). -/
def State.fetch (s : State) : Option Word := s.pend.map (·.cmd)

/-- The engine's move (R52): the completion of the command in flight. With none in flight it is not enabled, and nothing
changes (log 1). -/
def State.completion (s : State) : Host.Outcome State Fault Refusal :=
  match s.fetch with
  | none => .next s
  | some w =>
    match decode w with
    | .ok i => exec i s
    | .error e => .next (s.takeFault (decodeFault e w))

/-- One move of the agent that an event names, in a state whose agenda holds the moves after it (R350). -/
def State.move (s : State) : Event → Host.Outcome State Fault Refusal
  | .host a => s.hostAccess a
  | .completion => s.completion
  | .hardReset => .next s.hardReset

/-- The next atomic step of the execution (R70): the first move of the agenda. When no move is left the engine completes the
command in flight, since completion is always taken in the end (R352), and an idle engine stays as it is (R332). Log 1. -/
def State.turn (s : State) : Host.Outcome State Fault Refusal :=
  match s.agenda with
  | [] => s.completion
  | e :: rest => State.move { s with agenda := rest } e

/-- The state with a command word accepted as by a write to `CMD` of an idle engine (R52) and no host move before its
completion: what places a command where the next step fetches it. -/
def State.latch (s : State) (w : Word) : State :=
  { s with pend := some ⟨w, s.args⟩, cmd := w, statusDone := false, agenda := [] }

end Sys2Proof.Machine
end

