-- ==== Sys2Proof/Machine/Step.lean ====
section
/-! DEFINITION. One step of the machine, and how a command is placed where the step fetches it. -/

namespace Sys2Proof.Machine

/-- One atomic step: a host access, the engine's completion, or hardware reset (R70, R350). -/
def step (s : State) : Host.Outcome State Fault Refusal := s.turn

/-- The state in which the next step fetches and runs exactly the command of the `nbits` low bits of `w`: the word is latched
with the argument registers as an accepted write to `CMD` latches it (R49, R52), and no host move comes before the
completion. Log 2. -/
def State.withFetchWord (s : State) (nbits w : Nat) : State :=
  s.latch (BitVec.ofNat 32 (w % 2 ^ nbits))

end Sys2Proof.Machine
end

