-- ==== Sys2Proof/Machine/Program.lean ====
section
/-! DEFINITION. The host's programs (spec/30_encoding.md R90 to R92): assembler text, host transactions, pseudo-instructions, and
the executions of a program, which interleave its host steps with the engine's completions. The machine of `step` does not use
them: an execution is a run of that machine on the events it yields. Log 17. -/

namespace Sys2Proof.Machine

/-- The mnemonic of a command (R84). -/
def mnemonic : Instr → String
  | .rasGet _ _ => "RAS.GET"
  | .rasSet _ _ => "RAS.SET"
  | .blkLd _ _ => "BLK.LD"
  | .blkSt _ _ => "BLK.ST"
  | .refPush => "REF.PUSH"
  | .refReset => "REF.RESET"
  | .colRgb2Ycc => "COL.RGB2YCC"
  | .colYcc2Rgb => "COL.YCC2RGB"
  | .colGray => "COL.GRAY"
  | .colBlk2Ycc => "COL.BLK2YCC"
  | .colBlk2Rgb => "COL.BLK2RGB"
  | .sobPix _ _ => "SOB.PIX"
  | .sobMap _ _ => "SOB.MAP"
  | .sobBlkFlag => "SOB.BLKFLAG"
  | .dctFwd => "DCT.FWD"
  | .dctInv => "DCT.INV"
  | .motSearch _ _ => "MOT.SEARCH"
  | .motBatch _ _ => "MOT.BATCH"
  | .serMeta => "SER.META"
  | .serIntra _ _ => "SER.INTRA"
  | .serFrame _ _ => "SER.FRAME"
  | .serVecs => "SER.VECS"
  | .parPeek => "PAR.PEEK"
  | .parMeta => "PAR.META"
  | .parIntra _ _ => "PAR.INTRA"
  | .parFrame _ _ => "PAR.FRAME"
  | .parVecs => "PAR.VECS"

/-! ### Lines -/

/-- The operand names of the assembler (R84, column "in"). -/
inductive Operand where
  | x | y | v | s | pix | yy | cb | cr | n | fc | i
deriving DecidableEq, Repr

/-- The named operands of a command in the order of R84's column "in": the first stands in `A0`. -/
def operandsIn : Instr → List Operand
  | .rasGet _ _ => [.x, .y]
  | .rasSet _ _ => [.x, .y, .v]
  | .blkLd _ _ => [.x, .y, .s]
  | .blkSt _ _ => []
  | .refPush => []
  | .refReset => []
  | .colRgb2Ycc => [.pix]
  | .colYcc2Rgb => [.yy, .cb, .cr]
  | .colGray => [.pix]
  | .colBlk2Ycc => []
  | .colBlk2Rgb => []
  | .sobPix _ _ => [.x, .y]
  | .sobMap _ _ => []
  | .sobBlkFlag => []
  | .dctFwd => []
  | .dctInv => []
  | .motSearch _ _ => []
  | .motBatch _ _ => [.n]
  | .serMeta => [.fc]
  | .serIntra _ _ => []
  | .serFrame _ _ => [.i]
  | .serVecs => [.i, .n]
  | .parPeek => []
  | .parMeta => []
  | .parIntra _ _ => []
  | .parFrame _ _ => []
  | .parVecs => []

/-- A value that the host writes, as a function of the words that `RD` and `RDM` lines have returned, newest first: a literal, or
what host software makes of values it has read (R91 "may name the value read", R92). -/
abbrev HostValue := List Word → Word

/-- A literal value. -/
def literal (v : Word) : HostValue := fun _ => v

/-- A line of R91. The body of a loop gets the position of the block that its pass has loaded. -/
inductive Line where
  /-- `WR reg, v`. -/
  | wr (g : Reg) (v : HostValue)
  /-- `RD reg`. -/
  | rd (g : Reg)
  /-- `WRM addr, v`. -/
  | wrm (address : Nat) (v : HostValue)
  /-- `RDM addr`. -/
  | rdm (address : Nat)
  /-- `MNEMONIC [rs[,d]]`. -/
  | command (i : Instr)
  /-- `WAIT`. -/
  | wait
  /-- `DO MNEMONIC [rs[,d]] [name=v ...]`. -/
  | doCommand (i : Instr) (operands : List (Operand × HostValue))
  /-- `CLRF`. -/
  | clrf
  /-- `PARTITION rs, s { body }`. -/
  | partition (rs : RasterSel) (d : BitVec 4) (s : Nat) (body : (bx by' : Nat) → List Line)
  /-- `SPLIT rs, t { body }`. -/
  | split (rs : RasterSel) (d : BitVec 4) (t : Nat) (body : (x y : Nat) → List Line)

/-- The host access of a line that is one: `CLRF` and a command are writes, a turn of `WAIT` is a read of `STATUS` (R91). -/
def Line.access (reads : List Word) : Line → Option HostAccess
  | .wr g v => some (.write g.offset 4 (v reads))
  | .rd g => some (.read g.offset 4)
  | .wrm a v => some (.write a 4 (v reads))
  | .rdm a => some (.read a 4)
  | .command i => some (.write Reg.cmd.offset 4 (encode i))
  | .wait => some (.read Reg.status.offset 4)
  | .clrf => some (.write Reg.status.offset 4 0x0000000E#32)
  | .doCommand _ _ => none
  | .partition _ _ _ _ => none
  | .split _ _ _ _ => none

/-- The line names a value that the program may use later. -/
def Line.names : Line → Bool
  | .rd _ => true
  | .rdm _ => true
  | .wr _ _ => false
  | .wrm _ _ => false
  | .command _ => false
  | .wait => false
  | .clrf => false
  | .doCommand _ _ => false
  | .partition _ _ _ _ => false
  | .split _ _ _ _ => false

/-- The line is repeated when its read returned `BUSY` = 1 (R91, `WAIT`). -/
def Line.repeats : Line → Bool
  | .wait => true
  | .wr _ _ => false
  | .rd _ => false
  | .wrm _ _ => false
  | .rdm _ => false
  | .command _ => false
  | .clrf => false
  | .doCommand _ _ => false
  | .partition _ _ _ _ => false
  | .split _ _ _ _ => false

/-- The width and height of the raster that a loop walks over, if `rs` and `d` name one (R40). -/
def State.rasterSize (s : State) (rs : RasterSel) (d : BitVec 4) : Option (Nat × Nat) :=
  match rs with
  | .cur => if d = 0 then some (s.frameW.toNat, s.frameH.toNat) else none
  | .aux => if d = 0 then some (s.frameW.toNat, s.frameH.toNat) else none
  | .ref =>
    if d = 0 ∨ s.refs.length < d.toNat then none
    else (s.refs[s.refs.length - d.toNat]?).map fun r => (r.w, r.h)
  | .reserved _ => none

/-- One pass of a loop: `DO BLK.LD rs x= y= s=`, then the body. -/
def loopPass (rs : RasterSel) (d : BitVec 4) (size : Nat) (body : Nat → Nat → List Line) (x y : Nat) : List Line :=
  .doCommand (.blkLd rs d)
    [(.x, literal (BitVec.ofNat 32 x)), (.y, literal (BitVec.ofNat 32 y)), (.s, literal (BitVec.ofNat 32 size))]
    :: body x y

/-- The multiples of `s` below `n`, rising. -/
def multiplesBelow (s n : Nat) : List Nat := (List.range ((n + s - 1) / s)).map (· * s)

/-- The tiles of `PARTITION` in the order of its loops: rows outside, columns inside (R91). -/
def partitionTiles (w h s : Nat) : List (Nat × Nat) :=
  (multiplesBelow s h).flatMap fun by' => (multiplesBelow s w).map fun bx => (bx, by')

/-- The sub-blocks of `SPLIT` in the order of its loops, those whose origin lies outside the raster left out (R91). -/
def splitTiles (w h x y size t : Nat) : List (Nat × Nat) :=
  (List.range (size / t)).flatMap fun j =>
    ((List.range (size / t)).map fun i => (x + i * t, y + j * t)).filter fun q => decide (q.1 < w) && decide (q.2 < h)

/-- The lines that a `DO` stands for, if each operand it names is one of the command's (R84, R91). -/
def doLines (i : Instr) (operands : List (Operand × HostValue)) : Option (List Line) :=
  if operands.all fun o => decide (o.1 ∈ operandsIn i) then
    some (((operandsIn i).zip (List.finRange 8)).flatMap
        (fun q => (operands.filter fun o => decide (o.1 = q.1)).map fun o => .wr (.a q.2) o.2)
      ++ [.command i, .wait])
  else none

/-- The lines that a compound line stands for when the host reaches it: the raster's dimensions, and for `SPLIT` the position and
size of the block in `BLK`, are those of that moment (R91). None when the line has no meaning: a raster that is not there, a step
of 0, a `SPLIT` with `S/t` not 2 or 4, an operand that the command does not have. That the loops keep the dimensions of that moment
is a DESIGN CHOICE, log 17. -/
def Line.unfold (s : State) : Line → Option (List Line)
  | .doCommand i operands => doLines i operands
  | .partition rs d size body =>
    if size = 0 then none
    else (s.rasterSize rs d).map fun r =>
      (partitionTiles r.1 r.2 size).flatMap fun q => loopPass rs d size body q.1 q.2
  | .split rs d t body =>
    if t ≠ 0 ∧ (s.blkSize.toNat = 2 * t ∨ s.blkSize.toNat = 4 * t) then
      (s.rasterSize rs d).map fun r =>
        (splitTiles r.1 r.2 (u32 s.blkPosX) (u32 s.blkPosY) s.blkSize.toNat t).flatMap fun q =>
          loopPass rs d t body q.1 q.2
    else none
  | .wr _ _ => none
  | .rd _ => none
  | .wrm _ _ => none
  | .rdm _ => none
  | .command _ => none
  | .wait => none
  | .clrf => none

/-! ### Executions -/

/-- A program under way (R92): the lines still to come, the words read, newest first, and the machine. -/
structure ProgramRun where
  todo : List Line
  reads : List Word
  machine : State

/-- Whose turn it is. The order of the turns is free but for what they require: R70, R92, R352. -/
inductive Turn where
  /-- The host: one access, or the unfolding of a compound line, which is no step of the machine. -/
  | host
  /-- The engine: the completion of the command in flight. -/
  | engine
deriving DecidableEq, Repr

/-- The next state of a machine on which one event is played; none where the bus refuses it, which no program of the spec does
(R67, U3). -/
def State.play (s : State) (e : Event) : Option State :=
  match step { s with agenda := [e] } with
  | .next t => some t
  | .fault _ => none
  | .refused _ => none

/-- The run after the access of its first line: a `WAIT` that read `BUSY` = 1 stays, and a named word is kept. -/
def ProgramRun.accessed (p : ProgramRun) (l : Line) (rest : List Line) (t : State) : ProgramRun :=
  let word := t.lastRead.getD 0
  ⟨if l.repeats && word.getLsbD 0 then l :: rest else rest, if l.names then word :: p.reads else p.reads, t⟩

/-- One turn of a program under way, with the events it plays. -/
def ProgramRun.turn (p : ProgramRun) : Turn → Option (ProgramRun × List Event)
  | .host =>
    match p.todo with
    | [] => none
    | l :: rest =>
      match l.access p.reads with
      | some a => (p.machine.play (.host a)).map fun t => (p.accessed l rest t, [.host a])
      | none => (l.unfold p.machine).map fun ls => ({ p with todo := ls ++ rest }, [])
  | .engine =>
    if p.machine.busy then (p.machine.play .completion).map fun t => ({ p with machine := t }, [.completion]) else none

/-- A sequence of turns, with the events they play. -/
def ProgramRun.run : (turns : List Turn) → ProgramRun → Option (ProgramRun × List Event)
  | [], p => some (p, [])
  | u :: us, p =>
    match p.turn u with
    | none => none
    | some (q, es) => (ProgramRun.run us q).map fun r => (r.1, es ++ r.2)

/-- The events of a program's execution from a state: the turns are an execution when they leave no line (R92). -/
def programEvents (program : List Line) (s : State) (turns : List Turn) : Option (List Event) :=
  match ProgramRun.run turns ⟨program, [], s⟩ with
  | some (p, es) => if p.todo.isEmpty then some es else none
  | none => none

end Sys2Proof.Machine
end

