-- ==== Sys2Proof/Safety.lean ====
section
/-! DEFINITION. What counts as a safe run: when a step may stop, and the invariants that every step keeps, in the terms the
statements use. -/

namespace Sys2Proof.Machine

/-- The bus accepts a host access (R63, R67, R71): one aligned word of a region, and of the registers only while a
command is in flight. -/
def State.accepts (s : State) (a size : Nat) : Bool :=
  decide (size = 4) && decide (a % 4 = 0)
    && match regionAt a with
      | none => false
      | some g => decide (g = .registers) || !s.busy

/-- The address and size of a host access. -/
def HostAccess.target : HostAccess → Nat × Nat
  | .read a size => (a, size)
  | .write a size _ => (a, size)

/-- The next move of the agenda is a host access that the bus refuses. -/
def State.nextRefused (s : State) : Bool :=
  match s.agenda with
  | .host a :: _ => !s.accepts a.target.1 a.target.2
  | _ => false

/-- The next move is the engine's: the agenda is empty or begins with a completion. -/
def State.engineNext (s : State) : Bool :=
  match s.agenda with
  | [] => true
  | .completion :: _ => true
  | _ => false

/-- The state after the first move of the agenda is taken from it. -/
def State.popped (s : State) : State := { s with agenda := s.agenda.tail }

/-! ### Invariants -/

/-- A raster of the window is well formed (R41): legal dimensions and `w·h` pixels. -/
abbrev Raster.wf (r : Raster) : Prop :=
  (1 ≤ r.w ∧ r.w ≤ Config.maxDim) ∧ (1 ≤ r.h ∧ r.h ≤ Config.maxDim) ∧ r.pix.length = r.w * r.h

/-- The window's invariant (R41, R112): at most 15 rasters, each well formed. -/
abbrev State.WindowInv (s : State) : Prop :=
  s.refs.length ≤ Config.refCapMax ∧ ∀ r ∈ s.refs, r.wf

/-- The address lies in a buffer or raster of R60. -/
def inBuffer (a : Nat) : Bool :=
  match regionAt a with
  | none => false
  | some g => decide (g ≠ .registers)

/-- A listed byte of `BLK.IGN` holds an ignore flag in bit 0 of its word and 0 elsewhere (R42). -/
def ignoreByteLegal (c : Host.Cell) : Bool :=
  decide (regionAt c.1 ≠ some .blkIgn) || decide (c.2 = 0#8) || (decide (c.1 % 4 = 0) && decide (c.2 = 1#8))

/-- `EMAPDIM` is 0 or two legal dimensions (R36). -/
abbrev State.emapLegal (s : State) : Prop :=
  (s.emapW = 0#13 ∧ s.emapH = 0#13) ∨
    ((1 ≤ s.emapW.toNat ∧ s.emapW.toNat ≤ Config.maxDim) ∧ (1 ≤ s.emapH.toNat ∧ s.emapH.toNat ≤ Config.maxDim))

/-- The buffers' invariant: the memory keeps its canonical form, lists only addresses of buffers and rasters (R60), keeps
the 31 high bits of every ignore word 0 (R42), and `EMAPDIM` is legal (R36). -/
abbrev State.BufferInv (s : State) : Prop :=
  s.mem.wf ∧ (∀ c ∈ s.mem, inBuffer c.1 = true ∧ ignoreByteLegal c = true) ∧ s.emapLegal

/-- The life cycle's invariant (R26, R49, R52, R301, R307): while a command is in flight `CMD` reads its word, and `DONE` and
`FAULT` are 0; `DONE` and `FAULT` are never both 1; `FAULTCODE` is one of the codes 0 to 12. -/
abbrev State.LifeInv (s : State) : Prop :=
  (∀ p ∈ s.pend, s.cmd = p.cmd ∧ s.statusDone = false ∧ s.statusFault = false)
    ∧ ¬ (s.statusDone = true ∧ s.statusFault = true)
    ∧ s.faultCode.toNat ≤ 12

/-- What no command changes (R20, R48, R66): the control bits, `CMDERR`, `CMD`, the configuration registers that no command
writes, the argument registers, and the model's own fields. -/
abbrev State.SameSetup (s t : State) : Prop :=
  t.ieDone = s.ieDone ∧ t.ieFault = s.ieFault ∧ t.ieCmdErr = s.ieCmdErr ∧ t.statusCmdErr = s.statusCmdErr
    ∧ t.cmd = s.cmd ∧ t.frameW = s.frameW ∧ t.frameH = s.frameH ∧ t.refCap = s.refCap ∧ t.madTol = s.madTol
    ∧ t.edgeThr = s.edgeThr ∧ t.args = s.args ∧ t.epoch = s.epoch ∧ t.agenda = s.agenda ∧ t.lastRead = s.lastRead

/-! ### What a command leaves in memory -/

/-- The `n` words from address `base` up read `f 0`, `f 1`, and so on. -/
abbrev State.HoldsWords (t : State) (base n : Nat) (f : Nat → Word) : Prop := ∀ k < n, t.wordAt (base + 4 * k) = f k

/-- Address `a` is one of the `len` addresses from `base` up. -/
abbrev inRun (base len a : Nat) : Prop := base ≤ a ∧ a < base + len

/-- Every byte outside the addresses that `stored` names reads in `t` as it did in `s`. -/
abbrev State.KeepsBytes (s t : State) (stored : Nat → Prop) : Prop := ∀ a, ¬ stored a → t.byteAt a = s.byteAt a

/-- `t` is `s` with the command in flight ended and the byte string `bytes` appended to the stream (R233): `SLEN`, the bytes,
and every other byte of memory. -/
abbrev State.Appended (s t : State) (bytes : List Byte) : Prop :=
  t = { s with mem := t.mem, sLen := BitVec.ofNat 32 (u32 s.sLen + bytes.length), statusDone := true, pend := none }
    ∧ (∀ k (h : k < bytes.length), t.byteAt (strmBase + u32 s.sLen + k) = bytes[k])
    ∧ s.KeepsBytes t (inRun (strmBase + u32 s.sLen) bytes.length)

/-! ### The transform over the real numbers (R161, R162, R167) -/

/-- The basis value `T_n(k, x)` (R161). -/
noncomputable def basisR (n k x : Nat) : ℝ :=
  if k = 0 then 1 / √n else √(2 / n) * Real.cos ((2 * x + 1) * k * Real.pi / (2 * n))

/-- `DCT_n(f)(u, v)` (R162). -/
noncomputable def dctReal (n : Nat) (f : Nat → Nat → ℝ) (u v : Nat) : ℝ :=
  ∑ x ∈ Finset.range n, ∑ y ∈ Finset.range n, basisR n u x * basisR n v y * f x y

/-- `IDCT_n(F)(x, y)` (R167). -/
noncomputable def idctReal (n : Nat) (F : Nat → Nat → ℝ) (x y : Nat) : ℝ :=
  ∑ u ∈ Finset.range n, ∑ v ∈ Finset.range n, basisR n u x * basisR n v y * F u v

/-- `rnd(q)` for a real `q` (R15): the floor of `q + 1/2`. -/
noncomputable def rndReal (q : ℝ) : Int := ⌊q + 1 / 2⌋

/-! ### The texts that the reader accepts (R223, R226), written from the grammar and not from the reader -/

/-- The characters of a digit string. -/
def digitText (ds : List (Fin 10)) : List Byte := ds.map fun d => digitByte d.val

/-- The number that a digit string spells in base ten, leading zeros allowed (R223). -/
def digitsValue (ds : List (Fin 10)) : Nat := ds.foldl (fun n d => 10 * n + d.val) 0

/-- A digit string that the number rule allows for a `<nat>` of value at most `limit` (R223). -/
abbrev natLegal (limit : Nat) (ds : List (Fin 10)) : Prop := ds ≠ [] ∧ digitsValue ds ≤ limit

/-- An `<int>` of the grammar (R223): a sign or none, and the digits. -/
structure IntText where
  negative : Bool
  digits : List (Fin 10)
deriving DecidableEq, Repr

/-- The number that an `<int>` spells. -/
def IntText.value (t : IntText) : Int := if t.negative then -(digitsValue t.digits : Int) else digitsValue t.digits

/-- An `<int>` obeys the number rule (R223): no empty digit string, the value in −2^31..2^31−1. -/
abbrev IntText.legal (t : IntText) : Prop := t.digits ≠ [] ∧ -2147483648 ≤ t.value ∧ t.value ≤ 2147483647

/-- The characters of an `<int>`. -/
def IntText.text (t : IntText) : List Byte := (if t.negative then [ascii '-'] else []) ++ digitText t.digits

/-- The text of one token of a pixel stream (R226): the value, and the digits of the count when there is one. -/
structure TokenText where
  number : IntText
  count : Option (List (Fin 10))
deriving DecidableEq, Repr

/-- A token obeys the number rule (R223): its value does, and its count is at most 2^32−1. -/
def TokenText.legal (t : TokenText) : Prop := t.number.legal ∧ ∀ c ∈ t.count, natLegal 4294967295 c

/-- The characters of a token. -/
def TokenText.text (t : TokenText) : List Byte :=
  t.number.text
    ++ match t.count with
      | none => []
      | some c => ascii '~' :: digitText c

/-- What a token means (R226): a word and how often it stands in the stream. -/
def TokenText.meaning (t : TokenText) : Word × Nat :=
  (w32 t.number.value, match t.count with | none => 1 | some c => digitsValue c + 1)

/-- `pixstream` (R226): tokens separated by `.`, a `.` behind the last one or not, and `?`. -/
def pixelText (finalDot : Bool) : List TokenText → List Byte
  | [] => [ascii '?']
  | [t] => t.text ++ (if finalDot then [ascii '.'] else []) ++ [ascii '?']
  | t :: u :: ts => t.text ++ [ascii '.'] ++ pixelText finalDot (u :: ts)

/-- A metadata record with any spelling of its three numbers (R224). -/
def metaText (w h n : List (Fin 10)) : List Byte :=
  asciiList ['M', 'E', 'T', 'A', '[', 'D', '['] ++ digitText w ++ asciiList [','] ++ digitText h
    ++ asciiList [']', 'F', 'C', '['] ++ digitText n ++ asciiList [']', ']']

/-- A marker with an index, `$P<i>$` or `$V<i>$`, with any spelling of the index (R227, R228). -/
def markerText (letter : Char) (index : List (Fin 10)) : List Byte :=
  asciiList ['$', letter] ++ digitText index ++ asciiList ['$']

/-- The text of one group of a vector record (R228). -/
structure GroupText where
  x : List (Fin 10)
  y : List (Fin 10)
  sx : IntText
  sy : IntText
deriving DecidableEq, Repr

/-- A group that the reader accepts (R223, R247). -/
def GroupText.legal (g : GroupText) : Prop :=
  natLegal 2147483647 g.x ∧ natLegal 2147483647 g.y ∧ g.sx.legal ∧ g.sy.legal

/-- The characters of a group. -/
def GroupText.text (g : GroupText) : List Byte :=
  asciiList ['['] ++ digitText g.x ++ asciiList [','] ++ digitText g.y ++ asciiList [';'] ++ g.sx.text ++ asciiList [',']
    ++ g.sy.text ++ asciiList [']']

/-- A list of groups ends here (R228): at the end of the stream or before a `$`. -/
abbrev endsGroups (rest : List Byte) : Prop := rest = [] ∨ rest.head? = some (ascii '$')

/-! ### The search, written from R193 to R195 and not from the model's loops -/

/-- `r` is the best of `start` and of the valid ones among `probes`, in order: a probe replaces the best so far only if it is
strictly cheaper, so the earliest of the cheapest wins (R192, R194). -/
def IsBest (cells : List BlockCell) (ref : RasterView) (start : Candidate) (probes : List (Int × Int)) (r : Candidate) : Prop :=
  let valid := fun p => validAt cells ref p = true
  (r = start ∧ ∀ p ∈ probes, valid p → start.cost ≤ cost2 cells ref p)
    ∨ ∃ before after, probes = before ++ r.pos :: after ∧ valid r.pos ∧ r.cost = cost2 cells ref r.pos
        ∧ r.cost < start.cost ∧ (∀ p ∈ before, valid p → r.cost < cost2 cells ref p)
        ∧ ∀ p ∈ after, valid p → r.cost ≤ cost2 cells ref p

/-- The coarse rounds of R195 from step `t` and centre `c` end with the centre `last`: four probes at distance `t`, left, right,
up, down (R193); a round without improvement halves the step, another moves the centre; a step of 1 ends them. -/
inductive CoarseRounds (cells : List BlockCell) (ref : RasterView) : (t : Nat) → (c last : Candidate) → Prop where
  | stop (t : Nat) (c : Candidate) : t ≤ 1 → CoarseRounds cells ref t c c
  | halve (t : Nat) (c last : Candidate) : 1 < t →
    IsBest cells ref c [(c.pos.1 - t, c.pos.2), (c.pos.1 + t, c.pos.2), (c.pos.1, c.pos.2 - t), (c.pos.1, c.pos.2 + t)] c →
    CoarseRounds cells ref (t / 2) c last → CoarseRounds cells ref t c last
  | recentre (t : Nat) (c b last : Candidate) : 1 < t → b.pos ≠ c.pos →
    IsBest cells ref c [(c.pos.1 - t, c.pos.2), (c.pos.1 + t, c.pos.2), (c.pos.1, c.pos.2 - t), (c.pos.1, c.pos.2 + t)] b →
    CoarseRounds cells ref t b last → CoarseRounds cells ref t c last

end Sys2Proof.Machine
end

