-- ==== Sys2Proof/Certificates/Slice0/Obligations.lean ====
section
/-! DEFINITION. The statements about the engine, each from the numbered rules of the spec. In every statement about a command,
`s` is the state at completion, `p` the command in flight (R49), and a state written `s with …` is equal to `s` in every field that
is not named: that is the statement's frame. -/

open Sys2Proof Sys2Proof.Machine

/-! ### Command words -/

/-- R84, R88, R90: no operand of a command is lost in its word, for every selector and drawback that has an encoding. -/
def Obligations.DecodeReadsEncodedWord : Prop := ∀ i : Instr, i.wf = true → decode (encode i) = .ok i

/-- R80, R88: a command has one word; no two words decode to one command. -/
def Obligations.EncodeWritesDecodedWord : Prop :=
  ∀ (w : Word) (i : Instr), decode w = .ok i → encode i = w ∧ i.wf = true

/-- R90, 95 V1.1: words written out in the spec. -/
def Obligations.SampleWordsDecode : Prop :=
  decode 0x10230000#32 = .ok (.rasGet .ref 3#4) ∧ decode 0x13100000#32 = .ok (.blkSt .aux 0#4)
    ∧ decode 0x24000000#32 = .ok .colBlk2Rgb ∧ decode 0x32000000#32 = .ok .sobBlkFlag
    ∧ decode 0x40000000#32 = .ok .dctFwd ∧ decode 0x51210000#32 = .ok (.motBatch .ref 1#4)
    ∧ decode 0x63000000#32 = .ok .serVecs ∧ decode 0x6B100000#32 = .ok (.parFrame .aux 0#4)

/-- R87: a word that is no command takes `IllegalCommand`; a known operation code with an illegal `zero`, `rs` or `d` takes
`IllegalOperand`; nothing else changes. The agenda's field is the model's own (log 1). -/
def Obligations.IllegalWordTakesItsFault : Prop :=
  ∀ (s : State) (p : Pend), s.engineNext = true → s.pend = some p →
    let opc := (p.cmd.extractLsb' 24 8).toNat
    let rs := (p.cmd.extractLsb' 20 4).toNat
    let d := (p.cmd.extractLsb' 16 4).toNat
    let plain := [0x14, 0x15, 0x20, 0x21, 0x22, 0x23, 0x24, 0x32, 0x40, 0x41, 0x60, 0x63, 0x68, 0x69, 0x6C]
    let any := [0x10, 0x12, 0x30, 0x31, 0x61, 0x62]
    let writable := [0x11, 0x13, 0x6A, 0x6B]
    let reference := [0x50, 0x51]
    let known := plain ++ any ++ writable ++ reference
    let inFrame := rs ≤ 1 ∧ d = 0
    let inWindow := rs = 2 ∧ 1 ≤ d ∧ d ≤ s.refs.length
    (opc ∉ known →
      step s = .next { s with agenda := s.agenda.tail, faultCode := 1#8, faultInfo := p.cmd, statusFault := true,
                              pend := none })
    ∧ (opc ∈ known →
        (p.cmd.extractLsb' 0 16 ≠ 0 ∨ (opc ∈ plain ∧ (rs ≠ 0 ∨ d ≠ 0)) ∨ (opc ∈ any ∧ ¬ (inFrame ∨ inWindow))
          ∨ (opc ∈ writable ∧ ¬ inFrame) ∨ (opc ∈ reference ∧ ¬ inWindow)) →
        step s = .next { s with agenda := s.agenda.tail, faultCode := 2#8, faultInfo := p.cmd, statusFault := true,
                                pend := none })

/-! ### The step -/

/-- R49, R52: when the engine moves, the step is the meaning of the command that the latched word decodes to. The step takes
the engine's move from the agenda, the model's own field (log 1). -/
def Obligations.EngineStepRunsDecodedCommand : Prop :=
  ∀ (s : State) (p : Pend) (i : Instr), s.engineNext = true → s.pend = some p → decode p.cmd = .ok i →
    step s = exec i { s with agenda := s.agenda.tail }

/-- R332, R350: an idle engine does not move of its own accord. That such a turn is a step that changes nothing but the
agenda is the model's choice (log 1). -/
def Obligations.IdleEngineStaysAsItIs : Prop :=
  ∀ s : State, s.engineNext = true → s.pend = none → step s = .next { s with agenda := s.agenda.tail }

/-! ### The host -/

/-- R20, R22, R24 to R37, R50: a read of a register at its offset returns its word in terms of the fields and changes nothing, at any
time, while a command is in flight too; a read of an offset that holds nothing returns 0. `agenda` and `lastRead` are the model's own
fields (logs 1 and 9). `REFCNT` is stated for a window of at most 15 rasters, which every step keeps (`WindowInvariantKept`). -/
def Obligations.RegisterReadsHaveNoEffect : Prop :=
  ∀ (s : State) (rest : List Event),
    let reads := fun (offset : Nat) (w : Word) =>
      s.agenda = .host (.read offset 4) :: rest → step s = .next { s with agenda := rest, lastRead := some w }
    reads 0x000 0x59415643#32
      ∧ reads 0x004 (BitVec.ofNat 32 (256 * s.ieDone.toNat + 512 * s.ieFault.toNat + 1024 * s.ieCmdErr.toNat))
      ∧ reads 0x008 (BitVec.ofNat 32
          (s.pend.isSome.toNat + 2 * s.statusDone.toNat + 4 * s.statusFault.toNat + 8 * s.statusCmdErr.toNat))
      ∧ reads 0x00C s.cmd ∧ reads 0x010 (BitVec.ofNat 32 s.faultCode.toNat) ∧ reads 0x014 s.faultInfo
      ∧ reads 0x018 (BitVec.ofNat 32 s.frameW.toNat) ∧ reads 0x01C (BitVec.ofNat 32 s.frameH.toNat)
      ∧ reads 0x020 (BitVec.ofNat 32 s.refCap.toNat)
      ∧ (s.refs.length ≤ 15 → reads 0x024 (BitVec.ofNat 32 s.refs.length))
      ∧ reads 0x028 s.madTol ∧ reads 0x02C s.edgeThr ∧ reads 0x030 s.blkPosX ∧ reads 0x034 s.blkPosY
      ∧ reads 0x038 (BitVec.ofNat 32 (s.blkSize.toNat + 256 * s.blkEdge.toNat))
      ∧ reads 0x03C (BitVec.ofNat 32 s.splSize.toNat) ∧ reads 0x040 (BitVec.ofNat 32 s.coefSize.toNat)
      ∧ reads 0x044 (BitVec.ofNat 32 (s.emapW.toNat + 65536 * s.emapH.toNat))
      ∧ reads 0x048 s.sLen ∧ reads 0x04C s.rPtr
      ∧ (∀ k : Fin 8, reads (0x080 + 4 * k.val) s.args[k] ∧ reads (0x0A0 + 4 * k.val) s.results[k])
      ∧ ∀ a : Nat, a % 4 = 0 → (0x050 ≤ a ∧ a < 0x080) ∨ (0x0C0 ≤ a ∧ a < 0x100) → reads a 0#32

/-- R25, R26, R33, R36, R310: the words of the registers made of several fields, and the interrupt line as the level of the
`STATUS` bits under the `CTRL` enables. -/
def Obligations.FlagWordsAndInterruptLevel : Prop :=
  ∀ s : State,
    s.statusWord.toNat = s.busy.toNat + 2 * s.statusDone.toNat + 4 * s.statusFault.toNat + 8 * s.statusCmdErr.toNat
    ∧ s.ctrlWord.toNat = 256 * s.ieDone.toNat + 512 * s.ieFault.toNat + 1024 * s.ieCmdErr.toNat
    ∧ s.blkSzWord.toNat = s.blkSize.toNat + 256 * s.blkEdge.toNat
    ∧ s.emapDimWord.toNat = s.emapW.toNat + 65536 * s.emapH.toNat
    ∧ (s.irq = true ↔ ∃ k < 3, s.statusWord.getLsbD (k + 1) = true ∧ s.ctrlWord.getLsbD (k + 8) = true)

/-- R50, R308: while `CMDERR` is 0, a host access sets it exactly when it is a write to a read-only register, to an offset that
holds nothing, to a configuration register while a command is in flight, or to `CMD` while a command is in flight or `FAULT` is
1; and such a write does nothing else. -/
def Obligations.CommandErrorExactlyOnDroppedWrites : Prop :=
  ∀ (s t : State) (a : HostAccess) (rest : List Event), s.agenda = .host a :: rest → step s = .next t →
    let dropped := ∃ (offset : Nat) (v : Word), a = .write offset 4 v ∧ offset < 0x100
      ∧ (offset ∈ [0x000, 0x010, 0x014, 0x024, 0x044] ∨ 0x0A0 ≤ offset
        ∨ (0x050 ≤ offset ∧ offset < 0x080)
        ∨ (s.busy = true ∧ (offset ∈ [0x018, 0x01C, 0x020] ∨ (0x028 ≤ offset ∧ offset < 0x050)))
        ∨ (offset = 0x00C ∧ (s.busy = true ∨ s.statusFault = true)))
    (dropped → t = { s with agenda := rest, statusCmdErr := true })
    ∧ (s.statusCmdErr = false → t.statusCmdErr = true → dropped)

/-- R29 to R37, R50, R51: with no command in flight a write to a configuration register stores the bits that the register has,
and changes no other register and no buffer. -/
def Obligations.ConfigurationWrites : Prop :=
  ∀ (s : State) (v : Word) (rest : List Event), s.pend = none →
    let writes := fun (offset : Nat) (t : State) =>
      s.agenda = .host (.write offset 4 v) :: rest → step s = .next { t with agenda := rest }
    writes 0x018 { s with frameW := v.setWidth 13 } ∧ writes 0x01C { s with frameH := v.setWidth 13 }
      ∧ writes 0x020 { s with refCap := v.setWidth 4 } ∧ writes 0x028 { s with madTol := v }
      ∧ writes 0x02C { s with edgeThr := v } ∧ writes 0x030 { s with blkPosX := v }
      ∧ writes 0x034 { s with blkPosY := v }
      ∧ writes 0x038 { s with blkSize := v.setWidth 8, blkEdge := v.getLsbD 8 }
      ∧ writes 0x03C { s with splSize := v.setWidth 8 } ∧ writes 0x040 { s with coefSize := v.setWidth 8 }
      ∧ writes 0x048 { s with sLen := v } ∧ writes 0x04C { s with rPtr := v }

/-- R21, R25, R26, R52: writes that are performed at any time: `CTRL` without `SRST`, `STATUS` (which clears the bits written 1), an
argument register; and a write to `CMD` of an engine that is idle and not faulted, which latches the word and the
arguments. -/
def Obligations.ControlWritesAndIssue : Prop :=
  ∀ (s : State) (v : Word) (rest : List Event),
    (v.getLsbD 0 = false → s.agenda = .host (.write 0x004 4 v) :: rest →
      step s = .next { s with agenda := rest, ieDone := v.getLsbD 8, ieFault := v.getLsbD 9, ieCmdErr := v.getLsbD 10 })
    ∧ (s.agenda = .host (.write 0x008 4 v) :: rest →
      step s = .next { s with agenda := rest, statusDone := s.statusDone && !v.getLsbD 1,
                              statusFault := s.statusFault && !v.getLsbD 2,
                              statusCmdErr := s.statusCmdErr && !v.getLsbD 3 })
    ∧ (∀ k : Fin 8, s.agenda = .host (.write (0x080 + 4 * k.val) 4 v) :: rest →
      step s = .next { s with agenda := rest, args := s.args.set k v })
    ∧ (s.pend = none → s.statusFault = false → s.agenda = .host (.write 0x00C 4 v) :: rest →
      step s = .next { s with agenda := rest, pend := some ⟨v, s.args⟩, cmd := v, statusDone := false })

/-- R56: soft reset, with the enables as written in the same word; a command in flight is discarded, memories keep their
contents. -/
def Obligations.SoftReset : Prop :=
  ∀ (s : State) (v : Word) (rest : List Event), v.getLsbD 0 = true → s.agenda = .host (.write 0x004 4 v) :: rest →
    step s = .next
      { s with agenda := rest, ieDone := v.getLsbD 8, ieFault := v.getLsbD 9, ieCmdErr := v.getLsbD 10
               statusDone := false, statusFault := false, statusCmdErr := false, cmd := 0, faultCode := 0, faultInfo := 0
               frameW := 0, frameH := 0, refCap := 5, madTol := 0, edgeThr := 0, blkPosX := 0, blkPosY := 0
               blkSize := 0, blkEdge := false, splSize := 0, coefSize := 0, emapW := 0, emapH := 0, sLen := 0, rPtr := 0
               args := Vector.replicate 8 0, results := Vector.replicate 8 0, refs := [], pend := none }

/-- R55: what every register reads after hardware reset, the empty window and no command in flight: in the state of reset, and
after a reset that the platform applies at any time (the event is the model's, logs 1 and 13). -/
def Obligations.HardwareResetValues : Prop :=
  let asReset := fun (t : State) =>
    (∀ g : Reg, t.readReg g = if g = .id then 0x59415643#32 else if g = .refCap then 5#32 else 0#32)
      ∧ t.refs = [] ∧ t.pend = none
  asReset State.reset
    ∧ ∀ (s : State) (rest : List Event), s.agenda = .hardReset :: rest → ∃ t, step s = .next t ∧ asReset t

/-- R60, R63, R67, R71: which host accesses are refused, and the model's name of each stop. The order in which the conditions
are looked at is the model's (log 4). -/
def Obligations.RefusedAccessesStop : Prop :=
  ∀ (s : State) (a : HostAccess) (rest : List Event), s.agenda = .host a :: rest →
    let address := a.target.1
    let size := a.target.2
    let buffer := (0x10000 ≤ address ∧ address < 0x18000) ∨ (0x20000 ≤ address ∧ address < 0x20C00)
      ∨ (0x30000 ≤ address ∧ address < 0x30600) ∨ (0x40000 ≤ address ∧ address < 0x80000)
      ∨ (0x1000000 ≤ address ∧ address < 0x2000000) ∨ (0x4000000 ≤ address ∧ address < 0x10000000)
    (size ≠ 4 → step s = .refused (.busSize address size))
    ∧ (size = 4 → address % 4 ≠ 0 → step s = .refused (.busMisaligned address))
    ∧ (size = 4 → address % 4 = 0 → 0x100 ≤ address → ¬ buffer → step s = .fault (.unmappedAddress address))
    ∧ (size = 4 → address % 4 = 0 → buffer → s.busy = true → step s = .refused (.busBusy address))

/-- R42, R61, R65: with no command in flight, a word written to a buffer or raster is read back by the next host access (in
`BLK.IGN` only bit 0 of it), and the write changes no other byte and no register. `agenda` and `lastRead` are the
model's own (logs 1 and 9). -/
def Obligations.BufferWriteIsReadBack : Prop :=
  ∀ (s : State) (g : Region) (a : Nat) (v : Word) (rest : List Event), s.pend = none → a % 4 = 0 →
    regionAt a = some g → g ≠ .registers → s.agenda = .host (.write a 4 v) :: .host (.read a 4) :: rest →
    ∃ t u, step s = .next t ∧ step t = .next u
      ∧ t = { s with mem := t.mem, agenda := .host (.read a 4) :: rest } ∧ s.KeepsBytes t (inRun a 4)
      ∧ u = { t with agenda := rest
                     lastRead := some (if g = .blkIgn then (if v.getLsbD 0 then 1#32 else 0#32) else v) }

/-! ### Safety and invariants -/

/-- R67, R309, R350: the machine stops exactly where the bus refuses the next host access; the engine never stops it. That a
refused access is a stop is the model's form of U3 (log 4). -/
def Obligations.StepStopsExactlyWhenBusRefuses : Prop :=
  ∀ s : State, (∃ t, step s = .next t) ↔ s.nextRefused = false

/-- R41, R112: the window holds at most 15 rasters, each with legal dimensions and one word for each pixel, in every next
state. -/
def Obligations.WindowInvariantKept : Prop :=
  ∀ s t : State, s.WindowInv → step s = .next t → t.WindowInv

/-- R36, R42, R60, R66: every step keeps the memory's canonical form (log 3), stores only inside the buffers and rasters,
keeps the 31 high bits of every ignore word 0, and leaves `EMAPDIM` 0 or two legal dimensions. -/
def Obligations.BufferInvariantKept : Prop :=
  ∀ s t : State, s.WindowInv → s.BufferInv → step s = .next t → t.BufferInv

/-- R26, R49, R52, R301, R307: while a command is in flight `CMD` reads its word and `DONE` and `FAULT` are 0; `DONE` and `FAULT` are
never both 1; `FAULTCODE` is one of the codes of R301. Every step keeps it. -/
def Obligations.LifeCycleInvariantKept : Prop :=
  ∀ s t : State, s.LifeInv → step s = .next t → t.LifeInv

/-- R55: the three invariants hold after reset. -/
def Obligations.ResetMeetsInvariants : Prop :=
  State.reset.WindowInv ∧ State.reset.BufferInv ∧ State.reset.LifeInv

/-- R112: no host access other than a soft reset, and no command other than `REF.PUSH` and `REF.RESET`, changes the reference
window. -/
def Obligations.WindowChangedOnlyByRefCommands : Prop :=
  ∀ s t : State, step s = .next t →
    t.refs = s.refs
      ∨ (t.refs = [] ∧ (s.agenda.head? = some .hardReset
          ∨ ∃ v : Word, s.agenda.head? = some (.host (.write 0x004 4 v)) ∧ v.getLsbD 0 = true))
      ∨ (s.engineNext = true ∧ ∃ p, s.pend = some p ∧ (decode p.cmd = .ok .refPush ∨ decode p.cmd = .ok .refReset))

/-- R52: while a command is in flight a host access changes nothing but `CTRL`, the `STATUS` bits and the argument registers,
unless it is a soft reset, which discards the command. -/
def Obligations.HostCannotDisturbCommandInFlight : Prop :=
  ∀ (s t : State) (p : Pend) (a : HostAccess) (rest : List Event), s.pend = some p → s.agenda = .host a :: rest →
    step s = .next t →
    (t.pend = none ∧ ∃ v : Word, a = .write 0x004 4 v ∧ v.getLsbD 0 = true)
      ∨ t = { s with agenda := rest, lastRead := t.lastRead, args := t.args, ieDone := t.ieDone, ieFault := t.ieFault
                     ieCmdErr := t.ieCmdErr, statusDone := t.statusDone, statusFault := t.statusFault
                     statusCmdErr := t.statusCmdErr }

/-- R21, R26, R342: a command's outcome does not depend on what the host may change after issue: the argument registers, the
interrupt enables and `CMDERR`; and it leaves them alone. -/
def Obligations.CommandsIgnoreLaterHostWrites : Prop :=
  ∀ (i : Instr) (s t : State) (args : Vector Word 8) (b0 b1 b2 b3 : Bool), exec i s = .next t →
    exec i { s with args := args, ieDone := b0, ieFault := b1, ieCmdErr := b2, statusCmdErr := b3 }
      = .next { t with args := args, ieDone := b0, ieFault := b1, ieCmdErr := b2, statusCmdErr := b3 }

/-! ### Faults -/

/-- R52, R305, R306: every command in flight ends in one step: either a fault of R301 is recorded and nothing else changes,
memory, rasters, results and pointers included; or the command is done, the fault record is the old one, and what no
command writes is unchanged. -/
def Obligations.CommandFaultsOrCompletes : Prop :=
  ∀ (i : Instr) (s : State) (p : Pend), s.pend = some p →
    (∃ (code : BitVec 8) (info : Word), 1 ≤ code.toNat ∧ code.toNat ≤ 12
        ∧ exec i s = .next { s with faultCode := code, faultInfo := info, statusFault := true, pend := none })
      ∨ (∃ t, exec i s = .next t ∧ t.pend = none ∧ t.statusDone = true ∧ t.statusFault = s.statusFault
          ∧ t.faultCode = s.faultCode ∧ t.faultInfo = s.faultInfo ∧ s.SameSetup t)

/-- R101, R102, R105, R145: a position outside the raster takes `OutOfBounds` with the low halves of its coordinates. R106, R147,
R203: so does the first cell, in row-major order, that is not ignored and lies outside. R206: in a batch the first entry whose test
fails, with the entry's index. -/
def Obligations.PositionOutOfBoundsFaults : Prop :=
  ∀ (s : State) (p : Pend) (rs : RasterSel) (d : BitVec 4), s.pend = some p →
    let x := u32 (p.arg 0)
    let y := u32 (p.arg 1)
    let faulted := fun (info : Nat) => Host.Outcome.next
      { s with faultCode := 7#8, faultInfo := BitVec.ofNat 32 info, statusFault := true, pend := none }
    let position := fun (x y : Nat) => y % 65536 * 65536 + x % 65536
    let sizes := [4, 8, 16, 32, 64]
    let n := s.blkSize.toNat
    let x0 := u32 s.blkPosX
    let y0 := u32 s.blkPosY
    let firstOutside := fun (w h i j : Nat) =>
      i < n ∧ j < n ∧ s.blkIgn (j * n + i) = false ∧ (w ≤ x0 + i ∨ h ≤ y0 + j)
        ∧ ∀ a b, a < n → b < n → b * n + a < j * n + i → s.blkIgn (b * n + a) = false → x0 + a < w ∧ y0 + b < h
    (∀ v, s.resolveRaster p.cmd rs d = .ok v → v.w ≤ x ∨ v.h ≤ y →
      exec (.rasGet rs d) s = faulted (position x y) ∧ exec (.sobPix rs d) s = faulted (position x y)
        ∧ (u32 (p.arg 2) ∈ sizes → exec (.blkLd rs d) s = faulted (position x y)))
    ∧ (∀ t, s.resolveWritable p.cmd rs d = .ok t → t.w ≤ x ∨ t.h ≤ y → exec (.rasSet rs d) s = faulted (position x y))
    ∧ (∀ t i j, s.resolveWritable p.cmd rs d = .ok t → n ∈ sizes → firstOutside t.w t.h i j →
      exec (.blkSt rs d) s = faulted (position (x0 + i) (y0 + j)))
    ∧ (∀ i j, n ∈ sizes → s.emapW ≠ 0 → s.emapW = s.frameW → s.emapH = s.frameH →
      firstOutside s.emapW.toNat s.emapH.toNat i j → exec .sobBlkFlag s = faulted (position (x0 + i) (y0 + j)))
    ∧ (∀ ref, s.resolveRef p.cmd rs d = .ok ref → s.frameLegal → ref.w = s.frameW.toNat → ref.h = s.frameH.toNat →
      (∀ i j, n ∈ sizes → firstOutside ref.w ref.h i j →
        exec (.motSearch rs d) s = faulted (position (x0 + i) (y0 + j)))
      ∧ (let size := fun e => u32 (s.vtab e 2) % 256
         let inside := fun e => u32 (s.vtab e 0) < s.frameW.toNat ∧ u32 (s.vtab e 1) < s.frameH.toNat
         ∀ e < u32 (p.arg 0), u32 (p.arg 0) ≤ 4096 → (∀ k < e, size k ∈ sizes ∧ inside k) → size e ∈ sizes → ¬ inside e →
           exec (.motBatch rs d) s = faulted e))

/-- R105, R106, R127, R128, R147, R170, R175, R203, R206: a size of 0 takes `ZeroSizeBlock`, a size that the command does not know
takes `IllegalSize` with the size (in a batch both name the first faulty entry). R40, R203, R206: illegal frame dimensions take
`IllegalConfig(0)`. R147, R203, R206: a map or a reference of other dimensions takes `DimensionMismatch` with its dimensions. R206:
more entries than the table has take `TableOverflow`. -/
def Obligations.BlockSizeFaults : Prop :=
  ∀ (s : State) (p : Pend) (rs : RasterSel) (d : BitVec 4), s.pend = some p →
    let faulted := fun (code : BitVec 8) (info : Word) =>
      Host.Outcome.next { s with faultCode := code, faultInfo := info, statusFault := true, pend := none }
    let sizes := [4, 8, 16, 32, 64]
    let tested := fun (i : Instr) (size : Word) (legal : List Nat) =>
      (size = 0 → exec i s = faulted 4 0) ∧ (size ≠ 0 → u32 size ∉ legal → exec i s = faulted 5 size)
    let blkSize := s.blkSize.setWidth 32
    let n := u32 (p.arg 0)
    (∀ v, s.resolveRaster p.cmd rs d = .ok v → tested (.blkLd rs d) (p.arg 2) sizes)
    ∧ (∀ t, s.resolveWritable p.cmd rs d = .ok t → tested (.blkSt rs d) blkSize sizes)
    ∧ tested .sobBlkFlag blkSize sizes
    ∧ tested .colBlk2Ycc blkSize [4, 8, 16] ∧ tested .colBlk2Rgb (s.splSize.setWidth 32) [4, 8, 16]
    ∧ tested .dctFwd (s.splSize.setWidth 32) [4, 8, 16] ∧ tested .dctInv (s.coefSize.setWidth 32) [4, 8, 16]
    ∧ (u32 blkSize ∈ sizes → s.emapW = 0 ∨ s.emapW ≠ s.frameW ∨ s.emapH ≠ s.frameH →
      exec .sobBlkFlag s = faulted 6 (BitVec.ofNat 32 (s.emapW.toNat + 65536 * s.emapH.toNat)))
    ∧ (¬ s.frameLegal → rs = .cur ∨ rs = .aux → d = 0 →
      ∀ i ∈ [Instr.rasGet rs d, .rasSet rs d, .blkLd rs d, .blkSt rs d, .sobPix rs d, .sobMap rs d, .serIntra rs d,
        .serFrame rs d, .parIntra rs d, .parFrame rs d], exec i s = faulted 3 0)
    ∧ ∀ ref, s.resolveRef p.cmd rs d = .ok ref →
      (¬ s.frameLegal → exec (.motSearch rs d) s = faulted 3 0 ∧ exec (.motBatch rs d) s = faulted 3 0)
      ∧ (s.frameLegal → tested (.motSearch rs d) blkSize sizes)
      ∧ (s.frameLegal → 4096 < n → exec (.motBatch rs d) s = faulted 12 (p.arg 0))
      ∧ (s.frameLegal → ref.w ≠ s.frameW.toNat ∨ ref.h ≠ s.frameH.toNat →
        let dimensions := BitVec.ofNat 32 (ref.h % 65536 * 65536 + ref.w % 65536)
        (u32 blkSize ∈ sizes → exec (.motSearch rs d) s = faulted 6 dimensions)
        ∧ (n ≤ 4096 → exec (.motBatch rs d) s = faulted 6 dimensions))
      ∧ (s.frameLegal → n ≤ 4096 → ref.w = s.frameW.toNat → ref.h = s.frameH.toNat →
        let size := fun e => u32 (s.vtab e 2) % 256
        ∀ e < n,
          (∀ k < e, size k ∈ sizes ∧ u32 (s.vtab k 0) < s.frameW.toNat ∧ u32 (s.vtab k 1) < s.frameH.toNat) →
          (size e = 0 → exec (.motBatch rs d) s = faulted 4 (BitVec.ofNat 32 e))
          ∧ (size e ≠ 0 → size e ∉ sizes → exec (.motBatch rs d) s = faulted 5 (BitVec.ofNat 32 e)))

/-! ### Rasters, blocks and the reference window -/

/-- R40: `Raster(rs, d)`, whole, and the refusal of a reference where a raster is written (R82), of any other raster where a reference
is searched (R82, R198). -/
def Obligations.RasterOperandResolves : Prop :=
  ∀ (s : State) (cmd : Word) (d : BitVec 4),
    let illegal := EngineFault.mk .illegalOperand cmd
    let legalFrame := (1 ≤ s.frameW.toNat ∧ s.frameW.toNat ≤ 4096) ∧ (1 ≤ s.frameH.toNat ∧ s.frameH.toNat ≤ 4096)
    (∀ o ∈ [(RasterSel.cur, 0x04000000), (RasterSel.aux, 0x08000000)],
      (d ≠ 0 → s.resolveRaster cmd o.1 d = .error illegal ∧ s.resolveWritable cmd o.1 d = .error illegal)
      ∧ (d = 0 → ¬ legalFrame →
          s.resolveRaster cmd o.1 d = .error ⟨.illegalConfig, 0⟩ ∧ s.resolveWritable cmd o.1 d = .error ⟨.illegalConfig, 0⟩)
      ∧ (d = 0 → legalFrame →
          s.resolveRaster cmd o.1 d = .ok ⟨s.frameW.toNat, s.frameH.toNat, fun k => s.wordAt (o.2 + 4 * k)⟩
          ∧ s.resolveWritable cmd o.1 d = .ok ⟨o.2, s.frameW.toNat, s.frameH.toNat⟩)
      ∧ s.resolveRef cmd o.1 d = .error illegal)
    ∧ (d = 0 ∨ s.refs.length < d.toNat →
        s.resolveRaster cmd .ref d = .error illegal ∧ s.resolveRef cmd .ref d = .error illegal)
    ∧ (∀ r, 1 ≤ d.toNat → d.toNat ≤ s.refs.length → s.refs[s.refs.length - d.toNat]? = some r →
        ∃ v, s.resolveRaster cmd .ref d = .ok v ∧ s.resolveRef cmd .ref d = .ok v ∧ v.w = r.w ∧ v.h = r.h
          ∧ ∀ k x, r.pix[k]? = some x → v.pix k = x)
    ∧ s.resolveWritable cmd .ref d = .error illegal
    ∧ (∀ code, s.resolveRaster cmd (.reserved code) d = .error illegal
        ∧ s.resolveWritable cmd (.reserved code) d = .error illegal ∧ s.resolveRef cmd (.reserved code) d = .error illegal)

/-- R101: `RAS.GET` returns the pixel at `(A0, A1)` in `R0` and changes nothing else. -/
def Obligations.RasGetReadsPixel : Prop :=
  ∀ (s : State) (p : Pend) (rs : RasterSel) (d : BitVec 4) (v : RasterView), s.pend = some p →
    s.resolveRaster p.cmd rs d = .ok v → u32 (p.arg 0) < v.w → u32 (p.arg 1) < v.h →
    exec (.rasGet rs d) s = .next
      { s with results := s.results.set 0 (v.pix (u32 (p.arg 1) * v.w + u32 (p.arg 0))), statusDone := true
               pend := none }

/-- R62, R102: `RAS.SET` stores `A2` at the pixel `(A0, A1)`, at that pixel's address, and changes no other byte. -/
def Obligations.RasSetStoresPixel : Prop :=
  ∀ (s : State) (p : Pend) (rs : RasterSel) (d : BitVec 4) (r : RasterTarget), s.pend = some p →
    s.resolveWritable p.cmd rs d = .ok r → u32 (p.arg 0) < r.w → u32 (p.arg 1) < r.h →
    let address := r.base + 4 * (u32 (p.arg 1) * r.w + u32 (p.arg 0))
    ∃ t, exec (.rasSet rs d) s = .next t ∧ t = { s with mem := t.mem, statusDone := true, pend := none }
      ∧ t.wordAt address = p.arg 2 ∧ s.KeepsBytes t (inRun address 4)

/-- R104, R105: `BLK.LD` puts the colour of every cell inside the raster, and the sentinel with the ignore flag for every other,
into `BLK`, with the position and size, and clears `EDGE`; no byte beyond the block's cells changes. -/
def Obligations.BlkLdLoadsBlock : Prop :=
  ∀ (s : State) (p : Pend) (rs : RasterSel) (d : BitVec 4) (v : RasterView), s.pend = some p →
    s.resolveRaster p.cmd rs d = .ok v → u32 (p.arg 2) ∈ [4, 8, 16, 32, 64] → u32 (p.arg 0) < v.w →
    u32 (p.arg 1) < v.h →
    let x := u32 (p.arg 0)
    let y := u32 (p.arg 1)
    let n := u32 (p.arg 2)
    ∃ t, exec (.blkLd rs d) s = .next t
      ∧ t = { s with mem := t.mem, blkPosX := p.arg 0, blkPosY := p.arg 1, blkSize := (p.arg 2).setWidth 8, blkEdge := false
                     statusDone := true, pend := none }
      ∧ (∀ i j, i < n → j < n →
          (x + i < v.w ∧ y + j < v.h → t.wordAt (blkPixBase + 4 * (j * n + i)) = v.pix ((y + j) * v.w + (x + i))
            ∧ t.wordAt (blkIgnBase + 4 * (j * n + i)) = 0)
          ∧ (¬ (x + i < v.w ∧ y + j < v.h) → t.wordAt (blkPixBase + 4 * (j * n + i)) = 0x0558152B
            ∧ t.wordAt (blkIgnBase + 4 * (j * n + i)) = 1))
      ∧ s.KeepsBytes t (fun a => inRun blkPixBase (4 * (n * n)) a ∨ inRun blkIgnBase (4 * (n * n)) a)

/-- R106: `BLK.ST` stores every cell that is not ignored at its own position and changes no other byte; ignored cells are left
out whatever their colour. -/
def Obligations.BlkStStoresVisibleCells : Prop :=
  ∀ (s : State) (p : Pend) (rs : RasterSel) (d : BitVec 4) (r : RasterTarget), s.pend = some p →
    s.resolveWritable p.cmd rs d = .ok r → s.blkSize.toNat ∈ [4, 8, 16, 32, 64] →
    let n := s.blkSize.toNat
    let x := u32 s.blkPosX
    let y := u32 s.blkPosY
    let visible := fun i j => i < n ∧ j < n ∧ s.blkIgn (j * n + i) = false
    let address := fun i j => r.base + 4 * ((y + j) * r.w + (x + i))
    (∀ i j, visible i j → x + i < r.w ∧ y + j < r.h) →
    ∃ t, exec (.blkSt rs d) s = .next t ∧ t = { s with mem := t.mem, statusDone := true, pend := none }
      ∧ (∀ i j, visible i j → t.wordAt (address i j) = s.blkPix (j * n + i))
      ∧ s.KeepsBytes t (fun a => ∃ i j, visible i j ∧ inRun (address i j) 4 a)

/-- R110: `REF.PUSH`, whole: the two configuration faults, then a copy of `CUR` behind the entries that the capacity keeps. -/
def Obligations.RefPushAppendsAndEvicts : Prop :=
  decode 0x14000000#32 = .ok .refPush
  ∧ ∀ (s : State) (p : Pend), s.pend = some p →
    let w := s.frameW.toNat
    let h := s.frameH.toNat
    let legal := 1 ≤ w ∧ w ≤ 4096 ∧ 1 ≤ h ∧ h ≤ 4096
    (¬ legal → exec .refPush s = .next { s with faultCode := 3, faultInfo := 0, statusFault := true, pend := none })
    ∧ (legal → s.refCap = 0 →
        exec .refPush s = .next { s with faultCode := 3, faultInfo := 1, statusFault := true, pend := none })
    ∧ (legal → s.refCap ≠ 0 →
        ∃ t newest, exec .refPush s = .next t
          ∧ t = { s with refs := t.refs, statusDone := true, pend := none }
          ∧ newest.w = w ∧ newest.h = h ∧ newest.pix.length = w * h
          ∧ (∀ k < w * h, newest.pix[k]? = some (s.wordAt (curBase + 4 * k)))
          ∧ t.refs <:+ s.refs ++ [newest] ∧ t.refs.length = min (s.refs.length + 1) s.refCap.toNat
          ∧ t.refCnt.toNat = t.refs.length)

/-- R111: `REF.RESET`, whole: the two configuration faults, then a window of one entry, a copy of `CUR`. -/
def Obligations.RefResetReseeds : Prop :=
  decode 0x15000000#32 = .ok .refReset
  ∧ ∀ (s : State) (p : Pend), s.pend = some p →
    let w := s.frameW.toNat
    let h := s.frameH.toNat
    let legal := 1 ≤ w ∧ w ≤ 4096 ∧ 1 ≤ h ∧ h ≤ 4096
    (¬ legal → exec .refReset s = .next { s with faultCode := 3, faultInfo := 0, statusFault := true, pend := none })
    ∧ (legal → s.refCap = 0 →
        exec .refReset s = .next { s with faultCode := 3, faultInfo := 1, statusFault := true, pend := none })
    ∧ (legal → s.refCap ≠ 0 →
        ∃ t only, exec .refReset s = .next t ∧ t = { s with refs := [only], statusDone := true, pend := none }
          ∧ only.w = w ∧ only.h = h ∧ only.pix.length = w * h
          ∧ (∀ k < w * h, only.pix[k]? = some (s.wordAt (curBase + 4 * k))) ∧ t.refCnt = 1)

/-! ### Colour -/

/-- R124, R125, R126: the single-pixel commands, whole: results and nothing else. R123: the inverse formulas as `rnd` of the exact
real quotients, clamped, for all integers (the closed forms of luma and chroma: `ForwardColourFormulasAndRanges`). -/
def Obligations.PixelColourCommands : Prop :=
  (∀ (s : State) (p : Pend), s.pend = some p →
    let r := chR (p.arg 0)
    let g := chG (p.arg 0)
    let b := chB (p.arg 0)
    exec .colRgb2Ycc s = .next
        { s with results := ((s.results.set 0 (w32 (luma r g b))).set 1 (w32 (chromaB r g b))).set 2 (w32 (chromaR r g b))
                 statusDone := true, pend := none }
    ∧ exec .colGray s = .next
        { s with results := s.results.set 0 (w32 (luma r g b)), statusDone := true, pend := none }
    ∧ (let y := s32 (p.arg 0)
       let cb := s32 (p.arg 1)
       let cr := s32 (p.arg 2)
       exec .colYcc2Rgb s = .next
        { s with results := s.results.set 0 (argb 255 (invR y cb cr) (invG y cb cr) (invB y cb cr))
                 statusDone := true, pend := none }))
  ∧ ∀ y cb cr : Int,
    let clamped := fun (q : ℝ) => max 0 (min 255 (rndReal q))
    invR y cb cr = clamped (y + 1402 * ((cr : ℝ) - 128) / 1000)
    ∧ invG y cb cr = clamped (y - (202008 * ((cb : ℝ) - 128) + 419198 * ((cr : ℝ) - 128)) / 587000)
    ∧ invB y cb cr = clamped (y + 1772 * ((cb : ℝ) - 128) / 1000)

/-- R121, R122: the closed forms of luma and chroma, the ranges of their results over all channel values, and the four triples
that reach the ends of the chroma range. The ranges and the four triples are the spec's own inferences ("derived: by enumeration of
all 2^24 triples"), its chroma coefficients general knowledge (log 20). -/
def Obligations.ForwardColourFormulasAndRanges : Prop :=
  (∀ r g b : Nat, r ≤ 255 → g ≤ 255 → b ≤ 255 →
    let T : Int := 299 * r + 587 * g + 114 * b
    (0 ≤ T ∧ T ≤ 255000)
    ∧ luma r g b = (2 * T + 1000) / 2000 ∧ (0 ≤ luma r g b ∧ luma r g b ≤ 255)
    ∧ chromaB r g b = 128 + (2 * (1000 * b - T) + 1772) / 3544 ∧ (1 ≤ chromaB r g b ∧ chromaB r g b ≤ 256)
    ∧ chromaR r g b = 128 + (2 * (1000 * r - T) + 1402) / 2804 ∧ (1 ≤ chromaR r g b ∧ chromaR r g b ≤ 256))
  ∧ chromaB 0 0 255 = 256 ∧ chromaR 255 0 0 = 256 ∧ chromaB 255 255 0 = 1 ∧ chromaR 0 255 255 = 1

/-- R129: a pixel converted forward and back differs by at most 1 in each channel, at the level of the two commands; and the
triple (0, 0, 5) returns (1, 0, 6). The spec's own inference ("derived: by exhaustive enumeration of rules R121 to R123"). -/
def Obligations.ColourRoundTripWithinOne : Prop :=
  (∀ (s t u : State) (p q : Pend), s.pend = some p → exec .colRgb2Ycc s = .next t → u.pend = some q →
    q.arg 0 = t.results[0] → q.arg 1 = t.results[1] → q.arg 2 = t.results[2] →
    ∃ w, exec .colYcc2Rgb u = .next w
      ∧ ((chR w.results[0] : Int) - chR (p.arg 0)).natAbs ≤ 1
      ∧ ((chG w.results[0] : Int) - chG (p.arg 0)).natAbs ≤ 1
      ∧ ((chB w.results[0] : Int) - chB (p.arg 0)).natAbs ≤ 1)
  ∧ (let y := luma 0 0 5
     let cb := chromaB 0 0 5
     let cr := chromaR 0 0 5
     invR y cb cr = 1 ∧ invG y cb cr = 0 ∧ invB y cb cr = 6)

/-- R127: `COL.BLK2YCC` on a block without ignored cells writes the three planes and `SPLSZ`; with an ignored cell it takes
`MaskedCell` with the lowest index of one. -/
def Obligations.BlockColourForward : Prop :=
  ∀ (s : State) (p : Pend), s.pend = some p → s.blkSize.toNat ∈ [4, 8, 16] →
    let n := s.blkSize.toNat * s.blkSize.toNat
    ((∀ k < n, s.blkIgn k = false) →
      ∃ t, exec .colBlk2Ycc s = .next t
        ∧ t = { s with mem := t.mem, splSize := s.blkSize, statusDone := true, pend := none }
        ∧ t.HoldsWords splYBase n (fun k => w32 (luma (chR (s.blkPix k)) (chG (s.blkPix k)) (chB (s.blkPix k))))
        ∧ t.HoldsWords splCbBase n (fun k => w32 (chromaB (chR (s.blkPix k)) (chG (s.blkPix k)) (chB (s.blkPix k))))
        ∧ t.HoldsWords splCrBase n (fun k => w32 (chromaR (chR (s.blkPix k)) (chG (s.blkPix k)) (chB (s.blkPix k))))
        ∧ s.KeepsBytes t (fun a => inRun splYBase (4 * n) a ∨ inRun splCbBase (4 * n) a ∨ inRun splCrBase (4 * n) a))
    ∧ (∀ k < n, s.blkIgn k = true → (∀ j < k, s.blkIgn j = false) →
      exec .colBlk2Ycc s = .next
        { s with faultCode := 8, faultInfo := BitVec.ofNat 32 k, statusFault := true, pend := none })

/-- R128: `COL.BLK2RGB` writes the colours and clears the ignore flags of the block's cells and sets its size; position and
`EDGE` keep their values. -/
def Obligations.BlockColourBack : Prop :=
  ∀ (s : State) (p : Pend), s.pend = some p → s.splSize.toNat ∈ [4, 8, 16] →
    let n := s.splSize.toNat * s.splSize.toNat
    let y := fun k => s32 (s.wordAt (splYBase + 4 * k))
    let cb := fun k => s32 (s.wordAt (splCbBase + 4 * k))
    let cr := fun k => s32 (s.wordAt (splCrBase + 4 * k))
    ∃ t, exec .colBlk2Rgb s = .next t
      ∧ t = { s with mem := t.mem, blkSize := s.splSize, statusDone := true, pend := none }
      ∧ t.HoldsWords blkPixBase n (fun k =>
          argb 255 (invR (y k) (cb k) (cr k)) (invG (y k) (cb k) (cr k)) (invB (y k) (cb k) (cr k)))
      ∧ t.HoldsWords blkIgnBase n (fun _ => 0)
      ∧ s.KeepsBytes t (fun a => inRun blkPixBase (4 * n) a ∨ inRun blkIgnBase (4 * n) a)

/-! ### Sobel -/

/-- R142, R143, R144: the gradients are the sums of the two 3 by 3 kernels over the lumas at the clamped positions, and the magnitude
is the sum of their absolute values; their ranges on any raster, a magnitude of 1530 is reached, and the magnitude is 0 everywhere on
a raster of one luma. The weights are from general knowledge (R143, log 20), the range is the spec's own inference (R144, "derived"). -/
def Obligations.SobelBounds : Prop :=
  (∀ (v : RasterView) (x y : Nat),
    let sample := fun (x' y' : Int) =>
      let cx := (min (max x' 0) ((v.w : Int) - 1)).toNat
      let cy := (min (max y' 0) ((v.h : Int) - 1)).toNat
      let c := v.pix (cy * v.w + cx)
      luma (chR c) (chG c) (chB c)
    let gradient := fun (kernel : List (List Int)) =>
      ∑ j ∈ Finset.range 3, ∑ i ∈ Finset.range 3,
        (kernel.getD j []).getD i 0 * sample ((x : Int) + i - 1) ((y : Int) + j - 1)
    sobelGx v x y = gradient [[-1, 0, 1], [-2, 0, 2], [-1, 0, 1]]
    ∧ sobelGy v x y = gradient [[-1, -2, -1], [0, 0, 0], [1, 2, 1]]
    ∧ sobelMag v x y = (sobelGx v x y).natAbs + (sobelGy v x y).natAbs
    ∧ (sobelGx v x y).natAbs ≤ 1020 ∧ (sobelGy v x y).natAbs ≤ 1020 ∧ sobelMag v x y ≤ 1530
    ∧ ((∀ k l, pixLuma (v.pix k) = pixLuma (v.pix l)) → sobelMag v x y = 0))
  ∧ ∃ (v : RasterView) (x y : Nat), x < v.w ∧ y < v.h ∧ sobelMag v x y = 1530

/-- R145, R146: `SOB.PIX` returns the magnitude at a position; `SOB.MAP` stores every magnitude at its element of `EMAP`, sets
`EMAPDIM`, and changes no other byte. -/
def Obligations.SobelMagnitudeCommands : Prop :=
  ∀ (s : State) (p : Pend) (rs : RasterSel) (d : BitVec 4) (v : RasterView), s.pend = some p →
    s.resolveRaster p.cmd rs d = .ok v →
    (u32 (p.arg 0) < v.w → u32 (p.arg 1) < v.h →
      exec (.sobPix rs d) s = .next
        { s with results := s.results.set 0 (BitVec.ofNat 32 (sobelMag v (u32 (p.arg 0)) (u32 (p.arg 1))))
                 statusDone := true, pend := none })
    ∧ ∃ t, exec (.sobMap rs d) s = .next t
        ∧ t = { s with mem := t.mem, emapW := BitVec.ofNat 13 v.w, emapH := BitVec.ofNat 13 v.h, statusDone := true
                       pend := none }
        ∧ (∀ x y, x < v.w → y < v.h → t.wordAt (emapBase + 4 * (y * v.w + x)) = BitVec.ofNat 32 (sobelMag v x y))
        ∧ s.KeepsBytes t (inRun emapBase (4 * (v.w * v.h)))

/-- R147: `SOB.BLKFLAG` returns the largest map word over the block's visible cells, 0 when it has none, and sets `EDGE` when that
exceeds `EDGETHR`. -/
def Obligations.SobBlkFlagMarksEdgeBlock : Prop :=
  ∀ (s : State) (p : Pend), s.pend = some p → s.blkSize.toNat ∈ [4, 8, 16, 32, 64] → s.emapW ≠ 0 →
    s.emapW = s.frameW → s.emapH = s.frameH →
    let n := s.blkSize.toNat
    let x := u32 s.blkPosX
    let y := u32 s.blkPosY
    let visible := fun i j => i < n ∧ j < n ∧ s.blkIgn (j * n + i) = false
    let word := fun i j => s.emap ((y + j) * s.emapW.toNat + (x + i))
    (∀ i j, visible i j → x + i < s.emapW.toNat ∧ y + j < s.emapH.toNat) →
    ∃ peak : Word,
      exec .sobBlkFlag s = .next
        { s with results := s.results.set 0 peak, blkEdge := decide (u32 s.edgeThr < u32 peak), statusDone := true
                 pend := none }
      ∧ (∀ i j, visible i j → u32 (word i j) ≤ u32 peak) ∧ (peak = 0 ∨ ∃ i j, visible i j ∧ peak = word i j)

/-! ### Transform -/

/-- R161, R162, R166, R167, R181: the exact arithmetic of the model computes `rnd` of the real double sums, with the real cosines
and square roots, at every index, for every length that is a power of 2, whatever the samples. That
arithmetic is DEDUCED (log 11), the rounding of a tie R15's (log 10). -/
def Obligations.TransformIsRoundedExactSum : Prop :=
  ∀ (L scale : Nat) (f : Nat → Nat → Int) (u v : Nat), 1 ≤ L → 1 ≤ scale →
    dctCoef L scale f u v = rndReal (dctReal (2 ^ L) (fun x y => (f x y : ℝ) / scale) u v)
    ∧ idctSample L f u v = rndReal (idctReal (2 ^ L) (fun a b => (f a b : ℝ)) u v)

/-- R164, R165, R166, R170: `DCT.FWD` writes `rnd` of the real transform of the luma plane and of the two subsampled, centred chroma
planes, sets `COEFSZ`, and changes no other byte. -/
def Obligations.DctFwdWritesRoundedCoefficients : Prop :=
  ∀ (s : State) (p : Pend), s.pend = some p → s.splSize.toNat ∈ [4, 8, 16] →
    let m := s.splSize.toNat
    let h := m / 2
    let sample := fun (base x y : Nat) => s32 (s.wordAt (base + 4 * (y * m + x)))
    let mean := fun (base i j : Nat) =>
      ((sample base (2 * i) (2 * j) : ℝ) + sample base (2 * i + 1) (2 * j) + sample base (2 * i) (2 * j + 1)
        + sample base (2 * i + 1) (2 * j + 1)) / 4
    (∀ base ∈ [splYBase, splCbBase, splCrBase], ∀ k < m * m, (s32 (s.wordAt (base + 4 * k))).natAbs ≤ 2 ^ 20) →
    ∃ t, exec .dctFwd s = .next t
      ∧ t = { s with mem := t.mem, coefSize := s.splSize, statusDone := true, pend := none }
      ∧ (∀ u v, u < m → v < m → t.wordAt (coefYBase + 4 * (v * m + u))
          = w32 (rndReal (dctReal m (fun x y => (sample splYBase x y : ℝ)) u v)))
      ∧ (∀ u v, u < h → v < h →
          t.wordAt (coefCbBase + 4 * (v * h + u)) = w32 (rndReal (dctReal h (fun i j => mean splCbBase i j - 128) u v))
          ∧ t.wordAt (coefCrBase + 4 * (v * h + u)) = w32 (rndReal (dctReal h (fun i j => mean splCrBase i j - 128) u v)))
      ∧ s.KeepsBytes t (fun a =>
          inRun coefYBase (4 * (m * m)) a ∨ inRun coefCbBase (4 * (h * h)) a ∨ inRun coefCrBase (4 * (h * h)) a)

/-- R167, R168, R175: `DCT.INV` writes `rnd` of the real inverse transform of the luma plane, and of the chroma planes with 128 added
and each sample filling its 2 by 2 group, sets `SPLSZ`, and changes no other byte. -/
def Obligations.DctInvWritesRoundedSamples : Prop :=
  ∀ (s : State) (p : Pend), s.pend = some p → s.coefSize.toNat ∈ [4, 8, 16] →
    let m := s.coefSize.toNat
    let h := m / 2
    let coef := fun (base n u v : Nat) => (s32 (s.wordAt (base + 4 * (v * n + u))) : ℝ)
    (∀ k < m * m, (s32 (s.wordAt (coefYBase + 4 * k))).natAbs ≤ 2 ^ 20) →
    (∀ base ∈ [coefCbBase, coefCrBase], ∀ k < h * h, (s32 (s.wordAt (base + 4 * k))).natAbs ≤ 2 ^ 20) →
    ∃ t, exec .dctInv s = .next t
      ∧ t = { s with mem := t.mem, splSize := s.coefSize, statusDone := true, pend := none }
      ∧ (∀ x y, x < m → y < m →
          t.wordAt (splYBase + 4 * (y * m + x)) = w32 (rndReal (idctReal m (coef coefYBase m) x y))
          ∧ t.wordAt (splCbBase + 4 * (y * m + x))
              = w32 (rndReal (idctReal h (coef coefCbBase h) (x / 2) (y / 2)) + 128)
          ∧ t.wordAt (splCrBase + 4 * (y * m + x))
              = w32 (rndReal (idctReal h (coef coefCrBase h) (x / 2) (y / 2)) + 128))
      ∧ s.KeepsBytes t (fun a =>
          inRun splYBase (4 * (m * m)) a ∨ inRun splCbBase (4 * (m * m)) a ∨ inRun splCrBase (4 * (m * m)) a)

/-- R163: the input range of both commands: the first word of magnitude above 2^20, planes in the order Y, Cb, Cr and each by rising
index, takes `OperandRange` with the plane's number and that index; words outside the range in use do not count. -/
def Obligations.TransformInputRangeFault : Prop :=
  ∀ (s : State) (p : Pend) (plane k : Nat), s.pend = some p → plane < 3 →
    let faulted := Host.Outcome.next
      { s with faultCode := 9, faultInfo := BitVec.ofNat 32 (plane * 2 ^ 30 + k), statusFault := true, pend := none }
    let big := fun (base k : Nat) => 2 ^ 20 < (s32 (s.wordAt (base + 4 * k))).natAbs
    let first := fun (base size : Nat → Nat) =>
      k < size plane ∧ big (base plane) k
        ∧ ∀ c j, c ≤ plane → j < size c → (c < plane ∨ j < k) → ¬ big (base c) j
    (s.splSize.toNat ∈ [4, 8, 16] →
      first (fun c => splYBase + 0x400 * c) (fun _ => s.splSize.toNat * s.splSize.toNat) → exec .dctFwd s = faulted)
    ∧ (s.coefSize.toNat ∈ [4, 8, 16] →
      first (fun c => if c = 0 then coefYBase else if c = 1 then coefCbBase else coefCrBase)
        (fun c => if c = 0 then s.coefSize.toNat * s.coefSize.toNat else (s.coefSize.toNat / 2) * (s.coefSize.toNat / 2)) →
      exec .dctInv s = faulted)

/-- R179, R180: a plane of one value has that value times the side as its only non-zero coefficient, and the inverse restores the
value exactly at every position. The spec's own inferences (R179, R180, "derived"). -/
def Obligations.ConstantBlockRoundTrip : Prop :=
  ∀ (L : Nat) (c : Int), 1 ≤ L → L ≤ 4 →
    (∀ u v, u < 2 ^ L → v < 2 ^ L → dctCoef L 1 (fun _ _ => c) u v = if u = 0 ∧ v = 0 then 2 ^ L * c else 0)
    ∧ (∀ x y, x < 2 ^ L → y < 2 ^ L → idctSample L (fun u v => if u = 0 ∧ v = 0 then 2 ^ L * c else 0) x y = c)

/-! ### Motion -/

/-- R191, R192: `Cost2` and `Valid` written out for the block in `BLK`. R193, R194, R195: the coarse rounds from step 8 end at a centre,
and the result is the best of that centre and of the valid ones among its eight final probes. R196 (a), (b), (c): before the final
probes the best position is the centre; more rounds than the model allows change nothing (log 12); the result is never dearer than
the block's own position, its cost is the cost at its position, and it is valid when the block's own position is. R196's facts are
the spec's own inferences ("derived"). -/
def Obligations.MotionSearchFacts : Prop :=
  (∀ (s : State) (n : Nat) (ref : RasterView),
    let cells := s.heldBlock n
    let sum := fun (channel : Word → Nat) (cx cy : Nat) =>
      ∑ j ∈ Finset.range n, ∑ i ∈ Finset.range n,
        if s.blkIgn (j * n + i) then 0
        else ((channel (s.blkPix (j * n + i)) : Int) - channel (ref.pix ((cy + j) * ref.w + (cx + i)))).natAbs
    (∀ cx cy : Nat, cost2 cells ref (cx, cy) = sum chR cx cy ^ 2 + sum chG cx cy ^ 2 + sum chB cx cy ^ 2)
    ∧ ∀ cx cy : Int, validAt cells ref (cx, cy) = true ↔
        0 ≤ cx ∧ 0 ≤ cy ∧ ∀ i j : Nat, i < n → j < n → s.blkIgn (j * n + i) = false → cx + i < ref.w ∧ cy + j < ref.h)
  ∧ ∀ (cells : List BlockCell) (ref : RasterView),
    (∀ bx by' : Nat, ∃ last, CoarseRounds cells ref 8 ⟨(bx, by'), cost2 cells ref (bx, by')⟩ last
      ∧ (let cx := last.pos.1
         let cy := last.pos.2
         IsBest cells ref last
          [(cx - 1, cy), (cx + 1, cy), (cx, cy - 1), (cx, cy + 1), (cx - 1, cy - 1), (cx + 1, cy - 1), (cx - 1, cy + 1),
            (cx + 1, cy + 1)]
          (motionSearch cells ref bx by')))
    ∧ (∀ (fuel t : Nat) (c : Candidate), (coarseSearch cells ref fuel t c c).1 = (coarseSearch cells ref fuel t c c).2)
    ∧ (∀ (more : Nat) (c b : Candidate),
        coarseSearch cells ref (c.cost + 4 + more) 8 c b = coarseSearch cells ref (c.cost + 4) 8 c b)
    ∧ (∀ bx by' : Nat,
        let r := motionSearch cells ref bx by'
        r.cost ≤ cost2 cells ref (bx, by') ∧ r.cost = cost2 cells ref r.pos
        ∧ (validAt cells ref (bx, by') = true → validAt cells ref r.pos = true))

/-- R197, R200, R201, R203: `MOT.SEARCH` writes the eight words of the record: for an edge block `STAT` 2 and zeros, else `FOUND`
exactly when the best cost is at most the square of `MADTOL`, with the position, span, drawback and cost. -/
def Obligations.MotSearchReportsRecord : Prop :=
  ∀ (s : State) (p : Pend) (rs : RasterSel) (d : BitVec 4) (ref : RasterView), s.pend = some p →
    s.resolveRef p.cmd rs d = .ok ref → s.frameLegal → s.blkSize.toNat ∈ [4, 8, 16, 32, 64] →
    ref.w = s.frameW.toNat → ref.h = s.frameH.toNat →
    let n := s.blkSize.toNat
    let x := u32 s.blkPosX
    let y := u32 s.blkPosY
    let best := motionSearch (s.heldBlock n) ref x y
    (∀ i j, i < n → j < n → s.blkIgn (j * n + i) = false → x + i < ref.w ∧ y + j < ref.h) →
    (s.blkEdge = true →
      exec (.motSearch rs d) s = .next
        { s with results := #v[2, 0, 0, 0, 0, 0, 0, 0], statusDone := true, pend := none })
    ∧ (s.blkEdge = false →
      exec (.motSearch rs d) s = .next
        { s with results := #v[if best.cost ≤ u32 s.madTol ^ 2 then 1 else 0, w32 best.pos.1, w32 best.pos.2,
                               w32 (x - best.pos.1), w32 (y - best.pos.2), d.setWidth 32,
                               BitVec.ofNat 32 (best.cost % 2 ^ 32), BitVec.ofNat 32 (best.cost / 2 ^ 32)]
                 statusDone := true, pend := none })

/-- R206, R208: `MOT.BATCH` writes words 4 to 11 of the first `A0` entries, each from the state at completion and so independent of
the others, and changes no other byte. -/
def Obligations.MotBatchFillsEntries : Prop :=
  ∀ (s : State) (p : Pend) (rs : RasterSel) (d : BitVec 4) (ref : RasterView), s.pend = some p →
    s.resolveRef p.cmd rs d = .ok ref → s.frameLegal → u32 (p.arg 0) ≤ 4096 →
    ref.w = s.frameW.toNat → ref.h = s.frameH.toNat →
    let n := u32 (p.arg 0)
    let x := fun e => u32 (s.vtab e 0)
    let y := fun e => u32 (s.vtab e 1)
    let size := fun e => u32 (s.vtab e 2) % 256
    (∀ e < n, size e ∈ [4, 8, 16, 32, 64] ∧ x e < s.frameW.toNat ∧ y e < s.frameH.toNat) →
    ∃ t, exec (.motBatch rs d) s = .next t ∧ t = { s with mem := t.mem, statusDone := true, pend := none }
      ∧ (∀ e < n, t.HoldsWords (vtabBase + 64 * e + 16) 8 (fun k =>
          (searchRecord (loadBlock (s.frameView curBase) (x e) (y e) (size e)) ref (x e) (y e)
            ((s.vtab e 3).getLsbD 0) d s.madTol).getD k 0))
      ∧ s.KeepsBytes t (fun a => ∃ e < n, inRun (vtabBase + 64 * e + 16) 32 a)

/-! ### The stream -/

/-- R233: `Append`: the whole record behind the stream and `SLEN` moved, every other byte kept; or `StreamOverflow` with its
length. -/
def Obligations.AppendWholeOrNothing : Prop :=
  ∀ (s : State) (bytes : List Byte),
    (u32 s.sLen + bytes.length ≤ 16777216 →
      ∃ t, s.append bytes = .ok t ∧ u32 t.sLen = u32 s.sLen + bytes.length ∧ s.Appended t.complete bytes)
    ∧ (16777216 < u32 s.sLen + bytes.length →
      s.append bytes = .error ⟨.streamOverflow, BitVec.ofNat 32 (min bytes.length 0xFFFFFFFF)⟩)

/-- R224, R225, R227, R228, R233, R236 to R239: with legal pointers and room in the stream each writer command appends its record, and
changes `SLEN` and the appended bytes and nothing else; without room it takes `StreamOverflow` with the record's length. `SER.META`
with illegal dimensions takes `IllegalConfig(0)`, `SER.VECS` of more entries than the table has `TableOverflow`. -/
def Obligations.WritersAppendTheirRecords : Prop :=
  ∀ (s : State) (p : Pend), s.pend = some p → u32 s.rPtr ≤ u32 s.sLen → u32 s.sLen ≤ 16777216 →
    let faulted := fun (i : Instr) (code : BitVec 8) (info : Word) =>
      exec i s = .next { s with faultCode := code, faultInfo := info, statusFault := true, pend := none }
    let appends := fun (i : Instr) (record : List Byte) =>
      (u32 s.sLen + record.length ≤ 16777216 → ∃ t, exec i s = .next t ∧ s.Appended t record)
      ∧ (16777216 < u32 s.sLen + record.length → faulted i 11 (BitVec.ofNat 32 (min record.length 0xFFFFFFFF)))
    (¬ s.frameLegal → faulted .serMeta 3 0)
    ∧ (s.frameLegal →
      appends .serMeta
        (asciiList ['M', 'E', 'T', 'A', '[', 'D', '['] ++ decNat s.frameW.toNat ++ asciiList [','] ++ decNat s.frameH.toNat
          ++ asciiList [']', 'F', 'C', '['] ++ decNat (u32 (p.arg 0)) ++ asciiList [']', ']']))
    ∧ (∀ rs d v, s.resolveRaster p.cmd rs d = .ok v →
        appends (.serIntra rs d) (asciiList ['$', 'S', '$'] ++ encodePixels ((List.range (v.w * v.h)).map v.pix))
        ∧ appends (.serFrame rs d) (asciiList ['$', 'P'] ++ decNat (u32 (p.arg 0)) ++ asciiList ['$']
            ++ encodePixels ((List.range (v.w * v.h)).map v.pix)))
    ∧ (4096 < u32 (p.arg 1) → faulted .serVecs 12 (p.arg 1))
    ∧ (u32 (p.arg 1) ≤ 4096 →
        let found := (List.range (u32 (p.arg 1))).filter fun e => (s.vtab e 4).getLsbD 0
        appends .serVecs (asciiList ['$', 'V'] ++ decNat (u32 (p.arg 0)) ++ asciiList ['$']
          ++ found.flatMap fun e => asciiList ['['] ++ decNat (u32 (s.vtab e 5)) ++ asciiList [','] ++ decNat (u32 (s.vtab e 6))
              ++ asciiList [';'] ++ decInt (s32 (s.vtab e 7)) ++ asciiList [','] ++ decInt (s32 (s.vtab e 8))
              ++ asciiList [']']))

/-- R225, R250: the writer's tokens are the maximal runs of the words, and the reader gets the words back, whatever follows the
record. -/
def Obligations.PixelStreamRoundTrip : Prop :=
  ∀ (ws : List Word) (rest : List Byte), ws.length ≤ 2 ^ 32 →
    readPixels (encodePixels ws ++ rest) = some (runsOf ws, rest) ∧ expandRuns (runsOf ws) = ws
    ∧ (∀ r ∈ runsOf ws, 1 ≤ r.2)
    ∧ (∀ k r q, (runsOf ws)[k]? = some r → (runsOf ws)[k + 1]? = some q → r.1 ≠ q.1)

/-- R223, R226: the reader accepts exactly the byte strings of the grammar, with the grammar's meaning: it takes a text of tokens as
the tokens' words, and whatever it takes is such a text. -/
def Obligations.PixelReaderAcceptsExactlyTheGrammar : Prop :=
  ∀ (bs rest : List Byte) (runs : List (Word × Nat)),
    readPixels bs = some (runs, rest)
      ↔ ∃ (tokens : List TokenText) (finalDot : Bool),
          (∀ t ∈ tokens, t.legal) ∧ bs = pixelText finalDot tokens ++ rest ∧ runs = tokens.map TokenText.meaning

/-- R224, R228, R250: the reader gets back the dimensions and count of a metadata record, and the groups of a vector record that ends
at the end of the stream or before a marker. -/
def Obligations.MetaAndVectorTextRoundTrip : Prop :=
  (∀ (w h n : Nat) (rest : List Byte), w < 2 ^ 32 → h < 2 ^ 32 → n < 2 ^ 32 →
    readMeta (metaRecord w h n ++ rest) = some (w, h, n, rest))
  ∧ (∀ (groups : List VecGroup) (rest : List Byte), (rest = [] ∨ rest.head? = some (ascii '$')) →
      (∀ g ∈ groups, g.x ≤ 2147483647 ∧ g.y ≤ 2147483647 ∧ -2147483648 ≤ g.sx ∧ g.sx ≤ 2147483647
        ∧ -2147483648 ≤ g.sy ∧ g.sy ≤ 2147483647) →
      let text := groups.flatMap fun g => groupBytes g.x g.y g.sx g.sy
      readGroups ((text ++ rest).length + 1) (text ++ rest) = some (groups, rest))

/-- R223, R243, R244: what `PAR.PEEK` and `PAR.META` report, for every spelling of the numbers; `PAR.PEEK` moves no pointer and neither
changes anything else. -/
def Obligations.PeekAndMetaReport : Prop :=
  ∀ (s : State) (p : Pend) (rest : List Byte), s.pend = some p → u32 s.rPtr ≤ u32 s.sLen → u32 s.sLen ≤ 16777216 →
    let peeks := fun (kind index : Word) =>
      exec .parPeek s = .next
        { s with results := (s.results.set 0 kind).set 1 index, statusDone := true, pend := none }
    let number := natLegal 4294967295
    (s.unread = [] → peeks 0 0)
    ∧ (s.unread = asciiList ['M', 'E', 'T', 'A', '['] ++ rest → peeks 1 0)
    ∧ (s.unread = asciiList ['$', 'S', '$'] ++ rest → peeks 2 0)
    ∧ (∀ ds, number ds → s.unread = markerText 'P' ds ++ rest → peeks 3 (BitVec.ofNat 32 (digitsValue ds)))
    ∧ (∀ ds, number ds → s.unread = markerText 'V' ds ++ rest → peeks 4 (BitVec.ofNat 32 (digitsValue ds)))
    ∧ (∀ w h n, number w → number h → number n → s.unread = metaText w h n ++ rest →
        exec .parMeta s = .next
          { s with results := ((s.results.set 0 (BitVec.ofNat 32 (digitsValue w))).set 1
                      (BitVec.ofNat 32 (digitsValue h))).set 2 (BitVec.ofNat 32 (digitsValue n))
                   rPtr := BitVec.ofNat 32 (u32 s.sLen - rest.length), statusDone := true, pend := none })

/-- R245, R246: `PAR.INTRA` and `PAR.FRAME` on a record whose words are as many as the raster's pixels store them in order, move `RPTR`
behind the record (and `PAR.FRAME` returns the index), and change no other byte; with another number of words they take
`DimensionMismatch` with that number. -/
def Obligations.ParIntraAndFrameStoreRaster : Prop :=
  ∀ (s : State) (p : Pend) (rs : RasterSel) (d : BitVec 4) (r : RasterTarget) (body rest : List Byte)
    (runs : List (Word × Nat)) (ds : List (Fin 10)),
    s.pend = some p → s.resolveWritable p.cmd rs d = .ok r → u32 s.rPtr ≤ u32 s.sLen → u32 s.sLen ≤ 16777216 →
    readPixels body = some (runs, rest) →
    let intra := s.unread = asciiList ['$', 'S', '$'] ++ body
    let frame := s.unread = asciiList ['$', 'P'] ++ digitText ds ++ asciiList ['$'] ++ body ∧ ds ≠ []
      ∧ digitsValue ds ≤ 4294967295
    let index := BitVec.ofNat 32 (digitsValue ds)
    let count := (runs.map (·.2)).sum
    let stored := fun (i : Instr) (results : Vector Word 8) =>
      ∃ t, exec i s = .next t
        ∧ t = { s with mem := t.mem, results := results, rPtr := BitVec.ofNat 32 (u32 s.sLen - rest.length)
                       statusDone := true, pend := none }
        ∧ t.HoldsWords r.base (r.w * r.h) (fun k => (expandRuns runs).getD k 0)
        ∧ s.KeepsBytes t (inRun r.base (4 * (r.w * r.h)))
    let mismatch := fun (i : Instr) =>
      exec i s = .next { s with faultCode := 6, faultInfo := BitVec.ofNat 32 (min count 0xFFFFFFFF), statusFault := true
                                pend := none }
    (count = r.w * r.h →
      (intra → stored (.parIntra rs d) s.results) ∧ (frame → stored (.parFrame rs d) (s.results.set 0 index)))
    ∧ (count ≠ r.w * r.h → (intra → mismatch (.parIntra rs d)) ∧ (frame → mismatch (.parFrame rs d)))

/-- R223, R228, R247: `PAR.VECS` on a record of legal groups, in any spelling, that ends at the end of the stream or before a marker: it
fills words 0 to 11 of one entry for each group, returns the index and the number of groups, moves `RPTR` behind the last one, and
changes no other byte; with more groups than the table has entries it takes `TableOverflow` with their number. -/
def Obligations.ParVecsFillsTable : Prop :=
  ∀ (s : State) (p : Pend) (ds : List (Fin 10)) (groups : List GroupText) (rest : List Byte),
    s.pend = some p → u32 s.rPtr ≤ u32 s.sLen → u32 s.sLen ≤ 16777216 → natLegal 4294967295 ds →
    (∀ g ∈ groups, g.legal) → endsGroups rest →
    s.unread = markerText 'V' ds ++ groups.flatMap GroupText.text ++ rest →
    (groups.length ≤ 4096 →
      ∃ t, exec .parVecs s = .next t
        ∧ t = { s with mem := t.mem, rPtr := BitVec.ofNat 32 (u32 s.sLen - rest.length)
                       results := (s.results.set 0 (BitVec.ofNat 32 (digitsValue ds))).set 1
                        (BitVec.ofNat 32 groups.length)
                       statusDone := true, pend := none }
        ∧ (∀ e g, groups[e]? = some g → t.HoldsWords (vtabBase + 64 * e) 12 (fun k =>
            let x := digitsValue g.x
            let y := digitsValue g.y
            let sx := g.sx.value
            let sy := g.sy.value
            [w32 (x + sx), w32 (y + sy), 0, 0, 1, BitVec.ofNat 32 x, BitVec.ofNat 32 y, w32 sx, w32 sy, 1, 0, 0].getD k 0))
        ∧ s.KeepsBytes t (fun a => ∃ e < groups.length, inRun (vtabBase + 64 * e) 48 a))
    ∧ (4096 < groups.length →
      exec .parVecs s = .next { s with faultCode := 12, faultInfo := BitVec.ofNat 32 (min groups.length 0xFFFFFFFF)
                                       statusFault := true, pend := none })

/-- R222, R235, R243 to R247: with illegal pointers every stream command takes `IllegalConfig(2)`; with legal ones a reader command on
bytes that do not begin with a record of its grammar, wherever they leave it, takes `MalformedStream` with `RPTR`. What begins with a
record is said by the texts of the grammar and not by the reader. -/
def Obligations.StreamFaults : Prop :=
  ∀ (s : State) (p : Pend) (rs : RasterSel) (d : BitVec 4), s.pend = some p →
    let faulted := fun (i : Instr) (code : BitVec 8) (info : Word) =>
      exec i s = .next { s with faultCode := code, faultInfo := info, statusFault := true, pend := none }
    let legal := u32 s.rPtr ≤ u32 s.sLen ∧ u32 s.sLen ≤ 16777216
    let begins := fun (text : List Byte) => ∃ rest, s.unread = text ++ rest
    let number := natLegal 4294967295
    (¬ legal → ∀ i ∈ [Instr.serMeta, .serVecs, .parPeek, .parMeta, .parVecs], faulted i 3 2)
    ∧ (∀ v, ¬ legal → s.resolveRaster p.cmd rs d = .ok v → faulted (.serIntra rs d) 3 2 ∧ faulted (.serFrame rs d) 3 2)
    ∧ (∀ r, ¬ legal → s.resolveWritable p.cmd rs d = .ok r → faulted (.parIntra rs d) 3 2 ∧ faulted (.parFrame rs d) 3 2)
    ∧ (legal → s.unread ≠ [] → ¬ begins (asciiList ['M', 'E', 'T', 'A', '[']) → ¬ begins (asciiList ['$', 'S', '$']) →
        (∀ ds, number ds → ¬ begins (markerText 'P' ds) ∧ ¬ begins (markerText 'V' ds)) → faulted .parPeek 10 s.rPtr)
    ∧ (legal → (∀ w h n, number w → number h → number n → ¬ begins (metaText w h n)) → faulted .parMeta 10 s.rPtr)
    ∧ (∀ r, legal → s.resolveWritable p.cmd rs d = .ok r →
        ((∀ finalDot tokens, (∀ t ∈ tokens, t.legal) →
            ¬ begins (asciiList ['$', 'S', '$'] ++ pixelText finalDot tokens)) → faulted (.parIntra rs d) 10 s.rPtr)
        ∧ ((∀ ds finalDot tokens, number ds → (∀ t ∈ tokens, t.legal) →
            ¬ begins (markerText 'P' ds ++ pixelText finalDot tokens)) → faulted (.parFrame rs d) 10 s.rPtr))
    ∧ (legal →
        (∀ (ds : List (Fin 10)) (groups : List GroupText) (rest : List Byte), number ds → (∀ g ∈ groups, g.legal) →
          endsGroups rest →
          s.unread ≠ markerText 'V' ds ++ groups.flatMap GroupText.text ++ rest) → faulted .parVecs 10 s.rPtr)

/-- R250: for every raster the writer can name, the record that `SER.INTRA` appends, read by `PAR.INTRA` in any state that holds those
bytes, with `RPTR` at its first byte, into a raster of as many pixels, gives back every word. -/
def Obligations.IntraRecordRoundTrip : Prop :=
  ∀ (s : State) (p : Pend) (rs : RasterSel) (d : BitVec 4) (v : RasterView), s.pend = some p →
    s.resolveRaster p.cmd rs d = .ok v → u32 s.rPtr ≤ u32 s.sLen → u32 s.sLen ≤ 16777216 →
    u32 s.sLen + (intraRecord v.pixels).length ≤ 16777216 →
    ∃ t, exec (.serIntra rs d) s = .next t
      ∧ ∀ (u : State) (q : Pend) (rs' : RasterSel) (d' : BitVec 4) (r : RasterTarget), u.pend = some q →
          u.resolveWritable q.cmd rs' d' = .ok r → r.w * r.h = v.w * v.h → u.rPtr = s.sLen → u.sLen = t.sLen →
          (∀ a, inRun (strmBase + u32 s.sLen) (intraRecord v.pixels).length a → u.byteAt a = t.byteAt a) →
          ∃ x, exec (.parIntra rs' d') u = .next x ∧ x.HoldsWords r.base (v.w * v.h) v.pix ∧ x.rPtr = u.sLen
            ∧ x.statusDone = true

/-! ### Programs -/

/-- R91, R92, R107: an execution of a program is a run of the machine on the events that its turns play; a `DO` writes its operands in
the order of R84, issues its command and polls until the completion, whenever that comes; `PARTITION` loads the tiles of the raster,
rows from the top and each from the left, with every pixel in exactly one tile; `SPLIT` loads the sub-blocks of the block in `BLK`
that begin inside the raster, in the same order, and has a meaning only for 2 or 4 of them a side. The form of lines and turns is
the model's (log 17). -/
def Obligations.ProgramLinesDenoteTheirSteps : Prop :=
  (∀ (turns : List Turn) (p q : ProgramRun) (events : List Event), p.machine.agenda = [] →
    ProgramRun.run turns p = some (q, events) →
    Sys2Proof.core.run events.length { p.machine with agenda := events } = .next q.machine)
  ∧ (∀ (m : State) (i : Instr) (values reads : List Word) (rest : List Line) (polls : Nat),
    m.busy = false → m.statusFault = false → m.agenda = [] → i.wf = true → values.length = (operandsIn i).length →
    let args := Vector.ofFn fun k : Fin 8 => (values[k.val]?).getD m.args[k]
    let issued := { m with args := args, pend := some ⟨encode i, args⟩, cmd := encode i, statusDone := false }
    ∃ t events, exec i issued = .next t
      ∧ ProgramRun.run (List.replicate (values.length + 2 + polls) .host ++ [.engine, .host])
          ⟨.doCommand i ((operandsIn i).zip (values.map literal)) :: rest, reads, m⟩
        = some (⟨rest, reads, { t with lastRead := some t.statusWord }⟩, events))
  ∧ ∀ (m : State) (cmd : Word) (rs : RasterSel) (d : BitVec 4) (v : RasterView) (size : Nat)
      (body : Nat → Nat → List Line), m.resolveRaster cmd rs d = .ok v → size ≠ 0 →
    let pass := fun (q : Nat × Nat) =>
      Line.doCommand (.blkLd rs d) [(.x, literal (BitVec.ofNat 32 q.1)), (.y, literal (BitVec.ofNat 32 q.2)),
        (.s, literal (BitVec.ofNat 32 size))] :: body q.1 q.2
    (∃ tiles : List (Nat × Nat), Line.unfold m (.partition rs d size body) = some (tiles.flatMap pass)
      ∧ (let columns := (v.w + size - 1) / size
         tiles.length = columns * ((v.h + size - 1) / size)
         ∧ ∀ k < tiles.length, tiles[k]? = some (k % columns * size, k / columns * size))
      ∧ ∀ x y, x < v.w → y < v.h → ∃! q, q ∈ tiles ∧ (q.1 ≤ x ∧ x < q.1 + size) ∧ (q.2 ≤ y ∧ y < q.2 + size))
    ∧ (∀ k ∈ [2, 4], m.blkSize.toNat = k * size →
      Line.unfold m (.split rs d size body)
        = some ((((List.range (k * k)).map fun e =>
              (u32 m.blkPosX + e % k * size, u32 m.blkPosY + e / k * size)).filter
            fun q => decide (q.1 < v.w) && decide (q.2 < v.h)).flatMap pass))
    ∧ (m.blkSize.toNat ∉ [2 * size, 4 * size] → Line.unfold m (.split rs d size body) = none)
end

