-- ==== Sys2Proof/Laws/Exact.lean ====
section
/-! SUPPORT. What the exact arithmetic of the transform computes, in the real numbers: the value of a `Tower` number, its
sign, the floor and the rounding of a quotient, and the cosines (spec/43_transform.md R161, R181). -/

namespace Sys2Proof.Machine

/-- The real root `s L`. -/
noncomputable def Tower.rootR : Nat → ℝ
  | 0 => 0
  | L + 1 => √(2 + Tower.rootR L)

/-- A number of level 0 as the integer that it is. -/
def Tower.intOf (t : Tower 0) : Int := t

/-- The real number that a `Tower` number stands for. -/
noncomputable def Tower.eval : (L : Nat) → Tower L → ℝ
  | 0, a => (Tower.intOf a : ℝ)
  | L + 1, (a, b) => Tower.eval L a + Tower.eval L b * Tower.rootR (L + 1)

theorem Tower.rootR_nonneg (L : Nat) : 0 ≤ Tower.rootR L := by
  cases L with
  | zero => simp [Tower.rootR]
  | succ L => exact Real.sqrt_nonneg _

theorem Tower.rootR_pos (L : Nat) : 0 < Tower.rootR (L + 1) :=
  Real.sqrt_pos.mpr (by have := Tower.rootR_nonneg L; linarith)

theorem Tower.rootR_sq (L : Nat) : Tower.rootR (L + 1) * Tower.rootR (L + 1) = 2 + Tower.rootR L :=
  Real.mul_self_sqrt (by have := Tower.rootR_nonneg L; linarith)

theorem Tower.rootR_lt_two (L : Nat) : Tower.rootR L < 2 := by
  induction L with
  | zero => simp [Tower.rootR]
  | succ L ih => have h := Tower.rootR_sq L; nlinarith [Tower.rootR_nonneg (L + 1)]

/-! ### The operations -/

theorem Tower.eval_ofInt (L : Nat) (k : Int) : Tower.eval L (Tower.ofInt L k) = k := by
  induction L generalizing k with
  | zero => rfl
  | succ L ih => simp [Tower.ofInt, Tower.eval, ih]

theorem Tower.eval_add (L : Nat) (a b : Tower L) :
    Tower.eval L (Tower.add L a b) = Tower.eval L a + Tower.eval L b := by
  induction L with
  | zero => exact Int.cast_add _ _
  | succ L ih => obtain ⟨p, q⟩ := a; obtain ⟨c, d⟩ := b; simp only [Tower.add, Tower.eval, ih]; ring

theorem Tower.eval_smul (L : Nat) (k : Int) (a : Tower L) :
    Tower.eval L (Tower.smul L k a) = k * Tower.eval L a := by
  induction L with
  | zero => exact Int.cast_mul _ _
  | succ L ih => obtain ⟨a, b⟩ := a; simp only [Tower.smul, Tower.eval, ih]; ring

theorem Tower.eval_root (L : Nat) : Tower.eval L (Tower.root L) = Tower.rootR L := by
  cases L with
  | zero => simp [Tower.root, Tower.eval_ofInt, Tower.rootR]
  | succ L => simp [Tower.root, Tower.eval, Tower.eval_ofInt]

theorem Tower.eval_rootSq (L : Nat) :
    Tower.eval L (Tower.rootSq L) = Tower.rootR (L + 1) * Tower.rootR (L + 1) := by
  rw [Tower.rootR_sq, Tower.rootSq, Tower.eval_add, Tower.eval_ofInt, Tower.eval_root]; norm_num

theorem Tower.eval_mul (L : Nat) (a b : Tower L) :
    Tower.eval L (Tower.mul L a b) = Tower.eval L a * Tower.eval L b := by
  induction L with
  | zero => exact Int.cast_mul _ _
  | succ L ih =>
    obtain ⟨p, q⟩ := a; obtain ⟨c, d⟩ := b
    simp only [Tower.mul, Tower.eval, Tower.eval_add, ih, Tower.eval_rootSq]; ring

theorem Tower.eval_sub (L : Nat) (a b : Tower L) :
    Tower.eval L (Tower.sub L a b) = Tower.eval L a - Tower.eval L b := by
  rw [Tower.sub, Tower.eval_add, Tower.eval_smul]; push_cast; ring

theorem Tower.eval_sum (L : Nat) (ts : List (Tower L)) :
    Tower.eval L (Tower.sum L ts) = (ts.map (Tower.eval L)).sum := by
  induction ts with
  | nil => simp [Tower.sum, Tower.eval_ofInt]
  | cons t ts ih => simp only [Tower.sum, List.foldr_cons, Tower.eval_add, List.map_cons, List.sum_cons]; rw [← ih]; rfl

/-! ### Signs and floors -/

/-- `k` is the sign of `x`. -/
def IsSign (k : Int) (x : ℝ) : Prop := (k = 1 ∧ 0 < x) ∨ (k = 0 ∧ x = 0) ∨ (k = -1 ∧ x < 0)

theorem signOfSum_isSign {sa sb sd : Int} {a b r : ℝ} (hr : 0 < r) (ha : IsSign sa a) (hb : IsSign sb b)
    (hd : IsSign sd (a * a - r * r * (b * b))) : IsSign (signOfSum sa sb sd) (a + b * r) := by
  have hf : a * a - r * r * (b * b) = (a - b * r) * (a + b * r) := by ring
  rcases ha with ⟨rfl, ha⟩ | ⟨rfl, ha⟩ | ⟨rfl, ha⟩ <;> rcases hb with ⟨rfl, hb⟩ | ⟨rfl, hb⟩ | ⟨rfl, hb⟩
  · have := mul_pos hb hr
    exact .inl ⟨by simp [signOfSum], by linarith⟩
  · exact .inl ⟨by simp [signOfSum], by rw [hb]; linarith⟩
  · have h1 : 0 < a - b * r := by nlinarith [mul_pos_of_neg_of_neg hb (neg_neg_of_pos hr)]
    rw [hf] at hd
    rcases hd with ⟨rfl, hd⟩ | ⟨rfl, hd⟩ | ⟨rfl, hd⟩
    · exact .inl ⟨by simp [signOfSum], (pos_iff_pos_of_mul_pos hd).mp h1⟩
    · exact .inr (.inl ⟨by simp [signOfSum], by rcases mul_eq_zero.mp hd with h | h <;> linarith⟩)
    · exact .inr (.inr ⟨by simp [signOfSum], by nlinarith⟩)
  · exact .inl ⟨by simp [signOfSum], by rw [ha, zero_add]; exact mul_pos hb hr⟩
  · exact .inr (.inl ⟨by simp [signOfSum], by rw [ha, hb]; ring⟩)
  · exact .inr (.inr ⟨by simp [signOfSum], by rw [ha, zero_add]; exact mul_neg_of_neg_of_pos hb hr⟩)
  · have h1 : a - b * r < 0 := by nlinarith [mul_pos hb hr]
    rw [hf] at hd
    rcases hd with ⟨rfl, hd⟩ | ⟨rfl, hd⟩ | ⟨rfl, hd⟩
    · exact .inr (.inr ⟨by simp [signOfSum], by nlinarith⟩)
    · exact .inr (.inl ⟨by simp [signOfSum], by rcases mul_eq_zero.mp hd with h | h <;> linarith⟩)
    · exact .inl ⟨by simp [signOfSum], by nlinarith⟩
  · exact .inr (.inr ⟨by simp [signOfSum], by rw [hb]; linarith⟩)
  · have := mul_neg_of_neg_of_pos hb hr
    exact .inr (.inr ⟨by simp [signOfSum], by linarith⟩)

theorem Tower.sign_isSign (L : Nat) (t : Tower L) : IsSign (Tower.sign L t) (Tower.eval L t) := by
  induction L with
  | zero =>
    change IsSign (Tower.intOf t).sign (Tower.intOf t : ℝ)
    obtain h | h | h := lt_trichotomy (Tower.intOf t) 0
    · exact .inr (.inr ⟨Int.sign_eq_neg_one_of_neg h, by exact_mod_cast h⟩)
    · exact .inr (.inl ⟨by rw [h]; rfl, by exact_mod_cast h⟩)
    · exact .inl ⟨Int.sign_eq_one_of_pos h, by exact_mod_cast h⟩
  | succ L ih =>
    obtain ⟨a, b⟩ := t
    refine signOfSum_isSign (Tower.rootR_pos L) (ih a) (ih b) ?_
    have h := ih (Tower.sub L (Tower.mul L a a) (Tower.mul L (Tower.rootSq L) (Tower.mul L b b)))
    rwa [Tower.eval_sub, Tower.eval_mul, Tower.eval_mul, Tower.eval_mul, Tower.eval_rootSq] at h

theorem IsSign.nonneg_iff {k : Int} {x : ℝ} (h : IsSign k x) : 0 ≤ k ↔ 0 ≤ x := by
  rcases h with ⟨rfl, h⟩ | ⟨rfl, h⟩ | ⟨rfl, h⟩
  · exact ⟨fun _ => h.le, fun _ => by decide⟩
  · exact ⟨fun _ => h.ge, fun _ => le_refl _⟩
  · exact ⟨fun h' => absurd h' (by decide), fun h' => absurd h' (not_le.mpr h)⟩

theorem Tower.abs_eval_le_bound (L : Nat) (t : Tower L) : |Tower.eval L t| ≤ Tower.bound L t := by
  induction L with
  | zero =>
    change |(Tower.intOf t : ℝ)| ≤ (((Tower.intOf t).natAbs : Nat) : ℝ)
    rw [Nat.cast_natAbs, Int.cast_abs]
  | succ L ih =>
    obtain ⟨a, b⟩ := t
    have h1 : |Tower.eval L b * Tower.rootR (L + 1)| ≤ Tower.bound L b * 2 := by
      rw [abs_mul, abs_of_pos (Tower.rootR_pos L)]
      exact mul_le_mul (ih b) (Tower.rootR_lt_two _).le (Tower.rootR_nonneg _) (Nat.cast_nonneg _)
    have h2 := abs_add_le (Tower.eval L a) (Tower.eval L b * Tower.rootR (L + 1))
    have h3 := ih a
    simp only [Tower.eval, Tower.bound]; push_cast; linarith

theorem Tower.atLeast_iff (L : Nat) (t : Tower L) (den : Nat) (hd : 0 < den) (k : Int) :
    Tower.atLeast L t den k = true ↔ (k : ℝ) ≤ Tower.eval L t / den := by
  have h := (Tower.sign_isSign L (Tower.sub L t (Tower.ofInt L (den * k)))).nonneg_iff
  rw [Tower.eval_sub, Tower.eval_ofInt] at h
  have hd' : (0 : ℝ) < den := by exact_mod_cast hd
  rw [Tower.atLeast, decide_eq_true_eq, h, le_div_iff₀ hd']
  push_cast
  constructor <;> intro h <;> linarith

theorem Tower.floorFrom_eq (L : Nat) (t : Tower L) (den : Nat) (hd : 0 < den) (bits : Nat) (lo : Int)
    (h1 : (lo : ℝ) ≤ Tower.eval L t / den) (h2 : Tower.eval L t / den < lo + 2 ^ bits) :
    Tower.floorFrom L t den bits lo = ⌊Tower.eval L t / den⌋ := by
  induction bits generalizing lo with
  | zero => exact (Int.floor_eq_iff.mpr ⟨h1, by simpa using h2⟩).symm
  | succ bits ih =>
    have hc : ((lo + 2 ^ bits : Int) : ℝ) = lo + 2 ^ bits := by push_cast; ring
    have hp : (lo : ℝ) + 2 ^ (bits + 1) = lo + 2 ^ bits + 2 ^ bits := by ring
    rw [Tower.floorFrom]
    split
    · next h => exact ih _ ((Tower.atLeast_iff L t den hd _).mp h) (by rw [hc, ← hp]; exact h2)
    · next h =>
      refine ih _ h1 ?_
      rw [← hc]
      exact not_le.mp fun h' => h ((Tower.atLeast_iff L t den hd _).mpr h')

/-- The floor of a quotient is the floor of the real quotient. -/
theorem Tower.floorDiv_eq (L : Nat) (t : Tower L) (den : Nat) (hd : 0 < den) :
    Tower.floorDiv L t den = ⌊Tower.eval L t / den⌋ := by
  have hd' : (0 : ℝ) < den := by exact_mod_cast hd
  set q := Tower.bound L t / den + 1 with hq
  have hlog : q < 2 ^ (Nat.log2 q + 1) := Nat.lt_log2_self
  have hb : Tower.bound L t < den * q := by
    have := Nat.div_add_mod (Tower.bound L t) den
    have := Nat.mod_lt (Tower.bound L t) hd
    rw [hq, Nat.mul_add, Nat.mul_one]; omega
  have habs : |Tower.eval L t / den| < 2 ^ (Nat.log2 q + 1) := by
    rw [abs_div, abs_of_pos hd', div_lt_iff₀ hd']
    have h1 : (Tower.bound L t : ℝ) < den * q := by exact_mod_cast hb
    have h2 : (q : ℝ) < 2 ^ (Nat.log2 q + 1) := by exact_mod_cast hlog
    have h3 := Tower.abs_eval_le_bound L t
    nlinarith
  have h := abs_lt.mp habs
  refine Tower.floorFrom_eq L t den hd _ _ ?_ ?_
  · push_cast; exact h.1.le
  · push_cast; rw [pow_succ (2 : ℝ) (Nat.log2 q + 1)]; linarith [h.2]

/-- `rnd(t / den)`: the floor of the real quotient plus a half (R15). -/
theorem Tower.rndDiv_eq (L : Nat) (t : Tower L) (den : Nat) (hd : 0 < den) :
    Tower.rndDiv L t den = ⌊Tower.eval L t / den + 1 / 2⌋ := by
  have hd' : (0 : ℝ) < den := by exact_mod_cast hd
  rw [Tower.rndDiv, Tower.floorDiv_eq L _ _ (by omega), Tower.eval_add, Tower.eval_smul, Tower.eval_ofInt]
  congr 1
  push_cast
  field_simp

/-! ### Cosines -/

theorem Tower.rootR_eq_cos (L : Nat) : Tower.rootR L = 2 * Real.cos (Real.pi / 2 ^ (L + 1)) := by
  induction L with
  | zero => simp [Tower.rootR]
  | succ L ih =>
    have hpi := Real.pi_pos
    have harg : 2 * (Real.pi / 2 ^ (L + 1 + 1)) = Real.pi / 2 ^ (L + 1) := by rw [pow_succ (2 : ℝ) (L + 1)]; field_simp
    have hcos : 0 ≤ Real.cos (Real.pi / 2 ^ (L + 1 + 1)) := by
      refine Real.cos_nonneg_of_neg_pi_div_two_le_of_le ?_ ?_
      · have : 0 ≤ Real.pi / 2 ^ (L + 1 + 1) := by positivity
        linarith
      · refine div_le_div_of_nonneg_left hpi.le (by norm_num) ?_
        calc (2 : ℝ) = 2 ^ 1 := by norm_num
          _ ≤ 2 ^ (L + 1 + 1) := pow_le_pow_right₀ (by norm_num) (by omega)
    rw [Tower.rootR, ih, ← harg, Real.cos_two_mul]
    rw [show (2 : ℝ) + 2 * (2 * Real.cos (Real.pi / 2 ^ (L + 1 + 1)) ^ 2 - 1)
      = (2 * Real.cos (Real.pi / 2 ^ (L + 1 + 1))) ^ 2 by ring]
    exact Real.sqrt_sq (by linarith)

theorem Tower.eval_oddFactor (L : Nat) (w : Nat → Tower L) (φ : ℝ)
    (hw : ∀ i, Tower.eval L (w i) = 2 * Real.cos (2 * i * φ)) (m : Nat) :
    Tower.eval L (Tower.oddFactor L w m) * (2 * Real.cos φ) = 2 * Real.cos ((2 * m + 1) * φ) := by
  induction m with
  | zero => simp [Tower.oddFactor, Tower.eval_ofInt]
  | succ m ih =>
    rw [Tower.oddFactor, Tower.eval_sub, sub_mul, ih, hw]
    have h1 := Real.cos_add (2 * (m + 1) * φ) φ
    have h2 := Real.cos_sub (2 * (m + 1) * φ) φ
    rw [show (2 * ((m : ℝ) + 1) * φ) + φ = (2 * ((m : ℝ) + 1) + 1) * φ by ring] at h1
    rw [show (2 * ((m : ℝ) + 1) * φ) - φ = (2 * (m : ℝ) + 1) * φ by ring] at h2
    push_cast
    rw [h1, h2]; ring

theorem Tower.eval_cosine (L j : Nat) :
    Tower.eval L (Tower.cosine L j) = 2 * Real.cos (j * (Real.pi / 2 ^ (L + 1))) := by
  induction L generalizing j with
  | zero =>
    have hj : j = j % 4 + 4 * (j / 4) := (Nat.mod_add_div j 4).symm
    have hper : Real.cos (j * (Real.pi / 2 ^ (0 + 1))) = Real.cos ((j % 4 : Nat) * (Real.pi / 2)) := by
      conv_lhs => rw [hj]
      push_cast
      rw [show (((j % 4 : Nat) : ℝ) + 4 * ((j / 4 : Nat) : ℝ)) * (Real.pi / 2 ^ (0 + 1))
        = ((j % 4 : Nat) : ℝ) * (Real.pi / 2) + ((j / 4 : Nat) : ℝ) * (2 * Real.pi) by ring]
      exact Real.cos_add_nat_mul_two_pi _ _
    rw [hper, Tower.cosine]
    have h4 : j % 4 < 4 := Nat.mod_lt _ (by norm_num)
    interval_cases h : j % 4
    · simp [Tower.eval_ofInt]
    · simp [Tower.eval_ofInt]
    · rw [if_neg (by decide), if_pos rfl, Tower.eval_ofInt]
      rw [show ((2 : Nat) : ℝ) * (Real.pi / 2) = Real.pi by push_cast; ring, Real.cos_pi]
      norm_num
    · rw [if_neg (by decide), if_neg (by decide), Tower.eval_ofInt]
      rw [show ((3 : Nat) : ℝ) * (Real.pi / 2) = Real.pi / 2 + Real.pi by push_cast; ring, Real.cos_add_pi]
      simp
  | succ L ih =>
    have harg : ∀ i : Nat, (i : ℝ) * (Real.pi / 2 ^ (L + 1)) = 2 * i * (Real.pi / 2 ^ (L + 1 + 1)) := by
      intro i; rw [pow_succ (2 : ℝ) (L + 1)]; field_simp
    by_cases h : j % 2 = 0
    · have hj : j = 2 * (j / 2) := by omega
      have hc : Tower.cosine (L + 1) j = (Tower.cosine L (j / 2), Tower.ofInt L 0) := if_pos h
      rw [hc]
      simp only [Tower.eval, Tower.eval_ofInt, ih, harg]
      conv_rhs => rw [hj]
      push_cast; ring_nf
    · have hj : j = 2 * (j / 2) + 1 := by omega
      have hc : Tower.cosine (L + 1) j = (Tower.ofInt L 0, Tower.oddFactor L (Tower.cosine L) (j / 2)) := if_neg h
      rw [hc]
      have ho := Tower.eval_oddFactor L (Tower.cosine L) (Real.pi / 2 ^ (L + 1 + 1))
        (fun i => by rw [ih, harg]) (j / 2)
      simp only [Tower.eval, Tower.eval_ofInt]
      rw [Tower.rootR_eq_cos, ho]
      conv_rhs => rw [hj]
      push_cast; ring_nf

/-- `2·cos(j·π/2^(L+1))`, for any `j`. -/
theorem Tower.eval_twoCos (L j : Nat) :
    Tower.eval L (Tower.twoCos L j) = 2 * Real.cos (j * (Real.pi / 2 ^ (L + 1))) := by
  have hN : (2 : ℝ) ^ (L + 2) * (Real.pi / 2 ^ (L + 1)) = 2 * Real.pi := by
    rw [pow_succ (2 : ℝ) (L + 1)]; field_simp
  have hper : Real.cos (j * (Real.pi / 2 ^ (L + 1))) = Real.cos ((j % 2 ^ (L + 2) : Nat) * (Real.pi / 2 ^ (L + 1))) := by
    conv_lhs => rw [show j = j % 2 ^ (L + 2) + 2 ^ (L + 2) * (j / 2 ^ (L + 2)) from (Nat.mod_add_div _ _).symm]
    push_cast
    rw [show (((j % 2 ^ (L + 2) : Nat) : ℝ) + 2 ^ (L + 2) * ((j / 2 ^ (L + 2) : Nat) : ℝ)) * (Real.pi / 2 ^ (L + 1))
      = ((j % 2 ^ (L + 2) : Nat) : ℝ) * (Real.pi / 2 ^ (L + 1))
        + ((j / 2 ^ (L + 2) : Nat) : ℝ) * (2 ^ (L + 2) * (Real.pi / 2 ^ (L + 1))) by ring, hN]
    exact Real.cos_add_nat_mul_two_pi _ _
  have hlt : j % 2 ^ (L + 2) < 2 ^ (L + 2) := Nat.mod_lt _ (by positivity)
  rw [hper, Tower.twoCos]
  split
  · rw [Tower.eval_cosine, Nat.cast_sub hlt.le, sub_mul]
    push_cast
    rw [hN, Real.cos_two_pi_sub]
  · rw [Tower.eval_cosine]

/-- `basis` is `2·√n·T_n(k, x)` for `n = 2^L`, `L ≥ 1`. -/
theorem Tower.eval_basis (L k x : Nat) (hL : 1 ≤ L) :
    Tower.eval L (Tower.basis L k x) = 2 * √((2 ^ L : Nat) : ℝ) * basisR (2 ^ L) k x := by
  have hn : (0 : ℝ) < ((2 ^ L : Nat) : ℝ) := by positivity
  have hs : √((2 ^ L : Nat) : ℝ) ≠ 0 := (Real.sqrt_pos.mpr hn).ne'
  rw [Tower.basis, basisR]
  split
  · rw [Tower.eval_ofInt]; field_simp; norm_num
  · rw [Tower.eval_mul, Tower.eval_twoCos, Tower.eval_twoCos]
    have h1 : ((2 ^ (L - 1) : Nat) : ℝ) * (Real.pi / 2 ^ (L + 1)) = Real.pi / 4 := by
      obtain ⟨M, rfl⟩ : ∃ M, L = M + 1 := ⟨L - 1, by omega⟩
      rw [show M + 1 - 1 = M by omega]
      push_cast
      rw [pow_succ (2 : ℝ) (M + 1), pow_succ (2 : ℝ) M]; field_simp; norm_num
    have h2 : (((2 * x + 1) * k : Nat) : ℝ) * (Real.pi / 2 ^ (L + 1))
        = (2 * x + 1) * k * Real.pi / (2 * ((2 ^ L : Nat) : ℝ)) := by
      push_cast; rw [pow_succ (2 : ℝ) L]; field_simp
    rw [h1, h2, Real.cos_pi_div_four, Real.sqrt_div (by norm_num)]
    field_simp

end Sys2Proof.Machine
end

