-- ==== Sys2Proof/Laws/Memory.lean ====
section
/-! SUPPORT. The memory: what a byte or a word reads as after a store, and that a store keeps the canonical form. -/

namespace Sys2Proof.Machine

theorem Memory.find_append (m n : Memory) (a : Nat) :
    Memory.find (m ++ n) a = (Memory.find m a).or (Memory.find n a) := by
  induction m with
  | nil => simp [Memory.find]
  | cons c m ih =>
    obtain ⟨b, v⟩ := c
    by_cases h : b = a <;> simp [Memory.find, h, ih]

theorem Memory.find_filter (m : Memory) (q : Nat → Bool) (a : Nat) :
    Memory.find (m.filter fun c => q c.1) a = if q a then Memory.find m a else none := by
  induction m with
  | nil => simp [Memory.find]
  | cons c m ih =>
    obtain ⟨b, v⟩ := c
    by_cases hb : b = a
    · subst hb
      cases hq : q b <;> simp [Memory.find, hq, ih]
    · cases hq : q b <;> simp [Memory.find, hq, hb, ih]

theorem Memory.find_run (base : Nat) (bs : List Byte) (a : Nat) :
    Memory.find (Memory.run base bs) a = if base ≤ a then bs[a - base]? else none := by
  induction bs generalizing base with
  | nil => simp [Memory.run, Memory.find]
  | cons b bs ih =>
    simp only [Memory.run, Memory.find, ih]
    by_cases h : base = a
    · subst h; simp
    · by_cases h2 : base ≤ a
      · obtain ⟨k, rfl⟩ : ∃ k, a = base + (k + 1) := ⟨a - base - 1, by omega⟩
        have e1 : base + (k + 1) - (base + 1) = k := by omega
        have e2 : base + (k + 1) - base = k + 1 := by omega
        have e3 : base + 1 ≤ base + (k + 1) := by omega
        rw [if_neg h, if_pos e3, if_pos h2, e1, e2]; rfl
      · have : ¬ base + 1 ≤ a := by omega
        simp [h, h2, this]

/-- A store, read back: the bytes stored where they were stored, and everywhere else what was listed before. -/
theorem Memory.find_writeRun (m : Memory) (base : Nat) (bs : List Byte) (a : Nat) :
    Memory.find (m.writeRun base bs) a
      = if base ≤ a ∧ a < base + bs.length then bs[a - base]? else Memory.find m a := by
  have h1 := Memory.find_filter m (fun x => decide (x < base)) a
  have h2 := Memory.find_filter m (fun x => decide (base + bs.length ≤ x)) a
  simp only [decide_eq_true_eq] at h1 h2
  simp only [Memory.writeRun, Memory.find_append, Memory.find_run, h1, h2]
  by_cases ha : a < base
  · have e1 : ¬ base ≤ a := by omega
    have e2 : ¬ base + bs.length ≤ a := by omega
    simp [ha, e1, e2]
  · have e1 : base ≤ a := by omega
    by_cases hb : a < base + bs.length
    · have e2 : ¬ base + bs.length ≤ a := by omega
      have e3 : a - base < bs.length := by omega
      simp [ha, e1, hb, e2, e3]
    · have e2 : base + bs.length ≤ a := by omega
      have e3 : bs[a - base]? = none := by simp; omega
      simp [ha, e1, hb, e2, e3]

theorem Memory.run_bounds (base : Nat) (bs : List Byte) :
    ∀ c ∈ Memory.run base bs, base ≤ c.1 ∧ c.1 < base + bs.length := by
  induction bs generalizing base with
  | nil => simp [Memory.run]
  | cons b bs ih =>
    intro c hc
    rcases List.mem_cons.mp hc with rfl | hc
    · simp
    · have := ih (base + 1) c hc
      simp only [List.length_cons]; omega

theorem Memory.run_wf (base : Nat) (bs : List Byte) : Memory.wf (Memory.run base bs) := by
  induction bs generalizing base with
  | nil => simp [Memory.wf, Memory.run]
  | cons b bs ih =>
    refine List.pairwise_cons.mpr ⟨fun c hc => ?_, ih (base + 1)⟩
    have := Memory.run_bounds (base + 1) bs c hc
    simp only; omega

/-- Every store keeps the canonical form of the memory. -/
theorem Memory.writeRun_wf (m : Memory) (base : Nat) (bs : List Byte) (h : m.wf) : (m.writeRun base bs).wf := by
  refine List.pairwise_append.mpr ⟨List.pairwise_append.mpr ⟨h.filter _, Memory.run_wf base bs, ?_⟩, h.filter _, ?_⟩
  · intro c hc d hd
    have h1 := (List.mem_filter.mp hc).2
    have h2 := Memory.run_bounds base bs d hd
    simp only [decide_eq_true_eq] at h1; omega
  · intro c hc d hd
    have h2 := (List.mem_filter.mp hd).2
    simp only [decide_eq_true_eq] at h2
    rcases List.mem_append.mp hc with hc | hc
    · have h1 := (List.mem_filter.mp hc).2
      simp only [decide_eq_true_eq] at h1; omega
    · have h1 := Memory.run_bounds base bs c hc
      omega

/-- A cell of the memory after a store is one of the memory before, outside the stored bytes, or one of those stored. -/
theorem Memory.mem_writeRun {m : Memory} {base : Nat} {bs : List Byte} {c : Host.Cell} (h : c ∈ m.writeRun base bs) :
    (c ∈ m ∧ (c.1 < base ∨ base + bs.length ≤ c.1)) ∨ c ∈ Memory.run base bs := by
  simp only [Memory.writeRun, List.mem_append, List.mem_filter, decide_eq_true_eq] at h
  rcases h with (⟨h, hb⟩ | h) | ⟨h, hb⟩
  · exact .inl ⟨h, .inl hb⟩
  · exact .inr h
  · exact .inl ⟨h, .inr hb⟩

theorem Memory.mem_run {base : Nat} {bs : List Byte} {c : Host.Cell} (h : c ∈ Memory.run base bs) :
    base ≤ c.1 ∧ bs[c.1 - base]? = some c.2 := by
  induction bs generalizing base with
  | nil => simp [Memory.run] at h
  | cons b bs ih =>
    rcases List.mem_cons.mp h with rfl | h
    · simp
    · obtain ⟨h1, h2⟩ := ih h
      have e : c.1 - base = (c.1 - (base + 1)) + 1 := by omega
      exact ⟨by omega, by rw [e]; simpa using h2⟩

/-! ### Bytes and words of the state -/

/-- One byte after a store. -/
theorem State.byteAt_writeBytes (s : State) (base : Nat) (bs : List Byte) (a : Nat) :
    (s.writeBytes base bs).byteAt a
      = if base ≤ a ∧ a < base + bs.length then (bs[a - base]?).getD 0#8 else s.byteAt a := by
  simp only [State.byteAt, State.writeBytes, Memory.find_writeRun]
  split
  · next h =>
    have : a - base < bs.length := by omega
    simp [this]
  · rfl

theorem State.byteAt_writeBytes_outside (s : State) (base : Nat) (bs : List Byte) (a : Nat)
    (h : a < base ∨ base + bs.length ≤ a) : (s.writeBytes base bs).byteAt a = s.byteAt a := by
  rw [State.byteAt_writeBytes, if_neg (by omega)]

theorem wordBytes_length (w : Word) : (wordBytes w).length = 4 := rfl

theorem wordBytes_flatMap_length (ws : List Word) : (ws.flatMap wordBytes).length = 4 * ws.length := by
  induction ws with
  | nil => rfl
  | cons w ws ih => simp only [List.flatMap_cons, List.length_append, ih, wordBytes_length, List.length_cons]; omega

theorem wordBytes_flatMap_getElem (ws : List Word) (k j : Nat) (hk : k < ws.length) (hj : j < 4) :
    (ws.flatMap wordBytes)[4 * k + j]? = (wordBytes ws[k])[j]? := by
  induction ws generalizing k with
  | nil => simp at hk
  | cons w ws ih =>
    cases k with
    | zero =>
      simp only [List.flatMap_cons, Nat.mul_zero, Nat.zero_add, List.getElem_cons_zero]
      rw [List.getElem?_append_left (by rw [wordBytes_length]; exact hj)]
    | succ k =>
      simp only [List.flatMap_cons, List.getElem_cons_succ]
      rw [List.getElem?_append_right (by rw [wordBytes_length]; omega), wordBytes_length,
        ← ih k (by simpa using hk)]
      congr 1; omega

/-- The four bytes of a word make the word. -/
theorem wordBytes_join (w : Word) :
    w.extractLsb' 24 8 ++ w.extractLsb' 16 8 ++ w.extractLsb' 8 8 ++ w.extractLsb' 0 8 = w := by
  apply BitVec.eq_of_getLsbD_eq
  intro i hi
  simp only [BitVec.getLsbD_append, BitVec.getLsbD_extractLsb']
  by_cases h1 : i < 8
  · simp [h1]
  · by_cases h2 : i - 8 < 8
    · have : 8 + (i - 8) = i := by omega
      simp [h1, h2, this]
    · by_cases h3 : i - 8 - 8 < 8
      · have : 16 + (i - 8 - 8) = i := by omega
        simp [h1, h2, h3, this]
      · have e : 24 + (i - 8 - 8 - 8) = i := by omega
        have h4 : i - 8 - 8 - 8 < 8 := by omega
        simp [h1, h2, h3, h4, e]

/-- A word stored by `writeWords`, read back. -/
theorem State.wordAt_writeWords_inside (s : State) (base : Nat) (ws : List Word) (k : Nat) (hk : k < ws.length) :
    (s.writeWords base ws).wordAt (base + 4 * k) = ws[k] := by
  have key : ∀ j, j < 4 → (s.writeWords base ws).byteAt (base + 4 * k + j) = ((wordBytes ws[k])[j]?).getD 0#8 := by
    intro j hj
    rw [State.writeWords, State.byteAt_writeBytes, wordBytes_flatMap_length, if_pos (by omega)]
    have : base + 4 * k + j - base = 4 * k + j := by omega
    rw [this, wordBytes_flatMap_getElem ws k j hk hj]
  have k0 := key 0 (by omega)
  rw [Nat.add_zero] at k0
  rw [State.wordAt, k0, key 1 (by omega), key 2 (by omega), key 3 (by omega)]
  exact wordBytes_join _

/-- A byte outside the words stored by `writeWords` reads as before. -/
theorem State.byteAt_writeWords_outside (s : State) (base : Nat) (ws : List Word) (a : Nat)
    (h : a < base ∨ base + 4 * ws.length ≤ a) : (s.writeWords base ws).byteAt a = s.byteAt a :=
  State.byteAt_writeBytes_outside s base _ a (by rw [wordBytes_flatMap_length]; exact h)

/-- A word outside the words stored by `writeWords` reads as before. -/
theorem State.wordAt_writeWords_outside (s : State) (base : Nat) (ws : List Word) (a : Nat)
    (h : a + 4 ≤ base ∨ base + 4 * ws.length ≤ a) : (s.writeWords base ws).wordAt a = s.wordAt a := by
  simp only [State.wordAt]
  rw [State.byteAt_writeWords_outside s base ws a (by omega),
    State.byteAt_writeWords_outside s base ws (a + 1) (by omega),
    State.byteAt_writeWords_outside s base ws (a + 2) (by omega),
    State.byteAt_writeWords_outside s base ws (a + 3) (by omega)]

theorem State.writeWord_eq_writeWords (s : State) (a : Nat) (w : Word) : s.writeWord a w = s.writeWords a [w] := by
  simp [State.writeWord, State.writeWords]

/-- A stored word, read back. -/
theorem State.wordAt_writeWord (s : State) (a : Nat) (w : Word) : (s.writeWord a w).wordAt a = w := by
  rw [State.writeWord_eq_writeWords]
  exact State.wordAt_writeWords_inside s a [w] 0 (by simp)

/-- A byte outside a stored word reads as before. -/
theorem State.byteAt_writeWord_outside (s : State) (b : Nat) (w : Word) (a : Nat) (h : a < b ∨ b + 4 ≤ a) :
    (s.writeWord b w).byteAt a = s.byteAt a := by
  rw [State.writeWord_eq_writeWords]
  exact State.byteAt_writeWords_outside s b [w] a (by simpa using h)

/-- Every store of the state keeps the memory's canonical form. -/
theorem State.writeBytes_wf (s : State) (base : Nat) (bs : List Byte) (h : s.mem.wf) :
    (s.writeBytes base bs).mem.wf := Memory.writeRun_wf s.mem base bs h

theorem State.writeWords_wf (s : State) (base : Nat) (ws : List Word) (h : s.mem.wf) :
    (s.writeWords base ws).mem.wf := State.writeBytes_wf s base _ h

theorem State.writeWord_wf (s : State) (a : Nat) (w : Word) (h : s.mem.wf) : (s.writeWord a w).mem.wf :=
  State.writeBytes_wf s a _ h

/-- The memory after hardware reset is in canonical form. -/
theorem State.reset_mem_wf : State.reset.mem.wf := List.Pairwise.nil

end Sys2Proof.Machine
end

