-- ==== Sys2Proof/Laws/State.lean ====
section
/-! SUPPORT. What each update of the state leaves in each field, each by `rfl`: no proof unfolds a record update. -/

namespace Sys2Proof.Machine

variable (s : State)

/-! ### `State.setResult` -/

@[simp] theorem State.setResult_ieDone (k : Fin 8) (v : Word) : (s.setResult k v).ieDone = s.ieDone := rfl
@[simp] theorem State.setResult_ieFault (k : Fin 8) (v : Word) : (s.setResult k v).ieFault = s.ieFault := rfl
@[simp] theorem State.setResult_ieCmdErr (k : Fin 8) (v : Word) : (s.setResult k v).ieCmdErr = s.ieCmdErr := rfl
@[simp] theorem State.setResult_statusDone (k : Fin 8) (v : Word) : (s.setResult k v).statusDone = s.statusDone := rfl
@[simp] theorem State.setResult_statusFault (k : Fin 8) (v : Word) : (s.setResult k v).statusFault = s.statusFault :=
  rfl
@[simp] theorem State.setResult_statusCmdErr (k : Fin 8) (v : Word) : (s.setResult k v).statusCmdErr = s.statusCmdErr :=
  rfl
@[simp] theorem State.setResult_cmd (k : Fin 8) (v : Word) : (s.setResult k v).cmd = s.cmd := rfl
@[simp] theorem State.setResult_faultCode (k : Fin 8) (v : Word) : (s.setResult k v).faultCode = s.faultCode := rfl
@[simp] theorem State.setResult_faultInfo (k : Fin 8) (v : Word) : (s.setResult k v).faultInfo = s.faultInfo := rfl
@[simp] theorem State.setResult_frameW (k : Fin 8) (v : Word) : (s.setResult k v).frameW = s.frameW := rfl
@[simp] theorem State.setResult_frameH (k : Fin 8) (v : Word) : (s.setResult k v).frameH = s.frameH := rfl
@[simp] theorem State.setResult_refCap (k : Fin 8) (v : Word) : (s.setResult k v).refCap = s.refCap := rfl
@[simp] theorem State.setResult_madTol (k : Fin 8) (v : Word) : (s.setResult k v).madTol = s.madTol := rfl
@[simp] theorem State.setResult_edgeThr (k : Fin 8) (v : Word) : (s.setResult k v).edgeThr = s.edgeThr := rfl
@[simp] theorem State.setResult_blkPosX (k : Fin 8) (v : Word) : (s.setResult k v).blkPosX = s.blkPosX := rfl
@[simp] theorem State.setResult_blkPosY (k : Fin 8) (v : Word) : (s.setResult k v).blkPosY = s.blkPosY := rfl
@[simp] theorem State.setResult_blkSize (k : Fin 8) (v : Word) : (s.setResult k v).blkSize = s.blkSize := rfl
@[simp] theorem State.setResult_blkEdge (k : Fin 8) (v : Word) : (s.setResult k v).blkEdge = s.blkEdge := rfl
@[simp] theorem State.setResult_splSize (k : Fin 8) (v : Word) : (s.setResult k v).splSize = s.splSize := rfl
@[simp] theorem State.setResult_coefSize (k : Fin 8) (v : Word) : (s.setResult k v).coefSize = s.coefSize := rfl
@[simp] theorem State.setResult_emapW (k : Fin 8) (v : Word) : (s.setResult k v).emapW = s.emapW := rfl
@[simp] theorem State.setResult_emapH (k : Fin 8) (v : Word) : (s.setResult k v).emapH = s.emapH := rfl
@[simp] theorem State.setResult_sLen (k : Fin 8) (v : Word) : (s.setResult k v).sLen = s.sLen := rfl
@[simp] theorem State.setResult_rPtr (k : Fin 8) (v : Word) : (s.setResult k v).rPtr = s.rPtr := rfl
@[simp] theorem State.setResult_args (k : Fin 8) (v : Word) : (s.setResult k v).args = s.args := rfl
@[simp] theorem State.setResult_results (k : Fin 8) (v : Word) : (s.setResult k v).results = s.results.set k v := rfl
@[simp] theorem State.setResult_refs (k : Fin 8) (v : Word) : (s.setResult k v).refs = s.refs := rfl
@[simp] theorem State.setResult_pend (k : Fin 8) (v : Word) : (s.setResult k v).pend = s.pend := rfl
@[simp] theorem State.setResult_mem (k : Fin 8) (v : Word) : (s.setResult k v).mem = s.mem := rfl
@[simp] theorem State.setResult_epoch (k : Fin 8) (v : Word) : (s.setResult k v).epoch = s.epoch := rfl
@[simp] theorem State.setResult_agenda (k : Fin 8) (v : Word) : (s.setResult k v).agenda = s.agenda := rfl
@[simp] theorem State.setResult_lastRead (k : Fin 8) (v : Word) : (s.setResult k v).lastRead = s.lastRead := rfl
@[simp] theorem State.setResult_byteAt (k : Fin 8) (v : Word) (x : Nat) : (s.setResult k v).byteAt x = s.byteAt x := rfl
@[simp] theorem State.setResult_wordAt (k : Fin 8) (v : Word) (x : Nat) : (s.setResult k v).wordAt x = s.wordAt x := rfl

/-! ### `State.setResults` -/

@[simp] theorem State.setResults_ieDone (l : List Word) : (s.setResults l).ieDone = s.ieDone := rfl
@[simp] theorem State.setResults_ieFault (l : List Word) : (s.setResults l).ieFault = s.ieFault := rfl
@[simp] theorem State.setResults_ieCmdErr (l : List Word) : (s.setResults l).ieCmdErr = s.ieCmdErr := rfl
@[simp] theorem State.setResults_statusDone (l : List Word) : (s.setResults l).statusDone = s.statusDone := rfl
@[simp] theorem State.setResults_statusFault (l : List Word) : (s.setResults l).statusFault = s.statusFault := rfl
@[simp] theorem State.setResults_statusCmdErr (l : List Word) : (s.setResults l).statusCmdErr = s.statusCmdErr := rfl
@[simp] theorem State.setResults_cmd (l : List Word) : (s.setResults l).cmd = s.cmd := rfl
@[simp] theorem State.setResults_faultCode (l : List Word) : (s.setResults l).faultCode = s.faultCode := rfl
@[simp] theorem State.setResults_faultInfo (l : List Word) : (s.setResults l).faultInfo = s.faultInfo := rfl
@[simp] theorem State.setResults_frameW (l : List Word) : (s.setResults l).frameW = s.frameW := rfl
@[simp] theorem State.setResults_frameH (l : List Word) : (s.setResults l).frameH = s.frameH := rfl
@[simp] theorem State.setResults_refCap (l : List Word) : (s.setResults l).refCap = s.refCap := rfl
@[simp] theorem State.setResults_madTol (l : List Word) : (s.setResults l).madTol = s.madTol := rfl
@[simp] theorem State.setResults_edgeThr (l : List Word) : (s.setResults l).edgeThr = s.edgeThr := rfl
@[simp] theorem State.setResults_blkPosX (l : List Word) : (s.setResults l).blkPosX = s.blkPosX := rfl
@[simp] theorem State.setResults_blkPosY (l : List Word) : (s.setResults l).blkPosY = s.blkPosY := rfl
@[simp] theorem State.setResults_blkSize (l : List Word) : (s.setResults l).blkSize = s.blkSize := rfl
@[simp] theorem State.setResults_blkEdge (l : List Word) : (s.setResults l).blkEdge = s.blkEdge := rfl
@[simp] theorem State.setResults_splSize (l : List Word) : (s.setResults l).splSize = s.splSize := rfl
@[simp] theorem State.setResults_coefSize (l : List Word) : (s.setResults l).coefSize = s.coefSize := rfl
@[simp] theorem State.setResults_emapW (l : List Word) : (s.setResults l).emapW = s.emapW := rfl
@[simp] theorem State.setResults_emapH (l : List Word) : (s.setResults l).emapH = s.emapH := rfl
@[simp] theorem State.setResults_sLen (l : List Word) : (s.setResults l).sLen = s.sLen := rfl
@[simp] theorem State.setResults_rPtr (l : List Word) : (s.setResults l).rPtr = s.rPtr := rfl
@[simp] theorem State.setResults_args (l : List Word) : (s.setResults l).args = s.args := rfl
@[simp] theorem State.setResults_results (l : List Word) : (s.setResults l).results = Vector.ofFn fun k => l.getD k.val 0#32 :=
  rfl
@[simp] theorem State.setResults_refs (l : List Word) : (s.setResults l).refs = s.refs := rfl
@[simp] theorem State.setResults_pend (l : List Word) : (s.setResults l).pend = s.pend := rfl
@[simp] theorem State.setResults_mem (l : List Word) : (s.setResults l).mem = s.mem := rfl
@[simp] theorem State.setResults_epoch (l : List Word) : (s.setResults l).epoch = s.epoch := rfl
@[simp] theorem State.setResults_agenda (l : List Word) : (s.setResults l).agenda = s.agenda := rfl
@[simp] theorem State.setResults_lastRead (l : List Word) : (s.setResults l).lastRead = s.lastRead := rfl
@[simp] theorem State.setResults_byteAt (l : List Word) (x : Nat) : (s.setResults l).byteAt x = s.byteAt x := rfl
@[simp] theorem State.setResults_wordAt (l : List Word) (x : Nat) : (s.setResults l).wordAt x = s.wordAt x := rfl

/-! ### `State.writeBytes` -/

@[simp] theorem State.writeBytes_ieDone (b : Nat) (l : List Byte) : (s.writeBytes b l).ieDone = s.ieDone := rfl
@[simp] theorem State.writeBytes_ieFault (b : Nat) (l : List Byte) : (s.writeBytes b l).ieFault = s.ieFault := rfl
@[simp] theorem State.writeBytes_ieCmdErr (b : Nat) (l : List Byte) : (s.writeBytes b l).ieCmdErr = s.ieCmdErr := rfl
@[simp] theorem State.writeBytes_statusDone (b : Nat) (l : List Byte) : (s.writeBytes b l).statusDone = s.statusDone :=
  rfl
@[simp] theorem State.writeBytes_statusFault (b : Nat) (l : List Byte) : (s.writeBytes b l).statusFault = s.statusFault :=
  rfl
@[simp] theorem State.writeBytes_statusCmdErr (b : Nat) (l : List Byte) : (s.writeBytes b l).statusCmdErr = s.statusCmdErr :=
  rfl
@[simp] theorem State.writeBytes_cmd (b : Nat) (l : List Byte) : (s.writeBytes b l).cmd = s.cmd := rfl
@[simp] theorem State.writeBytes_faultCode (b : Nat) (l : List Byte) : (s.writeBytes b l).faultCode = s.faultCode :=
  rfl
@[simp] theorem State.writeBytes_faultInfo (b : Nat) (l : List Byte) : (s.writeBytes b l).faultInfo = s.faultInfo :=
  rfl
@[simp] theorem State.writeBytes_frameW (b : Nat) (l : List Byte) : (s.writeBytes b l).frameW = s.frameW := rfl
@[simp] theorem State.writeBytes_frameH (b : Nat) (l : List Byte) : (s.writeBytes b l).frameH = s.frameH := rfl
@[simp] theorem State.writeBytes_refCap (b : Nat) (l : List Byte) : (s.writeBytes b l).refCap = s.refCap := rfl
@[simp] theorem State.writeBytes_madTol (b : Nat) (l : List Byte) : (s.writeBytes b l).madTol = s.madTol := rfl
@[simp] theorem State.writeBytes_edgeThr (b : Nat) (l : List Byte) : (s.writeBytes b l).edgeThr = s.edgeThr := rfl
@[simp] theorem State.writeBytes_blkPosX (b : Nat) (l : List Byte) : (s.writeBytes b l).blkPosX = s.blkPosX := rfl
@[simp] theorem State.writeBytes_blkPosY (b : Nat) (l : List Byte) : (s.writeBytes b l).blkPosY = s.blkPosY := rfl
@[simp] theorem State.writeBytes_blkSize (b : Nat) (l : List Byte) : (s.writeBytes b l).blkSize = s.blkSize := rfl
@[simp] theorem State.writeBytes_blkEdge (b : Nat) (l : List Byte) : (s.writeBytes b l).blkEdge = s.blkEdge := rfl
@[simp] theorem State.writeBytes_splSize (b : Nat) (l : List Byte) : (s.writeBytes b l).splSize = s.splSize := rfl
@[simp] theorem State.writeBytes_coefSize (b : Nat) (l : List Byte) : (s.writeBytes b l).coefSize = s.coefSize := rfl
@[simp] theorem State.writeBytes_emapW (b : Nat) (l : List Byte) : (s.writeBytes b l).emapW = s.emapW := rfl
@[simp] theorem State.writeBytes_emapH (b : Nat) (l : List Byte) : (s.writeBytes b l).emapH = s.emapH := rfl
@[simp] theorem State.writeBytes_sLen (b : Nat) (l : List Byte) : (s.writeBytes b l).sLen = s.sLen := rfl
@[simp] theorem State.writeBytes_rPtr (b : Nat) (l : List Byte) : (s.writeBytes b l).rPtr = s.rPtr := rfl
@[simp] theorem State.writeBytes_args (b : Nat) (l : List Byte) : (s.writeBytes b l).args = s.args := rfl
@[simp] theorem State.writeBytes_results (b : Nat) (l : List Byte) : (s.writeBytes b l).results = s.results := rfl
@[simp] theorem State.writeBytes_refs (b : Nat) (l : List Byte) : (s.writeBytes b l).refs = s.refs := rfl
@[simp] theorem State.writeBytes_pend (b : Nat) (l : List Byte) : (s.writeBytes b l).pend = s.pend := rfl
@[simp] theorem State.writeBytes_mem (b : Nat) (l : List Byte) : (s.writeBytes b l).mem = s.mem.writeRun b l := rfl
@[simp] theorem State.writeBytes_epoch (b : Nat) (l : List Byte) : (s.writeBytes b l).epoch = s.epoch := rfl
@[simp] theorem State.writeBytes_agenda (b : Nat) (l : List Byte) : (s.writeBytes b l).agenda = s.agenda := rfl
@[simp] theorem State.writeBytes_lastRead (b : Nat) (l : List Byte) : (s.writeBytes b l).lastRead = s.lastRead := rfl

/-! ### `State.writeWords` -/

@[simp] theorem State.writeWords_ieDone (b : Nat) (l : List Word) : (s.writeWords b l).ieDone = s.ieDone := rfl
@[simp] theorem State.writeWords_ieFault (b : Nat) (l : List Word) : (s.writeWords b l).ieFault = s.ieFault := rfl
@[simp] theorem State.writeWords_ieCmdErr (b : Nat) (l : List Word) : (s.writeWords b l).ieCmdErr = s.ieCmdErr := rfl
@[simp] theorem State.writeWords_statusDone (b : Nat) (l : List Word) : (s.writeWords b l).statusDone = s.statusDone :=
  rfl
@[simp] theorem State.writeWords_statusFault (b : Nat) (l : List Word) : (s.writeWords b l).statusFault = s.statusFault :=
  rfl
@[simp] theorem State.writeWords_statusCmdErr (b : Nat) (l : List Word) : (s.writeWords b l).statusCmdErr = s.statusCmdErr :=
  rfl
@[simp] theorem State.writeWords_cmd (b : Nat) (l : List Word) : (s.writeWords b l).cmd = s.cmd := rfl
@[simp] theorem State.writeWords_faultCode (b : Nat) (l : List Word) : (s.writeWords b l).faultCode = s.faultCode :=
  rfl
@[simp] theorem State.writeWords_faultInfo (b : Nat) (l : List Word) : (s.writeWords b l).faultInfo = s.faultInfo :=
  rfl
@[simp] theorem State.writeWords_frameW (b : Nat) (l : List Word) : (s.writeWords b l).frameW = s.frameW := rfl
@[simp] theorem State.writeWords_frameH (b : Nat) (l : List Word) : (s.writeWords b l).frameH = s.frameH := rfl
@[simp] theorem State.writeWords_refCap (b : Nat) (l : List Word) : (s.writeWords b l).refCap = s.refCap := rfl
@[simp] theorem State.writeWords_madTol (b : Nat) (l : List Word) : (s.writeWords b l).madTol = s.madTol := rfl
@[simp] theorem State.writeWords_edgeThr (b : Nat) (l : List Word) : (s.writeWords b l).edgeThr = s.edgeThr := rfl
@[simp] theorem State.writeWords_blkPosX (b : Nat) (l : List Word) : (s.writeWords b l).blkPosX = s.blkPosX := rfl
@[simp] theorem State.writeWords_blkPosY (b : Nat) (l : List Word) : (s.writeWords b l).blkPosY = s.blkPosY := rfl
@[simp] theorem State.writeWords_blkSize (b : Nat) (l : List Word) : (s.writeWords b l).blkSize = s.blkSize := rfl
@[simp] theorem State.writeWords_blkEdge (b : Nat) (l : List Word) : (s.writeWords b l).blkEdge = s.blkEdge := rfl
@[simp] theorem State.writeWords_splSize (b : Nat) (l : List Word) : (s.writeWords b l).splSize = s.splSize := rfl
@[simp] theorem State.writeWords_coefSize (b : Nat) (l : List Word) : (s.writeWords b l).coefSize = s.coefSize := rfl
@[simp] theorem State.writeWords_emapW (b : Nat) (l : List Word) : (s.writeWords b l).emapW = s.emapW := rfl
@[simp] theorem State.writeWords_emapH (b : Nat) (l : List Word) : (s.writeWords b l).emapH = s.emapH := rfl
@[simp] theorem State.writeWords_sLen (b : Nat) (l : List Word) : (s.writeWords b l).sLen = s.sLen := rfl
@[simp] theorem State.writeWords_rPtr (b : Nat) (l : List Word) : (s.writeWords b l).rPtr = s.rPtr := rfl
@[simp] theorem State.writeWords_args (b : Nat) (l : List Word) : (s.writeWords b l).args = s.args := rfl
@[simp] theorem State.writeWords_results (b : Nat) (l : List Word) : (s.writeWords b l).results = s.results := rfl
@[simp] theorem State.writeWords_refs (b : Nat) (l : List Word) : (s.writeWords b l).refs = s.refs := rfl
@[simp] theorem State.writeWords_pend (b : Nat) (l : List Word) : (s.writeWords b l).pend = s.pend := rfl
@[simp] theorem State.writeWords_mem (b : Nat) (l : List Word) : (s.writeWords b l).mem = s.mem.writeRun b (l.flatMap wordBytes) :=
  rfl
@[simp] theorem State.writeWords_epoch (b : Nat) (l : List Word) : (s.writeWords b l).epoch = s.epoch := rfl
@[simp] theorem State.writeWords_agenda (b : Nat) (l : List Word) : (s.writeWords b l).agenda = s.agenda := rfl
@[simp] theorem State.writeWords_lastRead (b : Nat) (l : List Word) : (s.writeWords b l).lastRead = s.lastRead := rfl

/-! ### `State.writeWord` -/

@[simp] theorem State.writeWord_ieDone (b : Nat) (w : Word) : (s.writeWord b w).ieDone = s.ieDone := rfl
@[simp] theorem State.writeWord_ieFault (b : Nat) (w : Word) : (s.writeWord b w).ieFault = s.ieFault := rfl
@[simp] theorem State.writeWord_ieCmdErr (b : Nat) (w : Word) : (s.writeWord b w).ieCmdErr = s.ieCmdErr := rfl
@[simp] theorem State.writeWord_statusDone (b : Nat) (w : Word) : (s.writeWord b w).statusDone = s.statusDone := rfl
@[simp] theorem State.writeWord_statusFault (b : Nat) (w : Word) : (s.writeWord b w).statusFault = s.statusFault :=
  rfl
@[simp] theorem State.writeWord_statusCmdErr (b : Nat) (w : Word) : (s.writeWord b w).statusCmdErr = s.statusCmdErr :=
  rfl
@[simp] theorem State.writeWord_cmd (b : Nat) (w : Word) : (s.writeWord b w).cmd = s.cmd := rfl
@[simp] theorem State.writeWord_faultCode (b : Nat) (w : Word) : (s.writeWord b w).faultCode = s.faultCode := rfl
@[simp] theorem State.writeWord_faultInfo (b : Nat) (w : Word) : (s.writeWord b w).faultInfo = s.faultInfo := rfl
@[simp] theorem State.writeWord_frameW (b : Nat) (w : Word) : (s.writeWord b w).frameW = s.frameW := rfl
@[simp] theorem State.writeWord_frameH (b : Nat) (w : Word) : (s.writeWord b w).frameH = s.frameH := rfl
@[simp] theorem State.writeWord_refCap (b : Nat) (w : Word) : (s.writeWord b w).refCap = s.refCap := rfl
@[simp] theorem State.writeWord_madTol (b : Nat) (w : Word) : (s.writeWord b w).madTol = s.madTol := rfl
@[simp] theorem State.writeWord_edgeThr (b : Nat) (w : Word) : (s.writeWord b w).edgeThr = s.edgeThr := rfl
@[simp] theorem State.writeWord_blkPosX (b : Nat) (w : Word) : (s.writeWord b w).blkPosX = s.blkPosX := rfl
@[simp] theorem State.writeWord_blkPosY (b : Nat) (w : Word) : (s.writeWord b w).blkPosY = s.blkPosY := rfl
@[simp] theorem State.writeWord_blkSize (b : Nat) (w : Word) : (s.writeWord b w).blkSize = s.blkSize := rfl
@[simp] theorem State.writeWord_blkEdge (b : Nat) (w : Word) : (s.writeWord b w).blkEdge = s.blkEdge := rfl
@[simp] theorem State.writeWord_splSize (b : Nat) (w : Word) : (s.writeWord b w).splSize = s.splSize := rfl
@[simp] theorem State.writeWord_coefSize (b : Nat) (w : Word) : (s.writeWord b w).coefSize = s.coefSize := rfl
@[simp] theorem State.writeWord_emapW (b : Nat) (w : Word) : (s.writeWord b w).emapW = s.emapW := rfl
@[simp] theorem State.writeWord_emapH (b : Nat) (w : Word) : (s.writeWord b w).emapH = s.emapH := rfl
@[simp] theorem State.writeWord_sLen (b : Nat) (w : Word) : (s.writeWord b w).sLen = s.sLen := rfl
@[simp] theorem State.writeWord_rPtr (b : Nat) (w : Word) : (s.writeWord b w).rPtr = s.rPtr := rfl
@[simp] theorem State.writeWord_args (b : Nat) (w : Word) : (s.writeWord b w).args = s.args := rfl
@[simp] theorem State.writeWord_results (b : Nat) (w : Word) : (s.writeWord b w).results = s.results := rfl
@[simp] theorem State.writeWord_refs (b : Nat) (w : Word) : (s.writeWord b w).refs = s.refs := rfl
@[simp] theorem State.writeWord_pend (b : Nat) (w : Word) : (s.writeWord b w).pend = s.pend := rfl
@[simp] theorem State.writeWord_mem (b : Nat) (w : Word) : (s.writeWord b w).mem = s.mem.writeRun b (wordBytes w) :=
  rfl
@[simp] theorem State.writeWord_epoch (b : Nat) (w : Word) : (s.writeWord b w).epoch = s.epoch := rfl
@[simp] theorem State.writeWord_agenda (b : Nat) (w : Word) : (s.writeWord b w).agenda = s.agenda := rfl
@[simp] theorem State.writeWord_lastRead (b : Nat) (w : Word) : (s.writeWord b w).lastRead = s.lastRead := rfl

/-! ### `State.advanceTo` -/

@[simp] theorem State.advanceTo_ieDone (l : List Byte) : (s.advanceTo l).ieDone = s.ieDone := rfl
@[simp] theorem State.advanceTo_ieFault (l : List Byte) : (s.advanceTo l).ieFault = s.ieFault := rfl
@[simp] theorem State.advanceTo_ieCmdErr (l : List Byte) : (s.advanceTo l).ieCmdErr = s.ieCmdErr := rfl
@[simp] theorem State.advanceTo_statusDone (l : List Byte) : (s.advanceTo l).statusDone = s.statusDone := rfl
@[simp] theorem State.advanceTo_statusFault (l : List Byte) : (s.advanceTo l).statusFault = s.statusFault := rfl
@[simp] theorem State.advanceTo_statusCmdErr (l : List Byte) : (s.advanceTo l).statusCmdErr = s.statusCmdErr := rfl
@[simp] theorem State.advanceTo_cmd (l : List Byte) : (s.advanceTo l).cmd = s.cmd := rfl
@[simp] theorem State.advanceTo_faultCode (l : List Byte) : (s.advanceTo l).faultCode = s.faultCode := rfl
@[simp] theorem State.advanceTo_faultInfo (l : List Byte) : (s.advanceTo l).faultInfo = s.faultInfo := rfl
@[simp] theorem State.advanceTo_frameW (l : List Byte) : (s.advanceTo l).frameW = s.frameW := rfl
@[simp] theorem State.advanceTo_frameH (l : List Byte) : (s.advanceTo l).frameH = s.frameH := rfl
@[simp] theorem State.advanceTo_refCap (l : List Byte) : (s.advanceTo l).refCap = s.refCap := rfl
@[simp] theorem State.advanceTo_madTol (l : List Byte) : (s.advanceTo l).madTol = s.madTol := rfl
@[simp] theorem State.advanceTo_edgeThr (l : List Byte) : (s.advanceTo l).edgeThr = s.edgeThr := rfl
@[simp] theorem State.advanceTo_blkPosX (l : List Byte) : (s.advanceTo l).blkPosX = s.blkPosX := rfl
@[simp] theorem State.advanceTo_blkPosY (l : List Byte) : (s.advanceTo l).blkPosY = s.blkPosY := rfl
@[simp] theorem State.advanceTo_blkSize (l : List Byte) : (s.advanceTo l).blkSize = s.blkSize := rfl
@[simp] theorem State.advanceTo_blkEdge (l : List Byte) : (s.advanceTo l).blkEdge = s.blkEdge := rfl
@[simp] theorem State.advanceTo_splSize (l : List Byte) : (s.advanceTo l).splSize = s.splSize := rfl
@[simp] theorem State.advanceTo_coefSize (l : List Byte) : (s.advanceTo l).coefSize = s.coefSize := rfl
@[simp] theorem State.advanceTo_emapW (l : List Byte) : (s.advanceTo l).emapW = s.emapW := rfl
@[simp] theorem State.advanceTo_emapH (l : List Byte) : (s.advanceTo l).emapH = s.emapH := rfl
@[simp] theorem State.advanceTo_sLen (l : List Byte) : (s.advanceTo l).sLen = s.sLen := rfl
@[simp] theorem State.advanceTo_rPtr (l : List Byte) : (s.advanceTo l).rPtr = BitVec.ofNat 32 (u32 s.sLen - l.length) :=
  rfl
@[simp] theorem State.advanceTo_args (l : List Byte) : (s.advanceTo l).args = s.args := rfl
@[simp] theorem State.advanceTo_results (l : List Byte) : (s.advanceTo l).results = s.results := rfl
@[simp] theorem State.advanceTo_refs (l : List Byte) : (s.advanceTo l).refs = s.refs := rfl
@[simp] theorem State.advanceTo_pend (l : List Byte) : (s.advanceTo l).pend = s.pend := rfl
@[simp] theorem State.advanceTo_mem (l : List Byte) : (s.advanceTo l).mem = s.mem := rfl
@[simp] theorem State.advanceTo_epoch (l : List Byte) : (s.advanceTo l).epoch = s.epoch := rfl
@[simp] theorem State.advanceTo_agenda (l : List Byte) : (s.advanceTo l).agenda = s.agenda := rfl
@[simp] theorem State.advanceTo_lastRead (l : List Byte) : (s.advanceTo l).lastRead = s.lastRead := rfl
@[simp] theorem State.advanceTo_byteAt (l : List Byte) (x : Nat) : (s.advanceTo l).byteAt x = s.byteAt x := rfl
@[simp] theorem State.advanceTo_wordAt (l : List Byte) (x : Nat) : (s.advanceTo l).wordAt x = s.wordAt x := rfl

/-! ### `State.takeFault` -/

@[simp] theorem State.takeFault_ieDone (f : EngineFault) : (s.takeFault f).ieDone = s.ieDone := rfl
@[simp] theorem State.takeFault_ieFault (f : EngineFault) : (s.takeFault f).ieFault = s.ieFault := rfl
@[simp] theorem State.takeFault_ieCmdErr (f : EngineFault) : (s.takeFault f).ieCmdErr = s.ieCmdErr := rfl
@[simp] theorem State.takeFault_statusDone (f : EngineFault) : (s.takeFault f).statusDone = s.statusDone := rfl
@[simp] theorem State.takeFault_statusFault (f : EngineFault) : (s.takeFault f).statusFault = true := rfl
@[simp] theorem State.takeFault_statusCmdErr (f : EngineFault) : (s.takeFault f).statusCmdErr = s.statusCmdErr := rfl
@[simp] theorem State.takeFault_cmd (f : EngineFault) : (s.takeFault f).cmd = s.cmd := rfl
@[simp] theorem State.takeFault_faultCode (f : EngineFault) : (s.takeFault f).faultCode = f.name.code := rfl
@[simp] theorem State.takeFault_faultInfo (f : EngineFault) : (s.takeFault f).faultInfo = f.info := rfl
@[simp] theorem State.takeFault_frameW (f : EngineFault) : (s.takeFault f).frameW = s.frameW := rfl
@[simp] theorem State.takeFault_frameH (f : EngineFault) : (s.takeFault f).frameH = s.frameH := rfl
@[simp] theorem State.takeFault_refCap (f : EngineFault) : (s.takeFault f).refCap = s.refCap := rfl
@[simp] theorem State.takeFault_madTol (f : EngineFault) : (s.takeFault f).madTol = s.madTol := rfl
@[simp] theorem State.takeFault_edgeThr (f : EngineFault) : (s.takeFault f).edgeThr = s.edgeThr := rfl
@[simp] theorem State.takeFault_blkPosX (f : EngineFault) : (s.takeFault f).blkPosX = s.blkPosX := rfl
@[simp] theorem State.takeFault_blkPosY (f : EngineFault) : (s.takeFault f).blkPosY = s.blkPosY := rfl
@[simp] theorem State.takeFault_blkSize (f : EngineFault) : (s.takeFault f).blkSize = s.blkSize := rfl
@[simp] theorem State.takeFault_blkEdge (f : EngineFault) : (s.takeFault f).blkEdge = s.blkEdge := rfl
@[simp] theorem State.takeFault_splSize (f : EngineFault) : (s.takeFault f).splSize = s.splSize := rfl
@[simp] theorem State.takeFault_coefSize (f : EngineFault) : (s.takeFault f).coefSize = s.coefSize := rfl
@[simp] theorem State.takeFault_emapW (f : EngineFault) : (s.takeFault f).emapW = s.emapW := rfl
@[simp] theorem State.takeFault_emapH (f : EngineFault) : (s.takeFault f).emapH = s.emapH := rfl
@[simp] theorem State.takeFault_sLen (f : EngineFault) : (s.takeFault f).sLen = s.sLen := rfl
@[simp] theorem State.takeFault_rPtr (f : EngineFault) : (s.takeFault f).rPtr = s.rPtr := rfl
@[simp] theorem State.takeFault_args (f : EngineFault) : (s.takeFault f).args = s.args := rfl
@[simp] theorem State.takeFault_results (f : EngineFault) : (s.takeFault f).results = s.results := rfl
@[simp] theorem State.takeFault_refs (f : EngineFault) : (s.takeFault f).refs = s.refs := rfl
@[simp] theorem State.takeFault_pend (f : EngineFault) : (s.takeFault f).pend = none := rfl
@[simp] theorem State.takeFault_mem (f : EngineFault) : (s.takeFault f).mem = s.mem := rfl
@[simp] theorem State.takeFault_epoch (f : EngineFault) : (s.takeFault f).epoch = s.epoch := rfl
@[simp] theorem State.takeFault_agenda (f : EngineFault) : (s.takeFault f).agenda = s.agenda := rfl
@[simp] theorem State.takeFault_lastRead (f : EngineFault) : (s.takeFault f).lastRead = s.lastRead := rfl
@[simp] theorem State.takeFault_byteAt (f : EngineFault) (x : Nat) : (s.takeFault f).byteAt x = s.byteAt x := rfl
@[simp] theorem State.takeFault_wordAt (f : EngineFault) (x : Nat) : (s.takeFault f).wordAt x = s.wordAt x := rfl

/-! ### `State.returnFromFault` -/

@[simp] theorem State.returnFromFault_ieDone : s.returnFromFault.ieDone = s.ieDone := rfl
@[simp] theorem State.returnFromFault_ieFault : s.returnFromFault.ieFault = s.ieFault := rfl
@[simp] theorem State.returnFromFault_ieCmdErr : s.returnFromFault.ieCmdErr = s.ieCmdErr := rfl
@[simp] theorem State.returnFromFault_statusDone : s.returnFromFault.statusDone = s.statusDone := rfl
@[simp] theorem State.returnFromFault_statusFault : s.returnFromFault.statusFault = false := rfl
@[simp] theorem State.returnFromFault_statusCmdErr : s.returnFromFault.statusCmdErr = s.statusCmdErr := rfl
@[simp] theorem State.returnFromFault_cmd : s.returnFromFault.cmd = s.cmd := rfl
@[simp] theorem State.returnFromFault_faultCode : s.returnFromFault.faultCode = s.faultCode := rfl
@[simp] theorem State.returnFromFault_faultInfo : s.returnFromFault.faultInfo = s.faultInfo := rfl
@[simp] theorem State.returnFromFault_frameW : s.returnFromFault.frameW = s.frameW := rfl
@[simp] theorem State.returnFromFault_frameH : s.returnFromFault.frameH = s.frameH := rfl
@[simp] theorem State.returnFromFault_refCap : s.returnFromFault.refCap = s.refCap := rfl
@[simp] theorem State.returnFromFault_madTol : s.returnFromFault.madTol = s.madTol := rfl
@[simp] theorem State.returnFromFault_edgeThr : s.returnFromFault.edgeThr = s.edgeThr := rfl
@[simp] theorem State.returnFromFault_blkPosX : s.returnFromFault.blkPosX = s.blkPosX := rfl
@[simp] theorem State.returnFromFault_blkPosY : s.returnFromFault.blkPosY = s.blkPosY := rfl
@[simp] theorem State.returnFromFault_blkSize : s.returnFromFault.blkSize = s.blkSize := rfl
@[simp] theorem State.returnFromFault_blkEdge : s.returnFromFault.blkEdge = s.blkEdge := rfl
@[simp] theorem State.returnFromFault_splSize : s.returnFromFault.splSize = s.splSize := rfl
@[simp] theorem State.returnFromFault_coefSize : s.returnFromFault.coefSize = s.coefSize := rfl
@[simp] theorem State.returnFromFault_emapW : s.returnFromFault.emapW = s.emapW := rfl
@[simp] theorem State.returnFromFault_emapH : s.returnFromFault.emapH = s.emapH := rfl
@[simp] theorem State.returnFromFault_sLen : s.returnFromFault.sLen = s.sLen := rfl
@[simp] theorem State.returnFromFault_rPtr : s.returnFromFault.rPtr = s.rPtr := rfl
@[simp] theorem State.returnFromFault_args : s.returnFromFault.args = s.args := rfl
@[simp] theorem State.returnFromFault_results : s.returnFromFault.results = s.results := rfl
@[simp] theorem State.returnFromFault_refs : s.returnFromFault.refs = s.refs := rfl
@[simp] theorem State.returnFromFault_pend : s.returnFromFault.pend = s.pend := rfl
@[simp] theorem State.returnFromFault_mem : s.returnFromFault.mem = s.mem := rfl
@[simp] theorem State.returnFromFault_epoch : s.returnFromFault.epoch = s.epoch := rfl
@[simp] theorem State.returnFromFault_agenda : s.returnFromFault.agenda = s.agenda := rfl
@[simp] theorem State.returnFromFault_lastRead : s.returnFromFault.lastRead = s.lastRead := rfl
@[simp] theorem State.returnFromFault_byteAt (x : Nat) : s.returnFromFault.byteAt x = s.byteAt x := rfl
@[simp] theorem State.returnFromFault_wordAt (x : Nat) : s.returnFromFault.wordAt x = s.wordAt x := rfl

/-! ### `State.complete` -/

@[simp] theorem State.complete_ieDone : s.complete.ieDone = s.ieDone := rfl
@[simp] theorem State.complete_ieFault : s.complete.ieFault = s.ieFault := rfl
@[simp] theorem State.complete_ieCmdErr : s.complete.ieCmdErr = s.ieCmdErr := rfl
@[simp] theorem State.complete_statusDone : s.complete.statusDone = true := rfl
@[simp] theorem State.complete_statusFault : s.complete.statusFault = s.statusFault := rfl
@[simp] theorem State.complete_statusCmdErr : s.complete.statusCmdErr = s.statusCmdErr := rfl
@[simp] theorem State.complete_cmd : s.complete.cmd = s.cmd := rfl
@[simp] theorem State.complete_faultCode : s.complete.faultCode = s.faultCode := rfl
@[simp] theorem State.complete_faultInfo : s.complete.faultInfo = s.faultInfo := rfl
@[simp] theorem State.complete_frameW : s.complete.frameW = s.frameW := rfl
@[simp] theorem State.complete_frameH : s.complete.frameH = s.frameH := rfl
@[simp] theorem State.complete_refCap : s.complete.refCap = s.refCap := rfl
@[simp] theorem State.complete_madTol : s.complete.madTol = s.madTol := rfl
@[simp] theorem State.complete_edgeThr : s.complete.edgeThr = s.edgeThr := rfl
@[simp] theorem State.complete_blkPosX : s.complete.blkPosX = s.blkPosX := rfl
@[simp] theorem State.complete_blkPosY : s.complete.blkPosY = s.blkPosY := rfl
@[simp] theorem State.complete_blkSize : s.complete.blkSize = s.blkSize := rfl
@[simp] theorem State.complete_blkEdge : s.complete.blkEdge = s.blkEdge := rfl
@[simp] theorem State.complete_splSize : s.complete.splSize = s.splSize := rfl
@[simp] theorem State.complete_coefSize : s.complete.coefSize = s.coefSize := rfl
@[simp] theorem State.complete_emapW : s.complete.emapW = s.emapW := rfl
@[simp] theorem State.complete_emapH : s.complete.emapH = s.emapH := rfl
@[simp] theorem State.complete_sLen : s.complete.sLen = s.sLen := rfl
@[simp] theorem State.complete_rPtr : s.complete.rPtr = s.rPtr := rfl
@[simp] theorem State.complete_args : s.complete.args = s.args := rfl
@[simp] theorem State.complete_results : s.complete.results = s.results := rfl
@[simp] theorem State.complete_refs : s.complete.refs = s.refs := rfl
@[simp] theorem State.complete_pend : s.complete.pend = none := rfl
@[simp] theorem State.complete_mem : s.complete.mem = s.mem := rfl
@[simp] theorem State.complete_epoch : s.complete.epoch = s.epoch := rfl
@[simp] theorem State.complete_agenda : s.complete.agenda = s.agenda := rfl
@[simp] theorem State.complete_lastRead : s.complete.lastRead = s.lastRead := rfl
@[simp] theorem State.complete_byteAt (x : Nat) : s.complete.byteAt x = s.byteAt x := rfl
@[simp] theorem State.complete_wordAt (x : Nat) : s.complete.wordAt x = s.wordAt x := rfl

/-! ### `State.commandError` -/

@[simp] theorem State.commandError_ieDone : s.commandError.ieDone = s.ieDone := rfl
@[simp] theorem State.commandError_ieFault : s.commandError.ieFault = s.ieFault := rfl
@[simp] theorem State.commandError_ieCmdErr : s.commandError.ieCmdErr = s.ieCmdErr := rfl
@[simp] theorem State.commandError_statusDone : s.commandError.statusDone = s.statusDone := rfl
@[simp] theorem State.commandError_statusFault : s.commandError.statusFault = s.statusFault := rfl
@[simp] theorem State.commandError_statusCmdErr : s.commandError.statusCmdErr = true := rfl
@[simp] theorem State.commandError_cmd : s.commandError.cmd = s.cmd := rfl
@[simp] theorem State.commandError_faultCode : s.commandError.faultCode = s.faultCode := rfl
@[simp] theorem State.commandError_faultInfo : s.commandError.faultInfo = s.faultInfo := rfl
@[simp] theorem State.commandError_frameW : s.commandError.frameW = s.frameW := rfl
@[simp] theorem State.commandError_frameH : s.commandError.frameH = s.frameH := rfl
@[simp] theorem State.commandError_refCap : s.commandError.refCap = s.refCap := rfl
@[simp] theorem State.commandError_madTol : s.commandError.madTol = s.madTol := rfl
@[simp] theorem State.commandError_edgeThr : s.commandError.edgeThr = s.edgeThr := rfl
@[simp] theorem State.commandError_blkPosX : s.commandError.blkPosX = s.blkPosX := rfl
@[simp] theorem State.commandError_blkPosY : s.commandError.blkPosY = s.blkPosY := rfl
@[simp] theorem State.commandError_blkSize : s.commandError.blkSize = s.blkSize := rfl
@[simp] theorem State.commandError_blkEdge : s.commandError.blkEdge = s.blkEdge := rfl
@[simp] theorem State.commandError_splSize : s.commandError.splSize = s.splSize := rfl
@[simp] theorem State.commandError_coefSize : s.commandError.coefSize = s.coefSize := rfl
@[simp] theorem State.commandError_emapW : s.commandError.emapW = s.emapW := rfl
@[simp] theorem State.commandError_emapH : s.commandError.emapH = s.emapH := rfl
@[simp] theorem State.commandError_sLen : s.commandError.sLen = s.sLen := rfl
@[simp] theorem State.commandError_rPtr : s.commandError.rPtr = s.rPtr := rfl
@[simp] theorem State.commandError_args : s.commandError.args = s.args := rfl
@[simp] theorem State.commandError_results : s.commandError.results = s.results := rfl
@[simp] theorem State.commandError_refs : s.commandError.refs = s.refs := rfl
@[simp] theorem State.commandError_pend : s.commandError.pend = s.pend := rfl
@[simp] theorem State.commandError_mem : s.commandError.mem = s.mem := rfl
@[simp] theorem State.commandError_epoch : s.commandError.epoch = s.epoch := rfl
@[simp] theorem State.commandError_agenda : s.commandError.agenda = s.agenda := rfl
@[simp] theorem State.commandError_lastRead : s.commandError.lastRead = s.lastRead := rfl
@[simp] theorem State.commandError_byteAt (x : Nat) : s.commandError.byteAt x = s.byteAt x := rfl
@[simp] theorem State.commandError_wordAt (x : Nat) : s.commandError.wordAt x = s.wordAt x := rfl

/-! ### `State.popped` -/

@[simp] theorem State.popped_ieDone : s.popped.ieDone = s.ieDone := rfl
@[simp] theorem State.popped_ieFault : s.popped.ieFault = s.ieFault := rfl
@[simp] theorem State.popped_ieCmdErr : s.popped.ieCmdErr = s.ieCmdErr := rfl
@[simp] theorem State.popped_statusDone : s.popped.statusDone = s.statusDone := rfl
@[simp] theorem State.popped_statusFault : s.popped.statusFault = s.statusFault := rfl
@[simp] theorem State.popped_statusCmdErr : s.popped.statusCmdErr = s.statusCmdErr := rfl
@[simp] theorem State.popped_cmd : s.popped.cmd = s.cmd := rfl
@[simp] theorem State.popped_faultCode : s.popped.faultCode = s.faultCode := rfl
@[simp] theorem State.popped_faultInfo : s.popped.faultInfo = s.faultInfo := rfl
@[simp] theorem State.popped_frameW : s.popped.frameW = s.frameW := rfl
@[simp] theorem State.popped_frameH : s.popped.frameH = s.frameH := rfl
@[simp] theorem State.popped_refCap : s.popped.refCap = s.refCap := rfl
@[simp] theorem State.popped_madTol : s.popped.madTol = s.madTol := rfl
@[simp] theorem State.popped_edgeThr : s.popped.edgeThr = s.edgeThr := rfl
@[simp] theorem State.popped_blkPosX : s.popped.blkPosX = s.blkPosX := rfl
@[simp] theorem State.popped_blkPosY : s.popped.blkPosY = s.blkPosY := rfl
@[simp] theorem State.popped_blkSize : s.popped.blkSize = s.blkSize := rfl
@[simp] theorem State.popped_blkEdge : s.popped.blkEdge = s.blkEdge := rfl
@[simp] theorem State.popped_splSize : s.popped.splSize = s.splSize := rfl
@[simp] theorem State.popped_coefSize : s.popped.coefSize = s.coefSize := rfl
@[simp] theorem State.popped_emapW : s.popped.emapW = s.emapW := rfl
@[simp] theorem State.popped_emapH : s.popped.emapH = s.emapH := rfl
@[simp] theorem State.popped_sLen : s.popped.sLen = s.sLen := rfl
@[simp] theorem State.popped_rPtr : s.popped.rPtr = s.rPtr := rfl
@[simp] theorem State.popped_args : s.popped.args = s.args := rfl
@[simp] theorem State.popped_results : s.popped.results = s.results := rfl
@[simp] theorem State.popped_refs : s.popped.refs = s.refs := rfl
@[simp] theorem State.popped_pend : s.popped.pend = s.pend := rfl
@[simp] theorem State.popped_mem : s.popped.mem = s.mem := rfl
@[simp] theorem State.popped_epoch : s.popped.epoch = s.epoch := rfl
@[simp] theorem State.popped_agenda : s.popped.agenda = s.agenda.tail := rfl
@[simp] theorem State.popped_lastRead : s.popped.lastRead = s.lastRead := rfl
@[simp] theorem State.popped_byteAt (x : Nat) : s.popped.byteAt x = s.byteAt x := rfl
@[simp] theorem State.popped_wordAt (x : Nat) : s.popped.wordAt x = s.wordAt x := rfl

end Sys2Proof.Machine
end

