-- ==== Sys2Proof/Laws/Ops.lean ====
section
/-! SUPPORT. One lemma for each shared operation that says what it can do: later proofs cite it and do not unfold
the operation. -/

namespace Sys2Proof.Machine

/-! ### The completion step -/

theorem State.runCommand_ok {s t : State} {p : Pend} {body : Pend → Except EngineFault State}
    (hp : s.pend = some p) (hb : body p = .ok t) : s.runCommand body = .next t.complete := by
  simp [State.runCommand, hp, hb]

theorem State.runCommand_error {s : State} {p : Pend} {f : EngineFault} {body : Pend → Except EngineFault State}
    (hp : s.pend = some p) (hb : body p = .error f) : s.runCommand body = .next (s.takeFault f) := by
  simp [State.runCommand, hp, hb]

/-- Everything the completion step can do: with a command in flight it ends the command or takes its fault. -/
theorem State.runCommand_next {s t : State} {body : Pend → Except EngineFault State}
    (h : s.runCommand body = .next t) :
    ∃ p, s.pend = some p ∧
      ((∃ u, body p = .ok u ∧ t = u.complete) ∨ (∃ f, body p = .error f ∧ t = s.takeFault f)) := by
  unfold State.runCommand at h
  split at h
  · cases h
  · next p hp =>
    refine ⟨p, hp, ?_⟩
    split at h
    · next u hu => injection h with h; exact .inl ⟨u, hu, h.symm⟩
    · next f hf => injection h with h; exact .inr ⟨f, hf, h.symm⟩

/-! ### Tests -/

theorem sizeFault_eq_none {sizes : List Nat} {n : Nat} {a b : Word} :
    sizeFault sizes n a b = none ↔ n ≠ 0 ∧ n ∈ sizes := by
  unfold sizeFault
  by_cases h0 : n = 0
  · simp [h0]
  · by_cases h1 : n ∈ sizes <;> simp [h0, h1]

/-- The two faults of a size test. -/
theorem sizeFault_eq_some {sizes : List Nat} {n : Nat} {a b : Word} {f : EngineFault}
    (h : sizeFault sizes n a b = some f) :
    (n = 0 ∧ f = ⟨.zeroSizeBlock, a⟩) ∨ (n ≠ 0 ∧ n ∉ sizes ∧ f = ⟨.illegalSize, b⟩) := by
  unfold sizeFault at h
  split at h
  · next h0 => injection h with h; exact .inl ⟨h0, h.symm⟩
  · next h0 =>
    split at h
    · next h1 => injection h with h; exact .inr ⟨h0, h1, h.symm⟩
    · cases h

theorem mem_blockSizes {n : Nat} : n ∈ Config.blockSizes ↔ n = 4 ∨ n = 8 ∨ n = 16 ∨ n = 32 ∨ n = 64 := by
  simp [Config.blockSizes]

theorem mem_xformSizes {n : Nat} : n ∈ Config.xformSizes ↔ n = 4 ∨ n = 8 ∨ n = 16 := by
  simp [Config.xformSizes]

theorem State.windowFault_eq_none {s : State} : s.windowFault = none ↔ s.frameLegal ∧ s.refCap ≠ 0 := by
  unfold State.windowFault
  by_cases h : s.frameLegal
  · rw [if_neg (not_not.mpr h)]
    by_cases h2 : s.refCap = 0
    · simp [h2]
    · rw [if_neg h2]; exact ⟨fun _ => ⟨h, h2⟩, fun _ => rfl⟩
  · simp [h]

theorem State.pointerFault_eq_none {s : State} :
    s.pointerFault = none ↔ u32 s.rPtr ≤ u32 s.sLen ∧ u32 s.sLen ≤ Config.strmCap := by
  unfold State.pointerFault
  split <;> simp_all

theorem State.pointerFault_eq_some {s : State} {f : EngineFault} (h : s.pointerFault = some f) :
    ¬ (u32 s.rPtr ≤ u32 s.sLen ∧ u32 s.sLen ≤ Config.strmCap) ∧ f = ⟨.illegalConfig, 2⟩ := by
  unfold State.pointerFault at h
  split at h
  · cases h
  · next hn => injection h with h; exact ⟨hn, h.symm⟩

/-! ### Raster operands -/

/-- Everything a resolved raster operand can be. -/
theorem State.resolveRaster_ok {s : State} {cmd : Word} {rs : RasterSel} {d : BitVec 4} {v : RasterView}
    (h : s.resolveRaster cmd rs d = .ok v) :
    (rs = .cur ∧ d = 0 ∧ s.frameLegal ∧ v = s.frameView curBase)
      ∨ (rs = .aux ∧ d = 0 ∧ s.frameLegal ∧ v = s.frameView auxBase)
      ∨ (rs = .ref ∧ 1 ≤ d.toNat ∧ d.toNat ≤ s.refs.length
          ∧ ∃ r, s.refs[s.refs.length - d.toNat]? = some r ∧ v = r.view) := by
  unfold State.resolveRaster at h
  split at h
  · split at h
    · cases h
    · next hd =>
      split at h
      · cases h
      · next hf => injection h with h; exact .inl ⟨rfl, not_not.mp hd, not_not.mp hf, h.symm⟩
  · split at h
    · cases h
    · next hd =>
      split at h
      · cases h
      · next hf => injection h with h; exact .inr (.inl ⟨rfl, not_not.mp hd, not_not.mp hf, h.symm⟩)
  · split at h
    · cases h
    · next hd =>
      split at h
      · cases h
      · next hl =>
        split at h
        · next r hr =>
          injection h with h
          have : d.toNat ≠ 0 := fun h0 => hd (BitVec.eq_of_toNat_eq (by simpa using h0))
          exact .inr (.inr ⟨rfl, by omega, by omega, r, hr, h.symm⟩)
        · cases h
  · cases h

/-- Everything a resolved writable raster can be. -/
theorem State.resolveWritable_ok {s : State} {cmd : Word} {rs : RasterSel} {d : BitVec 4} {t : RasterTarget}
    (h : s.resolveWritable cmd rs d = .ok t) :
    ((rs = .cur ∧ t = ⟨curBase, s.frameW.toNat, s.frameH.toNat⟩)
      ∨ (rs = .aux ∧ t = ⟨auxBase, s.frameW.toNat, s.frameH.toNat⟩)) ∧ d = 0 ∧ s.frameLegal := by
  unfold State.resolveWritable at h
  split at h
  · split at h
    · cases h
    · next hd =>
      split at h
      · cases h
      · next hf => injection h with h; exact ⟨.inl ⟨rfl, h.symm⟩, not_not.mp hd, not_not.mp hf⟩
  · split at h
    · cases h
    · next hd =>
      split at h
      · cases h
      · next hf => injection h with h; exact ⟨.inr ⟨rfl, h.symm⟩, not_not.mp hd, not_not.mp hf⟩
  · cases h
  · cases h

/-- Everything a resolved reference can be. -/
theorem State.resolveRef_ok {s : State} {cmd : Word} {rs : RasterSel} {d : BitVec 4} {v : RasterView}
    (h : s.resolveRef cmd rs d = .ok v) :
    rs = .ref ∧ 1 ≤ d.toNat ∧ d.toNat ≤ s.refs.length
      ∧ ∃ r, s.refs[s.refs.length - d.toNat]? = some r ∧ v = r.view := by
  unfold State.resolveRef at h
  split at h
  · rcases State.resolveRaster_ok h with h | h | h
    · simp at h
    · simp at h
    · exact h
  all_goals cases h

/-- The fault of a raster operand is `IllegalOperand` with the command word, or `IllegalConfig(0)`. -/
theorem State.resolveRaster_error {s : State} {cmd : Word} {rs : RasterSel} {d : BitVec 4} {f : EngineFault}
    (h : s.resolveRaster cmd rs d = .error f) : f = ⟨.illegalOperand, cmd⟩ ∨ f = ⟨.illegalConfig, 0⟩ := by
  unfold State.resolveRaster at h
  repeat' split at h
  all_goals first
    | (injection h with h; subst h; simp)
    | cases h

/-- A loop over a raster operand that resolves walks over that raster. -/
theorem State.rasterSize_eq {s : State} {cmd : Word} {rs : RasterSel} {d : BitVec 4} {v : RasterView}
    (h : s.resolveRaster cmd rs d = .ok v) : s.rasterSize rs d = some (v.w, v.h) := by
  rcases State.resolveRaster_ok h with ⟨rfl, rfl, _, rfl⟩ | ⟨rfl, rfl, _, rfl⟩ | ⟨rfl, h1, h2, r, hr, rfl⟩
  · simp [State.rasterSize, State.frameView]
  · simp [State.rasterSize, State.frameView]
  · have hd : ¬ (d = 0 ∨ s.refs.length < d.toNat) := by
      rintro (rfl | h)
      · simp at h1
      · omega
    simp only [State.rasterSize, if_neg hd, hr]
    rfl

/-! ### The search -/

/-- A probe is the best so far, or valid, cheaper and taken. -/
theorem probe_cases (cells : List BlockCell) (ref : RasterView) (c : Candidate) (p : Int × Int) :
    (probe cells ref c p = c ∧ (validAt cells ref p = true → c.cost ≤ cost2 cells ref p))
      ∨ (probe cells ref c p = ⟨p, cost2 cells ref p⟩ ∧ validAt cells ref p = true ∧ cost2 cells ref p < c.cost) := by
  unfold probe
  split
  · next h => exact .inr ⟨rfl, by simpa using h⟩
  · next h => exact .inl ⟨rfl, fun hv => by simpa [hv] using h⟩

/-- Everything a list of probes can do: the result is the best of the start and the valid probes. -/
theorem foldl_probe_isBest (cells : List BlockCell) (ref : RasterView) (ps : List (Int × Int)) (c : Candidate) :
    IsBest cells ref c ps (ps.foldl (probe cells ref) c) := by
  induction ps generalizing c with
  | nil => exact .inl ⟨rfl, by simp⟩
  | cons p ps ih =>
    simp only [List.foldl_cons]
    rcases probe_cases cells ref c p with ⟨hp, hc⟩ | ⟨hp, hv, hlt⟩
    · rw [hp]
      rcases ih c with ⟨h1, h2⟩ | ⟨b, a, h1, h2, h3, h4, h5, h6⟩
      · rw [h1]
        exact .inl ⟨rfl, List.forall_mem_cons.mpr ⟨hc, h2⟩⟩
      · exact .inr ⟨p :: b, a, by rw [List.cons_append, ← h1], h2, h3, h4,
          List.forall_mem_cons.mpr ⟨fun hv => lt_of_lt_of_le h4 (hc hv), h5⟩, h6⟩
    · rw [hp]
      rcases ih ⟨p, cost2 cells ref p⟩ with ⟨h1, h2⟩ | ⟨b, a, h1, h2, h3, h4, h5, h6⟩
      · rw [h1]
        exact .inr ⟨[], ps, rfl, hv, rfl, hlt, by simp, h2⟩
      · exact .inr ⟨p :: b, a, by rw [List.cons_append, ← h1], h2, h3, lt_trans h4 hlt,
          List.forall_mem_cons.mpr ⟨fun _ => h4, h5⟩, h6⟩

/-! ### The stream -/

/-- Everything `Append` can do. -/
theorem State.append_ok {s t : State} {bs : List Byte} (h : s.append bs = .ok t) :
    u32 s.sLen + bs.length ≤ Config.strmCap
      ∧ t = { s.writeBytes (strmBase + u32 s.sLen) bs with sLen := BitVec.ofNat 32 (u32 s.sLen + bs.length) } := by
  unfold State.append at h
  split at h
  · cases h
  · next hn => injection h with h; exact ⟨by omega, h.symm⟩

theorem State.append_of_fits {s : State} {bs : List Byte} (h : u32 s.sLen + bs.length ≤ Config.strmCap) :
    s.append bs
      = .ok { s.writeBytes (strmBase + u32 s.sLen) bs with sLen := BitVec.ofNat 32 (u32 s.sLen + bs.length) } := by
  unfold State.append
  rw [if_neg (by omega)]

/-- Everything the end of `PAR.INTRA` and `PAR.FRAME` can do. -/
theorem State.storePixels_ok {s u : State} {t : RasterTarget} {runs : List (Word × Nat)} {rest : List Byte}
    (h : s.storePixels t runs rest = .ok u) :
    runTotal runs = t.w * t.h ∧ u = (s.writeWords t.base (expandRuns runs)).advanceTo rest := by
  unfold State.storePixels at h
  split at h
  · cases h
  · next hn => injection h with h; exact ⟨not_not.mp hn, h.symm⟩

theorem expandRuns_length (runs : List (Word × Nat)) : (expandRuns runs).length = runTotal runs := by
  induction runs with
  | nil => rfl
  | cons r rs ih =>
    simp only [expandRuns, runTotal] at ih
    simp [expandRuns, runTotal, ih]

/-- What a reader command works on, from the bytes of the stream. -/
theorem State.unread_eq {s : State} {bs : List Byte} (hl : u32 s.sLen - u32 s.rPtr = bs.length)
    (hb : ∀ k (h : k < bs.length), s.strmByte (u32 s.rPtr + k) = bs[k]) : s.unread = bs := by
  unfold State.unread
  rw [hl]
  exact List.ext_getElem (by simp) fun k _ h => by simpa using hb k h

/-! ### The bus and the agents -/

/-- The bus serves exactly the accesses it accepts. -/
theorem State.grant_next {s : State} {a size : Nat} {k : Region → State} {t : State} (h : s.grant a size k = .next t) :
    size = 4 ∧ a % 4 = 0 ∧ ∃ g, regionAt a = some g ∧ ¬ (g ≠ .registers ∧ s.busy = true) ∧ t = k g := by
  unfold State.grant at h
  split at h
  · cases h
  · next h1 =>
    split at h
    · cases h
    · next h2 =>
      split at h
      · cases h
      · next g hg =>
        split at h
        · cases h
        · next h3 => injection h with h; exact ⟨not_not.mp h1, not_not.mp h2, g, hg, h3, h.symm⟩

/-- Everything a step can be: the engine's move, a host access, or hardware reset. -/
theorem step_next {s t : State} (h : step s = .next t) :
    (s.engineNext = true ∧ s.popped.completion = .next t)
      ∨ (∃ a, s.agenda.head? = some (.host a) ∧ s.popped.hostAccess a = .next t)
      ∨ (s.agenda.head? = some .hardReset ∧ t = s.popped.hardReset) := by
  unfold step State.turn at h
  split at h
  · next he =>
    left
    have : s.popped = s := by simp [State.popped, he]; rw [← he]
    exact ⟨by simp [State.engineNext, he], by rw [this]; exact h⟩
  · next e rest he =>
    have hp : ({ s with agenda := rest } : State) = s.popped := by simp [State.popped, he]
    rw [hp] at h
    cases e with
    | host a => exact .inr (.inl ⟨a, by simp [he], h⟩)
    | completion => exact .inl ⟨by simp [State.engineNext, he], h⟩
    | hardReset =>
      simp only [State.move] at h
      injection h with h
      exact .inr (.inr ⟨by simp [he], h.symm⟩)

/-- The engine's move: nothing without a command in flight; else the command, or the fault of a word that is none. -/
theorem State.completion_cases (s : State) :
    (s.pend = none ∧ s.completion = .next s)
      ∨ (∃ p i, s.pend = some p ∧ decode p.cmd = .ok i ∧ s.completion = exec i s)
      ∨ (∃ p e, s.pend = some p ∧ decode p.cmd = .error e
          ∧ s.completion = .next (s.takeFault (decodeFault e p.cmd))) := by
  unfold State.completion State.fetch
  cases hp : s.pend with
  | none => simp
  | some p =>
    cases hd : decode p.cmd with
    | ok i => exact .inr (.inl ⟨p, i, rfl, hd, by simp [hd]⟩)
    | error e => exact .inr (.inr ⟨p, e, rfl, hd, by simp [hd]⟩)

end Sys2Proof.Machine
end

