-- ==== Sys2Proof/Laws/PerInstr.lean ====
section
/-! SUPPORT. The fields of every command's word (spec/30_encoding.md R81, R84): one lemma for each command. -/

namespace Sys2Proof

theorem formatC_bit (opc : BitVec 8) (rs d : BitVec 4) (j : Nat) :
    (formatC opc rs d).getLsbD j
      = if j < 16 then false
        else if j - 16 < 4 then d.getLsbD (j - 16)
        else if j - 16 - 4 < 4 then rs.getLsbD (j - 16 - 4) else opc.getLsbD (j - 16 - 4 - 4) := by
  have h : (formatC opc rs d).getLsbD j = (opc ++ rs ++ d ++ 0#16 : BitVec (8 + 4 + 4 + 16)).getLsbD j := rfl
  rw [h, BitVec.getLsbD_append, BitVec.getLsbD_append, BitVec.getLsbD_append]
  simp

theorem formatC_opc (opc : BitVec 8) (rs d : BitVec 4) : (formatC opc rs d).extractLsb' 24 8 = opc := by
  apply BitVec.eq_of_getLsbD_eq
  intro i hi
  have h1 : 24 + i - 16 - 4 - 4 = i := by omega
  have h2 : ¬ 24 + i < 16 := by omega
  have h3 : ¬ 24 + i - 16 < 4 := by omega
  have h4 : ¬ 24 + i - 16 - 4 < 4 := by omega
  simp [formatC_bit, h1, h2, h3, h4, hi]

theorem formatC_zero (opc : BitVec 8) (rs d : BitVec 4) : (formatC opc rs d).extractLsb' 0 16 = 0 := by
  apply BitVec.eq_of_getLsbD_eq
  intro i hi
  simp [formatC_bit, hi]

theorem formatC_rs (opc : BitVec 8) (rs d : BitVec 4) : (formatC opc rs d).extractLsb' 20 4 = rs := by
  apply BitVec.eq_of_getLsbD_eq
  intro i hi
  have h1 : 20 + i - 16 - 4 = i := by omega
  have h2 : ¬ 20 + i < 16 := by omega
  have h3 : ¬ 20 + i - 16 < 4 := by omega
  simp [formatC_bit, h1, h2, h3, hi]

theorem formatC_d (opc : BitVec 8) (rs d : BitVec 4) : (formatC opc rs d).extractLsb' 16 4 = d := by
  apply BitVec.eq_of_getLsbD_eq
  intro i hi
  have h1 : 16 + i - 16 = i := by omega
  have h2 : ¬ 16 + i < 16 := by omega
  simp [formatC_bit, h1, h2, hi]

/-- The word of a command has the operation code of a row and the reserved field 0. -/
def Laws.EncodedFields.Statement (i : Instr) : Prop :=
  (decodeRow ((encode i).extractLsb' 24 8).toNat).isSome = true ∧ (encode i).extractLsb' 0 16 = 0

theorem Laws.EncodedFields.of_formatC {i : Instr} {opc : BitVec 8} {rs d : BitVec 4} (he : encode i = formatC opc rs d)
    (hr : (decodeRow opc.toNat).isSome = true) : Laws.EncodedFields.Statement i := by
  unfold Laws.EncodedFields.Statement
  rw [he, formatC_opc, formatC_zero]
  exact ⟨hr, rfl⟩

namespace Laws.EncodedFields

theorem rasGet (rs : RasterSel) (d : BitVec 4) : Statement (.rasGet rs d) := of_formatC rfl rfl
theorem rasSet (rs : RasterSel) (d : BitVec 4) : Statement (.rasSet rs d) := of_formatC rfl rfl
theorem blkLd (rs : RasterSel) (d : BitVec 4) : Statement (.blkLd rs d) := of_formatC rfl rfl
theorem blkSt (rs : RasterSel) (d : BitVec 4) : Statement (.blkSt rs d) := of_formatC rfl rfl
theorem refPush : Statement .refPush := of_formatC rfl rfl
theorem refReset : Statement .refReset := of_formatC rfl rfl
theorem colRgb2Ycc : Statement .colRgb2Ycc := of_formatC rfl rfl
theorem colYcc2Rgb : Statement .colYcc2Rgb := of_formatC rfl rfl
theorem colGray : Statement .colGray := of_formatC rfl rfl
theorem colBlk2Ycc : Statement .colBlk2Ycc := of_formatC rfl rfl
theorem colBlk2Rgb : Statement .colBlk2Rgb := of_formatC rfl rfl
theorem sobPix (rs : RasterSel) (d : BitVec 4) : Statement (.sobPix rs d) := of_formatC rfl rfl
theorem sobMap (rs : RasterSel) (d : BitVec 4) : Statement (.sobMap rs d) := of_formatC rfl rfl
theorem sobBlkFlag : Statement .sobBlkFlag := of_formatC rfl rfl
theorem dctFwd : Statement .dctFwd := of_formatC rfl rfl
theorem dctInv : Statement .dctInv := of_formatC rfl rfl
theorem motSearch (rs : RasterSel) (d : BitVec 4) : Statement (.motSearch rs d) := of_formatC rfl rfl
theorem motBatch (rs : RasterSel) (d : BitVec 4) : Statement (.motBatch rs d) := of_formatC rfl rfl
theorem serMeta : Statement .serMeta := of_formatC rfl rfl
theorem serIntra (rs : RasterSel) (d : BitVec 4) : Statement (.serIntra rs d) := of_formatC rfl rfl
theorem serFrame (rs : RasterSel) (d : BitVec 4) : Statement (.serFrame rs d) := of_formatC rfl rfl
theorem serVecs : Statement .serVecs := of_formatC rfl rfl
theorem parPeek : Statement .parPeek := of_formatC rfl rfl
theorem parMeta : Statement .parMeta := of_formatC rfl rfl
theorem parIntra (rs : RasterSel) (d : BitVec 4) : Statement (.parIntra rs d) := of_formatC rfl rfl
theorem parFrame (rs : RasterSel) (d : BitVec 4) : Statement (.parFrame rs d) := of_formatC rfl rfl
theorem parVecs : Statement .parVecs := of_formatC rfl rfl

end Laws.EncodedFields

end Sys2Proof
end

