-- ==== Sys2Proof/Tests/Slice0.lean ====
section
/-! SUPPORT. The model's own tests: expected values come from spec/95_test_vectors.md (vector numbers V) and hand calculation from
the rules; and for each statement with hypotheses a concrete state and operands that meet them (`witness_…`). -/

open Sys2Proof Sys2Proof.Machine

namespace Sys2Proof.Tests

set_option Elab.async false

/-! ### Well-formedness -/

theorem test_reserved_one_is_refused : (Instr.rasGet (.reserved 1) 0).wf = false := by decide
theorem test_reserved_zero_is_refused : (Instr.blkLd (.reserved 0) 0).wf = false := by decide
theorem test_reserved_two_is_refused : (Instr.motSearch (.reserved 2) 1).wf = false := by decide
theorem test_reserved_three_is_well_formed : (Instr.serIntra (.reserved 3) 15).wf = true := by decide
theorem test_every_raster_command_checks_its_selector :
    ∀ i ∈ [Instr.rasGet (.reserved 2) 0, .rasSet (.reserved 0) 0, .blkLd (.reserved 1) 0, .blkSt (.reserved 2) 0,
      .sobPix (.reserved 0) 0, .sobMap (.reserved 1) 0, .motSearch (.reserved 2) 0, .motBatch (.reserved 0) 0,
      .serIntra (.reserved 1) 0, .serFrame (.reserved 2) 0, .parIntra (.reserved 0) 0, .parFrame (.reserved 1) 0],
      i.wf = false := by decide

/-! ### Decoding: V1.1 and V1.2, the words as the spec writes them -/

theorem test_decode_raster_family :
    decode 0x10000000#32 = .ok (.rasGet .cur 0) ∧ decode 0x10210000#32 = .ok (.rasGet .ref 1)
      ∧ decode 0x11100000#32 = .ok (.rasSet .aux 0) ∧ decode 0x12210000#32 = .ok (.blkLd .ref 1)
      ∧ decode 0x13100000#32 = .ok (.blkSt .aux 0) ∧ decode 0x14000000#32 = .ok .refPush
      ∧ decode 0x15000000#32 = .ok .refReset := by
  decide +kernel

theorem test_decode_colour_family :
    decode 0x20000000#32 = .ok .colRgb2Ycc ∧ decode 0x21000000#32 = .ok .colYcc2Rgb
      ∧ decode 0x22000000#32 = .ok .colGray ∧ decode 0x23000000#32 = .ok .colBlk2Ycc
      ∧ decode 0x24000000#32 = .ok .colBlk2Rgb := by
  decide +kernel

theorem test_decode_sobel_family :
    decode 0x30100000#32 = .ok (.sobPix .aux 0) ∧ decode 0x31210000#32 = .ok (.sobMap .ref 1)
      ∧ decode 0x32000000#32 = .ok .sobBlkFlag := by
  decide +kernel

theorem test_decode_transform_family :
    decode 0x40000000#32 = .ok .dctFwd ∧ decode 0x41000000#32 = .ok .dctInv := by
  decide +kernel

theorem test_decode_motion_family :
    decode 0x50210000#32 = .ok (.motSearch .ref 1) ∧ decode 0x51210000#32 = .ok (.motBatch .ref 1) := by
  decide +kernel

theorem test_decode_writer :
    decode 0x60000000#32 = .ok .serMeta ∧ decode 0x61100000#32 = .ok (.serIntra .aux 0)
      ∧ decode 0x62210000#32 = .ok (.serFrame .ref 1) ∧ decode 0x63000000#32 = .ok .serVecs := by
  decide +kernel

theorem test_decode_reader :
    decode 0x68000000#32 = .ok .parPeek ∧ decode 0x69000000#32 = .ok .parMeta
      ∧ decode 0x6A000000#32 = .ok (.parIntra .cur 0) ∧ decode 0x6B100000#32 = .ok (.parFrame .aux 0)
      ∧ decode 0x6C000000#32 = .ok .parVecs := by
  decide +kernel

theorem test_encode_spec_words :
    encode (.rasGet .ref 2) = 0x10220000#32 ∧ encode (.blkSt .aux 0) = 0x13100000#32
      ∧ encode (.motSearch .ref 1) = 0x50210000#32 ∧ encode (.parFrame .aux 0) = 0x6B100000#32 := by decide

theorem test_decode_refuses_unknown_codes :
    [0x00000000#32, 0x00000001#32, 0x16000000#32, 0x25000000#32, 0x64000000#32, 0x6D000000#32, 0x70000000#32,
      0xFFFFFFFF#32].map decode = List.replicate 8 (.error .illegalCommand) := by decide +kernel

theorem test_decode_refuses_illegal_fields :
    [0x20000001#32, 0x20100000#32, 0x20010000#32, 0x50210001#32, 0x60100000#32].map decode
      = List.replicate 5 (.error .illegalOperand) := by decide +kernel

/-! ### A small machine -/

/-- A machine with 4 by 4 rasters, one reference, and every size 4. -/
def small : State :=
  { State.reset with
    frameW := 4, frameH := 4, refs := [⟨4, 4, List.replicate 16 0xFF000000#32⟩], blkSize := 4, splSize := 4, coefSize := 4
    emapW := 4, emapH := 4 }

/-- `s` with sixteen equal words stored from `base` up. -/
def filled (base : Nat) (w : Word) (s : State) : State := s.writeWords base (List.replicate 16 w)

/-- `s` with the characters `cs` as the whole stream. -/
def stream (cs : List Char) (s : State) : State :=
  { s.writeBytes strmBase (asciiList cs) with sLen := BitVec.ofNat 32 cs.length }

/-- What is in flight: a command and its first three arguments. -/
def flight (i : Instr) (a0 a1 a2 : Word) : Pend := ⟨encode i, #v[a0, a1, a2, 0, 0, 0, 0, 0]⟩

/-- `s` with a command in flight. -/
def given (i : Instr) (a0 a1 a2 : Word) (s : State) : State :=
  { s with pend := some (flight i a0 a1 a2), cmd := encode i }

/-- What `f` says of the state after one step. -/
def after {α : Type} (s : State) (f : State → α) : Option α :=
  match step s with
  | .next t => some (f t)
  | _ => none

/-- The fault record and `STATUS` of a state. -/
def faultOf (s : State) : Nat × Word × Word := (s.faultCode.toNat, s.faultInfo, s.statusWord)

/-- The first `n` bytes of the stream of a state. -/
def streamOf (n : Nat) (s : State) : List Byte := (List.range n).map s.strmByte

/-- A block whose sixteen cells are visible and black but for the colour of cell 5. -/
def block : State := filled blkIgnBase 0 (filled blkPixBase 0xFF000000 small)

/-! ### One step of each command -/

/-- V3.1 (2) and (4). -/
theorem test_ras_get : after (given (.rasGet .cur 0) 3 3 0 (small.writeWord 0x0400003C 0xFF00001D)) (·.results[0])
    = some 0xFF00001D := by decide +kernel
theorem test_ras_get_out_of_bounds : after (given (.rasGet .cur 0) 0x00010005 0x00020004 0 small) faultOf
    = some (7, 0x00040005, 4) := by decide +kernel

/-- V3.1 (7) and (9). -/
theorem test_ras_set : after (given (.rasSet .aux 0) 3 2 0x12345678 small) (·.wordAt 0x0800002C) = some 0x12345678 := by
  decide +kernel
theorem test_ras_set_out_of_bounds : after (given (.rasSet .aux 0) 4 2 1 small) faultOf = some (7, 0x00020004, 4) := by
  decide +kernel

/-- V3.2 (1) and (7). -/
theorem test_blk_ld : after (given (.blkLd .ref 1) 3 2 4 small)
      (fun t => (t.wordAt 0x00010000, t.wordAt 0x00010004, t.blkIgn 4, t.blkIgn 5, t.blkIgn 8, t.blkSzWord))
    = some (0xFF000000, 0x0558152B, false, true, true, 4) := by decide +kernel
theorem test_blk_ld_size : after (given (.blkLd .ref 1) 0 0 260 small) faultOf = some (5, 0x00000104, 4) := by
  decide +kernel

/-- V3.2 (3) and (10): a hidden cell is not stored; a visible one outside stops the store. -/
theorem test_blk_st : after (given (.blkSt .aux 0) 0 0 0
      (filled auxBase 7 (block.writeWords 0x00014004 [1])))
      (fun t => (t.wordAt 0x08000000, t.wordAt 0x08000004, t.wordAt 0x0800003C))
    = some (0xFF000000, 7, 0xFF000000) := by decide +kernel
theorem test_blk_st_out_of_bounds : after (given (.blkSt .aux 0) 0 0 0 { block with blkPosX := 2 }) faultOf
    = some (7, 4, 4) := by decide +kernel

/-- V3.5 (3) and (6). -/
theorem test_ref_push_evicts : after (given .refPush 0 0 0 (filled curBase 0xCCCCCCCC { small with refCap := 1 }))
      (fun t => (t.refs.map (·.pix.head?), t.refCnt)) = some ([some 0xCCCCCCCC], 1) := by decide +kernel
theorem test_ref_push_capacity_zero : after (given .refPush 0 0 0 { small with refCap := 0 }) faultOf
    = some (3, 1, 4) := by decide +kernel

/-- V3.5 (8) and (9). -/
theorem test_ref_reset : after (given .refReset 0 0 0 (filled curBase 0xEEEEEEEE small))
      (fun t => t.refs.map (·.pix.head?)) = some [some 0xEEEEEEEE] := by decide +kernel
theorem test_ref_reset_dimensions : after (given .refReset 0 0 0 { small with frameW := 0 }) faultOf
    = some (3, 0, 4) := by decide +kernel

/-- V4.1: red, and 0xFF102030. -/
theorem test_col_rgb2ycc : after (given .colRgb2Ycc 0xFFFF0000 0 0 small) (fun t => (t.results[0], t.results[1], t.results[2]))
    = some (76, 85, 256) := by decide +kernel
theorem test_col_gray : after (given .colGray 0xFF102030 0 0 small) (·.results[0]) = some 29 := by decide +kernel

/-- V4.2: operands outside the forward range. -/
theorem test_col_ycc2rgb : after (given .colYcc2Rgb 128 0xFFFFFC18 128 small) (·.results[0]) = some 0xFF80FF00 := by
  decide +kernel
theorem test_col_ycc2rgb_rounds : after (given .colYcc2Rgb 100 139 119 small) (·.results[0]) = some 0xFF576777 := by
  decide +kernel

/-- V4.3 (5) and (6). -/
theorem test_col_blk2ycc : after (given .colBlk2Ycc 0 0 0 (filled blkPixBase 0xFF102030 block))
      (fun t => (t.wordAt 0x0002003C, t.wordAt 0x0002043C, t.wordAt 0x0002083C, t.splSize))
    = some (29, 139, 119, 4) := by decide +kernel
theorem test_col_blk2ycc_masked : after (given .colBlk2Ycc 0 0 0 (block.writeWord 0x0001401C 1)) faultOf
    = some (8, 7, 4) := by decide +kernel

/-- V4.3 (7). -/
theorem test_col_blk2rgb : after (given .colBlk2Rgb 0 0 0
      { filled splYBase 29 (filled splCbBase 139 (filled splCrBase 119 small)) with blkEdge := true, blkSize := 8 })
      (fun t => (t.wordAt 0x0001003C, t.wordAt 0x0001403C, t.blkSzWord)) = some (0xFF102030, 0, 0x104) := by decide +kernel

/-- V5.1 (2): white where x and y are at least 2. -/
def corner : State :=
  small.writeWords curBase
    ([0, 0, 0, 0, 0, 0, 0, 0, 0, 0, 0xFFFFFFFF, 0xFFFFFFFF, 0, 0, 0xFFFFFFFF, 0xFFFFFFFF] : List Word)

/-- V5.2 (1) and (2). -/
theorem test_sob_pix : after (given (.sobPix .cur 0) 2 2 0 corner) (·.results[0]) = some 1530 := by decide +kernel
theorem test_sob_pix_inner : after (given (.sobPix .cur 0) 1 1 0 corner) (·.results[0]) = some 510 := by decide +kernel

/-- V5.1 (2). -/
theorem test_sob_map : after (given (.sobMap .cur 0) 0 0 0 corner)
      (fun t => ((List.range 16).map fun k => (t.emap k).toNat, t.emapDimWord))
    = some ([0, 0, 0, 0, 0, 510, 1020, 1020, 0, 1020, 1530, 1020, 0, 1020, 1020, 0], 0x00040004) := by decide +kernel

/-- V5.2 (6) and (7): the threshold is exceeded, not reached. -/
theorem test_sob_blkflag : after (given .sobBlkFlag 0 0 0
      { (filled emapBase 0 block).writeWord 0x0C000028 1530 with edgeThr := 1529 }) (fun t => (t.results[0], t.blkSzWord))
    = some (1530, 0x104) := by decide +kernel
theorem test_sob_blkflag_equal : after (given .sobBlkFlag 0 0 0
      { (filled emapBase 0 block).writeWord 0x0C000028 1530 with edgeThr := 1530, blkEdge := true })
      (fun t => (t.results[0], t.blkSzWord)) = some (1530, 4) := by decide +kernel

/-- V6.5: the alternating input at the limit, two of whose coefficients are irrational before rounding. -/
theorem test_dct_fwd : after (given .dctFwd 0 0 0
      (filled splCbBase 128 (filled splCrBase 128 (small.writeWords splYBase
        ((List.range 16).map fun k => if (k % 4 + k / 4) % 2 = 0 then 0x00100000#32 else 0xFFF00000#32)))))
      (fun t => (t.wordAt 0x00030014, t.wordAt 0x0003001C, t.wordAt 0x0003003C)) = some (614242, 1482910, 3580062) := by
  decide +kernel
/-- V6.3 (16). -/
theorem test_dct_fwd_range : after (given .dctFwd 0 0 0
      ((filled splYBase 128 (filled splCbBase 128 (filled splCrBase 128 small))).writeWord 0x00020800 0xFFEFFFFF)) faultOf
    = some (9, 0x80000000, 4) := by decide +kernel

/-- V6.4: c = −6, ties of both planes. -/
theorem test_dct_inv : after (given .dctInv 0 0 0
      ((filled coefYBase 0 (filled coefCbBase 0 (filled coefCrBase 0 small))).writeWord 0x00030000 0xFFFFFFFA
        |>.writeWord 0x00030400 0xFFFFFFFA))
      (fun t => (s32 (t.wordAt 0x0002003C), t.wordAt 0x0002043C, t.wordAt 0x0002083C)) = some (-1, 125, 128) := by
  decide +kernel

/-- V7.2: cost 25 against tolerances 5 and 4. -/
theorem test_mot_search : after (given (.motSearch .ref 1) 0 0 0
      { block.writeWord 0x00010014 0xFF030400 with madTol := 5 }) (·.results.toList)
    = some [1, 0, 0, 0, 0, 1, 25, 0] := by decide +kernel
theorem test_mot_search_above_tolerance : after (given (.motSearch .ref 1) 0 0 0
      { block.writeWord 0x00010014 0xFF030400 with madTol := 4 }) (·.results.toList)
    = some [0, 0, 0, 0, 0, 1, 25, 0] := by decide +kernel

/-- V7.6 (2) and (1). -/
theorem test_mot_batch : after (given (.motBatch .ref 1) 1 0 0
      ((filled curBase 0xFF000000 small).writeWords vtabBase [1, 3, 4, 0]))
      (fun t => (List.range 12).map fun k => (t.vtab 0 k).toNat)
    = some [1, 3, 4, 0, 1, 1, 3, 0, 0, 1, 0, 0] := by decide +kernel
theorem test_mot_batch_zero_size : after (given (.motBatch .ref 1) 2 0 0
      ((small.writeWords vtabBase [0, 0, 4, 0]).writeWords 0x00040040 [0, 0, 0, 0])) faultOf = some (4, 1, 4) := by
  decide +kernel

/-- V8.1. -/
theorem test_ser_meta : after (given .serMeta 2 0 0 small) (fun t => (streamOf 17 t, t.sLen))
    = some (asciiList ['M', 'E', 'T', 'A', '[', 'D', '[', '4', ',', '4', ']', 'F', 'C', '[', '2', ']', ']'], 17) := by
  decide +kernel
theorem test_ser_intra : after (given (.serIntra .cur 0) 0 0 0
      ((small.writeWords curBase (List.replicate 15 0xFF000000)).writeWord 0x0400003C 0xFFFFFFFF))
      (fun t => (streamOf 20 t, t.sLen))
    = some (asciiList ['$', 'S', '$', '-', '1', '6', '7', '7', '7', '2', '1', '6', '~', '1', '4', '.', '-', '1', '.', '?'],
        20) := by decide +kernel

/-- V8.2: the last value and index. -/
theorem test_ser_frame : after (given (.serFrame .aux 0) 0xFFFFFFFF 0 0
      ({ small with frameW := 1, frameH := 1 }.writeWord auxBase 0x7FFFFFFF)) (streamOf 25)
    = some (asciiList ['$', 'P', '4', '2', '9', '4', '9', '6', '7', '2', '9', '5', '$', '2', '1', '4', '7', '4', '8', '3',
        '6', '4', '7', '.', '?']) := by decide +kernel
/-- V8.3 (1): the record is one byte too long. -/
theorem test_ser_frame_overflow : after (given (.serFrame .aux 0) 1 0 0
      { (filled auxBase 5 small) with sLen := 0x00FFFFF7 }) faultOf = some (11, 10, 4) := by decide +kernel

/-- V8.5: bit 0 of `STAT` selects, `RX` is unsigned and `SX` signed. -/
theorem test_ser_vecs : after (given .serVecs 9 2 0
      ((small.writeWords 0x00040010 [3, 0x80000000, 5, 7, 0xFFFFFFF8]).writeWords 0x00040050 [2, 1, 2, 3, 4]))
      (fun t => (streamOf 23 t, t.sLen))
    = some (asciiList ['$', 'V', '9', '$', '[', '2', '1', '4', '7', '4', '8', '3', '6', '4', '8', ',', '5', ';', '7', ',',
        '-', '8', ']'], 23) := by decide +kernel

/-- V9.1. -/
theorem test_par_peek : after (given .parPeek 0 0 0 (stream ['$', 'P', '0', '0', '7', '$'] small))
      (fun t => (t.results[0], t.results[1], t.rPtr)) = some (3, 7, 0) := by decide +kernel
theorem test_par_peek_malformed : after (given .parPeek 0 0 0 (stream ['$', 'P', '$'] small)) faultOf
    = some (10, 0, 4) := by decide +kernel

/-- V9.3 (1), X8. -/
theorem test_par_meta : after (given .parMeta 0 0 0 (stream
      ['M', 'E', 'T', 'A', '[', 'D', '[', '1', '6', ',', '1', '6', ']', 'F', 'C', '[', '3', ']', ']'] small))
      (fun t => (t.results[0], t.results[1], t.results[2], t.rPtr)) = some (16, 16, 3, 19) := by decide +kernel

/-- V9.2: a final run of leading zeros, and a wrong total. -/
theorem test_par_intra : after (given (.parIntra .cur 0) 0 0 0
      (stream ['$', 'S', '$', '0', '0', '7', '~', '0', '1', '4', '.', '-', '1', '?'] small))
      (fun t => (t.wordAt 0x04000038, t.wordAt 0x0400003C, t.rPtr)) = some (7, 0xFFFFFFFF, 14) := by decide +kernel
theorem test_par_intra_total : after (given (.parIntra .cur 0) 0 0 0
      (stream ['$', 'S', '$', '1', '~', '4', '2', '9', '4', '9', '6', '7', '2', '9', '5', '.', '?'] small)) faultOf
    = some (6, 0xFFFFFFFF, 4) := by decide +kernel

/-- V9.2. -/
theorem test_par_frame : after (given (.parFrame .aux 0) 0 0 0
      (stream ['$', 'P', '0', '0', '7', '$', '1', '~', '1', '5', '.', '?'] small))
      (fun t => (t.wordAt 0x0800003C, t.results[0], t.rPtr)) = some (1, 7, 12) := by decide +kernel
theorem test_par_frame_two_dots : after (given (.parFrame .aux 0) 0 0 0
      (stream ['$', 'P', '1', '$', '1', '~', '1', '5', '.', '.', '?'] small)) faultOf = some (10, 0, 4) := by decide +kernel

/-- V9.4 (5): negative positions wrap. -/
theorem test_par_vecs : after (given .parVecs 0 0 0
      (stream ['$', 'V', '1', '$', '[', '0', ',', '0', ';', '-', '5', ',', '-', '7', ']'] small))
      (fun t => ((List.range 12).map fun k => s32 (t.vtab 0 k), t.results[1], t.rPtr))
    = some ([-5, -7, 0, 0, 1, 0, 0, -5, -7, 1, 0, 0], 1, 15) := by decide +kernel

/-! ### The host (V2.1, V2.3, V10.1) -/

/-- V2.1 (2): a command is dropped while `FAULT` is 1. -/
theorem test_issue_while_faulted : after { State.reset with
      statusFault := true, agenda := [.host (.write 0x00C 4 0x20000000)] } (fun t => (t.statusWord, t.cmd, t.pend))
    = some (0xC, 0, none) := by decide +kernel
/-- V2.1 (7): `CLRF`. -/
theorem test_clrf : after { State.reset with
      statusDone := true, statusCmdErr := true, faultCode := 7, agenda := (Line.access [] .clrf).toList.map .host }
      (fun t => (t.statusWord, t.faultCode)) = some (0, 7) := by decide +kernel
/-- V2.3. -/
theorem test_soft_reset : after { small with refCap := 2, sLen := 22, agenda := [.host (.write 0x004 4 0x00000701)] }
      (fun t => (t.ctrlWord, t.refCap, t.refs.length, t.sLen)) = some (0x700, 5, 0, 0) := by decide +kernel
/-- V10.1: refused accesses. -/
theorem test_refused_accesses :
    ∀ a ∈ [(0x100, 4), (0x18000, 4), (0x30600, 4), (0x2000000, 4), (0x10000000, 4), (0x4000002, 4), (0x4000000, 2)],
      after { State.reset with agenda := [.host (.read a.1 a.2)] } (fun _ => ()) = none := by decide +kernel
/-- V10.2: byte order of the stream. -/
theorem test_stream_byte_order : after { stream ['M', 'E', 'T', 'A'] small with
      agenda := [.host (.read 0x01000000 4)] } (·.lastRead) = some (some 0x4154454D) := by decide +kernel
/-- V1.1: the first step after reset runs the placed word. -/
theorem test_first_word_runs : after (State.reset.withFetchWord 32 0x10000000) faultOf = some (3, 0, 4) := by decide +kernel

/-! ### Programs (R91, R92) -/

/-- Two tiles of an 8 by 4 frame; the body names the tile's position and a value read, as line 12 of 95 P2 does. -/
def tileProgram : List Line :=
  [.partition .cur 0 4 fun bx by' =>
    [.rd .blkSz, .wrm (vtabBase + 16 * bx) fun reads => reads.headD 0 + BitVec.ofNat 32 (100 * bx + by')]]

theorem test_partition_body_names_its_tile :
    (ProgramRun.run
        (.host :: (List.replicate 2 (List.replicate 6 Turn.host ++ [.engine, .host, .host, .host])).flatten)
        ⟨tileProgram, [], filled curBase 5 { small with frameW := 8 }⟩).map
      (fun q => (q.1.machine.vtab 0 0, q.1.machine.vtab 1 0, q.1.todo.length, q.2.length)) = some (4, 404, 0, 18) := by
  decide +kernel

/-- A completion between a command line and later lines that are no `WAIT`. -/
theorem test_completion_between_lines :
    (ProgramRun.run [.host, .host, .engine, .host] ⟨[.command .colGray, .rd .status, .rd .status], [], small⟩).map
      (fun q => (q.1.reads, q.2.length)) = some ([2, 1], 4) := by decide +kernel

/-- The block at (4, 4) of size 8 begins inside an 8 by 8 frame with one of its four sub-blocks; sizes 8 and 1 have no meaning. -/
theorem test_split :
    ([4, 8, 1].map fun t => ((Line.split .cur 0 t fun _ _ => []).unfold
        { small with frameW := 8, frameH := 8, blkPosX := 4, blkPosY := 4, blkSize := 8 }).map List.length)
      = [some 1, none, none] := by decide +kernel

/-! ### Witnesses: for each statement with hypotheses, values that meet all of them, clause by clause -/

theorem witness_DecodeReadsEncodedWord : (Instr.rasGet (.reserved 3) 15).wf = true ∧ (Instr.parVecs).wf = true := by decide

theorem witness_EncodeWritesDecodedWord :
    decode 0x6BFF0000#32 = .ok (.parFrame (.reserved 15) 15) ∧ decode 0x6C000000#32 = .ok .parVecs := by decide +kernel

/-- `small` with a word in flight that need not be a command. -/
def latched (w : Word) : State := small.latch w

/-- The operation codes of R84. -/
def knownCodes : List Nat :=
  [0x14, 0x15, 0x20, 0x21, 0x22, 0x23, 0x24, 0x32, 0x40, 0x41, 0x60, 0x63, 0x68, 0x69, 0x6C, 0x10, 0x12, 0x30, 0x31, 0x61,
    0x62, 0x11, 0x13, 0x6A, 0x6B, 0x50, 0x51]

/-- An unknown code on each side of the table, and one word for each way to be illegal. -/
theorem witness_IllegalWordTakesItsFault :
    (∀ w ∈ [0x0FFFFFFF, 0x6D000000], (latched (BitVec.ofNat 32 w)).engineNext = true
      ∧ (latched (BitVec.ofNat 32 w)).pend = some ⟨BitVec.ofNat 32 w, small.args⟩ ∧ w / 2 ^ 24 ∉ knownCodes)
    ∧ (∀ w ∈ [0x10000001, 0x14100000, 0x14010000, 0x10010000, 0x10220000, 0x10300000, 0x11210000, 0x50200000, 0x50220000],
      (latched (BitVec.ofNat 32 w)).engineNext = true
      ∧ (latched (BitVec.ofNat 32 w)).pend = some ⟨BitVec.ofNat 32 w, small.args⟩ ∧ w / 2 ^ 24 ∈ knownCodes)
    ∧ (0x10000001#32).extractLsb' 0 16 ≠ 0 ∧ small.refs.length = 1 := by decide +kernel

theorem witness_EngineStepRunsDecodedCommand :
    (given .refPush 0 0 0 small).engineNext = true ∧ (given .refPush 0 0 0 small).pend = some (flight .refPush 0 0 0)
      ∧ decode (flight .refPush 0 0 0).cmd = .ok .refPush := by decide +kernel

theorem witness_IdleEngineStaysAsItIs : State.reset.engineNext = true ∧ State.reset.pend = none := by decide

/-- `s` with one host access to come. -/
def facing (a : HostAccess) (s : State) : State := { s with agenda := [.host a] }

/-- Every register and the four ends of the empty ranges; the window of `small` is not full. -/
theorem witness_RegisterReadsHaveNoEffect :
    (∀ a ∈ Reg.all.map Reg.offset ++ [0x050, 0x07C, 0x0C0, 0x0FC], a % 4 = 0 ∧ a < 0x100
      ∧ (facing (.read a 4) small).agenda = .host (.read a 4) :: [])
    ∧ small.refs.length ≤ 15 := by decide +kernel

/-- A dropped write of each kind, and a write that is performed. -/
theorem witness_CommandErrorExactlyOnDroppedWrites :
    (∀ a ∈ [0x000, 0x044, 0x050, 0x07C, 0x0A0, 0x0FC], small.statusCmdErr = false
      ∧ after (facing (.write a 4 0) small) (·.statusCmdErr) = some true)
    ∧ (∀ a ∈ [0x00C, 0x018, 0x020, 0x028, 0x04C], after (facing (.write a 4 0) (given .refPush 0 0 0 small)) (·.statusCmdErr)
      = some true)
    ∧ after (facing (.write 0x00C 4 0) { small with statusFault := true }) (·.statusCmdErr) = some true
    ∧ after (facing (.write 0x00C 4 0) small) (·.statusCmdErr) = some false := by decide +kernel

theorem witness_ConfigurationWrites :
    ∀ a ∈ [0x018, 0x01C, 0x020, 0x028, 0x02C, 0x030, 0x034, 0x038, 0x03C, 0x040, 0x048, 0x04C], small.pend = none
      ∧ (facing (.write a 4 0xFFFFFFFF) small).agenda = .host (.write a 4 0xFFFFFFFF) :: [] := by decide +kernel

theorem witness_ControlWritesAndIssue :
    (0xFFFFFFFE#32).getLsbD 0 = false ∧ small.pend = none ∧ small.statusFault = false
    ∧ ∀ a ∈ [0x004, 0x008, 0x080, 0x09C, 0x00C],
      (facing (.write a 4 0xFFFFFFFE) small).agenda = .host (.write a 4 0xFFFFFFFE) :: [] := by decide +kernel

theorem witness_SoftReset :
    (0x00000001#32).getLsbD 0 = true ∧ (facing (.write 0x004 4 0x00000001) (given .refPush 0 0 0 small)).agenda
      = .host (.write 0x004 4 0x00000001) :: [] := by decide +kernel

theorem witness_HardwareResetValues : { small with agenda := [.hardReset] }.agenda = .hardReset :: [] := rfl

/-- A wrong size, a misaligned address, the first address past a region, and a buffer while a command is in flight. -/
theorem witness_RefusedAccessesStop :
    (∀ a ∈ [(0x10000, 2), (0x10002, 4), (0x100, 4), (0x18000, 4), (0x20C00, 4), (0x30600, 4), (0x80000, 4), (0x2000000, 4),
      (0x10000000, 4)], (facing (.read a.1 a.2) small).agenda = .host (.read a.1 a.2) :: []
        ∧ after (facing (.read a.1 a.2) small) (fun _ => ()) = none)
    ∧ (given .refPush 0 0 0 small).busy = true
    ∧ (∀ a ∈ [0x10000, 0x17FFC, 0x205FC, 0x305FC, 0x40000, 0x7FFFC, 0x1000000, 0x1FFFFFC, 0xFFFFFFC],
      after (facing (.read a 4) (given .refPush 0 0 0 small)) (fun _ => ()) = none) := by decide +kernel

theorem witness_BufferWriteIsReadBack :
    ∀ a ∈ [(0x14000, Region.blkIgn), (0x17FFC, .blkIgn), (0x1FFFFFC, .strm), (0xFFFFFFC, .emap)], small.pend = none
      ∧ a.1 % 4 = 0 ∧ regionAt a.1 = some a.2 ∧ a.2 ≠ .registers
      ∧ { small with agenda := [.host (.write a.1 4 3), .host (.read a.1 4)] }.agenda
        = .host (.write a.1 4 3) :: .host (.read a.1 4) :: [] := by decide +kernel

/-- A window of one full entry, a store that lists bytes, and a command in flight. -/
theorem witness_WindowInvariantKept :
    (given .refPush 0 0 0 (filled curBase 5 small)).WindowInv
      ∧ (after (given .refPush 0 0 0 (filled curBase 5 small)) (·.refs.length)) = some 2 := by decide +kernel

theorem witness_BufferInvariantKept :
    (given .colBlk2Rgb 0 0 0 (filled splYBase 1 (filled splCbBase 2 (filled splCrBase 3 block)))).WindowInv
    ∧ (given .colBlk2Rgb 0 0 0 (filled splYBase 1 (filled splCbBase 2 (filled splCrBase 3 block)))).BufferInv
    ∧ (after (given .colBlk2Rgb 0 0 0 (filled splYBase 1 (filled splCbBase 2 (filled splCrBase 3 block))))
        (·.mem.length)) = some 320 := by decide +kernel

theorem witness_LifeCycleInvariantKept :
    (given .colGray 5 0 0 small).LifeInv ∧ after (given .colGray 5 0 0 small) (·.statusDone) = some true := by decide +kernel

theorem witness_WindowChangedOnlyByRefCommands :
    after (given .refReset 0 0 0 (filled curBase 5 small)) (·.refs.length) = some 1
    ∧ after (facing (.write 0x004 4 1) small) (·.refs.length) = some 0
    ∧ after { small with agenda := [.hardReset] } (·.refs.length) = some 0
    ∧ after (given .colGray 0 0 0 small) (·.refs.length) = some 1 := by decide +kernel

theorem witness_HostCannotDisturbCommandInFlight :
    (given .refPush 0 0 0 small).pend = some (flight .refPush 0 0 0)
    ∧ after (facing (.write 0x09C 4 7) (given .refPush 0 0 0 small)) (·.args[7]) = some 7
    ∧ after (facing (.write 0x004 4 1) (given .refPush 0 0 0 small)) (·.pend) = some none := by decide +kernel

theorem witness_CommandsIgnoreLaterHostWrites :
    ∃ t, exec .colGray (given .colGray 0xFF102030 0 0 small) = .next t := ⟨_, rfl⟩

theorem witness_CommandFaultsOrCompletes :
    (given .colGray 0 0 0 small).pend = some (flight .colGray 0 0 0) := rfl

/-- Both coordinates at the first value outside; a block whose cell (2, 0) is the first that is visible and outside; a table whose
entry 1 is the first outside. -/
theorem witness_PositionOutOfBoundsFaults :
    (∃ v, (given (.blkLd .ref 1) 3 4 64 small).resolveRaster 0x12210000 .ref 1 = .ok v ∧ v.h ≤ u32 4 ∧ u32 64 ∈ [4, 8, 16, 32, 64])
    ∧ (∃ v, (given (.rasGet .cur 0) 4 3 0 small).resolveRaster 0x10000000 .cur 0 = .ok v ∧ v.w ≤ u32 4)
    ∧ (∃ t, (given (.rasSet .aux 0) 4 0 0 small).resolveWritable 0x11100000 .aux 0 = .ok t ∧ t.w ≤ u32 4)
    ∧ (∃ t, (given (.blkSt .aux 0) 0 0 0 small).resolveWritable 0x13100000 .aux 0 = .ok t ∧ t.w = 4 ∧ t.h = 4)
    ∧ (∃ ref, (given (.motSearch .ref 1) 0 0 0 small).resolveRef 0x50210000 .ref 1 = .ok ref ∧ ref.w = 4 ∧ ref.h = 4)
    ∧ small.frameLegal ∧ small.emapW ≠ 0 ∧ small.emapW = small.frameW ∧ small.emapH = small.frameH
    ∧ (let s := { block with blkPosX := 2 }
       s.blkSize.toNat ∈ [4, 8, 16, 32, 64] ∧ s.blkIgn (0 * 4 + 2) = false ∧ 4 ≤ u32 s.blkPosX + 2
        ∧ ∀ b < 4, ∀ a < 4, b * 4 + a < 0 * 4 + 2 → u32 s.blkPosX + a < 4 ∧ u32 s.blkPosY + b < 4)
    ∧ (let s := small.writeWords vtabBase ([3, 3, 4, 0] ++ List.replicate 12 0 ++ [0, 4, 64, 0])
       u32 ((flight (.motBatch .ref 1) 2 0 0).arg 0) = 2
        ∧ u32 (s.vtab 0 2) % 256 = 4 ∧ u32 (s.vtab 0 0) < 4 ∧ u32 (s.vtab 0 1) < 4
        ∧ u32 (s.vtab 1 2) % 256 = 64 ∧ ¬ u32 (s.vtab 1 1) < 4) :=
  ⟨⟨_, rfl, by decide, by decide⟩, ⟨_, rfl, by decide⟩, ⟨_, rfl, by decide⟩, ⟨_, rfl, rfl, rfl⟩, ⟨_, rfl, rfl, rfl⟩,
    by decide +kernel⟩
theorem test_sob_blkflag_out_of_bounds : after (given .sobBlkFlag 0 0 0 { block with blkPosX := 2 }) faultOf
    = some (7, 4, 4) := by decide +kernel
theorem test_mot_search_out_of_bounds : after (given (.motSearch .ref 1) 0 0 0 { block with blkPosY := 1 }) faultOf
    = some (7, 0x00040000, 4) := by decide +kernel

/-- Sizes 0 and one step outside each list; illegal dimensions; a map and a frame of other dimensions; 4097 entries; a table whose
entry 0 is legal and whose entry 1 has size 0, then 65. -/
theorem witness_BlockSizeFaults :
    (∃ v, (given (.blkLd .ref 1) 0 0 65 small).resolveRaster 0x12210000 .ref 1 = .ok v ∧ u32 65 ∉ [4, 8, 16, 32, 64])
    ∧ (∃ t, (given (.blkSt .aux 0) 0 0 0 { small with blkSize := 0 }).resolveWritable 0x13100000 .aux 0 = .ok t)
    ∧ (∃ ref, (given (.motBatch .ref 1) 0 0 0 { small with frameW := 4097 }).resolveRef 0x51210000 .ref 1 = .ok ref)
    ∧ (∃ ref, (given (.motBatch .ref 1) 0 0 0 { small with frameW := 5 }).resolveRef 0x51210000 .ref 1 = .ok ref ∧ ref.w ≠ 5)
    ∧ (0 : BitVec 8).setWidth 32 = 0#32 ∧ u32 ((32 : BitVec 8).setWidth 32) ∉ [4, 8, 16]
    ∧ ¬ { small with frameW := 4097 }.frameLegal ∧ { small with frameW := 5 }.frameLegal
    ∧ { small with frameW := 5 }.emapW ≠ { small with frameW := 5 }.frameW
    ∧ 4096 < u32 ((flight (.motBatch .ref 1) 4097 0 0).arg 0) ∧ u32 ((flight (.motBatch .ref 1) 4096 0 0).arg 0) ≤ 4096
    ∧ ∀ n ∈ [0, 65],
        let s := small.writeWords vtabBase ([3, 3, 4, 0] ++ List.replicate 12 0 ++ [0, 0, BitVec.ofNat 32 n, 0])
        u32 (s.vtab 0 2) % 256 ∈ [4, 8, 16, 32, 64] ∧ u32 (s.vtab 0 0) < 4 ∧ u32 (s.vtab 0 1) < 4
          ∧ u32 (s.vtab 1 2) % 256 = n :=
  ⟨⟨_, rfl, by decide⟩, ⟨_, rfl⟩, ⟨_, rfl⟩, ⟨_, rfl, by decide⟩, by decide +kernel⟩
theorem test_mot_batch_table_overflow : after (given (.motBatch .ref 1) 4097 0 0 small) faultOf = some (12, 4097, 4) := by
  decide +kernel
theorem test_mot_search_dimensions : after (given (.motSearch .ref 1) 0 0 0 { block with frameW := 5 }) faultOf
    = some (6, 0x00040004, 4) := by decide +kernel

/-- Dimensions at both ends, one step outside each, and drawbacks at both ends of the window. -/
theorem witness_RasterOperandResolves :
    (∀ n ∈ [1, 4096], { small with frameW := BitVec.ofNat 13 n }.frameLegal)
    ∧ (∀ n ∈ [0, 4097], ¬ { small with frameW := BitVec.ofNat 13 n }.frameLegal)
    ∧ small.refs.length < (2 : BitVec 4).toNat ∧ 1 ≤ (1 : BitVec 4).toNat ∧ (1 : BitVec 4).toNat ≤ small.refs.length
    ∧ small.refs[small.refs.length - (1 : BitVec 4).toNat]? = some ⟨4, 4, List.replicate 16 0xFF000000#32⟩ := by
  decide +kernel

theorem witness_RasGetReadsPixel :
    ∃ v, (given (.rasGet .ref 1) 3 3 0 small).resolveRaster 0x10210000 .ref 1 = .ok v
      ∧ (given (.rasGet .ref 1) 3 3 0 small).pend = some (flight (.rasGet .ref 1) 3 3 0)
      ∧ u32 ((flight (.rasGet .ref 1) 3 3 0).arg 0) < v.w ∧ u32 ((flight (.rasGet .ref 1) 3 3 0).arg 1) < v.h :=
  ⟨_, rfl, rfl, by decide, by decide⟩

theorem witness_RasSetStoresPixel :
    ∃ r, (given (.rasSet .cur 0) 3 3 9 small).resolveWritable 0x11000000 .cur 0 = .ok r
      ∧ (given (.rasSet .cur 0) 3 3 9 small).pend = some (flight (.rasSet .cur 0) 3 3 9)
      ∧ u32 ((flight (.rasSet .cur 0) 3 3 9).arg 0) < r.w ∧ u32 ((flight (.rasSet .cur 0) 3 3 9).arg 1) < r.h :=
  ⟨_, rfl, rfl, by decide, by decide⟩

/-- A block that overhangs in both directions; cell (0, 0) is inside and (1, 0), (0, 1) are outside. -/
theorem witness_BlkLdLoadsBlock :
    ∃ v, (given (.blkLd .ref 1) 3 3 4 small).resolveRaster 0x12210000 .ref 1 = .ok v
      ∧ (given (.blkLd .ref 1) 3 3 4 small).pend = some (flight (.blkLd .ref 1) 3 3 4)
      ∧ u32 ((flight (.blkLd .ref 1) 3 3 4).arg 2) ∈ [4, 8, 16, 32, 64]
      ∧ u32 ((flight (.blkLd .ref 1) 3 3 4).arg 0) < v.w ∧ u32 ((flight (.blkLd .ref 1) 3 3 4).arg 1) < v.h
      ∧ (3 + 0 < v.w ∧ 3 + 0 < v.h) ∧ ¬ (3 + 1 < v.w ∧ 3 + 0 < v.h) ∧ ¬ (3 + 0 < v.w ∧ 3 + 1 < v.h) :=
  ⟨_, rfl, rfl, by decide, by decide, by decide, by decide, by decide, by decide⟩

/-- The cells of `s` that are not ignored lie inside 4 by 4 when its block of size 4 stands at the origin. -/
theorem visible_inside (s : State) : ∀ i j : Nat, i < 4 ∧ j < 4 ∧ s.blkIgn (j * 4 + i) = false → 0 + i < 4 ∧ 0 + j < 4 := by
  omega

theorem witness_BlkStStoresVisibleCells :
    ∃ r, (given (.blkSt .aux 0) 0 0 0 block).resolveWritable 0x13100000 .aux 0 = .ok r
      ∧ (given (.blkSt .aux 0) 0 0 0 block).pend = some (flight (.blkSt .aux 0) 0 0 0)
      ∧ block.blkSize.toNat ∈ [4, 8, 16, 32, 64] ∧ block.blkIgn 15 = false
      ∧ ∀ i j : Nat, i < 4 ∧ j < 4 ∧ block.blkIgn (j * 4 + i) = false → 0 + i < r.w ∧ 0 + j < r.h :=
  ⟨_, rfl, rfl, by decide, by decide +kernel, visible_inside block⟩

/-- The window full and not full, and both faults. -/
theorem witness_RefPushAppendsAndEvicts :
    (given .refPush 0 0 0 small).pend = some (flight .refPush 0 0 0) ∧ small.frameLegal ∧ small.refCap ≠ 0
    ∧ after (given .refPush 0 0 0 { filled curBase 5 small with refCap := 1 }) (·.refs.length) = some 1
    ∧ after (given .refPush 0 0 0 { filled curBase 5 small with refCap := 2 }) (·.refs.length) = some 2
    ∧ ¬ { small with frameH := 4097 }.frameLegal ∧ { small with refCap := 0 }.refCap = 0 := by decide +kernel

theorem witness_RefResetReseeds :
    (given .refReset 0 0 0 small).pend = some (flight .refReset 0 0 0) ∧ small.frameLegal ∧ small.refCap ≠ 0
    ∧ ¬ { small with frameH := 4097 }.frameLegal ∧ { small with refCap := 0 }.refCap = 0 := by decide +kernel

theorem witness_PixelColourCommands :
    (given .colRgb2Ycc 0xFFFFFFFF 0 0 small).pend = some (flight .colRgb2Ycc 0xFFFFFFFF 0 0) := rfl

theorem witness_ForwardColourFormulasAndRanges : ∃ r g b : Nat, r ≤ 255 ∧ g ≤ 255 ∧ b ≤ 255 ∧ r = 255 ∧ g = 0 ∧ b = 255 :=
  ⟨255, 0, 255, by decide, by decide, by decide, rfl, rfl, rfl⟩

/-- The forward step of green and a state that takes its three results. -/
theorem witness_ColourRoundTripWithinOne :
    after (given .colRgb2Ycc 0xFF00FF00 0 0 small) (fun t => (t.results[0], t.results[1], t.results[2])) = some (150, 44, 21)
    ∧ (given .colYcc2Rgb 150 44 21 small).pend = some (flight .colYcc2Rgb 150 44 21)
    ∧ (flight .colYcc2Rgb 150 44 21).arg 2 = 21 ∧ exec .colRgb2Ycc (given .colRgb2Ycc 0xFF00FF00 0 0 small)
      = .next { small with cmd := 0x20000000, results := #v[150, 44, 21, 0, 0, 0, 0, 0], statusDone := true } :=
  ⟨by decide +kernel, rfl, rfl, rfl⟩

/-- A block without ignored cells, and one whose last cell alone is ignored. -/
theorem witness_BlockColourForward :
    (given .colBlk2Ycc 0 0 0 block).pend = some (flight .colBlk2Ycc 0 0 0) ∧ block.blkSize.toNat ∈ [4, 8, 16]
    ∧ (∀ k < 16, block.blkIgn k = false)
    ∧ (block.writeWord 0x0001403C 1).blkIgn 15 = true ∧ ∀ j < 15, (block.writeWord 0x0001403C 1).blkIgn j = false := by
  decide +kernel

theorem witness_BlockColourBack :
    (given .colBlk2Rgb 0 0 0 { small with splSize := 16 }).pend = some (flight .colBlk2Rgb 0 0 0)
      ∧ { small with splSize := 16 }.splSize.toNat ∈ [4, 8, 16] := by decide

theorem witness_SobelBounds : ∃ v : RasterView, (∀ k l, pixLuma (v.pix k) = pixLuma (v.pix l)) ∧ v.w = 1 ∧ v.h = 1 :=
  ⟨⟨1, 1, fun _ => 0xFFFFFFFF⟩, fun _ _ => rfl, rfl, rfl⟩

theorem witness_SobelMagnitudeCommands :
    ∃ v, (given (.sobPix .ref 1) 3 3 0 small).resolveRaster 0x30210000 .ref 1 = .ok v
      ∧ (given (.sobPix .ref 1) 3 3 0 small).pend = some (flight (.sobPix .ref 1) 3 3 0)
      ∧ u32 ((flight (.sobPix .ref 1) 3 3 0).arg 0) < v.w ∧ u32 ((flight (.sobPix .ref 1) 3 3 0).arg 1) < v.h :=
  ⟨_, rfl, rfl, by decide, by decide⟩

theorem witness_SobBlkFlagMarksEdgeBlock :
    (given .sobBlkFlag 0 0 0 block).pend = some (flight .sobBlkFlag 0 0 0) ∧ block.blkSize.toNat ∈ [4, 8, 16, 32, 64]
      ∧ block.emapW ≠ 0 ∧ block.emapW = block.frameW ∧ block.emapH = block.frameH ∧ block.blkIgn 15 = false
      ∧ ∀ i j : Nat, i < 4 ∧ j < 4 ∧ block.blkIgn (j * 4 + i) = false → 0 + i < 4 ∧ 0 + j < 4 :=
  ⟨rfl, by decide, by decide, by decide, by decide, by decide +kernel, visible_inside block⟩

theorem witness_TransformIsRoundedExactSum : ∃ L scale : Nat, 1 ≤ L ∧ 1 ≤ scale ∧ L = 1 ∧ scale = 1 :=
  ⟨1, 1, by decide, by decide, rfl, rfl⟩

/-- Samples at both limits of the input range. -/
theorem witness_DctFwdWritesRoundedCoefficients :
    let s := given .dctFwd 0 0 0 (filled splYBase 0x00100000 (filled splCbBase 0xFFF00000 (filled splCrBase 128 small)))
    s.pend = some (flight .dctFwd 0 0 0) ∧ s.splSize.toNat ∈ [4, 8, 16]
      ∧ ∀ base ∈ [splYBase, splCbBase, splCrBase], ∀ k < 16, (s32 (s.wordAt (base + 4 * k))).natAbs ≤ 2 ^ 20 := by
  decide +kernel

theorem witness_DctInvWritesRoundedSamples :
    let s := given .dctInv 0 0 0 (filled coefYBase 0x00100000 (filled coefCbBase 0xFFF00000 (filled coefCrBase 128 small)))
    s.pend = some (flight .dctInv 0 0 0) ∧ s.coefSize.toNat ∈ [4, 8, 16]
      ∧ (∀ k < 16, (s32 (s.wordAt (coefYBase + 4 * k))).natAbs ≤ 2 ^ 20)
      ∧ ∀ base ∈ [coefCbBase, coefCrBase], ∀ k < 4, (s32 (s.wordAt (base + 4 * k))).natAbs ≤ 2 ^ 20 := by
  decide +kernel

/-- The last word of the last plane of each command is the first one outside the range, by one. -/
theorem witness_TransformInputRangeFault :
    (let s := given .dctFwd 0 0 0
        ((filled splYBase 0x00100000 (filled splCbBase 0 (filled splCrBase 0 small))).writeWord 0x0002083C 0x00100001)
     s.pend = some (flight .dctFwd 0 0 0) ∧ s.splSize.toNat ∈ [4, 8, 16]
      ∧ 2 ^ 20 < (s32 (s.wordAt (splYBase + 0x400 * 2 + 4 * 15))).natAbs
      ∧ ∀ c ≤ 2, ∀ j < 16, c < 2 ∨ j < 15 → ¬ 2 ^ 20 < (s32 (s.wordAt (splYBase + 0x400 * c + 4 * j))).natAbs)
    ∧ (let s := given .dctInv 0 0 0
        ((filled coefYBase 0x00100000 (filled coefCbBase 0 (filled coefCrBase 0 small))).writeWord 0x0003050C 0xFFEFFFFF)
     s.pend = some (flight .dctInv 0 0 0) ∧ s.coefSize.toNat ∈ [4, 8, 16]
      ∧ 2 ^ 20 < (s32 (s.wordAt (coefCrBase + 4 * 3))).natAbs
      ∧ (∀ j < 16, ¬ 2 ^ 20 < (s32 (s.wordAt (coefYBase + 4 * j))).natAbs)
      ∧ (∀ j < 4, ¬ 2 ^ 20 < (s32 (s.wordAt (coefCbBase + 4 * j))).natAbs)
      ∧ ∀ j < 3, ¬ 2 ^ 20 < (s32 (s.wordAt (coefCrBase + 4 * j))).natAbs) := by decide +kernel

theorem witness_ConstantBlockRoundTrip : ∃ L : Nat, 1 ≤ L ∧ L ≤ 4 ∧ L = 4 := ⟨4, by decide, by decide, rfl⟩

theorem witness_MotionSearchFacts :
    validAt [⟨0, 0, 0, false⟩] ⟨4, 4, fun _ => 0⟩ (3, 3) = true := by decide

/-- An edge block and one that is searched. -/
theorem witness_MotSearchReportsRecord :
    ∃ ref, (given (.motSearch .ref 1) 0 0 0 block).resolveRef 0x50210000 .ref 1 = .ok ref
      ∧ (given (.motSearch .ref 1) 0 0 0 block).pend = some (flight (.motSearch .ref 1) 0 0 0)
      ∧ block.frameLegal ∧ block.blkSize.toNat ∈ [4, 8, 16, 32, 64] ∧ ref.w = block.frameW.toNat
      ∧ ref.h = block.frameH.toNat
      ∧ (∀ i j : Nat, i < 4 → j < 4 → block.blkIgn (j * 4 + i) = false → 0 + i < ref.w ∧ 0 + j < ref.h)
      ∧ block.blkEdge = false ∧ { block with blkEdge := true }.blkEdge = true :=
  ⟨_, rfl, rfl, by decide, by decide, rfl, rfl, fun i j hi hj hk => visible_inside block i j ⟨hi, hj, hk⟩, rfl, rfl⟩

/-- One entry whose block stands at the last position and overhangs, and a batch of none. -/
theorem witness_MotBatchFillsEntries :
    ∃ ref, (given (.motBatch .ref 1) 1 0 0 (small.writeWords vtabBase [3, 3, 0xFFFFFF40, 1])).resolveRef 0x51210000 .ref 1
        = .ok ref
      ∧ (given (.motBatch .ref 1) 1 0 0 small).pend = some (flight (.motBatch .ref 1) 1 0 0)
      ∧ small.frameLegal ∧ u32 ((flight (.motBatch .ref 1) 1 0 0).arg 0) ≤ 4096
      ∧ u32 ((flight (.motBatch .ref 1) 0 0 0).arg 0) = 0 ∧ ref.w = 4 ∧ ref.h = 4
      ∧ u32 ((small.writeWords vtabBase [3, 3, 0xFFFFFF40, 1]).vtab 0 2) % 256 ∈ [4, 8, 16, 32, 64]
      ∧ u32 ((small.writeWords vtabBase [3, 3, 0xFFFFFF40, 1]).vtab 0 0) < 4
      ∧ u32 ((small.writeWords vtabBase [3, 3, 0xFFFFFF40, 1]).vtab 0 1) < 4 :=
  ⟨_, rfl, rfl, by decide, by decide, by decide, rfl, rfl, by decide +kernel, by decide +kernel, by decide +kernel⟩

/-- One byte of room, with one byte and with two. -/
theorem witness_AppendWholeOrNothing :
    u32 { small with sLen := 16777215 }.sLen + [ascii '$'].length ≤ 16777216
      ∧ 16777216 < u32 { small with sLen := 16777215 }.sLen + [ascii '$', ascii 'V'].length := by decide

/-- The pointers equal, a full-size raster of one run, a table with one found entry, records that just fit and just do not, illegal
dimensions, and 4097 entries. -/
theorem witness_WritersAppendTheirRecords :
    (∃ v, (given (.serIntra .ref 1) 7 0 0 small).resolveRaster 0x61210000 .ref 1 = .ok v
      ∧ u32 small.sLen + (asciiList ['$', 'S', '$'] ++ encodePixels ((List.range (v.w * v.h)).map v.pix)).length ≤ 16777216
      ∧ 16777216 < u32 { small with sLen := 16777200 }.sLen
        + (asciiList ['$', 'S', '$'] ++ encodePixels ((List.range (v.w * v.h)).map v.pix)).length)
    ∧ (given (.serIntra .ref 1) 7 0 0 small).pend = some (flight (.serIntra .ref 1) 7 0 0)
    ∧ u32 small.rPtr ≤ u32 small.sLen ∧ u32 small.sLen ≤ 16777216 ∧ small.frameLegal
    ∧ 16777199 + (metaRecord 4 4 2).length = 16777216 ∧ ¬ { small with frameH := 0 }.frameLegal
    ∧ u32 ((flight .serVecs 9 1 0).arg 1) ≤ 4096 ∧ 4096 < u32 ((flight .serVecs 9 4097 0).arg 1)
    ∧ (small.writeWords 0x00040010 [3, 0x80000000, 5, 7, 0xFFFFFFF8]).vecsRecord 9 1 = asciiList ['$', 'V', '9', '$', '[', '2',
        '1', '4', '7', '4', '8', '3', '6', '4', '8', ',', '5', ';', '7', ',', '-', '8', ']'] :=
  ⟨⟨_, rfl, by decide +kernel, by decide +kernel⟩, rfl, by decide, by decide, by decide, by decide +kernel, by decide,
    by decide, by decide, by decide +kernel⟩

theorem witness_PixelStreamRoundTrip :
    [0x80000000#32, 0x80000000#32, 0xFFFFFFFF#32].length ≤ 2 ^ 32
      ∧ runsOf [0x80000000#32, 0x80000000#32, 0xFFFFFFFF#32] = [(0x80000000, 2), (0xFFFFFFFF, 1)] := by decide +kernel

/-- Both sides of the equivalence hold of a text with leading zeros and a final run. -/
theorem witness_PixelReaderAcceptsExactlyTheGrammar :
    readPixels (asciiList ['-', '0', '0', '.', '7', '~', '0', '2', '?', '$']) = some ([(0, 1), (7, 3)], [ascii '$'])
    ∧ asciiList ['-', '0', '0', '.', '7', '~', '0', '2', '?', '$']
      = pixelText false [⟨⟨true, [0, 0]⟩, none⟩, ⟨⟨false, [7]⟩, some [0, 2]⟩] ++ [ascii '$']
    ∧ [(0, 1), (7, 3)] = [TokenText.mk ⟨true, [0, 0]⟩ none, ⟨⟨false, [7]⟩, some [0, 2]⟩].map TokenText.meaning := by
  decide +kernel

theorem witness_MetaAndVectorTextRoundTrip :
    4294967295 < 2 ^ 32 ∧ (∀ g ∈ [VecGroup.mk 2147483647 0 (-2147483648) 2147483647], g.x ≤ 2147483647 ∧ g.y ≤ 2147483647
      ∧ -2147483648 ≤ g.sx ∧ g.sx ≤ 2147483647 ∧ -2147483648 ≤ g.sy ∧ g.sy ≤ 2147483647)
    ∧ [ascii '$'].head? = some (ascii '$') := by decide +kernel

/-- `small` with a stream and a command. -/
def reading (cs : List Char) : State := given .parPeek 0 0 0 (stream cs small)

/-- One stream for each case, the numbers at their ends. -/
theorem witness_PeekAndMetaReport :
    (reading []).pend = some (flight .parPeek 0 0 0) ∧ (reading []).unread = []
    ∧ u32 (reading ['$', 'S', '$']).rPtr ≤ u32 (reading ['$', 'S', '$']).sLen
    ∧ u32 (reading ['$', 'S', '$']).sLen ≤ 16777216
    ∧ (reading ['M', 'E', 'T', 'A', '[', 'D']).unread = asciiList ['M', 'E', 'T', 'A', '['] ++ [ascii 'D']
    ∧ (reading ['$', 'S', '$']).unread = asciiList ['$', 'S', '$'] ++ []
    ∧ (reading ['$', 'P', '4', '2', '9', '4', '9', '6', '7', '2', '9', '5', '$']).unread
      = markerText 'P' [4, 2, 9, 4, 9, 6, 7, 2, 9, 5] ++ []
    ∧ digitsValue [4, 2, 9, 4, 9, 6, 7, 2, 9, 5] = 4294967295
    ∧ (reading ['$', 'V', '0', '0', '$', '[']).unread = markerText 'V' [0, 0] ++ [ascii '[']
    ∧ (reading ['M', 'E', 'T', 'A', '[', 'D', '[', '0', '1', ',', '2', ']', 'F', 'C', '[', '0', ']', ']']).unread
      = metaText [0, 1] [2] [0] ++ [] := by decide +kernel

/-- The number of words right, and one short, with each marker. -/
theorem witness_ParIntraAndFrameStoreRaster :
    (∃ r, (reading []).resolveWritable (flight .parPeek 0 0 0).cmd .cur 0 = .ok r ∧ r.w * r.h = 16)
    ∧ (reading ['$', 'S', '$', '7', '~', '1', '5', '?']).pend = some (flight .parPeek 0 0 0)
    ∧ u32 (reading ['$', 'S', '$', '7', '~', '1', '5', '?']).rPtr ≤ u32 (reading ['$', 'S', '$', '7', '~', '1', '5', '?']).sLen
    ∧ u32 (reading ['$', 'S', '$', '7', '~', '1', '5', '?']).sLen ≤ 16777216
    ∧ readPixels (asciiList ['7', '~', '1', '5', '?']) = some ([(7, 16)], [])
    ∧ readPixels (asciiList ['7', '~', '1', '4', '?']) = some ([(7, 15)], [])
    ∧ (reading ['$', 'S', '$', '7', '~', '1', '5', '?']).unread
      = asciiList ['$', 'S', '$'] ++ asciiList ['7', '~', '1', '5', '?']
    ∧ (reading ['$', 'P', '0', '$', '7', '~', '1', '4', '?']).unread
      = asciiList ['$', 'P'] ++ digitText [0] ++ asciiList ['$'] ++ asciiList ['7', '~', '1', '4', '?'] :=
  ⟨⟨_, rfl, rfl⟩, by decide +kernel⟩

/-- `small` with a byte string as the whole stream and `PAR.VECS` in flight. -/
def readingBytes (bs : List Byte) : State :=
  given .parVecs 0 0 0 { small.writeBytes strmBase bs with sLen := BitVec.ofNat 32 bs.length }

theorem readingBytes_unread (bs : List Byte) (h : bs.length < 2 ^ 32) : (readingBytes bs).unread = bs := by
  refine State.unread_eq ?_ fun k hk => ?_
  · simpa [readingBytes, given, small, State.reset, State.writeBytes] using h
  · have : (readingBytes bs).strmByte (u32 (readingBytes bs).rPtr + k) = (small.writeBytes strmBase bs).byteAt (strmBase + k) := by
      simp [readingBytes, given, State.strmByte, State.byteAt, small, State.reset, State.writeBytes]
    rw [this, State.byteAt_writeBytes, if_pos ⟨by omega, by omega⟩, Nat.add_sub_cancel_left, List.getElem?_eq_getElem hk,
      Option.getD_some]

theorem groups_length (g : GroupText) (n : Nat) :
    ((List.replicate n g).flatMap GroupText.text).length = n * g.text.length := by
  induction n with
  | zero => simp
  | succ n ih => rw [List.replicate_succ, List.flatMap_cons, List.length_append, ih]; ring

/-- A group with leading zeros and `-0`. -/
def padded : GroupText := ⟨[0, 0], [7], ⟨true, [0]⟩, ⟨false, [0, 1]⟩⟩

/-- The stream of `n` such groups. -/
def paddedBytes (n : Nat) : List Byte := markerText 'V' [0] ++ (List.replicate n padded).flatMap GroupText.text ++ []

theorem paddedBytes_length (n : Nat) : (paddedBytes n).length = 4 + n * 12 := by
  simp only [paddedBytes, List.length_append, groups_length, List.length_nil]
  rfl

/-- A group, and 4097 of them. -/
theorem witness_ParVecsFillsTable :
    (let s := given .parVecs 0 0 0 (stream ['$', 'V', '1', '$', '[', '0', ',', '0', ';', '-', '5', ',', '7', ']'] small)
     s.pend = some (flight .parVecs 0 0 0) ∧ u32 s.rPtr ≤ u32 s.sLen ∧ u32 s.sLen ≤ 16777216 ∧ natLegal 4294967295 [1]
      ∧ s.unread = markerText 'V' [1] ++ [GroupText.mk [0] [0] ⟨true, [5]⟩ ⟨false, [7]⟩].flatMap GroupText.text ++ []
      ∧ (IntText.mk true [5]).legal ∧ (IntText.mk false [7]).legal ∧ natLegal 2147483647 [0] ∧ endsGroups [])
    ∧ (∀ n, n = 4097 →
       (readingBytes (paddedBytes n)).pend = some (flight .parVecs 0 0 0)
        ∧ u32 (readingBytes (paddedBytes n)).rPtr ≤ u32 (readingBytes (paddedBytes n)).sLen
        ∧ u32 (readingBytes (paddedBytes n)).sLen ≤ 16777216 ∧ (∀ g ∈ List.replicate n padded, g.legal)
        ∧ (readingBytes (paddedBytes n)).unread
          = markerText 'V' [0] ++ (List.replicate n padded).flatMap GroupText.text ++ []
        ∧ 4096 < (List.replicate n padded).length) := by
  refine ⟨by decide +kernel, fun n hn => ⟨rfl, Nat.zero_le _, ?_, ?_, readingBytes_unread _ ?_, ?_⟩⟩
  · show (BitVec.ofNat 32 (paddedBytes n).length).toNat ≤ 16777216
    rw [paddedBytes_length, hn]; decide
  · intro g hg
    rw [List.eq_of_mem_replicate hg]
    exact ⟨by decide, by decide, by decide, by decide⟩
  · rw [paddedBytes_length, hn]; decide
  · rw [List.length_replicate, hn]; decide

theorem pixelText_ne_nil (b : Bool) (ts : List TokenText) : 1 ≤ (pixelText b ts).length := by
  match ts with
  | [] => simp [pixelText]
  | [t] => simp [pixelText]; omega
  | t :: u :: ts => simp [pixelText]; omega

/-- `RPTR` one past `SLEN`, `SLEN` one past the capacity, and for each reader command a stream that a record has left after its
marker: `$P`, `META`, `$S$`, `$P0$`, `$V0`. -/
theorem witness_StreamFaults :
    ¬ (u32 { small with rPtr := 1 }.rPtr ≤ u32 { small with rPtr := 1 }.sLen ∧ u32 { small with rPtr := 1 }.sLen ≤ 16777216)
    ∧ ¬ (u32 { small with sLen := 16777217 }.rPtr ≤ u32 { small with sLen := 16777217 }.sLen
        ∧ u32 { small with sLen := 16777217 }.sLen ≤ 16777216)
    ∧ (∃ v, (given (.serIntra .aux 0) 0 0 0 { small with rPtr := 1 }).resolveRaster 0x61100000 .aux 0 = .ok v)
    ∧ (∃ r, (given (.parIntra .aux 0) 0 0 0 { small with rPtr := 1 }).resolveWritable 0x6A100000 .aux 0 = .ok r)
    ∧ (reading ['$', 'P']).pend = some (flight .parPeek 0 0 0)
    ∧ u32 (reading ['$', 'P']).rPtr ≤ u32 (reading ['$', 'P']).sLen ∧ u32 (reading ['$', 'P']).sLen ≤ 16777216
    ∧ (reading ['$', 'P']).unread = [ascii '$', ascii 'P']
    ∧ (∀ rest, [ascii '$', ascii 'P'] ≠ asciiList ['M', 'E', 'T', 'A', '['] ++ rest)
    ∧ (∀ rest, [ascii '$', ascii 'P'] ≠ asciiList ['$', 'S', '$'] ++ rest)
    ∧ (∀ c ∈ ['P', 'V'], ∀ ds rest, [ascii '$', ascii 'P'] ≠ markerText c ds ++ rest)
    ∧ (reading ['M', 'E', 'T', 'A']).unread = asciiList ['M', 'E', 'T', 'A']
    ∧ (∀ w h n rest, asciiList ['M', 'E', 'T', 'A'] ≠ metaText w h n ++ rest)
    ∧ (reading ['$', 'S', '$']).unread = asciiList ['$', 'S', '$']
    ∧ (∀ b ts rest, asciiList ['$', 'S', '$'] ≠ asciiList ['$', 'S', '$'] ++ pixelText b ts ++ rest)
    ∧ (reading ['$', 'P', '0', '$']).unread = asciiList ['$', 'P', '0', '$']
    ∧ (∀ ds b ts rest, ds ≠ [] → asciiList ['$', 'P', '0', '$'] ≠ markerText 'P' ds ++ pixelText b ts ++ rest)
    ∧ (reading ['$', 'V', '0']).unread = asciiList ['$', 'V', '0']
    ∧ (∀ (ds : List (Fin 10)) (gs : List GroupText) rest, ds ≠ [] →
        asciiList ['$', 'V', '0'] ≠ markerText 'V' ds ++ gs.flatMap GroupText.text ++ rest) := by
  have longer : ∀ {xs ys : List Byte}, xs.length < ys.length → xs ≠ ys := fun h e => by rw [e] at h; exact lt_irrefl _ h
  have digits : ∀ ds : List (Fin 10), ds ≠ [] → 1 ≤ ds.length := fun ds h => List.length_pos_iff.mpr h
  refine ⟨by decide, by decide, ⟨_, rfl⟩, ⟨_, rfl⟩, rfl, by decide, by decide, by decide +kernel, fun _ => by simp [asciiList, ascii],
    fun _ => longer (by simp [asciiList]), fun _ _ _ _ => longer (by simp [asciiList, markerText, digitText]),
    by decide +kernel, fun _ _ _ _ => longer (by simp [asciiList, metaText]), by decide +kernel, fun b ts _ => ?_,
    by decide +kernel, fun ds b ts _ hd => ?_, by decide +kernel, fun ds _ _ hd => ?_⟩
  · have := pixelText_ne_nil b ts
    exact longer (by simp [asciiList]; omega)
  · have := pixelText_ne_nil b ts
    have := digits ds hd
    exact longer (by simp [asciiList, markerText, digitText]; omega)
  · have := digits ds hd
    exact longer (by simp [asciiList, markerText, digitText]; omega)

/-- The record of the reference at the start of an empty stream, and a reader's state that holds its bytes. -/
theorem witness_IntraRecordRoundTrip :
    (∃ v, (given (.serIntra .ref 1) 0 0 0 small).resolveRaster 0x61210000 .ref 1 = .ok v
      ∧ u32 small.sLen + (intraRecord v.pixels).length ≤ 16777216 ∧ v.w * v.h = 16)
    ∧ (given (.serIntra .ref 1) 0 0 0 small).pend = some (flight (.serIntra .ref 1) 0 0 0)
    ∧ u32 small.rPtr ≤ u32 small.sLen ∧ u32 small.sLen ≤ 16777216
    ∧ (∃ r, (given (.parIntra .cur 0) 0 0 0 small).resolveWritable 0x6A000000 .cur 0 = .ok r ∧ r.w * r.h = 16)
    ∧ after (given (.serIntra .ref 1) 0 0 0 small) (fun t => (t.sLen, streamOf 17 t))
      = some (17, asciiList ['$', 'S', '$', '-', '1', '6', '7', '7', '7', '2', '1', '6', '~', '1', '5', '.', '?'])
    ∧ (given (.parIntra .cur 0) 0 0 0 (stream ['$', 'S', '$', '-', '1', '6', '7', '7', '7', '2', '1', '6', '~', '1', '5', '.',
        '?'] small)).sLen = 17 :=
  ⟨⟨_, rfl, by decide +kernel, rfl⟩, rfl, by decide, by decide, ⟨_, rfl, rfl⟩, by decide +kernel, by decide +kernel⟩

/-- A run of three lines with a completion inside; an idle machine for each `DO`; a raster, a block of 2 and one of 4 sub-blocks a side
(the second with all but its first sub-block outside), and a block of neither. -/
theorem witness_ProgramLinesDenoteTheirSteps :
    small.agenda = []
    ∧ (ProgramRun.run [.host, .engine, .host] ⟨[.command .colGray, .wait], [], small⟩).isSome = true
    ∧ small.busy = false ∧ small.statusFault = false ∧ (Instr.blkLd .ref 1).wf = true
    ∧ ([0, 0, 4] : List Word).length = (operandsIn (.blkLd .ref 1)).length ∧ ([] : List Word).length = (operandsIn .dctFwd).length
    ∧ (∃ v, small.resolveRaster 0 .cur 0 = .ok v ∧ v.w = 4 ∧ v.h = 4)
    ∧ small.blkSize.toNat = 2 * 2 ∧ small.blkSize.toNat = 4 * 1 ∧ small.blkSize.toNat ∉ [2 * 4, 4 * 4] :=
  ⟨rfl, by decide +kernel, rfl, rfl, rfl, rfl, rfl, ⟨_, rfl, rfl, rfl⟩, rfl, rfl, by decide⟩

end Sys2Proof.Tests
end

section
/-! `RAS.GET` on a raster operand that resolves (spec/40_raster_block.md R101). -/

namespace Sys2Proof.Machine

theorem exec_rasGet (rs : RasterSel) (d : BitVec 4) (s : State) : exec (.rasGet rs d) s = execRasGet rs d s := rfl

/-- R101: inside the raster the command takes neither the fault of its operand nor that of its position. -/
theorem execRasGet_of_inside {s : State} {p : Pend} {rs : RasterSel} {d : BitVec 4} {v : RasterView}
    (hp : s.pend = some p) (hv : s.resolveRaster p.cmd rs d = .ok v)
    (hx : u32 (p.arg 0) < v.w) (hy : u32 (p.arg 1) < v.h) :
    execRasGet rs d s = .next (s.setResult 0 (v.at (u32 (p.arg 0)) (u32 (p.arg 1)))).complete := by
  have inside : ¬ (v.w ≤ u32 (p.arg 0) ∨ v.h ≤ u32 (p.arg 1)) := by omega
  exact State.runCommand_ok hp (by simp only [hv, if_neg inside])

/-- What completing with one result changes: that result register, `DONE` and the command in flight. -/
theorem State.complete_setResult (s : State) (k : Fin 8) (w : Word) :
    (s.setResult k w).complete = { s with results := s.results.set k w, statusDone := true, pend := none } := rfl

/-- Settles O28: the completion with the pixel of R13's place `y·w + x` in `R0`. -/
theorem rasGetReadsPixel : Obligations.RasGetReadsPixel := by
  unfold Obligations.RasGetReadsPixel
  intro s p rs d v hp hv hx hy
  rw [exec_rasGet, execRasGet_of_inside hp hv hx hy, State.complete_setResult, RasterView.at]
  rfl

end Sys2Proof.Machine
end

section
/-! The address map (spec/20_memory.md R60): which region an address of a window lies in, and the runs of bytes that lie in one
buffer. -/

namespace Sys2Proof.Machine

/-- Two windows of R60 are equal or share no address. -/
theorem addressMap_disjoint :
    ∀ w ∈ addressMap, ∀ v ∈ addressMap, w = v ∨ w.base + w.size ≤ v.base ∨ v.base + v.size ≤ w.base := by
  decide

theorem addressMap_word_aligned : ∀ w ∈ addressMap, w.base % 4 = 0 ∧ w.size % 4 = 0 := by
  decide

/-- The region of an address comes from a window that holds the address. -/
theorem regionAt_window {a : Nat} {g : Region} (h : regionAt a = some g) :
    ∃ w ∈ addressMap, w.region = g ∧ w.base ≤ a ∧ a < w.base + w.size := by
  obtain ⟨w, hw, hg⟩ := Option.map_eq_some_iff.mp h
  have inside := List.find?_some hw
  simp only [Bool.and_eq_true, decide_eq_true_eq] at inside
  exact ⟨w, List.mem_of_find?_eq_some hw, hg, inside⟩

/-- Every address of a window has the window's region, since windows share no address. -/
theorem regionAt_of_mem {w : Window} {a : Nat} (hw : w ∈ addressMap) (h1 : w.base ≤ a) (h2 : a < w.base + w.size) :
    regionAt a = some w.region := by
  cases hf : addressMap.find? fun v => decide (v.base ≤ a) && decide (a < v.base + v.size) with
  | none => exact absurd (List.find?_eq_none.mp hf w hw) (by simp [h1, h2])
  | some v =>
    have inside := List.find?_some hf
    simp only [Bool.and_eq_true, decide_eq_true_eq] at inside
    have same : w = v := by
      rcases addressMap_disjoint w hw v (List.mem_of_find?_eq_some hf) with h | h | h
      · exact h
      · omega
      · omega
    rw [regionAt, hf, same]
    rfl

/-- The `len` addresses from `base` up lie in one buffer or raster other than `BLK.IGN`. -/
def InPlainBuffer (base len : Nat) : Prop :=
  ∃ w ∈ addressMap, w.region ≠ .registers ∧ w.region ≠ .blkIgn ∧ w.base ≤ base ∧ base + len ≤ w.base + w.size

theorem InPlainBuffer.of_window {g : Region} {base size len : Nat} (hw : ⟨g, base, size⟩ ∈ addressMap)
    (hr : g ≠ .registers) (hi : g ≠ .blkIgn) (hl : len ≤ size) : InPlainBuffer base len :=
  ⟨_, hw, hr, hi, le_rfl, Nat.add_le_add_left hl base⟩

/-- A part of a run that lies in one buffer lies in that buffer. -/
theorem InPlainBuffer.part {base len base' len' : Nat} (h : InPlainBuffer base len) (hb : base ≤ base')
    (hl : base' + len' ≤ base + len) : InPlainBuffer base' len' := by
  obtain ⟨w, hw, hr, hi, h1, h2⟩ := h
  exact ⟨w, hw, hr, hi, by omega, by omega⟩

/-- An aligned word of a buffer lies in it whole. -/
theorem InPlainBuffer.of_regionAt {a : Nat} {g : Region} (hg : regionAt a = some g) (ha : a % 4 = 0)
    (hr : g ≠ .registers) (hi : g ≠ .blkIgn) : InPlainBuffer a 4 := by
  obtain ⟨w, hw, rfl, h1, h2⟩ := regionAt_window hg
  obtain ⟨hb, hs⟩ := addressMap_word_aligned w hw
  exact ⟨w, hw, hr, hi, h1, by omega⟩

/-! ### Stores that keep the buffers' invariant -/

/-- What the buffers' invariant asks of one listed byte (R42, R60). -/
abbrev CellLegal (c : Host.Cell) : Prop := inBuffer c.1 = true ∧ ignoreByteLegal c = true

/-- Any byte is legal at an address of a buffer other than `BLK.IGN`. -/
theorem cellLegal_of_plain {base len a : Nat} (h : InPlainBuffer base len) (h1 : base ≤ a) (h2 : a < base + len)
    (v : Byte) : CellLegal (a, v) := by
  obtain ⟨w, hw, hr, hi, hb, hl⟩ := h
  have hg : regionAt a = some w.region := regionAt_of_mem hw (by omega) (by omega)
  simp [CellLegal, inBuffer, ignoreByteLegal, hg, hr, hi]

/-- A byte of an ignore word is 0, or the flag in the lowest byte. -/
theorem ignWord_byte (b : Bool) : ∀ j < 4, ∀ v ∈ (wordBytes (ignWord b))[j]?, v = 0#8 ∨ (j = 0 ∧ v = 1#8) := by
  cases b <;> decide

/-- In `BLK.IGN` a byte is legal when it is 0, or 1 in the lowest byte of a word. -/
theorem cellLegal_of_ignore {a : Nat} (h1 : blkIgnBase ≤ a) (h2 : a < blkIgnBase + 4 * 4096) {v : Byte}
    (hv : v = 0#8 ∨ (a % 4 = 0 ∧ v = 1#8)) : CellLegal (a, v) := by
  have hg : regionAt a = some .blkIgn := regionAt_of_mem (w := ⟨.blkIgn, blkIgnBase, 4 * 4096⟩) (by decide) h1 h2
  simpa [CellLegal, inBuffer, ignoreByteLegal, hg] using hv

/-- A store of legal bytes keeps the buffers' invariant. -/
theorem State.BufferInv.writeBytes {s : State} {base : Nat} {bs : List Byte} (h : s.BufferInv)
    (hb : ∀ k v, bs[k]? = some v → CellLegal (base + k, v)) : (s.writeBytes base bs).BufferInv := by
  obtain ⟨hwf, hcells, hmap⟩ := h
  refine ⟨s.writeBytes_wf base bs hwf, fun c hc => ?_, hmap⟩
  rcases Memory.mem_writeRun hc with ⟨hc, _⟩ | hc
  · exact hcells c hc
  · obtain ⟨h1, h2⟩ := Memory.mem_run hc
    have here := hb _ _ h2
    rwa [Nat.add_sub_cancel' h1] at here

/-- A store into one buffer other than `BLK.IGN` keeps the buffers' invariant. -/
theorem State.BufferInv.writeBytes_plain {s : State} {base : Nat} {bs : List Byte} (h : s.BufferInv)
    (hp : InPlainBuffer base bs.length) : (s.writeBytes base bs).BufferInv := by
  refine h.writeBytes fun k v hk => ?_
  have hlt : k < bs.length := (List.getElem?_eq_some_iff.mp hk).1
  exact cellLegal_of_plain hp (by omega) (by omega) v

/-- A store of ignore words into `BLK.IGN` keeps the buffers' invariant. -/
theorem State.BufferInv.writeWords_ignore {s : State} {a : Nat} {ws : List Word} (h : s.BufferInv)
    (ha : a % 4 = 0) (h1 : blkIgnBase ≤ a) (h2 : a + 4 * ws.length ≤ blkIgnBase + 4 * 4096)
    (hw : ∀ w ∈ ws, ∃ b, w = ignWord b) : (s.writeWords a ws).BufferInv := by
  refine h.writeBytes fun k v hk => ?_
  have hlt : k < 4 * ws.length := by
    rw [← wordBytes_flatMap_length]; exact (List.getElem?_eq_some_iff.mp hk).1
  have hq : k / 4 < ws.length := by omega
  obtain ⟨b, hb⟩ := hw ws[k / 4] (List.getElem_mem hq)
  have hbyte : (wordBytes (ignWord b))[k % 4]? = some v := by
    rw [← hb, ← wordBytes_flatMap_getElem ws (k / 4) (k % 4) hq (by omega), Nat.div_add_mod, hk]
  refine cellLegal_of_ignore (by omega) (by omega) ?_
  rcases ignWord_byte b (k % 4) (by omega) v hbyte with hv | ⟨hj, hv⟩
  · exact .inl hv
  · exact .inr ⟨by omega, hv⟩

end Sys2Proof.Machine
end

section
/-! What a command can do to the state (spec/10_state.md R52, R66): one relation with a rule for each kind of write, each command's
writes by these rules, and the engine's move taken apart once for every invariant. -/

namespace Sys2Proof.Machine

/-- What the rule of a command other than `REF.PUSH` and `REF.RESET` keeps: the setup, the life cycle, the window and, when the window
is well formed, the buffers' invariant. -/
structure State.CommandWrites (s u : State) : Prop where
  setup : s.SameSetup u
  statusDone : u.statusDone = s.statusDone
  statusFault : u.statusFault = s.statusFault
  faultCode : u.faultCode = s.faultCode
  faultInfo : u.faultInfo = s.faultInfo
  refs : u.refs = s.refs
  buffers : s.WindowInv → s.BufferInv → u.BufferInv

/-- What `REF.PUSH` and `REF.RESET` do (R110, R111): a copy of `CUR` stands behind the newest entries that are kept. -/
structure State.WindowUpdate (s u : State) : Prop where
  frameLegal : s.frameLegal
  window : ∃ kept, kept <:+ s.refs ∧ kept.length < s.refCap.toNat ∧ u = { s with refs := kept ++ [s.curCopy] }

namespace State.CommandWrites

theorem refl (s : State) : s.CommandWrites s :=
  ⟨⟨rfl, rfl, rfl, rfl, rfl, rfl, rfl, rfl, rfl, rfl, rfl, rfl, rfl, rfl⟩, rfl, rfl, rfl, rfl, rfl, fun _ h => h⟩

variable {s u : State}

/-- The registers that a command may write with any value (R22, R33 to R35, R37). -/
theorem registers (h : s.CommandWrites u) {x y l r : Word} {n m k : BitVec 8} {e : Bool} {res : Vector Word 8} :
    s.CommandWrites { u with blkPosX := x, blkPosY := y, blkSize := n, blkEdge := e, splSize := m, coefSize := k
                             sLen := l, rPtr := r, results := res } :=
  ⟨h.setup, h.statusDone, h.statusFault, h.faultCode, h.faultInfo, h.refs, h.buffers⟩

/-- `EMAPDIM` (R36). -/
theorem mapDims (h : s.CommandWrites u) {w m : BitVec 13}
    (legal : s.WindowInv →
      (1 ≤ w.toNat ∧ w.toNat ≤ Config.maxDim) ∧ (1 ≤ m.toNat ∧ m.toNat ≤ Config.maxDim)) :
    s.CommandWrites { u with emapW := w, emapH := m } where
  setup := h.setup
  statusDone := h.statusDone
  statusFault := h.statusFault
  faultCode := h.faultCode
  faultInfo := h.faultInfo
  refs := h.refs
  buffers hw hb :=
    have ⟨hwf, hcells, _⟩ := h.buffers hw hb
    ⟨hwf, hcells, .inr (legal hw)⟩

/-- A store that keeps the buffers' invariant. -/
theorem store (h : s.CommandWrites u) {base : Nat} {bs : List Byte}
    (keeps : s.WindowInv → u.BufferInv → (u.writeBytes base bs).BufferInv) : s.CommandWrites (u.writeBytes base bs) :=
  ⟨h.setup, h.statusDone, h.statusFault, h.faultCode, h.faultInfo, h.refs, fun hw hb => keeps hw (h.buffers hw hb)⟩

theorem writeBytes (h : s.CommandWrites u) {base : Nat} {bs : List Byte}
    (hp : InPlainBuffer base bs.length) : s.CommandWrites (u.writeBytes base bs) :=
  h.store fun _ hb => hb.writeBytes_plain hp

theorem writeWords (h : s.CommandWrites u) {base : Nat} {ws : List Word}
    (hp : s.WindowInv → InPlainBuffer base (4 * ws.length)) : s.CommandWrites (u.writeWords base ws) :=
  h.store fun hw hb => hb.writeBytes_plain (by rw [wordBytes_flatMap_length]; exact hp hw)

theorem writeWord (h : s.CommandWrites u) {a : Nat} {w : Word} (hp : InPlainBuffer a 4) :
    s.CommandWrites (u.writeWord a w) := h.writeBytes hp

/-- Words stored from the first one of a buffer on. -/
theorem fillBuffer (h : s.CommandWrites u) {g : Region} {base size : Nat} {ws : List Word}
    (hw : ⟨g, base, size⟩ ∈ addressMap) (hr : g ≠ .registers) (hi : g ≠ .blkIgn) (hl : 4 * ws.length ≤ size) :
    s.CommandWrites (u.writeWords base ws) :=
  h.writeWords fun _ => .of_window hw hr hi hl

/-- The ignore words of a block (R42). -/
theorem fillIgnore (h : s.CommandWrites u) {ws : List Word} (hl : ws.length ≤ 4096)
    (hw : ∀ w ∈ ws, ∃ b, w = ignWord b) : s.CommandWrites (u.writeWords blkIgnBase ws) :=
  h.store fun _ hb => hb.writeWords_ignore rfl le_rfl (by omega) hw

end State.CommandWrites

/-! ### Sizes -/

theorem sq_le_of_blockSize {n : Nat} (h : n ∈ Config.blockSizes) : n * n ≤ 4096 := by
  rcases mem_blockSizes.mp h with rfl | rfl | rfl | rfl | rfl <;> decide

theorem sq_le_of_xformSize {n : Nat} (h : n ∈ Config.xformSizes) : n * n ≤ 256 := by
  rcases mem_xformSizes.mp h with rfl | rfl | rfl <;> decide

theorem half_sq_le_of_xformSize {n : Nat} (h : n ∈ Config.xformSizes) : n / 2 * (n / 2) ≤ 64 := by
  rcases mem_xformSizes.mp h with rfl | rfl | rfl <;> decide

theorem planeWords_length (n : Nat) (f : Nat → Nat → Int) : (planeWords n f).length = n * n := by simp [planeWords]

theorem loadBlock_length (v : RasterView) (x y n : Nat) : (loadBlock v x y n).length = n * n := by simp [loadBlock]

theorem searchRecord_length (cells : List BlockCell) (ref : RasterView) (x y : Nat) (e : Bool) (d : BitVec 4) (m : Word) :
    (searchRecord cells ref x y e d m).length = 8 := by
  unfold searchRecord
  split <;> rfl

/-! ### Rasters -/

/-- The pixels of a writable raster lie in one buffer (R60). -/
theorem RasterTarget.inPlainBuffer {s : State} {cmd : Word} {rs : RasterSel} {d : BitVec 4} {t : RasterTarget}
    (h : s.resolveWritable cmd rs d = .ok t) : InPlainBuffer t.base (4 * (t.w * t.h)) := by
  obtain ⟨hsel, _, _, hw, _, hh⟩ := State.resolveWritable_ok h
  have area : 4 * (s.frameW.toNat * s.frameH.toNat) ≤ 4 * (Config.maxDim * Config.maxDim) :=
    Nat.mul_le_mul_left 4 (Nat.mul_le_mul hw hh)
  rcases hsel with ⟨_, rfl⟩ | ⟨_, rfl⟩
  · exact .of_window (g := .cur) (base := curBase) (by decide) (by decide) (by decide) area
  · exact .of_window (g := .aux) (base := auxBase) (by decide) (by decide) (by decide) area

/-- So does each pixel. -/
theorem RasterTarget.pixel_inPlainBuffer {s : State} {cmd : Word} {rs : RasterSel} {d : BitVec 4} {t : RasterTarget}
    (h : s.resolveWritable cmd rs d = .ok t) {x y : Nat} (hx : x < t.w) (hy : y < t.h) :
    InPlainBuffer (t.base + 4 * (y * t.w + x)) 4 := by
  have row : (y + 1) * t.w ≤ t.h * t.w := Nat.mul_le_mul_right _ hy
  have area : t.h * t.w = t.w * t.h := Nat.mul_comm _ _
  rw [Nat.add_mul] at row
  exact (RasterTarget.inPlainBuffer h).part (by omega) (by omega)

/-- A raster operand has legal dimensions when the window is well formed. -/
theorem RasterView.legal_of_resolveRaster {s : State} {cmd : Word} {rs : RasterSel} {d : BitVec 4} {v : RasterView}
    (h : s.resolveRaster cmd rs d = .ok v) (hw : s.WindowInv) :
    (1 ≤ v.w ∧ v.w ≤ Config.maxDim) ∧ (1 ≤ v.h ∧ v.h ≤ Config.maxDim) := by
  rcases State.resolveRaster_ok h with ⟨_, _, ⟨h1, h2, h3, h4⟩, rfl⟩ | ⟨_, _, ⟨h1, h2, h3, h4⟩, rfl⟩ | ⟨_, _, _, r, hr, rfl⟩
  · exact ⟨⟨h1, h2⟩, h3, h4⟩
  · exact ⟨⟨h1, h2⟩, h3, h4⟩
  · obtain ⟨hwd, hht, _⟩ := hw.2 r (List.mem_of_getElem? hr)
    exact ⟨hwd, hht⟩

/-! ### Loops of stores -/

/-- The write pass of `BLK.ST` stores inside the raster when every visible cell lies inside. -/
theorem State.CommandWrites.storeCells {s u : State} {t : RasterTarget} {x0 y0 : Nat} {cells : List BlockCell}
    (h : s.CommandWrites u)
    (hq : ∀ q ∈ cells, q.ignored = false → InPlainBuffer (t.base + 4 * ((y0 + q.j) * t.w + (x0 + q.i))) 4) :
    s.CommandWrites (u.storeCells t x0 y0 cells) := by
  induction cells generalizing u with
  | nil => exact h
  | cons q cells ih =>
    obtain ⟨first, others⟩ := List.forall_mem_cons.mp hq
    refine ih (u := if q.ignored then u else u.writeWord _ q.colour) ?_ others
    cases hi : q.ignored with
    | true => exact h
    | false => exact h.writeWord (first hi)

/-- The words of an entry of the vector table lie in it (R46). -/
theorem vtab_inPlainBuffer {e k len : Nat} (he : e < Config.vtabN) (hk : k + len ≤ 64) :
    InPlainBuffer (vtabBase + 64 * e + k) len := by
  have whole : InPlainBuffer vtabBase (64 * Config.vtabN) :=
    .of_window (g := .vtab) (by decide) (by decide) (by decide) le_rfl
  exact whole.part (by omega) (by omega)

/-- The work pass of a batch stores inside the table. -/
theorem State.CommandWrites.writeRecords {s : State} {ref : RasterView} {d : BitVec 4} {n : Nat} (hn : n ≤ Config.vtabN) :
    s.CommandWrites (s.writeRecords ref d n) := by
  induction n with
  | zero => exact .refl s
  | succ n ih =>
    rw [State.writeRecords, List.range_succ, List.foldl_append]
    exact (ih (by omega)).writeWords fun _ =>
      vtab_inPlainBuffer (by omega) (by rw [State.entryRecord, searchRecord_length]; decide)

/-- The parsed groups are stored inside the table. -/
theorem State.CommandWrites.storeGroups {s u : State} {e : Nat} {gs : List VecGroup} (h : s.CommandWrites u)
    (hn : e + gs.length ≤ Config.vtabN) : s.CommandWrites (u.storeGroups e gs) := by
  induction gs generalizing u e with
  | nil => exact h
  | cons g gs ih =>
    rw [List.length_cons] at hn
    exact ih (h.writeWords fun _ => vtab_inPlainBuffer (k := 0) (by omega) (show 0 + 4 * 12 ≤ 64 by decide)) (by omega)

/-- `Append` stores inside the stream. -/
theorem State.CommandWrites.append {s u : State} {bs : List Byte} (h : s.append bs = .ok u) : s.CommandWrites u := by
  obtain ⟨fits, rfl⟩ := State.append_ok h
  have whole : InPlainBuffer strmBase Config.strmCap :=
    .of_window (g := .strm) (by decide) (by decide) (by decide) le_rfl
  exact ((refl s).writeBytes (whole.part (by omega) (by omega))).registers

/-- The end of `PAR.INTRA` and `PAR.FRAME` stores inside the raster. -/
theorem State.CommandWrites.storePixels {s u : State} {cmd : Word} {rs : RasterSel} {d : BitVec 4} {t : RasterTarget}
    {runs : List (Word × Nat)} {rest : List Byte} (ht : s.resolveWritable cmd rs d = .ok t)
    (h : s.storePixels t runs rest = .ok u) : s.CommandWrites u := by
  obtain ⟨total, rfl⟩ := State.storePixels_ok h
  refine ((refl s).writeWords fun _ => ?_).registers
  rw [expandRuns_length, total]
  exact RasterTarget.inPlainBuffer ht

end Sys2Proof.Machine
end

section
/-! Each command's completion by the rules of `State.CommandWrites` (spec/10_state.md R52). -/

namespace Sys2Proof.Machine

/-- The outcome is the completion step of a rule that keeps what no command touches. -/
def State.Completes (s : State) (o : Host.Outcome State Fault Refusal) : Prop :=
  ∃ body, o = s.runCommand body ∧ ∀ p u, body p = .ok u → s.CommandWrites u

/-- The outcome is the completion step of a rule that renews the window. -/
def State.RenewsWindow (s : State) (o : Host.Outcome State Fault Refusal) : Prop :=
  ∃ body, o = s.runCommand body ∧ ∀ p u, body p = .ok u → s.WindowUpdate u

variable (rs : RasterSel) (d : BitVec 4) (s : State)

/-! ### Rasters, blocks and the window -/

theorem execRasGet_completes : s.Completes (execRasGet rs d s) := by
  refine ⟨_, rfl, fun p u h => ?_⟩
  split at h
  · cases h
  · split at h
    · cases h
    · cases h; exact (State.CommandWrites.refl s).registers

theorem execRasSet_completes : s.Completes (execRasSet rs d s) := by
  refine ⟨_, rfl, fun p u h => ?_⟩
  split at h
  · cases h
  · next t ht =>
    split at h
    · cases h
    · next inside =>
      cases h
      exact (State.CommandWrites.refl s).writeWord (RasterTarget.pixel_inPlainBuffer ht (by omega) (by omega))

theorem execBlkLd_completes : s.Completes (execBlkLd rs d s) := by
  refine ⟨_, rfl, fun p u h => ?_⟩
  split at h
  · cases h
  · split at h
    · cases h
    · next hsize =>
      have area := sq_le_of_blockSize (sizeFault_eq_none.mp hsize).2
      split at h
      · cases h
      · cases h
        refine State.CommandWrites.registers (State.CommandWrites.fillIgnore
          ((State.CommandWrites.refl s).fillBuffer (g := .blkPix) (size := 4 * 4096) (by decide) (by decide) (by decide) ?_)
          ?_ ?_)
        · rw [List.length_map, loadBlock_length]; omega
        · rw [List.length_map, loadBlock_length]; exact area
        · intro w hw
          obtain ⟨q, _, rfl⟩ := List.mem_map.mp hw
          exact ⟨q.ignored, rfl⟩

theorem execBlkSt_completes : s.Completes (execBlkSt rs d s) := by
  refine ⟨_, rfl, fun p u h => ?_⟩
  split at h
  · cases h
  · next t ht =>
    split at h
    · cases h
    · split at h
      · cases h
      · next inside =>
        cases h
        refine (State.CommandWrites.refl s).storeCells fun q hq visible => ?_
        have fits := List.find?_eq_none.mp inside q hq
        simp only [BlockCell.outside, visible, Bool.not_false, Bool.true_and, Bool.or_eq_true, decide_eq_true_eq,
          not_or, Nat.not_le] at fits
        exact RasterTarget.pixel_inPlainBuffer ht fits.1 fits.2

/-- Both window commands run only with legal frame dimensions and a capacity of at least 1 (R110, R111). -/
theorem State.WindowUpdate.of_kept {s : State} (hf : s.windowFault = none) {kept : List Raster} (hk : kept <:+ s.refs)
    (hl : kept.length < s.refCap.toNat) : s.WindowUpdate { s with refs := kept ++ [s.curCopy] } :=
  ⟨(State.windowFault_eq_none.mp hf).1, kept, hk, hl, rfl⟩

theorem State.refCap_pos {s : State} (hf : s.windowFault = none) : 0 < s.refCap.toNat := by
  have hne := (State.windowFault_eq_none.mp hf).2
  exact Nat.pos_of_ne_zero fun h0 => hne (BitVec.eq_of_toNat_eq h0)

/-- With a capacity of at least 1 the newest entry is never evicted. -/
theorem evict_append_singleton {cap : Nat} (hc : 0 < cap) (window : List Raster) (r : Raster) :
    evict cap (window ++ [r]) = window.drop (window.length + 1 - cap) ++ [r] := by
  rw [evict, List.length_append, List.length_singleton, List.drop_append_of_le_length (by omega)]

theorem execRefPush_renewsWindow : s.RenewsWindow (execRefPush s) := by
  refine ⟨_, rfl, fun p u h => ?_⟩
  split at h
  · cases h
  · next hf =>
    have hc := State.refCap_pos hf
    cases h
    rw [evict_append_singleton hc]
    exact .of_kept hf (List.drop_suffix _ _) (by rw [List.length_drop]; omega)

theorem execRefReset_renewsWindow : s.RenewsWindow (execRefReset s) := by
  refine ⟨_, rfl, fun p u h => ?_⟩
  split at h
  · cases h
  · next hf => cases h; exact .of_kept (kept := []) hf List.nil_suffix (State.refCap_pos hf)

/-! ### Colour -/

theorem execColRgb2Ycc_completes : s.Completes (execColRgb2Ycc s) :=
  ⟨_, rfl, fun p u h => by cases h; exact (State.CommandWrites.refl s).registers⟩

theorem execColYcc2Rgb_completes : s.Completes (execColYcc2Rgb s) :=
  ⟨_, rfl, fun p u h => by cases h; exact (State.CommandWrites.refl s).registers⟩

theorem execColGray_completes : s.Completes (execColGray s) :=
  ⟨_, rfl, fun p u h => by cases h; exact (State.CommandWrites.refl s).registers⟩

/-- The three planes of `SPL`, each of at most 256 words (R43). -/
theorem State.CommandWrites.fillSamples {s u : State} (h : s.CommandWrites u) {ys bs rs : List Word}
    (hy : ys.length ≤ 256) (hb : bs.length ≤ 256) (hr : rs.length ≤ 256) :
    s.CommandWrites (((u.writeWords splYBase ys).writeWords splCbBase bs).writeWords splCrBase rs) :=
  have luma := h.fillBuffer (g := .splY) (size := 4 * 256) (by decide) (by decide) (by decide) (Nat.mul_le_mul_left 4 hy)
  have blue := luma.fillBuffer (g := .splCb) (size := 4 * 256) (by decide) (by decide) (by decide) (Nat.mul_le_mul_left 4 hb)
  blue.fillBuffer (g := .splCr) (size := 4 * 256) (by decide) (by decide) (by decide) (Nat.mul_le_mul_left 4 hr)

theorem execColBlk2Ycc_completes : s.Completes (execColBlk2Ycc s) := by
  refine ⟨_, rfl, fun p u h => ?_⟩
  split at h
  · cases h
  · next hsize =>
    have area := sq_le_of_xformSize (sizeFault_eq_none.mp hsize).2
    dsimp only at h
    split at h
    · cases h
    · cases h
      refine State.CommandWrites.registers (State.CommandWrites.fillSamples (State.CommandWrites.refl s) ?_ ?_ ?_)
      all_goals simpa using area

theorem execColBlk2Rgb_completes : s.Completes (execColBlk2Rgb s) := by
  refine ⟨_, rfl, fun p u h => ?_⟩
  split at h
  · cases h
  · next hsize =>
    have area := sq_le_of_xformSize (sizeFault_eq_none.mp hsize).2
    cases h
    refine State.CommandWrites.registers (State.CommandWrites.fillIgnore
      ((State.CommandWrites.refl s).fillBuffer (g := .blkPix) (size := 4 * 4096) (by decide) (by decide) (by decide) ?_) ?_ ?_)
    · rw [List.length_map, List.length_range]; omega
    · rw [List.length_map, List.length_range]; omega
    · intro w hw
      obtain ⟨k, _, rfl⟩ := List.mem_map.mp hw
      exact ⟨false, rfl⟩

/-! ### Edges -/

theorem execSobPix_completes : s.Completes (execSobPix rs d s) := by
  refine ⟨_, rfl, fun p u h => ?_⟩
  split at h
  · cases h
  · split at h
    · cases h
    · cases h; exact (State.CommandWrites.refl s).registers

/-- A legal dimension is unchanged in the 13 bits of `EMAPDIM` (R36). -/
theorem toNat_ofNat_of_legal {n : Nat} (h : n ≤ Config.maxDim) : (BitVec.ofNat 13 n).toNat = n := by
  rw [BitVec.toNat_ofNat]
  exact Nat.mod_eq_of_lt (Nat.lt_of_le_of_lt h (by decide))

theorem execSobMap_completes : s.Completes (execSobMap rs d s) := by
  refine ⟨_, rfl, fun p u h => ?_⟩
  split at h
  · cases h
  · next v hv =>
    cases h
    have legal := RasterView.legal_of_resolveRaster hv
    refine ((State.CommandWrites.refl s).writeWords fun hw => ?_).mapDims fun hw => ?_
    · obtain ⟨⟨_, hwd⟩, _, hht⟩ := legal hw
      refine .of_window (g := .emap) (size := 4 * (Config.maxDim * Config.maxDim)) (by decide) (by decide) (by decide) ?_
      simpa [sobelMap] using Nat.mul_le_mul hwd hht
    · have dims := legal hw
      rwa [toNat_ofNat_of_legal dims.1.2, toNat_ofNat_of_legal dims.2.2]

theorem execSobBlkFlag_completes : s.Completes (execSobBlkFlag s) := by
  refine ⟨_, rfl, fun p u h => ?_⟩
  split at h
  · cases h
  · split at h
    · cases h
    · split at h
      · cases h
      · cases h; exact (State.CommandWrites.refl s).registers

/-! ### Transform -/

theorem execDctFwd_completes : s.Completes (execDctFwd s) := by
  refine ⟨_, rfl, fun p u h => ?_⟩
  split at h
  · cases h
  · next hsize =>
    have legal := (sizeFault_eq_none.mp hsize).2
    have area := sq_le_of_xformSize legal
    have quarter := half_sq_le_of_xformSize legal
    dsimp only at h
    split at h
    · cases h
    · cases h
      refine State.CommandWrites.registers (State.CommandWrites.fillBuffer (State.CommandWrites.fillBuffer
        (State.CommandWrites.fillBuffer (State.CommandWrites.refl s)
        (g := .coefY) (size := 4 * 256) (by decide) (by decide) (by decide) ?_)
        (g := .coefCb) (size := 4 * 64) (by decide) (by decide) (by decide) ?_)
        (g := .coefCr) (size := 4 * 64) (by decide) (by decide) (by decide) ?_)
      all_goals rw [planeWords_length]; omega

theorem execDctInv_completes : s.Completes (execDctInv s) := by
  refine ⟨_, rfl, fun p u h => ?_⟩
  split at h
  · cases h
  · next hsize =>
    have area := sq_le_of_xformSize (sizeFault_eq_none.mp hsize).2
    dsimp only at h
    split at h
    · cases h
    · cases h
      refine State.CommandWrites.registers (State.CommandWrites.fillSamples (State.CommandWrites.refl s) ?_ ?_ ?_)
      all_goals rw [planeWords_length]; exact area

/-! ### Motion -/

theorem execMotSearch_completes : s.Completes (execMotSearch rs d s) := by
  refine ⟨_, rfl, fun p u h => ?_⟩
  split at h
  · cases h
  · split at h
    · cases h
    · split at h
      · cases h
      · split at h
        · cases h
        · split at h
          · cases h
          · cases h; exact (State.CommandWrites.refl s).registers

theorem execMotBatch_completes : s.Completes (execMotBatch rs d s) := by
  refine ⟨_, rfl, fun p u h => ?_⟩
  split at h
  · cases h
  · split at h
    · cases h
    · split at h
      · cases h
      · next entries =>
        split at h
        · cases h
        · split at h
          · cases h
          · cases h; exact .writeRecords (Nat.not_lt.mp entries)

/-! ### The writer -/

theorem execSerMeta_completes : s.Completes (execSerMeta s) := by
  refine ⟨_, rfl, fun p u h => ?_⟩
  split at h
  · cases h
  · split at h
    · cases h
    · exact .append h

theorem execSerIntra_completes : s.Completes (execSerIntra rs d s) := by
  refine ⟨_, rfl, fun p u h => ?_⟩
  split at h
  · cases h
  · split at h
    · cases h
    · exact .append h

theorem execSerFrame_completes : s.Completes (execSerFrame rs d s) := by
  refine ⟨_, rfl, fun p u h => ?_⟩
  split at h
  · cases h
  · split at h
    · cases h
    · exact .append h

theorem execSerVecs_completes : s.Completes (execSerVecs s) := by
  refine ⟨_, rfl, fun p u h => ?_⟩
  split at h
  · cases h
  · split at h
    · cases h
    · exact .append h

/-! ### The reader -/

theorem execParPeek_completes : s.Completes (execParPeek s) := by
  refine ⟨_, rfl, fun p u h => ?_⟩
  split at h
  · cases h
  · split at h
    · cases h
    · cases h; exact (State.CommandWrites.refl s).registers

theorem execParMeta_completes : s.Completes (execParMeta s) := by
  refine ⟨_, rfl, fun p u h => ?_⟩
  split at h
  · cases h
  · split at h
    · cases h
    · cases h; exact (State.CommandWrites.refl s).registers

theorem execParIntra_completes : s.Completes (execParIntra rs d s) := by
  refine ⟨_, rfl, fun p u h => ?_⟩
  split at h
  · cases h
  · next t ht =>
    split at h
    · cases h
    · split at h
      · cases h
      · split at h
        · cases h
        · exact .storePixels ht h

theorem execParFrame_completes : s.Completes (execParFrame rs d s) := by
  refine ⟨_, rfl, fun p u h => ?_⟩
  split at h
  · cases h
  · next t ht =>
    split at h
    · cases h
    · split at h
      · cases h
      · split at h
        · cases h
        · split at h
          · cases h
          · next v hv => cases h; exact (State.CommandWrites.storePixels ht hv).registers

theorem execParVecs_completes : s.Completes (execParVecs s) := by
  refine ⟨_, rfl, fun p u h => ?_⟩
  split at h
  · cases h
  · split at h
    · cases h
    · split at h
      · cases h
      · split at h
        · cases h
        · next few =>
          cases h
          exact (State.CommandWrites.storeGroups (.refl s) (by omega)).registers

/-! ### Every command -/

/-- Everything a command's completion can be. -/
theorem exec_completes (i : Instr) :
    s.Completes (exec i s) ∨ ((i = .refPush ∨ i = .refReset) ∧ s.RenewsWindow (exec i s)) := by
  cases i with
  | rasGet rs d => exact .inl (execRasGet_completes rs d s)
  | rasSet rs d => exact .inl (execRasSet_completes rs d s)
  | blkLd rs d => exact .inl (execBlkLd_completes rs d s)
  | blkSt rs d => exact .inl (execBlkSt_completes rs d s)
  | refPush => exact .inr ⟨.inl rfl, execRefPush_renewsWindow s⟩
  | refReset => exact .inr ⟨.inr rfl, execRefReset_renewsWindow s⟩
  | colRgb2Ycc => exact .inl (execColRgb2Ycc_completes s)
  | colYcc2Rgb => exact .inl (execColYcc2Rgb_completes s)
  | colGray => exact .inl (execColGray_completes s)
  | colBlk2Ycc => exact .inl (execColBlk2Ycc_completes s)
  | colBlk2Rgb => exact .inl (execColBlk2Rgb_completes s)
  | sobPix rs d => exact .inl (execSobPix_completes rs d s)
  | sobMap rs d => exact .inl (execSobMap_completes rs d s)
  | sobBlkFlag => exact .inl (execSobBlkFlag_completes s)
  | dctFwd => exact .inl (execDctFwd_completes s)
  | dctInv => exact .inl (execDctInv_completes s)
  | motSearch rs d => exact .inl (execMotSearch_completes rs d s)
  | motBatch rs d => exact .inl (execMotBatch_completes rs d s)
  | serMeta => exact .inl (execSerMeta_completes s)
  | serIntra rs d => exact .inl (execSerIntra_completes rs d s)
  | serFrame rs d => exact .inl (execSerFrame_completes rs d s)
  | serVecs => exact .inl (execSerVecs_completes s)
  | parPeek => exact .inl (execParPeek_completes s)
  | parMeta => exact .inl (execParMeta_completes s)
  | parIntra rs d => exact .inl (execParIntra_completes rs d s)
  | parFrame rs d => exact .inl (execParFrame_completes rs d s)
  | parVecs => exact .inl (execParVecs_completes s)

end Sys2Proof.Machine
end

section
/-! The moves of the agents taken apart once: what the engine's completion, a register write and a host access can do
(spec/10_state.md R21 to R56, spec/20_memory.md R60 to R71). -/

namespace Sys2Proof.Machine

/-! ### The engine -/

/-- The engine's move (R52): nothing, a fault that leaves everything else, or a command that completes. -/
theorem State.completion_next {s t : State} (h : s.completion = .next t) :
    t = s
      ∨ ∃ p, s.pend = some p ∧
        ((∃ f, t = s.takeFault f) ∨ (∃ u, s.CommandWrites u ∧ t = u.complete)
          ∨ ∃ u, (decode p.cmd = .ok .refPush ∨ decode p.cmd = .ok .refReset) ∧ s.WindowUpdate u ∧ t = u.complete) := by
  rcases s.completion_cases with ⟨_, hc⟩ | ⟨p, i, hp, hd, hc⟩ | ⟨p, e, hp, _, hc⟩
  · rw [hc] at h; cases h; exact .inl rfl
  · rw [hc] at h
    refine .inr ⟨p, hp, ?_⟩
    rcases exec_completes s i with ⟨body, hb, writes⟩ | ⟨hi, body, hb, renews⟩
    · rw [hb] at h
      obtain ⟨q, _, ⟨u, hu, rfl⟩ | ⟨f, _, rfl⟩⟩ := State.runCommand_next h
      · exact .inr (.inl ⟨u, writes q u hu, rfl⟩)
      · exact .inl ⟨f, rfl⟩
    · rw [hb] at h
      obtain ⟨q, _, ⟨u, hu, rfl⟩ | ⟨f, _, rfl⟩⟩ := State.runCommand_next h
      · exact .inr (.inr ⟨u, hi.imp (fun (e : i = .refPush) => e ▸ hd) (fun (e : i = .refReset) => e ▸ hd), renews q u hu, rfl⟩)
      · exact .inl ⟨f, rfl⟩
  · rw [hc] at h; cases h; exact .inr ⟨p, hp, .inl ⟨_, rfl⟩⟩

theorem FaultName.code_range (n : FaultName) : 1 ≤ n.code.toNat ∧ n.code.toNat ≤ 12 := by
  cases n <;> decide

/-! ### Register writes -/

/-- `s` with the configuration registers (R29 to R37, R51) of `c`: what a write to one of them may change. -/
def State.withConfigurationOf (s c : State) : State :=
  { s with frameW := c.frameW, frameH := c.frameH, refCap := c.refCap, madTol := c.madTol, edgeThr := c.edgeThr
           blkPosX := c.blkPosX, blkPosY := c.blkPosY, blkSize := c.blkSize, blkEdge := c.blkEdge
           splSize := c.splSize, coefSize := c.coefSize, sLen := c.sLen, rPtr := c.rPtr }

/-- The registers that the host only reads (R50). -/
def Reg.readOnly : Reg → Bool
  | .id | .faultCode | .faultInfo | .refCnt | .emapDim | .r _ => true
  | _ => false

/-- The configuration registers (R51). -/
def Reg.configuration : Reg → Bool
  | .frameW | .frameH | .refCap | .madTol | .edgeThr | .blkPosX | .blkPosY | .blkSz | .splSz | .coefSz | .sLen | .rPtr => true
  | _ => false

/-- A write to the register is dropped (R50, R52, R308). -/
def State.Drops (s : State) (g : Reg) : Prop :=
  g.readOnly = true ∨ (g.configuration = true ∧ s.busy = true) ∨ (g = .cmd ∧ (s.busy = true ∨ s.statusFault = true))

/-- Everything a write to a register can do (R50 to R52, R56, R308). -/
inductive State.RegisterWrite (s : State) (v : Word) : Reg → State → Prop where
  | dropped (g : Reg) : s.Drops g → s.RegisterWrite v g s.commandError
  | enables : v.getLsbD 0 = false →
      s.RegisterWrite v .ctrl { s with ieDone := v.getLsbD 8, ieFault := v.getLsbD 9, ieCmdErr := v.getLsbD 10 }
  | softReset : v.getLsbD 0 = true →
      s.RegisterWrite v .ctrl
        { s with ieDone := v.getLsbD 8, ieFault := v.getLsbD 9, ieCmdErr := v.getLsbD 10 }.softReset
  | status : s.RegisterWrite v .status (s.writeStatus v)
  | issue : s.pend = none → s.statusFault = false →
      s.RegisterWrite v .cmd { s with pend := some ⟨v, s.args⟩, cmd := v, statusDone := false }
  | argument (k : Fin 8) : s.RegisterWrite v (.a k) { s with args := s.args.set k v }
  | configuration (g : Reg) (c : State) : g.configuration = true → s.pend = none →
      s.RegisterWrite v g (s.withConfigurationOf c)

/-- A write to `STATUS` clears the bits that are written 1 (R26). -/
theorem State.writeStatus_eq (s : State) (v : Word) :
    s.writeStatus v = { s with statusDone := s.statusDone && !v.getLsbD 1, statusFault := s.statusFault && !v.getLsbD 2
                               statusCmdErr := s.statusCmdErr && !v.getLsbD 3 } := by
  unfold State.writeStatus State.returnFromFault
  cases v.getLsbD 1 <;> cases v.getLsbD 2 <;> cases v.getLsbD 3 <;> simp

theorem State.pend_of_busy_eq_false {s : State} (h : s.busy = false) : s.pend = none := by
  simpa [State.busy] using h

theorem State.whenIdle_of_idle {s : State} (h : s.pend = none) (t : State) : s.whenIdle t = t := by
  simp [State.whenIdle, State.busy, h]

theorem State.whenIdle_of_busy {s : State} (h : s.busy = true) (t : State) : s.whenIdle t = s.commandError := by
  simp [State.whenIdle, h]

theorem State.issue_of_idle {s : State} (h : s.pend = none) (hf : s.statusFault = false) (c : Word) :
    s.issue c = { s with pend := some ⟨c, s.args⟩, cmd := c, statusDone := false } := by
  simp [State.issue, State.busy, h, hf]

theorem State.issue_of_refused {s : State} (h : s.busy = true ∨ s.statusFault = true) (c : Word) :
    s.issue c = s.commandError := by
  rcases h with h | h <;> simp [State.issue, h]

theorem State.RegisterWrite.whenIdle {s t : State} {v : Word} {g : Reg} (hg : g.configuration = true)
    (h : t = s.withConfigurationOf t) :
    s.RegisterWrite v g (s.whenIdle t) := by
  cases hb : s.busy with
  | true => rw [State.whenIdle_of_busy hb]; exact .dropped g (.inr (.inl ⟨hg, hb⟩))
  | false =>
    have idle := State.pend_of_busy_eq_false hb
    rw [State.whenIdle_of_idle idle, h]; exact .configuration g t hg idle

theorem State.writeReg_cases (s : State) (g : Reg) (v : Word) : s.RegisterWrite v g (s.writeReg g v) := by
  cases g with
  | id | faultCode | faultInfo | refCnt | emapDim | r => exact .dropped _ (.inl rfl)
  | ctrl =>
    unfold State.writeReg State.writeCtrl
    cases hv : v.getLsbD 0 with
    | false => exact .enables hv
    | true => exact .softReset hv
  | status => exact .status
  | cmd =>
    rw [State.writeReg]
    by_cases h : s.busy = true ∨ s.statusFault = true
    · rw [State.issue_of_refused h]; exact .dropped _ (.inr (.inr ⟨rfl, h⟩))
    · obtain ⟨notBusy, notFaulted⟩ := not_or.mp h
      have idle := State.pend_of_busy_eq_false (Bool.eq_false_of_not_eq_true notBusy)
      have clear : s.statusFault = false := Bool.eq_false_of_not_eq_true notFaulted
      rw [State.issue_of_idle idle clear]; exact .issue idle clear
  | a k => exact .argument k
  | frameW | frameH | refCap | madTol | edgeThr | blkPosX | blkPosY | blkSz | splSz | coefSz | sLen | rPtr =>
    exact .whenIdle rfl rfl

/-- A dropped write sets `CMDERR` and does nothing else (R308). -/
theorem State.RegisterWrite.eq_commandError {s t : State} {v : Word} {g : Reg} (h : s.RegisterWrite v g t)
    (hd : s.Drops g) : t = s.commandError := by
  cases h with
  | dropped => rfl
  | issue idle clear => simp [State.Drops, Reg.readOnly, Reg.configuration, State.busy, idle, clear] at hd
  | configuration _ c hg idle =>
    have writable : g.readOnly = false ∧ g ≠ .cmd := by cases g <;> simp_all [Reg.readOnly, Reg.configuration]
    simp [State.Drops, writable, State.busy, idle] at hd
  | enables | softReset | status | argument => simp [State.Drops, Reg.readOnly, Reg.configuration] at hd

/-- No other write sets `CMDERR` (R26, R308). -/
theorem State.RegisterWrite.drops {s t : State} {v : Word} {g : Reg} (h : s.RegisterWrite v g t)
    (h0 : s.statusCmdErr = false) (h1 : t.statusCmdErr = true) : s.Drops g := by
  cases h with
  | dropped _ hd => exact hd
  | softReset => cases h1
  | status => rw [State.writeStatus_eq, h0] at h1; cases h1
  | enables | issue | argument | configuration => exact absurd (h0.symm.trans h1) (by decide)

/-! ### Register offsets -/

theorem Reg.offset_lt (g : Reg) : g.offset < 0x100 := by
  cases g with
  | a k | r k => simp only [Reg.offset]; omega
  | _ => decide

theorem Reg.offset_aligned (g : Reg) : g.offset % 4 = 0 := by
  cases g with
  | a k | r k => simp only [Reg.offset]; omega
  | _ => rfl

theorem regAt_offset (g : Reg) : regAt g.offset = some g := by
  cases g with
  | a k | r k => revert k; decide
  | _ => rfl

theorem offset_of_regAt {a : Nat} {g : Reg} (h : regAt a = some g) : g.offset = a := by
  simpa using List.find?_some h

/-- The aligned offsets of the register page that hold nothing (R20). -/
theorem regAt_eq_none {a : Nat} (ha : a % 4 = 0) (hlt : a < 0x100) :
    regAt a = none ↔ (0x050 ≤ a ∧ a < 0x080) ∨ 0x0C0 ≤ a := by
  have page : ∀ k : Fin 64, regAt (4 * k.val) = none ↔ (0x050 ≤ 4 * k.val ∧ 4 * k.val < 0x080) ∨ 0x0C0 ≤ 4 * k.val := by
    decide
  have here := page ⟨a / 4, by omega⟩
  rwa [show 4 * (a / 4) = a by omega] at here

theorem regionAt_of_lt {a : Nat} (h : a < 0x100) : regionAt a = some .registers :=
  regionAt_of_mem (w := ⟨.registers, 0, 0x100⟩) (by decide) (Nat.zero_le a) (by simpa using h)

theorem lt_of_regionAt_registers {a : Nat} (h : regionAt a = some .registers) : a < 0x100 := by
  obtain ⟨w, hw, hr, _, h2⟩ := regionAt_window h
  have page : ∀ w ∈ addressMap, w.region = .registers → w.base + w.size = 0x100 := by decide
  exact page w hw hr ▸ h2

/-! ### Host accesses -/

/-- The bus serves an aligned word of the registers at any time, of a buffer with no command in flight (R63, R67). -/
theorem State.grant_of_served {s : State} {a : Nat} {g : Region} {k : Region → State} (ha : a % 4 = 0)
    (hg : regionAt a = some g) (hb : g = .registers ∨ s.pend = none) : s.grant a 4 k = .next (k g) := by
  have served : ¬ (g ≠ .registers ∧ s.busy = true) := by
    rintro ⟨hr, busy⟩
    have idle : s.pend = none := hb.resolve_left hr
    simp [State.busy, idle] at busy
  simp only [State.grant, ha, hg, if_neg served, ne_eq, not_true_eq_false, if_false]

/-- A host read keeps the word it returns (log 9). -/
theorem State.hostAccess_read {s : State} {a : Nat} {g : Region} (ha : a % 4 = 0) (hg : regionAt a = some g)
    (hb : g = .registers ∨ s.pend = none) :
    s.hostAccess (.read a 4) = .next { s with lastRead := some (s.readWordAt g a) } :=
  State.grant_of_served ha hg hb

theorem State.hostAccess_write {s : State} {a : Nat} {g : Region} {v : Word} (ha : a % 4 = 0) (hg : regionAt a = some g)
    (hb : g = .registers ∨ s.pend = none) : s.hostAccess (.write a 4 v) = .next (s.writeWordAt g a v) :=
  State.grant_of_served ha hg hb

theorem State.writeWordAt_register (s : State) (g : Reg) (v : Word) :
    s.writeWordAt .registers g.offset v = s.writeReg g v := by
  simp only [State.writeWordAt, if_pos, regAt_offset]

theorem State.readWordAt_register (s : State) (g : Reg) : s.readWordAt .registers g.offset = s.readReg g := by
  simp only [State.readWordAt, if_pos, regAt_offset]

theorem State.writeWordAt_buffer {s : State} {g : Region} (h : g ≠ .registers) (a : Nat) (v : Word) :
    s.writeWordAt g a v = s.writeWord a (storedBits g v) := if_neg h

/-- Everything a host access that the bus serves can do. -/
theorem State.hostAccess_next {s t : State} {a : HostAccess} (h : s.hostAccess a = .next t) :
    (∃ x g, a = .read x 4 ∧ regionAt x = some g ∧ t = { s with lastRead := some (s.readWordAt g x) })
      ∨ (∃ g v, a = .write g.offset 4 v ∧ s.RegisterWrite v g t)
      ∨ (∃ x v, a = .write x 4 v ∧ x % 4 = 0 ∧ x < 0x100 ∧ regAt x = none ∧ t = s.commandError)
      ∨ ∃ x v g, a = .write x 4 v ∧ x % 4 = 0 ∧ regionAt x = some g ∧ g ≠ .registers ∧ s.pend = none
          ∧ t = s.writeWord x (storedBits g v) := by
  cases a with
  | read x size =>
    obtain ⟨rfl, _, g, hg, _, rfl⟩ := State.grant_next h
    exact .inl ⟨x, g, rfl, hg, rfl⟩
  | write x size v =>
    obtain ⟨rfl, hx, g, hg, served, rfl⟩ := State.grant_next h
    by_cases hr : g = .registers
    · subst hr
      cases hreg : regAt x with
      | none =>
        refine .inr (.inr (.inl ⟨x, v, rfl, hx, lt_of_regionAt_registers hg, hreg, ?_⟩))
        simp only [State.writeWordAt, if_pos, hreg]
      | some reg =>
        obtain rfl := offset_of_regAt hreg
        exact .inr (.inl ⟨reg, v, rfl, s.writeWordAt_register reg v ▸ s.writeReg_cases reg v⟩)
    · have idle : s.pend = none := State.pend_of_busy_eq_false (by simpa [hr] using served)
      exact .inr (.inr (.inr ⟨x, v, g, rfl, hx, hg, hr, idle, State.writeWordAt_buffer hr x v⟩))

/-! ### Steps whose next move is the host's -/

theorem step_host {s : State} {a : HostAccess} {rest : List Event} (h : s.agenda = .host a :: rest) :
    step s = State.hostAccess { s with agenda := rest } a := by
  simp only [step, State.turn, h, State.move]

/-- A register is read at any time (R50). -/
theorem step_readReg {s : State} {rest : List Event} (g : Reg) (h : s.agenda = .host (.read g.offset 4) :: rest) :
    step s = .next { s with agenda := rest, lastRead := some (s.readReg g) } := by
  rw [step_host h, State.hostAccess_read g.offset_aligned (regionAt_of_lt g.offset_lt) (.inl rfl),
    State.readWordAt_register]
  cases g <;> rfl

/-- A write to a register reaches it at any time (R50). -/
theorem step_writeReg {s : State} {rest : List Event} (g : Reg) {v : Word}
    (h : s.agenda = .host (.write g.offset 4 v) :: rest) :
    step s = .next (State.writeReg { s with agenda := rest } g v) := by
  rw [step_host h, State.hostAccess_write g.offset_aligned (regionAt_of_lt g.offset_lt) (.inl rfl),
    State.writeWordAt_register]

end Sys2Proof.Machine
end

section
/-! The invariants (spec/10_state.md R26, R36, R41, R42, R49, R55, R112): they hold after reset, and each agent's move keeps them. -/

namespace Sys2Proof.Machine

/-! ### After reset -/

theorem State.reset_windowInv : State.reset.WindowInv := ⟨Nat.zero_le _, nofun⟩

theorem State.reset_bufferInv : State.reset.BufferInv := ⟨State.reset_mem_wf, nofun, .inl ⟨rfl, rfl⟩⟩

theorem State.reset_lifeInv : State.reset.LifeInv := ⟨nofun, nofun, Nat.zero_le _⟩

/-- Settles O20. -/
theorem resetMeetsInvariants : Obligations.ResetMeetsInvariants :=
  ⟨State.reset_windowInv, State.reset_bufferInv, State.reset_lifeInv⟩

/-! ### The window -/

theorem State.WindowInv.of_refs_eq {s t : State} (h : s.WindowInv) (e : t.refs = s.refs) : t.WindowInv := by
  rw [State.WindowInv, e]; exact h

theorem State.WindowInv.of_refs_nil {t : State} (e : t.refs = []) : t.WindowInv :=
  State.reset_windowInv.of_refs_eq e

/-- The copy of `CUR` is a well-formed raster when the frame dimensions are legal (R110). -/
theorem State.curCopy_wf {s : State} (h : s.frameLegal) : s.curCopy.wf := by
  obtain ⟨hw1, hw2, hh1, hh2⟩ := h
  exact ⟨⟨hw1, hw2⟩, ⟨hh1, hh2⟩, by simp [State.curCopy, RasterView.pixels, State.frameView]⟩

theorem State.WindowUpdate.windowInv {s u : State} (h : s.WindowUpdate u) (hw : s.WindowInv) : u.WindowInv := by
  obtain ⟨legal, kept, suffix, room, rfl⟩ := h
  obtain ⟨_, wf⟩ := hw
  have cap : s.refCap.toNat < 16 := s.refCap.isLt
  refine ⟨?_, fun r hr => ?_⟩
  · simp only [List.length_append, List.length_singleton, Config.refCapMax]; omega
  · rcases List.mem_append.mp hr with hr | hr
    · exact wf r (suffix.subset hr)
    · rw [List.mem_singleton.mp hr]; exact State.curCopy_wf legal

/-- A register write empties the window by a soft reset or leaves it (R56, R112). -/
theorem State.RegisterWrite.refs {s t : State} {v : Word} {g : Reg} (h : s.RegisterWrite v g t) :
    t.refs = s.refs ∨ (t.refs = [] ∧ g = .ctrl ∧ v.getLsbD 0 = true) := by
  cases h with
  | softReset hv => exact .inr ⟨rfl, rfl, hv⟩
  | status => exact .inl (by rw [State.writeStatus_eq])
  | dropped | enables | issue | argument | configuration => exact .inl rfl

theorem State.hostAccess_refs {s t : State} {a : HostAccess} (h : s.hostAccess a = .next t) :
    t.refs = s.refs ∨ (t.refs = [] ∧ ∃ v : Word, a = .write 0x004 4 v ∧ v.getLsbD 0 = true) := by
  rcases State.hostAccess_next h with ⟨_, _, _, _, rfl⟩ | ⟨g, v, rfl, hw⟩ | ⟨_, _, _, _, _, _, rfl⟩
    | ⟨_, _, _, _, _, _, _, _, rfl⟩
  · exact .inl rfl
  · rcases hw.refs with same | ⟨empty, rfl, hv⟩
    · exact .inl same
    · exact .inr ⟨empty, v, rfl, hv⟩
  · exact .inl rfl
  · exact .inl rfl

/-- Everything a step can do to the window (R56, R110 to R112). -/
theorem step_refs {s t : State} (h : step s = .next t) :
    t.refs = s.refs
      ∨ (t.refs = [] ∧ (s.agenda.head? = some .hardReset
          ∨ ∃ v : Word, s.agenda.head? = some (.host (.write 0x004 4 v)) ∧ v.getLsbD 0 = true))
      ∨ (s.engineNext = true ∧ ∃ p, s.pend = some p ∧ (decode p.cmd = .ok .refPush ∨ decode p.cmd = .ok .refReset)
          ∧ ∃ u, s.popped.WindowUpdate u ∧ t.refs = u.refs) := by
  rcases step_next h with ⟨engine, hc⟩ | ⟨a, ha, hc⟩ | ⟨hr, rfl⟩
  · rcases State.completion_next hc with rfl | ⟨p, hp, ⟨f, rfl⟩ | ⟨u, writes, rfl⟩ | ⟨u, hd, renews, rfl⟩⟩
    · exact .inl rfl
    · exact .inl rfl
    · exact .inl writes.refs
    · exact .inr (.inr ⟨engine, p, hp, hd, u, renews, rfl⟩)
  · rcases State.hostAccess_refs hc with same | ⟨empty, v, rfl, hv⟩
    · exact .inl same
    · exact .inr (.inl ⟨empty, .inr ⟨v, ha, hv⟩⟩)
  · exact .inr (.inl ⟨rfl, .inl hr⟩)

/-- Settles O17: the window is unchanged, empty, or renewed by a copy of `CUR`. -/
theorem windowInvariantKept : Obligations.WindowInvariantKept := by
  unfold Obligations.WindowInvariantKept
  intro s t hw h
  rcases step_refs h with same | ⟨empty, _⟩ | ⟨_, _, _, _, u, renews, same⟩
  · exact hw.of_refs_eq same
  · exact .of_refs_nil empty
  · have kept : u.WindowInv := renews.windowInv (hw.of_refs_eq s.popped_refs)
    exact kept.of_refs_eq same

/-- Settles O21: the cases of `step_refs`. -/
theorem windowChangedOnlyByRefCommands : Obligations.WindowChangedOnlyByRefCommands := by
  unfold Obligations.WindowChangedOnlyByRefCommands
  intro s t h
  rcases step_refs h with same | reset | ⟨engine, p, hp, hd, _⟩
  · exact .inl same
  · exact .inr (.inl reset)
  · exact .inr (.inr ⟨engine, p, hp, hd⟩)

/-! ### The buffers -/

/-- The buffers' invariant speaks of the memory and of `EMAPDIM` only. -/
theorem State.BufferInv.of_eq {s t : State} (h : s.BufferInv) (hm : t.mem = s.mem) (hw : t.emapW = s.emapW)
    (hh : t.emapH = s.emapH) : t.BufferInv := by
  rw [State.BufferInv, State.emapLegal, hm, hw, hh]; exact h

theorem State.WindowUpdate.bufferInv {s u : State} (h : s.WindowUpdate u) (hb : s.BufferInv) : u.BufferInv := by
  obtain ⟨_, kept, _, _, rfl⟩ := h
  exact hb.of_eq rfl rfl rfl

theorem State.completion_bufferInv {s t : State} (h : s.completion = .next t) (hw : s.WindowInv) (hb : s.BufferInv) :
    t.BufferInv := by
  rcases State.completion_next h with rfl | ⟨_, _, ⟨_, rfl⟩ | ⟨u, writes, rfl⟩ | ⟨u, _, renews, rfl⟩⟩
  · exact hb
  · exact hb.of_eq rfl rfl rfl
  · exact (writes.buffers hw hb).of_eq rfl rfl rfl
  · exact (renews.bufferInv hb).of_eq rfl rfl rfl

theorem State.RegisterWrite.bufferInv {s t : State} {v : Word} {g : Reg} (h : s.RegisterWrite v g t) (hb : s.BufferInv) :
    t.BufferInv := by
  cases h with
  | softReset =>
    obtain ⟨wf, cells, _⟩ := hb
    exact ⟨wf, cells, .inl ⟨rfl, rfl⟩⟩
  | status => rw [State.writeStatus_eq]; exact hb.of_eq rfl rfl rfl
  | dropped | enables | issue | argument | configuration => exact hb.of_eq rfl rfl rfl

/-- A host write to a buffer stores one word inside it, and in `BLK.IGN` a word with 31 bits 0 (R42, R61). -/
theorem State.BufferInv.writeWord {s : State} {g : Region} {a : Nat} (hb : s.BufferInv) (ha : a % 4 = 0)
    (hg : regionAt a = some g) (hr : g ≠ .registers) (v : Word) : (s.writeWord a (storedBits g v)).BufferInv := by
  by_cases hi : g = .blkIgn
  · subst hi
    obtain ⟨w, hw, hreg, h1, h2⟩ := regionAt_window hg
    have bounds : ∀ w ∈ addressMap, w.region = .blkIgn → w.base = blkIgnBase ∧ w.size = 4 * 4096 := by decide
    obtain ⟨hbase, hsize⟩ := bounds w hw hreg
    have aligned : blkIgnBase % 4 = 0 := rfl
    rw [State.writeWord_eq_writeWords]
    refine hb.writeWords_ignore ha (by omega) (by rw [List.length_singleton]; omega) fun x hx => ?_
    exact ⟨v.getLsbD 0, List.mem_singleton.mp hx⟩
  · exact hb.writeBytes_plain (.of_regionAt hg ha hr hi)

theorem State.hostAccess_bufferInv {s t : State} {a : HostAccess} (h : s.hostAccess a = .next t) (hb : s.BufferInv) :
    t.BufferInv := by
  rcases State.hostAccess_next h with ⟨_, _, _, _, rfl⟩ | ⟨_, _, _, hw⟩ | ⟨_, _, _, _, _, _, rfl⟩
    | ⟨x, v, g, _, hx, hg, hr, _, rfl⟩
  · exact hb.of_eq rfl rfl rfl
  · exact hw.bufferInv hb
  · exact hb.of_eq rfl rfl rfl
  · exact hb.writeWord hx hg hr v

/-- Settles O18: every agent's move keeps the memory's form, its places and the ignore words. -/
theorem bufferInvariantKept : Obligations.BufferInvariantKept := by
  unfold Obligations.BufferInvariantKept
  intro s t hw hb h
  have hb' : s.popped.BufferInv := hb.of_eq rfl rfl rfl
  rcases step_next h with ⟨_, hc⟩ | ⟨_, _, hc⟩ | ⟨_, rfl⟩
  · exact State.completion_bufferInv hc (hw.of_refs_eq rfl) hb'
  · exact State.hostAccess_bufferInv hc hb'
  · exact State.reset_bufferInv.of_eq rfl rfl rfl

/-! ### The life cycle -/

/-- The life cycle's invariant speaks of five fields only. -/
theorem State.LifeInv.of_eq {s t : State} (h : s.LifeInv) (hp : t.pend = s.pend) (hc : t.cmd = s.cmd)
    (hd : t.statusDone = s.statusDone) (hf : t.statusFault = s.statusFault) (hn : t.faultCode = s.faultCode) :
    t.LifeInv := by
  rw [State.LifeInv, hp, hc, hd, hf, hn]; exact h

/-- With no command in flight the first part says nothing. -/
theorem State.LifeInv.of_idle {t : State} (hp : t.pend = none) (hx : ¬ (t.statusDone = true ∧ t.statusFault = true))
    (hn : t.faultCode.toNat ≤ 12) : t.LifeInv :=
  ⟨by rw [hp]; nofun, hx, hn⟩

theorem State.completion_lifeInv {s t : State} (h : s.completion = .next t) (hl : s.LifeInv) : t.LifeInv := by
  have ⟨flight, _, code⟩ := hl
  rcases State.completion_next h with rfl | ⟨p, hp, ends⟩
  · exact hl
  · obtain ⟨_, notDone, notFaulted⟩ := flight p hp
    rcases ends with ⟨f, rfl⟩ | ⟨u, writes, rfl⟩ | ⟨u, _, ⟨_, kept, _, _, rfl⟩, rfl⟩
    · exact .of_idle rfl (by simp [notDone]) f.name.code_range.2
    · exact .of_idle rfl (by simp [writes.statusFault, notFaulted]) (by simpa [writes.faultCode] using code)
    · exact .of_idle rfl (by simp [notFaulted]) code

theorem State.RegisterWrite.lifeInv {s t : State} {v : Word} {g : Reg} (h : s.RegisterWrite v g t) (hl : s.LifeInv) :
    t.LifeInv := by
  cases h with
  | softReset => exact State.reset_lifeInv.of_eq rfl rfl rfl rfl rfl
  | status =>
    obtain ⟨flight, exclusive, code⟩ := hl
    rw [State.writeStatus_eq]
    refine ⟨fun p hp => ?_, ?_, code⟩
    · obtain ⟨hc, notDone, notFaulted⟩ := flight p hp
      exact ⟨hc, by simp [notDone], by simp [notFaulted]⟩
    · simp only [Bool.and_eq_true]
      rintro ⟨⟨done, _⟩, faulted, _⟩
      exact exclusive ⟨done, faulted⟩
  | issue _ notFaulted =>
    obtain ⟨_, _, code⟩ := hl
    refine ⟨fun p hp => ?_, by simp, code⟩
    obtain rfl : _ = p := Option.some.inj hp
    exact ⟨rfl, rfl, notFaulted⟩
  | dropped | enables | argument | configuration => exact hl.of_eq rfl rfl rfl rfl rfl

theorem State.hostAccess_lifeInv {s t : State} {a : HostAccess} (h : s.hostAccess a = .next t) (hl : s.LifeInv) :
    t.LifeInv := by
  rcases State.hostAccess_next h with ⟨_, _, _, _, rfl⟩ | ⟨_, _, _, hw⟩ | ⟨_, _, _, _, _, _, rfl⟩
    | ⟨_, _, _, _, _, _, _, _, rfl⟩
  · exact hl.of_eq rfl rfl rfl rfl rfl
  · exact hw.lifeInv hl
  · exact hl.of_eq rfl rfl rfl rfl rfl
  · exact hl.of_eq rfl rfl rfl rfl rfl

/-- Settles O19: a command starts with `DONE` and `FAULT` clear, and its end sets one of them. -/
theorem lifeCycleInvariantKept : Obligations.LifeCycleInvariantKept := by
  unfold Obligations.LifeCycleInvariantKept
  intro s t hl h
  have hl' : s.popped.LifeInv := hl.of_eq rfl rfl rfl rfl rfl
  rcases step_next h with ⟨_, hc⟩ | ⟨_, _, hc⟩ | ⟨_, rfl⟩
  · exact State.completion_lifeInv hc hl'
  · exact State.hostAccess_lifeInv hc hl'
  · exact State.reset_lifeInv.of_eq rfl rfl rfl rfl rfl

end Sys2Proof.Machine
end

section
/-! The host's statements about registers (spec/10_state.md R20 to R56): the words of the registers, reads, writes, dropped writes and
the two resets. -/

namespace Sys2Proof.Machine

/-! ### The words of the registers -/

theorem flagBits_status_toNat : ∀ b0 b1 b2 b3 : Bool,
    (flagBit 0 b0 ||| flagBit 1 b1 ||| flagBit 2 b2 ||| flagBit 3 b3).toNat
      = b0.toNat + 2 * b1.toNat + 4 * b2.toNat + 8 * b3.toNat := by
  decide

theorem flagBits_ctrl_toNat : ∀ b0 b1 b2 : Bool,
    (flagBit 8 b0 ||| flagBit 9 b1 ||| flagBit 10 b2).toNat = 256 * b0.toNat + 512 * b1.toNat + 1024 * b2.toNat := by
  decide

theorem State.statusWord_toNat (s : State) :
    s.statusWord.toNat = s.busy.toNat + 2 * s.statusDone.toNat + 4 * s.statusFault.toNat + 8 * s.statusCmdErr.toNat :=
  flagBits_status_toNat _ _ _ _

theorem State.ctrlWord_toNat (s : State) :
    s.ctrlWord.toNat = 256 * s.ieDone.toNat + 512 * s.ieFault.toNat + 1024 * s.ieCmdErr.toNat :=
  flagBits_ctrl_toNat _ _ _

theorem flagBit_eight_toNat (b : Bool) : (flagBit 8 b).toNat = 2 ^ 8 * b.toNat := by
  cases b <;> decide

theorem State.blkSzWord_toNat (s : State) : s.blkSzWord.toNat = s.blkSize.toNat + 256 * s.blkEdge.toNat := by
  have size : s.blkSize.toNat < 2 ^ 8 := s.blkSize.isLt
  rw [State.blkSzWord, BitVec.toNat_or, BitVec.toNat_setWidth_of_le (by decide), flagBit_eight_toNat,
    ← Nat.two_pow_add_eq_or_of_lt size]
  omega

theorem State.emapDimWord_toNat (s : State) : s.emapDimWord.toNat = s.emapW.toNat + 65536 * s.emapH.toNat := by
  have width : s.emapW.toNat < 2 ^ 13 := s.emapW.isLt
  rw [State.emapDimWord, BitVec.toNat_append, BitVec.toNat_setWidth_of_le (by decide),
    BitVec.toNat_setWidth_of_le (by decide), ← Nat.shiftLeft_add_eq_or_of_lt (by omega), Nat.shiftLeft_eq]
  omega

/-- The bits of `STATUS` and their enables, by their places (R25, R26, R310). -/
theorem flagBits_level : ∀ b d f c x y z : Bool,
    ((d && x) || (f && y) || (c && z)) = true
      ↔ ∃ k < 3, (flagBit 0 b ||| flagBit 1 d ||| flagBit 2 f ||| flagBit 3 c).getLsbD (k + 1) = true
          ∧ (flagBit 8 x ||| flagBit 9 y ||| flagBit 10 z).getLsbD (k + 8) = true := by
  decide

/-- Settles O8. -/
theorem flagWordsAndInterruptLevel : Obligations.FlagWordsAndInterruptLevel := fun s =>
  ⟨s.statusWord_toNat, s.ctrlWord_toNat, s.blkSzWord_toNat, s.emapDimWord_toNat, flagBits_level _ _ _ _ _ _ _⟩

theorem eq_ofNat_of_toNat_eq {w : Word} {n : Nat} (h : w.toNat = n) : w = BitVec.ofNat 32 n := by
  rw [← h, BitVec.ofNat_toNat, BitVec.setWidth_eq]

theorem State.refCnt_word {s : State} (h : s.refs.length ≤ 15) :
    s.readReg .refCnt = BitVec.ofNat 32 s.refs.length := by
  refine eq_ofNat_of_toNat_eq ?_
  rw [State.readReg, BitVec.toNat_setWidth_of_le (by decide), State.refCnt, BitVec.toNat_ofNat]
  exact Nat.mod_eq_of_lt (Nat.lt_succ_of_le h)

/-! ### Reads -/

/-- An aligned offset that holds nothing reads 0 (R20). -/
theorem step_readEmpty {s : State} {rest : List Event} {a : Nat} (ha : a % 4 = 0) (hlt : a < 0x100) (hn : regAt a = none)
    (h : s.agenda = .host (.read a 4) :: rest) : step s = .next { s with agenda := rest, lastRead := some 0#32 } := by
  rw [step_host h, State.hostAccess_read ha (regionAt_of_lt hlt) (.inl rfl)]
  simp only [State.readWordAt, if_pos, hn]

/-- Settles O7: the register at each offset, and the word it reads. -/
theorem registerReadsHaveNoEffect : Obligations.RegisterReadsHaveNoEffect := by
  unfold Obligations.RegisterReadsHaveNoEffect
  intro s rest reads
  have register (g : Reg) (w : Word) (hw : s.readReg g = w) : reads g.offset w := fun h => hw ▸ step_readReg g h
  have narrow {n : Nat} (x : BitVec n) : x.setWidth 32 = BitVec.ofNat 32 x.toNat := (BitVec.ofNat_toNat 32 x).symm
  exact ⟨register .id _ rfl, register .ctrl _ (eq_ofNat_of_toNat_eq s.ctrlWord_toNat),
    register .status _ (eq_ofNat_of_toNat_eq s.statusWord_toNat), register .cmd _ rfl, register .faultCode _ (narrow _),
    register .faultInfo _ rfl, register .frameW _ (narrow _), register .frameH _ (narrow _), register .refCap _ (narrow _),
    fun h => register .refCnt _ (State.refCnt_word h), register .madTol _ rfl, register .edgeThr _ rfl,
    register .blkPosX _ rfl, register .blkPosY _ rfl, register .blkSz _ (eq_ofNat_of_toNat_eq s.blkSzWord_toNat),
    register .splSz _ (narrow _), register .coefSz _ (narrow _),
    register .emapDim _ (eq_ofNat_of_toNat_eq s.emapDimWord_toNat), register .sLen _ rfl, register .rPtr _ rfl,
    fun k => ⟨register (.a k) _ rfl, register (.r k) _ rfl⟩,
    fun a ha empty => step_readEmpty ha (by omega) ((regAt_eq_none ha (by omega)).mpr (by omega))⟩

/-! ### Dropped writes -/

/-- The offsets and states of R308 at which a write to a register is dropped. -/
theorem State.drops_iff_offset (s : State) (g : Reg) :
    s.Drops g ↔ (g.offset ∈ [0x000, 0x010, 0x014, 0x024, 0x044] ∨ 0x0A0 ≤ g.offset
        ∨ (0x050 ≤ g.offset ∧ g.offset < 0x080)
        ∨ (s.busy = true ∧ (g.offset ∈ [0x018, 0x01C, 0x020] ∨ (0x028 ≤ g.offset ∧ g.offset < 0x050)))
        ∨ (g.offset = 0x00C ∧ (s.busy = true ∨ s.statusFault = true))) := by
  cases g with
  | a k =>
    refine iff_of_false (by simp [State.Drops, Reg.readOnly, Reg.configuration]) fun offsets => ?_
    have last := k.isLt
    simp only [Reg.offset, List.mem_cons, List.not_mem_nil, or_false] at offsets
    omega
  | _ => simp [State.Drops, Reg.readOnly, Reg.configuration, Reg.offset]

/-- Settles O9: by the register at the written offset, or none. -/
theorem commandErrorExactlyOnDroppedWrites : Obligations.CommandErrorExactlyOnDroppedWrites := by
  unfold Obligations.CommandErrorExactlyOnDroppedWrites
  intro s t a rest ha h dropped
  rw [step_host ha] at h
  rcases State.hostAccess_next h with ⟨x, g, rfl, _, rfl⟩ | ⟨g, v, rfl, hw⟩ | ⟨x, v, rfl, hx, hlt, hn, rfl⟩
    | ⟨x, v, g, rfl, _, hg, hr, _, rfl⟩
  · exact ⟨fun ⟨_, _, e, _⟩ => (by cases e), fun h0 h1 => absurd (h0.symm.trans h1) (by decide)⟩
  · constructor
    · rintro ⟨_, _, e, _, offsets⟩
      cases e
      exact hw.eq_commandError ((State.drops_iff_offset _ g).mpr offsets)
    · intro h0 h1
      exact ⟨_, v, rfl, g.offset_lt, (State.drops_iff_offset _ g).mp (hw.drops h0 h1)⟩
  · refine ⟨fun _ => rfl, fun _ _ => ⟨x, v, rfl, hlt, ?_⟩⟩
    have empty := (regAt_eq_none hx hlt).mp hn
    omega
  · constructor
    · rintro ⟨_, _, e, hlt, _⟩
      cases e
      exact absurd (Option.some.inj ((regionAt_of_lt hlt).symm.trans hg)).symm hr
    · exact fun h0 h1 => absurd (h0.symm.trans h1) (by decide)

/-! ### Writes that are performed -/

/-- Settles O10: each register's write with the engine idle. -/
theorem configurationWrites : Obligations.ConfigurationWrites := by
  unfold Obligations.ConfigurationWrites
  intro s v rest idle writes
  have register (g : Reg) (t : State)
      (hw : State.writeReg { s with agenda := rest } g v = State.whenIdle { s with agenda := rest } { t with agenda := rest }) :
      writes g.offset t := fun h => by
    rw [step_writeReg g h, hw, State.whenIdle_of_idle (s := { s with agenda := rest }) idle]
  exact ⟨register .frameW _ rfl, register .frameH _ rfl, register .refCap _ rfl, register .madTol _ rfl,
    register .edgeThr _ rfl, register .blkPosX _ rfl, register .blkPosY _ rfl, register .blkSz _ rfl,
    register .splSz _ rfl, register .coefSz _ rfl, register .sLen _ rfl, register .rPtr _ rfl⟩

theorem State.writeReg_ctrl_enables {s : State} {v : Word} (h : v.getLsbD 0 = false) :
    s.writeReg .ctrl v = { s with ieDone := v.getLsbD 8, ieFault := v.getLsbD 9, ieCmdErr := v.getLsbD 10 } := by
  simp only [State.writeReg, State.writeCtrl, h, Bool.false_eq_true, if_false]

theorem State.writeReg_ctrl_softReset {s : State} {v : Word} (h : v.getLsbD 0 = true) :
    s.writeReg .ctrl v
      = { s with ieDone := v.getLsbD 8, ieFault := v.getLsbD 9, ieCmdErr := v.getLsbD 10 }.softReset := by
  simp only [State.writeReg, State.writeCtrl, h, if_true]

/-- Settles O11: each register's write at its offset. -/
theorem controlWritesAndIssue : Obligations.ControlWritesAndIssue := by
  unfold Obligations.ControlWritesAndIssue
  intro s v rest
  refine ⟨fun hv h => ?_, fun h => ?_, fun k h => step_writeReg (.a k) h, fun idle clear h => ?_⟩
  · rw [step_writeReg .ctrl h, State.writeReg_ctrl_enables hv]
  · rw [step_writeReg .status h, State.writeReg, State.writeStatus_eq]
  · rw [step_writeReg .cmd h, State.writeReg, State.issue_of_idle (s := { s with agenda := rest }) idle clear]

/-- Settles O12. -/
theorem softReset : Obligations.SoftReset := by
  unfold Obligations.SoftReset
  intro s v rest hv h
  rw [step_writeReg .ctrl h, State.writeReg_ctrl_softReset hv]
  rfl

/-! ### Hardware reset -/

theorem State.reset_readReg (g : Reg) :
    State.reset.readReg g = if g = .id then 0x59415643#32 else if g = .refCap then 5#32 else 0#32 := by
  cases g with
  | a k | r k => simp [State.readReg, State.reset]
  | _ => rfl

/-- A register reads the same after any hardware reset. -/
theorem State.hardReset_readReg (s : State) (g : Reg) : s.hardReset.readReg g = State.reset.readReg g := by
  cases g <;> rfl

/-- Settles O13. -/
theorem hardwareResetValues : Obligations.HardwareResetValues := by
  unfold Obligations.HardwareResetValues
  refine ⟨⟨State.reset_readReg, rfl, rfl⟩, fun s rest h => ⟨State.hardReset { s with agenda := rest }, ?_, fun g => ?_, rfl, rfl⟩⟩
  · simp only [step, State.turn, h, State.move]
  · rw [State.hardReset_readReg, State.reset_readReg]

/-! ### Buffers -/

/-- A region stores the same bits of a word that already has only those. -/
theorem storedBits_storedBits (g : Region) (v : Word) : storedBits g (storedBits g v) = storedBits g v := by
  have flag : ∀ b, ignWord ((ignWord b).getLsbD 0) = ignWord b := by decide
  unfold storedBits
  split
  · exact flag _
  · rfl

/-- Settles O15: the stored word, read back through the bits that the region has. -/
theorem bufferWriteIsReadBack : Obligations.BufferWriteIsReadBack := by
  unfold Obligations.BufferWriteIsReadBack
  intro s g a v rest idle ha hg hr h
  let t := State.writeWord { s with agenda := .host (.read a 4) :: rest } a (storedBits g v)
  have write : step s = .next t := by
    rw [step_host h, State.hostAccess_write (s := { s with agenda := .host (.read a 4) :: rest }) ha hg (.inr idle),
      State.writeWordAt_buffer hr]
  have word : (State.readWordAt { t with agenda := rest } g a)
      = if g = .blkIgn then (if v.getLsbD 0 then 1#32 else 0#32) else v :=
    calc State.readWordAt { t with agenda := rest } g a
      _ = storedBits g (t.wordAt a) := if_neg hr
      _ = storedBits g v := by rw [State.wordAt_writeWord, storedBits_storedBits]
      _ = _ := rfl
  have read : step t = .next { t with agenda := rest, lastRead := some (State.readWordAt { t with agenda := rest } g a) } := by
    rw [step_host (s := t) rfl, State.hostAccess_read (s := { t with agenda := rest }) ha hg (.inr idle)]
  rw [word] at read
  exact ⟨t, _, write, read, rfl, fun x hx => State.byteAt_writeWord_outside _ a _ x (by omega), rfl⟩

/-! ### A command in flight -/

/-- Settles O22: the register writes that a busy engine performs. -/
theorem hostCannotDisturbCommandInFlight : Obligations.HostCannotDisturbCommandInFlight := by
  unfold Obligations.HostCannotDisturbCommandInFlight
  intro s t p a rest hp ha h
  rw [step_host ha] at h
  rcases State.hostAccess_next h with ⟨x, g, rfl, _, rfl⟩ | ⟨g, v, rfl, hw⟩ | ⟨x, v, rfl, _, _, _, rfl⟩
    | ⟨x, v, g, _, _, _, _, idle, _⟩
  · exact .inr rfl
  · cases hw with
    | softReset hv => exact .inl ⟨rfl, v, rfl, hv⟩
    | status => rw [State.writeStatus_eq]; exact .inr rfl
    | issue idle | configuration _ _ _ idle => exact absurd (hp.symm.trans idle) (by simp)
    | dropped | enables | argument => exact .inr rfl
  · exact .inr rfl
  · exact absurd (hp.symm.trans idle) (by simp)

theorem step_engine {s : State} (h : s.engineNext = true) : step s = s.popped.completion := by
  unfold State.engineNext at h
  split at h
  · next he =>
    have popped : s.popped = s := by simp only [State.popped, he, List.tail_nil]; rw [← he]
    simp only [step, State.turn, he, popped]
  · next he => simp [step, State.turn, State.move, State.popped, he]
  · cases h

/-- Settles O5. -/
theorem engineStepRunsDecodedCommand : Obligations.EngineStepRunsDecodedCommand := by
  unfold Obligations.EngineStepRunsDecodedCommand
  intro s p i engine hp hd
  have fetched : s.popped.fetch = some p.cmd := by rw [State.fetch, State.popped_pend, hp, Option.map_some]
  rw [step_engine engine, State.completion, fetched]
  simp only [hd, State.popped]

/-- With a command in flight the completion step ends it or takes a fault of R301 (R305). -/
theorem State.runCommand_cases {s : State} {p : Pend} (hp : s.pend = some p) (body : Pend → Except EngineFault State) :
    (∃ u, body p = .ok u ∧ s.runCommand body = .next u.complete) ∨ ∃ f, s.runCommand body = .next (s.takeFault f) := by
  cases hb : body p with
  | ok u => exact .inl ⟨u, rfl, State.runCommand_ok hp hb⟩
  | error f => exact .inr ⟨f, State.runCommand_error hp hb⟩

/-- Settles O24: by what the rule of each kind of command keeps. -/
theorem commandFaultsOrCompletes : Obligations.CommandFaultsOrCompletes := by
  unfold Obligations.CommandFaultsOrCompletes
  intro i s p hp
  rcases exec_completes s i with ⟨body, hb, writes⟩ | ⟨_, body, hb, renews⟩
  all_goals
    rw [hb]
    rcases State.runCommand_cases hp body with ⟨u, hu, hc⟩ | ⟨f, hf⟩
  · have kept := writes p u hu
    exact .inr ⟨_, hc, rfl, rfl, kept.statusFault, kept.faultCode, kept.faultInfo, kept.setup⟩
  · exact .inl ⟨f.name.code, f.info, f.name.code_range.1, f.name.code_range.2, hf⟩
  · obtain ⟨_, kept, _, _, rfl⟩ := renews p u hu
    exact .inr ⟨_, hc, rfl, rfl, rfl, rfl, rfl, (State.CommandWrites.refl s).setup⟩
  · exact .inl ⟨f.name.code, f.info, f.name.code_range.1, f.name.code_range.2, hf⟩

end Sys2Proof.Machine
end

section
/-! The faults of operands, sizes, dimensions and tables (spec/10_state.md R29, R40, spec/30_encoding.md R82,
spec/60_exceptions.md R301). -/

namespace Sys2Proof.Machine

/-! ### Raster operands -/

/-- The two host-addressable rasters, each with its address (R60). -/
def FrameRasterAt (rs : RasterSel) (base : Nat) : Prop := (rs = .cur ∧ base = curBase) ∨ (rs = .aux ∧ base = auxBase)

section
variable {s : State} {cmd : Word} {rs : RasterSel} {d : BitVec 4} {base : Nat}

theorem State.resolveRaster_frame (h : FrameRasterAt rs base) :
    s.resolveRaster cmd rs d
      = if d ≠ 0 then .error ⟨.illegalOperand, cmd⟩
        else if ¬ s.frameLegal then .error ⟨.illegalConfig, 0⟩ else .ok (s.frameView base) := by
  rcases h with ⟨rfl, rfl⟩ | ⟨rfl, rfl⟩ <;> rfl

theorem State.resolveWritable_frame (h : FrameRasterAt rs base) :
    s.resolveWritable cmd rs d
      = if d ≠ 0 then .error ⟨.illegalOperand, cmd⟩
        else if ¬ s.frameLegal then .error ⟨.illegalConfig, 0⟩ else .ok ⟨base, s.frameW.toNat, s.frameH.toNat⟩ := by
  rcases h with ⟨rfl, rfl⟩ | ⟨rfl, rfl⟩ <;> rfl

theorem State.resolveRef_frame (h : FrameRasterAt rs base) : s.resolveRef cmd rs d = .error ⟨.illegalOperand, cmd⟩ := by
  rcases h with ⟨rfl, rfl⟩ | ⟨rfl, rfl⟩ <;> rfl

theorem State.resolveRaster_ref_outside (h : d = 0 ∨ s.refs.length < d.toNat) :
    s.resolveRaster cmd .ref d = .error ⟨.illegalOperand, cmd⟩ := by
  by_cases hd : d = 0
  · simp only [State.resolveRaster, if_pos hd]
  · simp only [State.resolveRaster, if_neg hd, if_pos (h.resolve_left hd)]

theorem State.resolveRaster_ref_inside {r : Raster} (h1 : 1 ≤ d.toNat) (h2 : d.toNat ≤ s.refs.length)
    (hr : s.refs[s.refs.length - d.toNat]? = some r) : s.resolveRaster cmd .ref d = .ok r.view := by
  have hd : d ≠ 0 := by rintro rfl; exact absurd h1 (by decide)
  simp only [State.resolveRaster, if_neg hd, if_neg (Nat.not_lt.mpr h2), hr]

end

/-- Settles O27: the equations of the resolution, by selector. -/
theorem rasterOperandResolves : Obligations.RasterOperandResolves := by
  unfold Obligations.RasterOperandResolves
  intro s cmd d illegal legalFrame
  have frame (rs : RasterSel) (base : Nat) (h : FrameRasterAt rs base) :
      (d ≠ 0 → s.resolveRaster cmd rs d = .error illegal ∧ s.resolveWritable cmd rs d = .error illegal)
      ∧ (d = 0 → ¬ legalFrame →
          s.resolveRaster cmd rs d = .error ⟨.illegalConfig, 0⟩ ∧ s.resolveWritable cmd rs d = .error ⟨.illegalConfig, 0⟩)
      ∧ (d = 0 → legalFrame →
          s.resolveRaster cmd rs d = .ok (s.frameView base)
          ∧ s.resolveWritable cmd rs d = .ok ⟨base, s.frameW.toNat, s.frameH.toNat⟩)
      ∧ s.resolveRef cmd rs d = .error illegal := by
    have same : legalFrame ↔ s.frameLegal := and_assoc
    rw [same, State.resolveRaster_frame h, State.resolveWritable_frame h, State.resolveRef_frame h]
    refine ⟨fun hd => ?_, fun hd hf => ?_, fun hd hf => ?_, rfl⟩
    · simp only [if_pos hd, illegal, and_self]
    · simp only [if_neg (not_not.mpr hd), if_pos hf, and_self]
    · simp only [if_neg (not_not.mpr hd), if_neg (not_not.mpr hf), and_self]
  refine ⟨?_, fun h => ?_, fun r h1 h2 hr => ?_, rfl, fun _ => ⟨rfl, rfl, rfl⟩⟩
  · simp only [List.forall_mem_cons]
    exact ⟨frame .cur curBase (.inl ⟨rfl, rfl⟩), frame .aux auxBase (.inr ⟨rfl, rfl⟩), nofun⟩
  · exact ⟨State.resolveRaster_ref_outside h, State.resolveRaster_ref_outside h⟩
  · have resolved := State.resolveRaster_ref_inside (cmd := cmd) h1 h2 hr
    exact ⟨r.view, resolved, resolved, rfl, rfl, fun k x hx => by simp [Raster.view, List.getD, hx]⟩

/-! ### Faults of sizes -/

theorem sizeFault_zero (sizes : List Nat) (a b : Word) : sizeFault sizes 0 a b = some ⟨.zeroSizeBlock, a⟩ := rfl

theorem sizeFault_illegal {sizes : List Nat} {n : Nat} (h0 : n ≠ 0) (hn : n ∉ sizes) (a b : Word) :
    sizeFault sizes n a b = some ⟨.illegalSize, b⟩ := by
  rw [sizeFault, if_neg h0, if_pos hn]

theorem sizeFault_legal {sizes : List Nat} {n : Nat} (h : n ∈ sizes) (h0 : 0 ∉ sizes) (a b : Word) :
    sizeFault sizes n a b = none :=
  sizeFault_eq_none.mpr ⟨fun hz => h0 (hz ▸ h), h⟩

/-- A command takes both faults of its size test when it takes whatever fault the test raises (R105). -/
theorem sizeFaults_of {i : Instr} {s : State} {legal : List Nat} {n : Nat} {size : Word} (hn : n = u32 size)
    (h : ∀ f, sizeFault legal n 0 size = some f → exec i s = .next (s.takeFault f)) :
    (size = 0 → exec i s = .next (s.takeFault ⟨.zeroSizeBlock, 0⟩))
      ∧ (size ≠ 0 → u32 size ∉ legal → exec i s = .next (s.takeFault ⟨.illegalSize, size⟩)) := by
  subst hn
  refine ⟨?_, fun h0 hl => h _ (sizeFault_illegal (fun hz => h0 (BitVec.eq_of_toNat_eq hz)) hl _ _)⟩
  rintro rfl
  exact h _ (sizeFault_zero _ _ _)

theorem toNat_eq_u32_setWidth (n : BitVec 8) : n.toNat = u32 (n.setWidth 32) :=
  (BitVec.toNat_setWidth_of_le (by decide)).symm

section
variable {s : State} {p : Pend} {rs : RasterSel} {d : BitVec 4} {f : EngineFault}

theorem exec_blkLd_sizeFault (hp : s.pend = some p) {v : RasterView} (hv : s.resolveRaster p.cmd rs d = .ok v)
    (hf : sizeFault Config.blockSizes (u32 (p.arg 2)) 0 (p.arg 2) = some f) :
    exec (.blkLd rs d) s = .next (s.takeFault f) :=
  State.runCommand_error hp (by simp only [hv, hf])

theorem exec_blkSt_sizeFault (hp : s.pend = some p) {t : RasterTarget} (ht : s.resolveWritable p.cmd rs d = .ok t)
    (hf : sizeFault Config.blockSizes s.blkSize.toNat 0 (s.blkSize.setWidth 32) = some f) :
    exec (.blkSt rs d) s = .next (s.takeFault f) :=
  State.runCommand_error hp (by simp only [ht, hf])

theorem exec_sobBlkFlag_sizeFault (hp : s.pend = some p)
    (hf : sizeFault Config.blockSizes s.blkSize.toNat 0 (s.blkSize.setWidth 32) = some f) :
    exec .sobBlkFlag s = .next (s.takeFault f) :=
  State.runCommand_error hp (by simp only [hf])

theorem exec_colBlk2Ycc_sizeFault (hp : s.pend = some p)
    (hf : sizeFault Config.xformSizes s.blkSize.toNat 0 (s.blkSize.setWidth 32) = some f) :
    exec .colBlk2Ycc s = .next (s.takeFault f) :=
  State.runCommand_error hp (by simp only [hf])

theorem exec_colBlk2Rgb_sizeFault (hp : s.pend = some p)
    (hf : sizeFault Config.xformSizes s.splSize.toNat 0 (s.splSize.setWidth 32) = some f) :
    exec .colBlk2Rgb s = .next (s.takeFault f) :=
  State.runCommand_error hp (by simp only [hf])

theorem exec_dctFwd_sizeFault (hp : s.pend = some p)
    (hf : sizeFault Config.xformSizes s.splSize.toNat 0 (s.splSize.setWidth 32) = some f) :
    exec .dctFwd s = .next (s.takeFault f) :=
  State.runCommand_error hp (by simp only [hf])

theorem exec_dctInv_sizeFault (hp : s.pend = some p)
    (hf : sizeFault Config.xformSizes s.coefSize.toNat 0 (s.coefSize.setWidth 32) = some f) :
    exec .dctInv s = .next (s.takeFault f) :=
  State.runCommand_error hp (by simp only [hf])

theorem exec_motSearch_sizeFault (hp : s.pend = some p) {ref : RasterView} (hr : s.resolveRef p.cmd rs d = .ok ref)
    (legal : s.frameLegal) (hf : sizeFault Config.blockSizes s.blkSize.toNat 0 (s.blkSize.setWidth 32) = some f) :
    exec (.motSearch rs d) s = .next (s.takeFault f) :=
  State.runCommand_error hp (by simp only [hr, if_neg (not_not.mpr legal), hf])

/-! ### Faults of operands and dimensions -/

/-- Every command that reads a raster takes the fault of its operand (R40). -/
theorem exec_resolveRaster_error (hp : s.pend = some p) (hf : s.resolveRaster p.cmd rs d = .error f) :
    ∀ i ∈ [Instr.rasGet rs d, .blkLd rs d, .sobPix rs d, .sobMap rs d, .serIntra rs d, .serFrame rs d],
      exec i s = .next (s.takeFault f) := by
  simp only [List.forall_mem_cons]
  exact ⟨State.runCommand_error hp (by simp only [hf]), State.runCommand_error hp (by simp only [hf]),
    State.runCommand_error hp (by simp only [hf]), State.runCommand_error hp (by simp only [hf]),
    State.runCommand_error hp (by simp only [hf]), State.runCommand_error hp (by simp only [hf]), nofun⟩

/-- Every command that writes a raster takes the fault of its operand (R40). -/
theorem exec_resolveWritable_error (hp : s.pend = some p) (hf : s.resolveWritable p.cmd rs d = .error f) :
    ∀ i ∈ [Instr.rasSet rs d, .blkSt rs d, .parIntra rs d, .parFrame rs d], exec i s = .next (s.takeFault f) := by
  simp only [List.forall_mem_cons]
  exact ⟨State.runCommand_error hp (by simp only [hf]), State.runCommand_error hp (by simp only [hf]),
    State.runCommand_error hp (by simp only [hf]), State.runCommand_error hp (by simp only [hf]), nofun⟩

/-- `EMAPDIM` and the frame dimensions differ (R147). -/
theorem exec_sobBlkFlag_dimensions (hp : s.pend = some p) (hs : s.blkSize.toNat ∈ Config.blockSizes)
    (hd : s.emapW = 0 ∨ s.emapW ≠ s.frameW ∨ s.emapH ≠ s.frameH) :
    exec .sobBlkFlag s = .next (s.takeFault ⟨.dimensionMismatch, s.emapDimWord⟩) :=
  State.runCommand_error hp (by simp only [sizeFault_legal hs (by decide), if_pos hd])

theorem exec_motSearch_illegalFrame (hp : s.pend = some p) {ref : RasterView} (hr : s.resolveRef p.cmd rs d = .ok ref)
    (hf : ¬ s.frameLegal) : exec (.motSearch rs d) s = .next (s.takeFault ⟨.illegalConfig, 0⟩) :=
  State.runCommand_error hp (by simp only [hr, if_pos hf])

theorem exec_motBatch_illegalFrame (hp : s.pend = some p) {ref : RasterView} (hr : s.resolveRef p.cmd rs d = .ok ref)
    (hf : ¬ s.frameLegal) : exec (.motBatch rs d) s = .next (s.takeFault ⟨.illegalConfig, 0⟩) :=
  State.runCommand_error hp (by simp only [hr, if_pos hf])

theorem exec_motSearch_dimensions (hp : s.pend = some p) {ref : RasterView} (hr : s.resolveRef p.cmd rs d = .ok ref)
    (legal : s.frameLegal) (hs : s.blkSize.toNat ∈ Config.blockSizes)
    (hd : ref.w ≠ s.frameW.toNat ∨ ref.h ≠ s.frameH.toNat) :
    exec (.motSearch rs d) s = .next (s.takeFault ⟨.dimensionMismatch, pairInfo ref.w ref.h⟩) :=
  State.runCommand_error hp
    (by simp only [hr, if_neg (not_not.mpr legal), sizeFault_legal hs (by decide), if_pos hd])

theorem exec_motBatch_tooMany (hp : s.pend = some p) {ref : RasterView} (hr : s.resolveRef p.cmd rs d = .ok ref)
    (legal : s.frameLegal) (hn : Config.vtabN < u32 (p.arg 0)) :
    exec (.motBatch rs d) s = .next (s.takeFault ⟨.tableOverflow, p.arg 0⟩) :=
  State.runCommand_error hp (by simp only [hr, if_neg (not_not.mpr legal), if_pos hn])

theorem exec_motBatch_dimensions (hp : s.pend = some p) {ref : RasterView} (hr : s.resolveRef p.cmd rs d = .ok ref)
    (legal : s.frameLegal) (hn : ¬ Config.vtabN < u32 (p.arg 0))
    (hd : ref.w ≠ s.frameW.toNat ∨ ref.h ≠ s.frameH.toNat) :
    exec (.motBatch rs d) s = .next (s.takeFault ⟨.dimensionMismatch, pairInfo ref.w ref.h⟩) :=
  State.runCommand_error hp (by simp only [hr, if_neg (not_not.mpr legal), if_neg hn, if_pos hd])

/-- `{y[15:0], x[15:0]}` as a number (R100, R301). -/
theorem pairInfo_eq (x y : Nat) : pairInfo x y = BitVec.ofNat 32 (y % 65536 * 65536 + x % 65536) := by
  refine eq_ofNat_of_toNat_eq ?_
  rw [pairInfo, BitVec.toNat_append, BitVec.toNat_ofNat, BitVec.toNat_ofNat,
    ← Nat.shiftLeft_add_eq_or_of_lt (Nat.mod_lt _ (by decide)), Nat.shiftLeft_eq]

/-! ### The entries of a batch -/

theorem State.entrySize_eq (s : State) (e : Nat) : s.entrySize e = u32 (s.vtab e 2) % 256 := by
  simp [State.entrySize, BitVec.extractLsb'_toNat]

/-- An entry with a legal size and an origin inside the frame passes its test (R206). -/
theorem State.entryFault_eq_none {e : Nat} (hs : u32 (s.vtab e 2) % 256 ∈ Config.blockSizes)
    (hx : u32 (s.vtab e 0) < s.frameW.toNat) (hy : u32 (s.vtab e 1) < s.frameH.toNat) : s.entryFault e = none := by
  have inside : ¬ (s.frameW.toNat ≤ u32 (s.vtab e 0) ∨ s.frameH.toNat ≤ u32 (s.vtab e 1)) := by omega
  simp only [State.entryFault, s.entrySize_eq, sizeFault_legal hs (by decide), if_neg inside]

theorem State.entryFault_of_sizeFault {e : Nat}
    (h : sizeFault Config.blockSizes (u32 (s.vtab e 2) % 256) (BitVec.ofNat 32 e) (BitVec.ofNat 32 e) = some f) :
    s.entryFault e = some f := by
  simp only [State.entryFault, s.entrySize_eq, h]

/-- The first number below `n` at which `g` answers. -/
theorem findSome_range_eq {α : Type} {g : Nat → Option α} {n e : Nat} {b : α} (he : e < n) (hb : g e = some b)
    (before : ∀ k < e, g k = none) : (List.range n).findSome? g = some b := by
  obtain ⟨m, rfl⟩ : ∃ m, n = e + (m + 1) := ⟨n - e - 1, by omega⟩
  have none_before : (List.range e).findSome? g = none :=
    List.findSome?_eq_none_iff.mpr fun k hk => before k (List.mem_range.mp hk)
  rw [List.range_add, List.findSome?_append, none_before, List.range_succ_eq_map]
  simp [hb]

/-- A batch takes the fault of the first entry whose test fails (R206). -/
theorem exec_motBatch_entryFault (hp : s.pend = some p) {ref : RasterView} (hr : s.resolveRef p.cmd rs d = .ok ref)
    (legal : s.frameLegal) (hn : ¬ Config.vtabN < u32 (p.arg 0))
    (hd : ¬ (ref.w ≠ s.frameW.toNat ∨ ref.h ≠ s.frameH.toNat)) {e : Nat} (he : e < u32 (p.arg 0))
    (hf : s.entryFault e = some f) (before : ∀ k < e, s.entryFault k = none) :
    exec (.motBatch rs d) s = .next (s.takeFault f) :=
  State.runCommand_error hp
    (by simp only [hr, if_neg (not_not.mpr legal), if_neg hn, if_neg hd, findSome_range_eq he hf before])

end

/-- Settles O26: each clause by the fault that the command takes there. -/
theorem blockSizeFaults : Obligations.BlockSizeFaults := by
  unfold Obligations.BlockSizeFaults
  intro s p rs d hp faulted sizes tested blkSize n
  have hblk : s.blkSize.toNat = u32 blkSize := toNat_eq_u32_setWidth s.blkSize
  refine ⟨fun v hv => sizeFaults_of rfl fun f => exec_blkLd_sizeFault hp hv,
    fun t ht => sizeFaults_of hblk fun f => exec_blkSt_sizeFault hp ht,
    sizeFaults_of hblk fun f => exec_sobBlkFlag_sizeFault hp,
    sizeFaults_of hblk fun f => exec_colBlk2Ycc_sizeFault hp,
    sizeFaults_of (toNat_eq_u32_setWidth _) fun f => exec_colBlk2Rgb_sizeFault hp,
    sizeFaults_of (toNat_eq_u32_setWidth _) fun f => exec_dctFwd_sizeFault hp,
    sizeFaults_of (toNat_eq_u32_setWidth _) fun f => exec_dctInv_sizeFault hp,
    fun hs hd => ?_, fun hf hsel hd => ?_, fun ref hr => ⟨fun hf => ?_, fun legal => ?_, fun legal hn => ?_,
      fun legal hd => ⟨fun hs => ?_, fun hn => ?_⟩, fun legal hn hw hh => ?_⟩⟩
  · have word := eq_ofNat_of_toNat_eq s.emapDimWord_toNat
    rw [exec_sobBlkFlag_dimensions hp (hblk ▸ hs) hd, word]
    rfl
  · obtain ⟨base, stands⟩ : ∃ base, FrameRasterAt rs base := by
      rcases hsel with rfl | rfl
      · exact ⟨_, .inl ⟨rfl, rfl⟩⟩
      · exact ⟨_, .inr ⟨rfl, rfl⟩⟩
    have raster : s.resolveRaster p.cmd rs d = .error ⟨.illegalConfig, 0⟩ := by
      rw [State.resolveRaster_frame stands, if_neg (not_not.mpr hd), if_pos hf]
    have writable : s.resolveWritable p.cmd rs d = .error ⟨.illegalConfig, 0⟩ := by
      rw [State.resolveWritable_frame stands, if_neg (not_not.mpr hd), if_pos hf]
    have reads := exec_resolveRaster_error hp raster
    have writes := exec_resolveWritable_error hp writable
    simp only [List.forall_mem_cons] at reads writes ⊢
    obtain ⟨rasGet, blkLd, sobPix, sobMap, serIntra, serFrame, _⟩ := reads
    obtain ⟨rasSet, blkSt, parIntra, parFrame, _⟩ := writes
    exact ⟨rasGet, rasSet, blkLd, blkSt, sobPix, sobMap, serIntra, serFrame, parIntra, parFrame, nofun⟩
  · exact ⟨exec_motSearch_illegalFrame hp hr hf, exec_motBatch_illegalFrame hp hr hf⟩
  · exact sizeFaults_of hblk fun f => exec_motSearch_sizeFault hp hr legal
  · exact exec_motBatch_tooMany hp hr legal hn
  · rw [exec_motSearch_dimensions hp hr legal (hblk ▸ hs) hd, pairInfo_eq]
    rfl
  · rw [exec_motBatch_dimensions hp hr legal (Nat.not_lt.mpr hn) hd, pairInfo_eq]
    rfl
  · intro size e he before
    have equal : ¬ (ref.w ≠ s.frameW.toNat ∨ ref.h ≠ s.frameH.toNat) := by simp [hw, hh]
    have passed (k : Nat) (hk : k < e) : s.entryFault k = none := by
      obtain ⟨hs, hx, hy⟩ := before k hk
      exact State.entryFault_eq_none hs hx hy
    have batch (f : EngineFault)
        (hf : sizeFault Config.blockSizes (size e) (BitVec.ofNat 32 e) (BitVec.ofNat 32 e) = some f) :
        exec (.motBatch rs d) s = .next (s.takeFault f) :=
      exec_motBatch_entryFault hp hr legal (Nat.not_lt.mpr hn) equal he (State.entryFault_of_sizeFault hf) passed
    exact ⟨fun h0 => batch ⟨.zeroSizeBlock, BitVec.ofNat 32 e⟩ (by rw [h0, sizeFault_zero]),
      fun h0 hl => batch ⟨.illegalSize, BitVec.ofNat 32 e⟩ (sizeFault_illegal h0 hl _ _)⟩

end Sys2Proof.Machine
end

section
/-! Noninterference (spec/10_state.md R21, R52): what the host may change after issue is neither read nor written by a command. -/

namespace Sys2Proof.Machine

/-- `s` with the argument registers, the enables and `CMDERR` of `c`: what the host may change after issue (R50, R52). -/
def State.withHostFieldsOf (s c : State) : State :=
  { s with args := c.args, ieDone := c.ieDone, ieFault := c.ieFault, ieCmdErr := c.ieCmdErr, statusCmdErr := c.statusCmdErr }

/-- A completion commutes with a change of the fields that the host may change after issue. -/
def IgnoresHostFields (run : State → Host.Outcome State Fault Refusal) : Prop :=
  ∀ s t c, run s = .next t → run (s.withHostFieldsOf c) = .next (t.withHostFieldsOf c)

/-- It does when the command's rule does, for every command latched at issue. -/
theorem ignoresHostFields_of_body {body : State → Pend → Except EngineFault State}
    (h : ∀ s p c, body (s.withHostFieldsOf c) p = (body s p).map (·.withHostFieldsOf c)) :
    IgnoresHostFields fun s => s.runCommand (body s) := by
  intro s t c hs
  obtain ⟨p, hp, ⟨u, hu, rfl⟩ | ⟨f, hf, rfl⟩⟩ := State.runCommand_next hs
  · have ok : body (s.withHostFieldsOf c) p = .ok (u.withHostFieldsOf c) := by rw [h, hu]; rfl
    exact State.runCommand_ok (s := s.withHostFieldsOf c) hp ok
  · have error : body (s.withHostFieldsOf c) p = .error f := by rw [h, hf]; rfl
    exact State.runCommand_error (s := s.withHostFieldsOf c) hp error

/-- One test of a rule: the same in both states, whatever decides it. -/
theorem ite_eq_map {α : Type} {q q' : Prop} [Decidable q] [Decidable q'] {g : α → α} {a b a' b' : Except EngineFault α}
    (test : q' ↔ q) (ha : a' = a.map g) (hb : b' = b.map g) : (if q' then a' else b') = (if q then a else b).map g := by
  by_cases h : q
  · rw [if_pos h, if_pos (test.mpr h), ha]
  · rw [if_neg h, if_neg (fun h' => h (test.mp h')), hb]

/-! ### What a command reads and writes -/

namespace State

variable (s c : State)

@[simp] theorem withHostFieldsOf_blkPosX : (s.withHostFieldsOf c).blkPosX = s.blkPosX := rfl
@[simp] theorem withHostFieldsOf_blkPosY : (s.withHostFieldsOf c).blkPosY = s.blkPosY := rfl
@[simp] theorem withHostFieldsOf_blkSize : (s.withHostFieldsOf c).blkSize = s.blkSize := rfl
@[simp] theorem withHostFieldsOf_splSize : (s.withHostFieldsOf c).splSize = s.splSize := rfl
@[simp] theorem withHostFieldsOf_coefSize : (s.withHostFieldsOf c).coefSize = s.coefSize := rfl
@[simp] theorem withHostFieldsOf_emapW : (s.withHostFieldsOf c).emapW = s.emapW := rfl
@[simp] theorem withHostFieldsOf_emapH : (s.withHostFieldsOf c).emapH = s.emapH := rfl
@[simp] theorem withHostFieldsOf_blkIgn : (s.withHostFieldsOf c).blkIgn = s.blkIgn := rfl
@[simp] theorem withHostFieldsOf_heldBlock (n : Nat) : (s.withHostFieldsOf c).heldBlock n = s.heldBlock n := rfl
@[simp] theorem withHostFieldsOf_plane (b n : Nat) : (s.withHostFieldsOf c).plane b n = s.plane b n := rfl
@[simp] theorem withHostFieldsOf_entryFault : (s.withHostFieldsOf c).entryFault = s.entryFault := rfl
@[simp] theorem withHostFieldsOf_windowFault : (s.withHostFieldsOf c).windowFault = s.windowFault := rfl
@[simp] theorem withHostFieldsOf_pointerFault : (s.withHostFieldsOf c).pointerFault = s.pointerFault := rfl
@[simp] theorem withHostFieldsOf_unread : (s.withHostFieldsOf c).unread = s.unread := rfl

@[simp] theorem withHostFieldsOf_resolveRaster (w : Word) (rs : RasterSel) (d : BitVec 4) :
    (s.withHostFieldsOf c).resolveRaster w rs d = s.resolveRaster w rs d := by cases rs <;> rfl

@[simp] theorem withHostFieldsOf_resolveWritable (w : Word) (rs : RasterSel) (d : BitVec 4) :
    (s.withHostFieldsOf c).resolveWritable w rs d = s.resolveWritable w rs d := by cases rs <;> rfl

@[simp] theorem withHostFieldsOf_resolveRef (w : Word) (rs : RasterSel) (d : BitVec 4) :
    (s.withHostFieldsOf c).resolveRef w rs d = s.resolveRef w rs d := by cases rs <;> rfl

/-- Three planes stored, and the size of `COEF`. -/
theorem withHostFieldsOf_storeCoefs (a b e : Nat) (ys bs es : List Word) (n : BitVec 8) :
    { (((s.withHostFieldsOf c).writeWords a ys).writeWords b bs).writeWords e es with coefSize := n }
      = State.withHostFieldsOf { ((s.writeWords a ys).writeWords b bs).writeWords e es with coefSize := n } c := rfl

/-- Three planes stored, and the size of `SPL`. -/
theorem withHostFieldsOf_storeSamples (a b e : Nat) (ys bs es : List Word) (n : BitVec 8) :
    { (((s.withHostFieldsOf c).writeWords a ys).writeWords b bs).writeWords e es with splSize := n }
      = State.withHostFieldsOf { ((s.writeWords a ys).writeWords b bs).writeWords e es with splSize := n } c := rfl

theorem withHostFieldsOf_storeCells (t : RasterTarget) (x y : Nat) (cells : List BlockCell) :
    (s.withHostFieldsOf c).storeCells t x y cells = (s.storeCells t x y cells).withHostFieldsOf c := by
  induction cells generalizing s with
  | nil => rfl
  | cons q cells ih =>
    have one (u : State) : u.storeCells t x y (q :: cells)
        = (if q.ignored then u else u.writeWord (t.base + 4 * ((y + q.j) * t.w + (x + q.i))) q.colour).storeCells t x y cells :=
      rfl
    rw [one, one, ← ih]
    cases q.ignored <;> rfl

theorem withHostFieldsOf_writeRecords (ref : RasterView) (d : BitVec 4) (n : Nat) :
    (s.withHostFieldsOf c).writeRecords ref d n = (s.writeRecords ref d n).withHostFieldsOf c := by
  have loop (es : List Nat) (t : State) :
      es.foldl (fun t e => t.writeWords (vtabBase + 64 * e + 16) (s.entryRecord ref d e)) (t.withHostFieldsOf c)
        = (es.foldl (fun t e => t.writeWords (vtabBase + 64 * e + 16) (s.entryRecord ref d e)) t).withHostFieldsOf c := by
    induction es generalizing t with
    | nil => rfl
    | cons e es ih => exact ih (t.writeWords (vtabBase + 64 * e + 16) (s.entryRecord ref d e))
  exact loop (List.range n) s

theorem withHostFieldsOf_storeGroups (e : Nat) (gs : List VecGroup) :
    (s.withHostFieldsOf c).storeGroups e gs = (s.storeGroups e gs).withHostFieldsOf c := by
  induction gs generalizing s e with
  | nil => rfl
  | cons g gs ih => exact ih (s.writeWords (vtabBase + 64 * e) (groupEntry g)) (e + 1)

theorem withHostFieldsOf_append (bs : List Byte) :
    (s.withHostFieldsOf c).append bs = (s.append bs).map (·.withHostFieldsOf c) := by
  exact ite_eq_map Iff.rfl rfl rfl

theorem withHostFieldsOf_storePixels (t : RasterTarget) (runs : List (Word × Nat)) (rest : List Byte) :
    (s.withHostFieldsOf c).storePixels t runs rest = (s.storePixels t runs rest).map (·.withHostFieldsOf c) := by
  exact ite_eq_map Iff.rfl rfl rfl

end State

/-! ### Each command

The tests of a rule read the same in both states, so both take the same branch; there the writes commute. -/

section
variable (rs : RasterSel) (d : BitVec 4)

theorem execRasGet_ignoresHostFields : IgnoresHostFields (execRasGet rs d) := by
  refine ignoresHostFields_of_body fun s p c => ?_
  simp only [State.withHostFieldsOf_resolveRaster]
  repeat' split
  all_goals rfl

theorem execRasSet_ignoresHostFields : IgnoresHostFields (execRasSet rs d) := by
  refine ignoresHostFields_of_body fun s p c => ?_
  simp only [State.withHostFieldsOf_resolveWritable]
  repeat' split
  all_goals rfl

theorem execBlkLd_ignoresHostFields : IgnoresHostFields (execBlkLd rs d) := by
  refine ignoresHostFields_of_body fun s p c => ?_
  simp only [State.withHostFieldsOf_resolveRaster]
  repeat' split
  all_goals rfl

theorem execBlkSt_ignoresHostFields : IgnoresHostFields (execBlkSt rs d) := by
  refine ignoresHostFields_of_body fun s p c => ?_
  simp only [State.withHostFieldsOf_resolveWritable, State.withHostFieldsOf_blkSize, State.withHostFieldsOf_heldBlock,
    State.withHostFieldsOf_blkPosX, State.withHostFieldsOf_blkPosY, State.withHostFieldsOf_storeCells]
  repeat' split
  all_goals rfl

theorem execRefPush_ignoresHostFields : IgnoresHostFields execRefPush := by
  refine ignoresHostFields_of_body fun s p c => ?_
  simp only [State.withHostFieldsOf_windowFault]
  split
  all_goals rfl

theorem execRefReset_ignoresHostFields : IgnoresHostFields execRefReset := by
  refine ignoresHostFields_of_body fun s p c => ?_
  simp only [State.withHostFieldsOf_windowFault]
  split
  all_goals rfl

theorem execColRgb2Ycc_ignoresHostFields : IgnoresHostFields execColRgb2Ycc :=
  ignoresHostFields_of_body fun _ _ _ => rfl

theorem execColYcc2Rgb_ignoresHostFields : IgnoresHostFields execColYcc2Rgb :=
  ignoresHostFields_of_body fun _ _ _ => rfl

theorem execColGray_ignoresHostFields : IgnoresHostFields execColGray :=
  ignoresHostFields_of_body fun _ _ _ => rfl

theorem execColBlk2Ycc_ignoresHostFields : IgnoresHostFields execColBlk2Ycc := by
  refine ignoresHostFields_of_body fun s p c => ?_
  simp only [State.withHostFieldsOf_blkSize, State.withHostFieldsOf_blkIgn]
  repeat' split
  all_goals rfl

theorem execColBlk2Rgb_ignoresHostFields : IgnoresHostFields execColBlk2Rgb := by
  refine ignoresHostFields_of_body fun s p c => ?_
  simp only [State.withHostFieldsOf_splSize]
  split
  all_goals rfl

theorem execSobPix_ignoresHostFields : IgnoresHostFields (execSobPix rs d) := by
  refine ignoresHostFields_of_body fun s p c => ?_
  simp only [State.withHostFieldsOf_resolveRaster]
  repeat' split
  all_goals rfl

theorem execSobMap_ignoresHostFields : IgnoresHostFields (execSobMap rs d) := by
  refine ignoresHostFields_of_body fun s p c => ?_
  simp only [State.withHostFieldsOf_resolveRaster]
  split
  all_goals rfl

theorem execSobBlkFlag_ignoresHostFields : IgnoresHostFields execSobBlkFlag := by
  refine ignoresHostFields_of_body fun s p c => ?_
  simp only [State.withHostFieldsOf_blkSize, State.withHostFieldsOf_emapW, State.withHostFieldsOf_emapH,
    State.withHostFieldsOf_heldBlock, State.withHostFieldsOf_blkPosX, State.withHostFieldsOf_blkPosY]
  split
  · rfl
  · refine ite_eq_map Iff.rfl rfl ?_
    split
    all_goals rfl

theorem execDctFwd_ignoresHostFields : IgnoresHostFields execDctFwd := by
  refine ignoresHostFields_of_body fun s p c => ?_
  rw [State.withHostFieldsOf_splSize]
  split
  · rfl
  · dsimp only
    rw [State.withHostFieldsOf_plane, State.withHostFieldsOf_plane, State.withHostFieldsOf_plane]
    split
    · rfl
    · exact congrArg Except.ok (s.withHostFieldsOf_storeCoefs c _ _ _ _ _ _ _)

theorem execDctInv_ignoresHostFields : IgnoresHostFields execDctInv := by
  refine ignoresHostFields_of_body fun s p c => ?_
  rw [State.withHostFieldsOf_coefSize]
  split
  · rfl
  · dsimp only
    rw [State.withHostFieldsOf_plane, State.withHostFieldsOf_plane, State.withHostFieldsOf_plane]
    split
    · rfl
    · exact congrArg Except.ok (s.withHostFieldsOf_storeSamples c _ _ _ _ _ _ _)

theorem execMotSearch_ignoresHostFields : IgnoresHostFields (execMotSearch rs d) := by
  refine ignoresHostFields_of_body fun s p c => ?_
  simp only [State.withHostFieldsOf_resolveRef, State.withHostFieldsOf_blkSize, State.withHostFieldsOf_heldBlock,
    State.withHostFieldsOf_blkPosX, State.withHostFieldsOf_blkPosY]
  split
  · rfl
  · refine ite_eq_map Iff.rfl rfl ?_
    split
    · rfl
    · refine ite_eq_map Iff.rfl rfl ?_
      split
      all_goals rfl

theorem execMotBatch_ignoresHostFields : IgnoresHostFields (execMotBatch rs d) := by
  refine ignoresHostFields_of_body fun s p c => ?_
  simp only [State.withHostFieldsOf_resolveRef, State.withHostFieldsOf_entryFault, State.withHostFieldsOf_writeRecords]
  split
  · rfl
  · refine ite_eq_map Iff.rfl rfl (ite_eq_map Iff.rfl rfl (ite_eq_map Iff.rfl rfl ?_))
    split
    all_goals rfl

theorem execSerMeta_ignoresHostFields : IgnoresHostFields execSerMeta := by
  refine ignoresHostFields_of_body fun s p c => ?_
  simp only [State.withHostFieldsOf_pointerFault]
  split
  · rfl
  · exact ite_eq_map Iff.rfl rfl (s.withHostFieldsOf_append c _)

theorem execSerIntra_ignoresHostFields : IgnoresHostFields (execSerIntra rs d) := by
  refine ignoresHostFields_of_body fun s p c => ?_
  simp only [State.withHostFieldsOf_resolveRaster, State.withHostFieldsOf_pointerFault, State.withHostFieldsOf_append]
  repeat' split
  all_goals rfl

theorem execSerFrame_ignoresHostFields : IgnoresHostFields (execSerFrame rs d) := by
  refine ignoresHostFields_of_body fun s p c => ?_
  simp only [State.withHostFieldsOf_resolveRaster, State.withHostFieldsOf_pointerFault, State.withHostFieldsOf_append]
  repeat' split
  all_goals rfl

theorem execSerVecs_ignoresHostFields : IgnoresHostFields execSerVecs := by
  refine ignoresHostFields_of_body fun s p c => ?_
  simp only [State.withHostFieldsOf_pointerFault]
  split
  · rfl
  · exact ite_eq_map Iff.rfl rfl (s.withHostFieldsOf_append c _)

theorem execParPeek_ignoresHostFields : IgnoresHostFields execParPeek := by
  refine ignoresHostFields_of_body fun s p c => ?_
  simp only [State.withHostFieldsOf_pointerFault, State.withHostFieldsOf_unread]
  repeat' split
  all_goals rfl

theorem execParMeta_ignoresHostFields : IgnoresHostFields execParMeta := by
  refine ignoresHostFields_of_body fun s p c => ?_
  simp only [State.withHostFieldsOf_pointerFault, State.withHostFieldsOf_unread]
  repeat' split
  all_goals rfl

theorem execParIntra_ignoresHostFields : IgnoresHostFields (execParIntra rs d) := by
  refine ignoresHostFields_of_body fun s p c => ?_
  simp only [State.withHostFieldsOf_resolveWritable, State.withHostFieldsOf_pointerFault, State.withHostFieldsOf_unread,
    State.withHostFieldsOf_storePixels]
  repeat' split
  all_goals rfl

theorem execParFrame_ignoresHostFields : IgnoresHostFields (execParFrame rs d) := by
  refine ignoresHostFields_of_body fun s p c => ?_
  simp only [State.withHostFieldsOf_resolveWritable, State.withHostFieldsOf_pointerFault, State.withHostFieldsOf_unread,
    State.withHostFieldsOf_storePixels]
  split
  · rfl
  · next t _ =>
    split
    · rfl
    · split
      · rfl
      · split
        · rfl
        · next runs rest _ => cases s.storePixels t runs rest <;> rfl

theorem execParVecs_ignoresHostFields : IgnoresHostFields execParVecs := by
  refine ignoresHostFields_of_body fun s p c => ?_
  simp only [State.withHostFieldsOf_pointerFault, State.withHostFieldsOf_unread, State.withHostFieldsOf_storeGroups]
  repeat' split
  all_goals rfl

end

theorem exec_ignoresHostFields (i : Instr) : IgnoresHostFields (exec i) := by
  cases i with
  | rasGet rs d => exact execRasGet_ignoresHostFields rs d
  | rasSet rs d => exact execRasSet_ignoresHostFields rs d
  | blkLd rs d => exact execBlkLd_ignoresHostFields rs d
  | blkSt rs d => exact execBlkSt_ignoresHostFields rs d
  | refPush => exact execRefPush_ignoresHostFields
  | refReset => exact execRefReset_ignoresHostFields
  | colRgb2Ycc => exact execColRgb2Ycc_ignoresHostFields
  | colYcc2Rgb => exact execColYcc2Rgb_ignoresHostFields
  | colGray => exact execColGray_ignoresHostFields
  | colBlk2Ycc => exact execColBlk2Ycc_ignoresHostFields
  | colBlk2Rgb => exact execColBlk2Rgb_ignoresHostFields
  | sobPix rs d => exact execSobPix_ignoresHostFields rs d
  | sobMap rs d => exact execSobMap_ignoresHostFields rs d
  | sobBlkFlag => exact execSobBlkFlag_ignoresHostFields
  | dctFwd => exact execDctFwd_ignoresHostFields
  | dctInv => exact execDctInv_ignoresHostFields
  | motSearch rs d => exact execMotSearch_ignoresHostFields rs d
  | motBatch rs d => exact execMotBatch_ignoresHostFields rs d
  | serMeta => exact execSerMeta_ignoresHostFields
  | serIntra rs d => exact execSerIntra_ignoresHostFields rs d
  | serFrame rs d => exact execSerFrame_ignoresHostFields rs d
  | serVecs => exact execSerVecs_ignoresHostFields
  | parPeek => exact execParPeek_ignoresHostFields
  | parMeta => exact execParMeta_ignoresHostFields
  | parIntra rs d => exact execParIntra_ignoresHostFields rs d
  | parFrame rs d => exact execParFrame_ignoresHostFields rs d
  | parVecs => exact execParVecs_ignoresHostFields

/-- Settles O23: every command's rule commutes with a change of the host's fields. -/
theorem commandsIgnoreLaterHostWrites : Obligations.CommandsIgnoreLaterHostWrites := by
  unfold Obligations.CommandsIgnoreLaterHostWrites
  intro i s t args b0 b1 b2 b3 h
  exact exec_ignoresHostFields i s t
    { s with args := args, ieDone := b0, ieFault := b1, ieCmdErr := b2, statusCmdErr := b3 } h

end Sys2Proof.Machine
end

section
/-! `RAS.SET` on a raster operand that resolves (spec/20_memory.md R62, spec/40_raster_block.md R102). -/

namespace Sys2Proof.Machine

theorem exec_rasSet (rs : RasterSel) (d : BitVec 4) (s : State) : exec (.rasSet rs d) s = execRasSet rs d s := rfl

/-- R102: inside the raster the command takes neither the fault of its operand nor that of its position. -/
theorem execRasSet_of_inside {s : State} {p : Pend} {rs : RasterSel} {d : BitVec 4} {r : RasterTarget}
    (hp : s.pend = some p) (hr : s.resolveWritable p.cmd rs d = .ok r)
    (hx : u32 (p.arg 0) < r.w) (hy : u32 (p.arg 1) < r.h) :
    execRasSet rs d s
      = .next (s.writeWord (r.base + 4 * (u32 (p.arg 1) * r.w + u32 (p.arg 0))) (p.arg 2)).complete := by
  have inside : ¬ (r.w ≤ u32 (p.arg 0) ∨ r.h ≤ u32 (p.arg 1)) := by omega
  exact State.runCommand_ok hp (by simp only [hr, if_neg inside])

/-- Settles O29: the completion with one word stored at the pixel's address. -/
theorem rasSetStoresPixel : Obligations.RasSetStoresPixel := by
  unfold Obligations.RasSetStoresPixel
  intro s p rs d r hp hr hx hy address
  refine ⟨(s.writeWord address (p.arg 2)).complete, ?_, rfl, ?_, fun a ha => ?_⟩
  · rw [exec_rasSet, execRasSet_of_inside hp hr hx hy]
  · rw [State.complete_wordAt, State.wordAt_writeWord]
  · rw [State.complete_byteAt, State.byteAt_writeWord_outside _ _ _ _ (by omega)]

end Sys2Proof.Machine
end

section
/-! The accesses that the bus refuses, and that nothing else stops the machine (spec/20_memory.md R60, R63, R67, R71,
spec/60_exceptions.md R309, spec/70_reset_and_hazards.md R350). -/

namespace Sys2Proof.Machine

/-! ### The addresses of buffers -/

/-- An address lies in a buffer or raster when a window other than the registers' holds it. -/
theorem inBuffer_iff_window {a : Nat} :
    inBuffer a = true ↔ ∃ w ∈ addressMap, w.region ≠ .registers ∧ w.base ≤ a ∧ a < w.base + w.size := by
  constructor
  · intro h
    cases hg : regionAt a with
    | none => simp [inBuffer, hg] at h
    | some g =>
      obtain ⟨w, hw, rfl, inside⟩ := regionAt_window hg
      exact ⟨w, hw, by simpa [inBuffer, hg] using h, inside⟩
  · rintro ⟨w, hw, hr, h1, h2⟩
    simp [inBuffer, regionAt_of_mem hw h1 h2, hr]

/-- The buffers and rasters of R60 by address, neighbours joined. -/
theorem inBuffer_iff_range {a : Nat} :
    inBuffer a = true ↔ (0x10000 ≤ a ∧ a < 0x18000) ∨ (0x20000 ≤ a ∧ a < 0x20C00) ∨ (0x30000 ≤ a ∧ a < 0x30600)
      ∨ (0x40000 ≤ a ∧ a < 0x80000) ∨ (0x1000000 ≤ a ∧ a < 0x2000000) ∨ (0x4000000 ≤ a ∧ a < 0x10000000) := by
  simp only [inBuffer_iff_window, addressMap, List.exists_mem_cons_iff, List.not_mem_nil, false_and, exists_false,
    ne_eq, reduceCtorEq, not_true_eq_false, not_false_eq_true, true_and, false_or, or_false, blkPixBase, blkIgnBase,
    splYBase, splCbBase, splCrBase, coefYBase, coefCbBase, coefCrBase, vtabBase, strmBase, curBase, auxBase, emapBase,
    Config.vtabN, Config.strmCap, Config.maxDim]
  omega

theorem regionAt_of_inBuffer {a : Nat} (h : inBuffer a = true) : ∃ g, regionAt a = some g ∧ g ≠ .registers := by
  obtain ⟨w, hw, hr, h1, h2⟩ := inBuffer_iff_window.mp h
  exact ⟨w.region, regionAt_of_mem hw h1 h2, hr⟩

/-- Past the registers and outside the buffers and rasters nothing is mapped (R60). -/
theorem regionAt_eq_none {a : Nat} (page : 0x100 ≤ a) (outside : ¬ inBuffer a = true) : regionAt a = none := by
  cases hg : regionAt a with
  | none => rfl
  | some g =>
    have register : g = .registers := by simpa [inBuffer, hg] using outside
    subst register
    exact absurd (lt_of_regionAt_registers hg) (Nat.not_lt.mpr page)

/-! ### The four stops of the bus, and the accesses it serves -/

section
variable {s : State} {a size : Nat} {k : Region → State}

theorem State.grant_of_size (h : size ≠ 4) : s.grant a size k = .refused (.busSize a size) := if_pos h

theorem State.grant_of_misaligned (h : a % 4 ≠ 0) : s.grant a 4 k = .refused (.busMisaligned a) := by
  rw [State.grant, if_neg (not_not.mpr rfl), if_pos h]

theorem State.grant_of_unmapped (ha : a % 4 = 0) (hg : regionAt a = none) :
    s.grant a 4 k = .fault (.unmappedAddress a) := by
  simp only [State.grant, ha, hg, ne_eq, not_true_eq_false, if_false]

theorem State.grant_of_busy {g : Region} (ha : a % 4 = 0) (hg : regionAt a = some g) (hr : g ≠ .registers)
    (busy : s.busy = true) : s.grant a 4 k = .refused (.busBusy a) := by
  have withheld : g ≠ .registers ∧ s.busy = true := ⟨hr, busy⟩
  simp only [State.grant, ha, hg, if_pos withheld, ne_eq, not_true_eq_false, if_false]

/-- The accepted accesses in the terms of `State.grant_of_served`. -/
theorem State.accepts_iff :
    s.accepts a size = true ↔
      size = 4 ∧ a % 4 = 0 ∧ ∃ g, regionAt a = some g ∧ (g = .registers ∨ s.pend = none) := by
  cases hg : regionAt a with
  | none => simp [State.accepts, hg]
  | some g => simp [State.accepts, hg, State.busy, and_assoc]

/-- The bus answers exactly the accesses that it accepts (R67). -/
theorem State.grant_answers_iff : (∃ t, s.grant a size k = .next t) ↔ s.accepts a size = true := by
  rw [State.accepts_iff]
  constructor
  · rintro ⟨t, h⟩
    obtain ⟨hs, ha, g, hg, served, _⟩ := State.grant_next h
    refine ⟨hs, ha, g, hg, or_iff_not_imp_left.mpr fun hr => State.pend_of_busy_eq_false ?_⟩
    simpa [hr] using served
  · rintro ⟨rfl, ha, g, hg, served⟩
    exact ⟨k g, State.grant_of_served ha hg served⟩

end

/-- The bus tests a read and a write alike (R67). -/
theorem step_host_grant {s : State} {a : HostAccess} {rest : List Event} (h : s.agenda = .host a :: rest) :
    ∃ k, step s = State.grant { s with agenda := rest } a.target.1 a.target.2 k := by
  rw [step_host h]
  cases a with
  | read | write => exact ⟨_, rfl⟩

/-- Settles O14: the stops of the bus, with the map's addresses by range. -/
theorem refusedAccessesStop : Obligations.RefusedAccessesStop := by
  unfold Obligations.RefusedAccessesStop
  intro s a rest h address size buffer
  have mapped : inBuffer address = true ↔ buffer := inBuffer_iff_range
  obtain ⟨k, hk⟩ := step_host_grant h
  rw [hk, ← mapped]
  refine ⟨State.grant_of_size, fun hs ha => ?_, fun hs ha page outside => ?_, fun hs ha inside busy => ?_⟩
  all_goals rw [show a.target.2 = 4 from hs]
  · exact State.grant_of_misaligned ha
  · exact State.grant_of_unmapped ha (regionAt_eq_none page outside)
  · obtain ⟨g, hg, hr⟩ := regionAt_of_inBuffer inside
    exact State.grant_of_busy ha hg hr busy

/-! ### Where the machine stops -/

/-- R309: the engine's completion always answers a next state. -/
theorem State.completion_answers (s : State) : ∃ t, s.completion = .next t := by
  rcases s.completion_cases with ⟨_, idle⟩ | ⟨p, i, hp, _, command⟩ | ⟨p, e, _, _, illegal⟩
  · exact ⟨_, idle⟩
  · rw [command]
    rcases commandFaultsOrCompletes i s p hp with ⟨_, _, _, _, faults⟩ | ⟨t, completes, _⟩
    · exact ⟨_, faults⟩
    · exact ⟨t, completes⟩
  · exact ⟨_, illegal⟩

theorem State.nextRefused_of_host {s : State} {a : HostAccess} {rest : List Event} (h : s.agenda = .host a :: rest) :
    s.nextRefused = !s.accepts a.target.1 a.target.2 := by
  simp only [State.nextRefused, h]

/-- Only a host access can be refused. -/
theorem State.nextRefused_of_engineNext {s : State} (h : s.engineNext = true) : s.nextRefused = false := by
  unfold State.engineNext at h
  split at h
  · next he => simp only [State.nextRefused, he]
  · next he => simp only [State.nextRefused, he]
  · cases h

/-- The engine's turn always has a next state, whatever command is in flight. -/
theorem step_answers_of_engineNext {s : State} (h : s.engineNext = true) : ∃ t, step s = .next t := by
  rw [step_engine h]
  exact s.popped.completion_answers

/-- Settles O16: by the agent whose move is next; only the bus can withhold one. -/
theorem stepStopsExactlyWhenBusRefuses : Obligations.StepStopsExactlyWhenBusRefuses := by
  unfold Obligations.StepStopsExactlyWhenBusRefuses
  intro s
  have engine (h : s.engineNext = true) : (∃ t, step s = .next t) ↔ s.nextRefused = false :=
    iff_of_true (step_answers_of_engineNext h) (State.nextRefused_of_engineNext h)
  cases he : s.agenda with
  | nil => exact engine (by simp only [State.engineNext, he])
  | cons e rest =>
    cases e with
    | host a =>
      obtain ⟨k, hk⟩ := step_host_grant he
      rw [hk, State.grant_answers_iff, State.nextRefused_of_host he, Bool.not_eq_false']
      rfl
    | completion => exact engine (by simp only [State.engineNext, he])
    | hardReset =>
      refine iff_of_true ⟨State.hardReset { s with agenda := rest }, ?_⟩ (by simp only [State.nextRefused, he])
      simp only [step, State.turn, he, State.move]

end Sys2Proof.Machine
end

section
/-! Command words (spec/30_encoding.md R80 to R90): the decoder and the encoder are inverse to each other. -/

namespace Sys2Proof

/-! ### Selectors -/

/-- Every code names one selector (R81). -/
theorem RasterSel.ofBits_cases : ∀ code : BitVec 4,
    (code.toNat = 0 ∧ RasterSel.ofBits code = .cur) ∨ (code.toNat = 1 ∧ RasterSel.ofBits code = .aux)
      ∨ (code.toNat = 2 ∧ RasterSel.ofBits code = .ref)
      ∨ (3 ≤ code.toNat ∧ RasterSel.ofBits code = .reserved code) := by
  decide

theorem RasterSel.toBits_ofBits : ∀ code : BitVec 4, (RasterSel.ofBits code).toBits = code := by
  decide

theorem RasterSel.wf_ofBits : ∀ code : BitVec 4, (RasterSel.ofBits code).wf = true := by
  decide

theorem RasterSel.ofBits_toBits {rs : RasterSel} (h : rs.wf = true) : RasterSel.ofBits rs.toBits = rs := by
  cases rs with
  | cur | aux | ref => rfl
  | reserved code =>
    have high : 3 ≤ code.toNat := of_decide_eq_true h
    rcases RasterSel.ofBits_cases code with ⟨low, _⟩ | ⟨low, _⟩ | ⟨low, _⟩ | ⟨_, reserved⟩
    · omega
    · omega
    · omega
    · exact reserved

/-! ### The fields of a word -/

/-- A word whose reserved field is 0 is made of its other three fields (R81). -/
theorem eq_formatC {w : Word} (h : w.extractLsb' 0 16 = 0) :
    w = formatC (w.extractLsb' 24 8) (w.extractLsb' 20 4) (w.extractLsb' 16 4) := by
  have join {start next len₁ len₂ : Nat} (h : next = start + len₁) :
      w.extractLsb' next len₂ ++ w.extractLsb' start len₁ = w.extractLsb' start (len₂ + len₁) :=
    BitVec.extractLsb'_append_extractLsb'_eq_extractLsb' h
  calc w
    _ = w.extractLsb' 24 8 ++ w.extractLsb' 20 4 ++ w.extractLsb' 16 4 ++ w.extractLsb' 0 16 := by
      rw [join (start := 20) (len₁ := 4) rfl, join (start := 16) (len₁ := 4) rfl, join (start := 0) (len₁ := 16) rfl]
      exact BitVec.extractLsb'_eq_self.symm
    _ = _ := by rw [h]; rfl

/-- The test of R82 (3) on eight bits is the one on `rs` and on `d`. -/
theorem operands_eq_zero_iff (w : Word) :
    w.extractLsb' 16 8 = 0 ↔ w.extractLsb' 20 4 = 0 ∧ w.extractLsb' 16 4 = 0 := by
  have fields : w.extractLsb' 20 4 ++ w.extractLsb' 16 4 = w.extractLsb' 16 8 :=
    BitVec.extractLsb'_append_extractLsb'_eq_extractLsb' rfl
  have zero : ∀ a b : BitVec 4, (a ++ b : BitVec 8) = 0 ↔ a = 0 ∧ b = 0 := by decide
  rw [← fields]
  exact zero _ _

/-! ### The decoder, by the row of the table -/

section
variable {w : Word} {i : Instr} {build : RasterSel → BitVec 4 → Instr}

theorem decode_of_unknown (h : decodeRow (w.extractLsb' 24 8).toNat = none) : decode w = .error .illegalCommand := by
  simp only [decode, h]

theorem decode_of_reserved {row : DecodeRow} (h : decodeRow (w.extractLsb' 24 8).toNat = some row)
    (hz : w.extractLsb' 0 16 ≠ 0) : decode w = .error .illegalOperand := by
  simp only [decode, h, if_neg hz]

theorem decode_plain (h : decodeRow (w.extractLsb' 24 8).toNat = some (.plain i)) (hz : w.extractLsb' 0 16 = 0) :
    decode w = if w.extractLsb' 16 8 = 0 then .ok i else .error .illegalOperand := by
  simp only [decode, h, if_pos hz]

theorem decode_raster (h : decodeRow (w.extractLsb' 24 8).toNat = some (.raster build)) (hz : w.extractLsb' 0 16 = 0) :
    decode w = .ok (build (RasterSel.ofBits (w.extractLsb' 20 4)) (w.extractLsb' 16 4)) := by
  simp only [decode, h, if_pos hz]

/-- Everything a word that decodes can be. -/
theorem decode_ok (h : decode w = .ok i) :
    w.extractLsb' 0 16 = 0
      ∧ ((∃ build, decodeRow (w.extractLsb' 24 8).toNat = some (.raster build)
            ∧ i = build (RasterSel.ofBits (w.extractLsb' 20 4)) (w.extractLsb' 16 4))
        ∨ (decodeRow (w.extractLsb' 24 8).toNat = some (.plain i) ∧ w.extractLsb' 20 4 = 0 ∧ w.extractLsb' 16 4 = 0)) := by
  cases hr : decodeRow (w.extractLsb' 24 8).toNat with
  | none => rw [decode_of_unknown hr] at h; cases h
  | some row =>
    by_cases hz : w.extractLsb' 0 16 = 0
    · cases row with
      | raster build => rw [decode_raster hr hz] at h; cases h; exact ⟨hz, .inl ⟨build, rfl, rfl⟩⟩
      | plain j =>
        rw [decode_plain hr hz] at h
        split at h
        · next operands => cases h; exact ⟨hz, .inr ⟨rfl, (operands_eq_zero_iff w).mp operands⟩⟩
        · cases h
    · rw [decode_of_reserved hr hz] at h; cases h

end

/-! ### Both ways round -/

theorem decode_formatC_plain {opc : BitVec 8} {i : Instr} (h : decodeRow opc.toNat = some (.plain i)) :
    decode (formatC opc 0 0) = .ok i := by
  rw [← formatC_opc opc 0 0] at h
  rw [decode_plain h (formatC_zero opc 0 0)]
  exact if_pos ((operands_eq_zero_iff _).mpr ⟨formatC_rs opc 0 0, formatC_d opc 0 0⟩)

theorem decode_formatC_raster {opc : BitVec 8} {build : RasterSel → BitVec 4 → Instr}
    (h : decodeRow opc.toNat = some (.raster build)) {rs : RasterSel} (hw : rs.wf = true) (d : BitVec 4) :
    decode (formatC opc rs.toBits d) = .ok (build rs d) := by
  rw [← formatC_opc opc rs.toBits d] at h
  rw [decode_raster h (formatC_zero opc rs.toBits d), formatC_rs, formatC_d, RasterSel.ofBits_toBits hw]

/-- Settles O1: by the row of each command. -/
theorem decodeReadsEncodedWord : Obligations.DecodeReadsEncodedWord := by
  unfold Obligations.DecodeReadsEncodedWord
  intro i hw
  cases i with
  | rasGet rs d | rasSet rs d | blkLd rs d | blkSt rs d | sobPix rs d | sobMap rs d | motSearch rs d | motBatch rs d
  | serIntra rs d | serFrame rs d | parIntra rs d | parFrame rs d => exact decode_formatC_raster rfl hw d
  | refPush | refReset | colRgb2Ycc | colYcc2Rgb | colGray | colBlk2Ycc | colBlk2Rgb | sobBlkFlag | dctFwd | dctInv
  | serMeta | serVecs | parPeek | parMeta | parVecs => exact decode_formatC_plain rfl

/-- The commands of a row are encoded with its operation code and the codes of their operands, and are as well formed as
their selector. -/
def DecodeRow.Encodes (opc : BitVec 8) : DecodeRow → Prop
  | .plain i => encode i = formatC opc 0 0 ∧ i.wf = true
  | .raster build => ∀ rs d, encode (build rs d) = formatC opc rs.toBits d ∧ (build rs d).wf = rs.wf

/-- The encoder follows the table by which the decoder reads (R84). -/
theorem decodeRow_encodes {n : Nat} {row : DecodeRow} (h : decodeRow n = some row) : row.Encodes (BitVec.ofNat 8 n) := by
  unfold decodeRow at h
  split at h
  all_goals cases h
  all_goals simp [DecodeRow.Encodes, encode, Instr.wf]

/-- Settles O2: the word is made of the fields from which its row builds the command. -/
theorem encodeWritesDecodedWord : Obligations.EncodeWritesDecodedWord := by
  unfold Obligations.EncodeWritesDecodedWord
  intro w i h
  obtain ⟨reserved, ⟨build, hr, rfl⟩ | ⟨hr, hrs, hd⟩⟩ := decode_ok h
  · obtain ⟨word, wf⟩ := decodeRow_encodes hr (RasterSel.ofBits (w.extractLsb' 20 4)) (w.extractLsb' 16 4)
    rw [word, wf, RasterSel.toBits_ofBits, BitVec.ofNat_toNat, BitVec.setWidth_eq]
    exact ⟨(eq_formatC reserved).symm, RasterSel.wf_ofBits _⟩
  · obtain ⟨word, wf⟩ := decodeRow_encodes hr
    have fields := eq_formatC reserved
    rw [hrs, hd] at fields
    rw [word, BitVec.ofNat_toNat, BitVec.setWidth_eq]
    exact ⟨fields.symm, wf⟩

/-- Settles O3: each word is the encoding of its command. -/
theorem sampleWordsDecode : Obligations.SampleWordsDecode :=
  ⟨decodeReadsEncodedWord (.rasGet .ref 3) rfl, decodeReadsEncodedWord (.blkSt .aux 0) rfl,
    decodeReadsEncodedWord .colBlk2Rgb rfl, decodeReadsEncodedWord .sobBlkFlag rfl, decodeReadsEncodedWord .dctFwd rfl,
    decodeReadsEncodedWord (.motBatch .ref 1) rfl, decodeReadsEncodedWord .serVecs rfl,
    decodeReadsEncodedWord (.parFrame .aux 0) rfl⟩

end Sys2Proof
end

section
/-! The faults of a word that is no legal command (spec/30_encoding.md R82, R87). -/

namespace Sys2Proof

/-! ### The operation codes of R84, by raster column -/

/-- The rows without a raster operand. -/
def plainCodes : List Nat := [0x14, 0x15, 0x20, 0x21, 0x22, 0x23, 0x24, 0x32, 0x40, 0x41, 0x60, 0x63, 0x68, 0x69, 0x6C]

/-- The rows that read any raster. -/
def anyCodes : List Nat := [0x10, 0x12, 0x30, 0x31, 0x61, 0x62]

/-- The rows that write a raster. -/
def writableCodes : List Nat := [0x11, 0x13, 0x6A, 0x6B]

/-- The rows that search a reference. -/
def referenceCodes : List Nat := [0x50, 0x51]

/-- The table has no other row. -/
theorem decodeRow_eq_none {n : Nat} (h : n ∉ plainCodes ++ anyCodes ++ writableCodes ++ referenceCodes) :
    decodeRow n = none := by
  unfold decodeRow
  split
  case h_28 => rfl
  all_goals exact absurd (by decide) h

theorem decodeRow_isSome :
    ∀ n ∈ plainCodes ++ anyCodes ++ writableCodes ++ referenceCodes, (decodeRow n).isSome = true := by
  decide

theorem decodeRow_plainCodes : ∀ n ∈ plainCodes, ∃ i, decodeRow n = some (.plain i) := by
  intro n hn
  fin_cases hn
  all_goals exact ⟨_, rfl⟩

end Sys2Proof

namespace Sys2Proof.Machine

/-- The commands of a row take the fault with which their raster operand does not resolve. -/
def TakesOperandFault {α : Type} (resolve : State → Word → RasterSel → BitVec 4 → Except EngineFault α)
    (build : RasterSel → BitVec 4 → Instr) : Prop :=
  ∀ (s : State) (p : Pend) (rs : RasterSel) (d : BitVec 4) (f : EngineFault), s.pend = some p →
    resolve s p.cmd rs d = .error f → exec (build rs d) s = .next (s.takeFault f)

theorem decodeRow_anyCodes :
    ∀ n ∈ anyCodes, ∃ build, decodeRow n = some (.raster build) ∧ TakesOperandFault State.resolveRaster build := by
  intro n hn
  fin_cases hn
  all_goals exact ⟨_, rfl, fun _ _ _ _ _ hp hf => exec_resolveRaster_error hp hf _ (by simp)⟩

theorem decodeRow_writableCodes :
    ∀ n ∈ writableCodes, ∃ build, decodeRow n = some (.raster build) ∧ TakesOperandFault State.resolveWritable build := by
  intro n hn
  fin_cases hn
  all_goals exact ⟨_, rfl, fun _ _ _ _ _ hp hf => exec_resolveWritable_error hp hf _ (by simp)⟩

theorem decodeRow_referenceCodes :
    ∀ n ∈ referenceCodes, ∃ build, decodeRow n = some (.raster build) ∧ TakesOperandFault State.resolveRef build := by
  intro n hn
  fin_cases hn
  all_goals exact ⟨_, rfl, fun _ _ _ _ _ hp hf => State.runCommand_error hp (by simp only [hf])⟩

/-! ### Operands that do not resolve -/

/-- The fields `rs` and `d` name a host-addressable raster (R40). -/
abbrev NamesFrame (rs d : BitVec 4) : Prop := rs.toNat ≤ 1 ∧ d.toNat = 0

/-- The fields `rs` and `d` name an entry of the reference window (R40). -/
abbrev State.NamesReference (s : State) (rs d : BitVec 4) : Prop :=
  rs.toNat = 2 ∧ 1 ≤ d.toNat ∧ d.toNat ≤ s.refs.length

section
variable {s : State} {cmd : Word} {rs d : BitVec 4}

theorem State.resolveRaster_illegal (h : ¬ (NamesFrame rs d ∨ s.NamesReference rs d)) :
    s.resolveRaster cmd (RasterSel.ofBits rs) d = .error ⟨.illegalOperand, cmd⟩ := by
  have zero : d = 0 ↔ d.toNat = 0 := BitVec.toNat_eq
  rcases RasterSel.ofBits_cases rs with ⟨code, sel⟩ | ⟨code, sel⟩ | ⟨code, sel⟩ | ⟨_, sel⟩
  · rw [sel, State.resolveRaster_frame (.inl ⟨rfl, rfl⟩), if_pos (by rw [Ne, zero]; omega)]
  · rw [sel, State.resolveRaster_frame (.inr ⟨rfl, rfl⟩), if_pos (by rw [Ne, zero]; omega)]
  · rw [sel, State.resolveRaster_ref_outside (by rw [zero]; omega)]
  · rw [sel]; rfl

theorem State.resolveWritable_illegal (h : ¬ NamesFrame rs d) :
    s.resolveWritable cmd (RasterSel.ofBits rs) d = .error ⟨.illegalOperand, cmd⟩ := by
  have zero : d = 0 ↔ d.toNat = 0 := BitVec.toNat_eq
  rcases RasterSel.ofBits_cases rs with ⟨code, sel⟩ | ⟨code, sel⟩ | ⟨_, sel⟩ | ⟨_, sel⟩
  · rw [sel, State.resolveWritable_frame (.inl ⟨rfl, rfl⟩), if_pos (by rw [Ne, zero]; omega)]
  · rw [sel, State.resolveWritable_frame (.inr ⟨rfl, rfl⟩), if_pos (by rw [Ne, zero]; omega)]
  · rw [sel]; rfl
  · rw [sel]; rfl

theorem State.resolveRef_illegal (h : ¬ s.NamesReference rs d) :
    s.resolveRef cmd (RasterSel.ofBits rs) d = .error ⟨.illegalOperand, cmd⟩ := by
  rcases RasterSel.ofBits_cases rs with ⟨_, sel⟩ | ⟨_, sel⟩ | ⟨code, sel⟩ | ⟨_, sel⟩
  · rw [sel]; rfl
  · rw [sel]; rfl
  · have outside : ¬ (NamesFrame rs d ∨ s.NamesReference rs d) := by omega
    have refused := State.resolveRaster_illegal (cmd := cmd) outside
    rw [sel] at refused ⊢
    exact refused
  · rw [sel]; rfl

end

/-! ### The engine's move on such a word -/

section
variable {s : State} {p : Pend} (hp : s.pend = some p)
include hp

theorem State.completion_of_decode_error {e : DecodeError} (hd : decode p.cmd = .error e) :
    s.completion = .next (s.takeFault (decodeFault e p.cmd)) := by
  simp only [State.completion, State.fetch, hp, Option.map_some, hd]

theorem State.completion_of_decode_ok {i : Instr} (hd : decode p.cmd = .ok i) : s.completion = exec i s := by
  simp only [State.completion, State.fetch, hp, Option.map_some, hd]

/-- R82 (2), whatever the row. -/
theorem State.completion_of_reserved {row : DecodeRow} (hr : decodeRow (p.cmd.extractLsb' 24 8).toNat = some row)
    (hz : p.cmd.extractLsb' 0 16 ≠ 0) : s.completion = .next (s.takeFault ⟨.illegalOperand, p.cmd⟩) :=
  State.completion_of_decode_error hp (decode_of_reserved hr hz)

/-- R82 (3): a row without a raster operand. -/
theorem State.completion_of_plain {i : Instr} (hr : decodeRow (p.cmd.extractLsb' 24 8).toNat = some (.plain i))
    (hf : ¬ (p.cmd.extractLsb' 20 4 = 0 ∧ p.cmd.extractLsb' 16 4 = 0)) :
    s.completion = .next (s.takeFault ⟨.illegalOperand, p.cmd⟩) := by
  by_cases hz : p.cmd.extractLsb' 0 16 = 0
  · have illegal : decode p.cmd = .error .illegalOperand := by
      rw [decode_plain hr hz, if_neg (mt (operands_eq_zero_iff p.cmd).mp hf)]
    exact State.completion_of_decode_error hp illegal
  · exact State.completion_of_reserved hp hr hz

/-- R82 (3): a row whose raster operand does not resolve. -/
theorem State.completion_of_raster {α : Type} {resolve : State → Word → RasterSel → BitVec 4 → Except EngineFault α}
    {build : RasterSel → BitVec 4 → Instr}
    (hr : decodeRow (p.cmd.extractLsb' 24 8).toNat = some (.raster build) ∧ TakesOperandFault resolve build)
    (hf : resolve s p.cmd (RasterSel.ofBits (p.cmd.extractLsb' 20 4)) (p.cmd.extractLsb' 16 4)
      = .error ⟨.illegalOperand, p.cmd⟩) :
    s.completion = .next (s.takeFault ⟨.illegalOperand, p.cmd⟩) := by
  obtain ⟨row, faults⟩ := hr
  by_cases hz : p.cmd.extractLsb' 0 16 = 0
  · rw [State.completion_of_decode_ok hp (decode_raster row hz)]
    exact faults s p _ _ _ hp hf
  · exact State.completion_of_reserved hp row hz

end

/-- Settles O4: the fault by the raster column of the word's row. -/
theorem illegalWordTakesItsFault : Obligations.IllegalWordTakesItsFault := by
  unfold Obligations.IllegalWordTakesItsFault
  intro s p engine hp opc rs d plain any writable reference known inFrame inWindow
  have hp' : s.popped.pend = some p := hp
  rw [step_engine engine]
  refine ⟨fun unknown => ?_, fun row illegal => ?_⟩
  · exact State.completion_of_decode_error hp' (decode_of_unknown (decodeRow_eq_none unknown))
  · change s.popped.completion = .next (s.popped.takeFault ⟨.illegalOperand, p.cmd⟩)
    rcases illegal with hz | ⟨hc, hf⟩ | ⟨hc, hf⟩ | ⟨hc, hf⟩ | ⟨hc, hf⟩
    · obtain ⟨_, hr⟩ := Option.isSome_iff_exists.mp (decodeRow_isSome opc row)
      exact State.completion_of_reserved hp' hr hz
    · obtain ⟨i, hr⟩ := decodeRow_plainCodes opc hc
      refine State.completion_of_plain hp' hr fun ⟨noRaster, noDrawback⟩ => ?_
      exact hf.elim (· (congrArg BitVec.toNat noRaster)) (· (congrArg BitVec.toNat noDrawback))
    · obtain ⟨build, hr⟩ := decodeRow_anyCodes opc hc
      exact State.completion_of_raster hp' hr (State.resolveRaster_illegal hf)
    · obtain ⟨build, hr⟩ := decodeRow_writableCodes opc hc
      exact State.completion_of_raster hp' hr (State.resolveWritable_illegal hf)
    · obtain ⟨build, hr⟩ := decodeRow_referenceCodes opc hc
      exact State.completion_of_raster hp' hr (State.resolveRef_illegal hf)

end Sys2Proof.Machine
end

section
/-! The model's own fields (logs 1, 9): no command reads or writes the moves to come or the word of the latest read. -/

namespace Sys2Proof.Machine

/-- `s` with other moves to come and another word read. -/
def State.withModelFields (s : State) (moves : List Event) (word : Option Word) : State :=
  { s with agenda := moves, lastRead := word }

/-- A completion commutes with a change of the model's own fields. -/
def IgnoresModelFields (run : State → Host.Outcome State Fault Refusal) : Prop :=
  ∀ s t moves word, run s = .next t → run (s.withModelFields moves word) = .next (t.withModelFields moves word)

/-- It does when the command's rule does, for every command latched at issue. -/
theorem ignoresModelFields_of_body {body : State → Pend → Except EngineFault State}
    (h : ∀ s p moves word, body (s.withModelFields moves word) p = (body s p).map (·.withModelFields moves word)) :
    IgnoresModelFields fun s => s.runCommand (body s) := by
  intro s t moves word hs
  obtain ⟨p, hp, ⟨u, hu, rfl⟩ | ⟨f, hf, rfl⟩⟩ := State.runCommand_next hs
  · have ok : body (s.withModelFields moves word) p = .ok (u.withModelFields moves word) := by rw [h, hu]; rfl
    exact State.runCommand_ok (s := s.withModelFields moves word) hp ok
  · have error : body (s.withModelFields moves word) p = .error f := by rw [h, hf]; rfl
    exact State.runCommand_error (s := s.withModelFields moves word) hp error

/-! ### What a command reads and writes -/

namespace State

variable (s : State) (moves : List Event) (word : Option Word)

@[simp] theorem withModelFields_blkPosX : (s.withModelFields moves word).blkPosX = s.blkPosX := rfl
@[simp] theorem withModelFields_blkPosY : (s.withModelFields moves word).blkPosY = s.blkPosY := rfl
@[simp] theorem withModelFields_blkSize : (s.withModelFields moves word).blkSize = s.blkSize := rfl
@[simp] theorem withModelFields_splSize : (s.withModelFields moves word).splSize = s.splSize := rfl
@[simp] theorem withModelFields_coefSize : (s.withModelFields moves word).coefSize = s.coefSize := rfl
@[simp] theorem withModelFields_emapW : (s.withModelFields moves word).emapW = s.emapW := rfl
@[simp] theorem withModelFields_emapH : (s.withModelFields moves word).emapH = s.emapH := rfl
@[simp] theorem withModelFields_blkIgn : (s.withModelFields moves word).blkIgn = s.blkIgn := rfl
@[simp] theorem withModelFields_heldBlock (n : Nat) : (s.withModelFields moves word).heldBlock n = s.heldBlock n := rfl
@[simp] theorem withModelFields_plane (b n : Nat) : (s.withModelFields moves word).plane b n = s.plane b n := rfl
@[simp] theorem withModelFields_entryFault : (s.withModelFields moves word).entryFault = s.entryFault := rfl
@[simp] theorem withModelFields_windowFault : (s.withModelFields moves word).windowFault = s.windowFault := rfl
@[simp] theorem withModelFields_pointerFault : (s.withModelFields moves word).pointerFault = s.pointerFault := rfl
@[simp] theorem withModelFields_unread : (s.withModelFields moves word).unread = s.unread := rfl

@[simp] theorem withModelFields_resolveRaster (w : Word) (rs : RasterSel) (d : BitVec 4) :
    (s.withModelFields moves word).resolveRaster w rs d = s.resolveRaster w rs d := by cases rs <;> rfl

@[simp] theorem withModelFields_resolveWritable (w : Word) (rs : RasterSel) (d : BitVec 4) :
    (s.withModelFields moves word).resolveWritable w rs d = s.resolveWritable w rs d := by cases rs <;> rfl

@[simp] theorem withModelFields_resolveRef (w : Word) (rs : RasterSel) (d : BitVec 4) :
    (s.withModelFields moves word).resolveRef w rs d = s.resolveRef w rs d := by cases rs <;> rfl

/-- Three planes stored, and the size of `COEF`. -/
theorem withModelFields_storeCoefs (a b e : Nat) (ys bs es : List Word) (n : BitVec 8) :
    { (((s.withModelFields moves word).writeWords a ys).writeWords b bs).writeWords e es with coefSize := n }
      = State.withModelFields { ((s.writeWords a ys).writeWords b bs).writeWords e es with coefSize := n } moves word := rfl

/-- Three planes stored, and the size of `SPL`. -/
theorem withModelFields_storeSamples (a b e : Nat) (ys bs es : List Word) (n : BitVec 8) :
    { (((s.withModelFields moves word).writeWords a ys).writeWords b bs).writeWords e es with splSize := n }
      = State.withModelFields { ((s.writeWords a ys).writeWords b bs).writeWords e es with splSize := n } moves word := rfl

theorem withModelFields_storeCells (t : RasterTarget) (x y : Nat) (cells : List BlockCell) :
    (s.withModelFields moves word).storeCells t x y cells = (s.storeCells t x y cells).withModelFields moves word := by
  unfold State.storeCells
  rw [List.foldl_hom (fun u : State => u.withModelFields moves word)]
  intro u q
  cases q.ignored <;> rfl

theorem withModelFields_writeRecords (ref : RasterView) (d : BitVec 4) (n : Nat) :
    (s.withModelFields moves word).writeRecords ref d n = (s.writeRecords ref d n).withModelFields moves word := by
  unfold State.writeRecords
  rw [List.foldl_hom (fun u : State => u.withModelFields moves word)]
  intro u e
  rfl

theorem withModelFields_storeGroups (e : Nat) (gs : List VecGroup) :
    (s.withModelFields moves word).storeGroups e gs = (s.storeGroups e gs).withModelFields moves word := by
  induction gs generalizing s e with
  | nil => rfl
  | cons g gs ih => exact ih (s.writeWords (vtabBase + 64 * e) (groupEntry g)) (e + 1)

theorem withModelFields_append (bs : List Byte) :
    (s.withModelFields moves word).append bs = (s.append bs).map (·.withModelFields moves word) :=
  ite_eq_map Iff.rfl rfl rfl

theorem withModelFields_storePixels (t : RasterTarget) (runs : List (Word × Nat)) (rest : List Byte) :
    (s.withModelFields moves word).storePixels t runs rest
      = (s.storePixels t runs rest).map (·.withModelFields moves word) :=
  ite_eq_map Iff.rfl rfl rfl

end State

/-! ### Each command

The tests of a rule read the same in both states, so both take the same branch; there the writes commute. Rules that test the
frame's dimensions, and those of the transform, have a lemma of their own. -/

theorem execSobBlkFlag_ignoresModelFields : IgnoresModelFields execSobBlkFlag := by
  refine ignoresModelFields_of_body fun s p moves word => ?_
  simp only [State.withModelFields_blkSize, State.withModelFields_emapW, State.withModelFields_emapH,
    State.withModelFields_heldBlock, State.withModelFields_blkPosX, State.withModelFields_blkPosY]
  split
  · rfl
  · refine ite_eq_map Iff.rfl rfl ?_
    split
    all_goals rfl

theorem execMotSearch_ignoresModelFields (rs : RasterSel) (d : BitVec 4) : IgnoresModelFields (execMotSearch rs d) := by
  refine ignoresModelFields_of_body fun s p moves word => ?_
  simp only [State.withModelFields_resolveRef, State.withModelFields_blkSize, State.withModelFields_heldBlock,
    State.withModelFields_blkPosX, State.withModelFields_blkPosY]
  split
  · rfl
  · refine ite_eq_map Iff.rfl rfl ?_
    split
    · rfl
    · refine ite_eq_map Iff.rfl rfl ?_
      split
      all_goals rfl

theorem execMotBatch_ignoresModelFields (rs : RasterSel) (d : BitVec 4) : IgnoresModelFields (execMotBatch rs d) := by
  refine ignoresModelFields_of_body fun s p moves word => ?_
  simp only [State.withModelFields_resolveRef, State.withModelFields_entryFault, State.withModelFields_writeRecords]
  split
  · rfl
  · refine ite_eq_map Iff.rfl rfl (ite_eq_map Iff.rfl rfl (ite_eq_map Iff.rfl rfl ?_))
    split
    all_goals rfl

theorem execParFrame_ignoresModelFields (rs : RasterSel) (d : BitVec 4) : IgnoresModelFields (execParFrame rs d) := by
  refine ignoresModelFields_of_body fun s p moves word => ?_
  simp only [State.withModelFields_resolveWritable, State.withModelFields_pointerFault, State.withModelFields_unread,
    State.withModelFields_storePixels]
  split
  · rfl
  · next t _ =>
    split
    · rfl
    · split
      · rfl
      · split
        · rfl
        · next runs rest _ => cases s.storePixels t runs rest <;> rfl

theorem execDctFwd_ignoresModelFields : IgnoresModelFields execDctFwd := by
  refine ignoresModelFields_of_body fun s p moves word => ?_
  rw [State.withModelFields_splSize]
  split
  · rfl
  · dsimp only
    simp only [State.withModelFields_plane]
    split
    · rfl
    · exact congrArg Except.ok (s.withModelFields_storeCoefs moves word _ _ _ _ _ _ _)

theorem execDctInv_ignoresModelFields : IgnoresModelFields execDctInv := by
  refine ignoresModelFields_of_body fun s p moves word => ?_
  rw [State.withModelFields_coefSize]
  split
  · rfl
  · dsimp only
    simp only [State.withModelFields_plane]
    split
    · rfl
    · exact congrArg Except.ok (s.withModelFields_storeSamples moves word _ _ _ _ _ _ _)

theorem exec_ignoresModelFields (i : Instr) : IgnoresModelFields (exec i) := by
  cases i with
  | colRgb2Ycc | colYcc2Rgb | colGray => exact ignoresModelFields_of_body (body := fun s p => .ok _) fun _ _ _ _ => rfl
  | sobBlkFlag => exact execSobBlkFlag_ignoresModelFields
  | dctFwd => exact execDctFwd_ignoresModelFields
  | dctInv => exact execDctInv_ignoresModelFields
  | motSearch rs d => exact execMotSearch_ignoresModelFields rs d
  | motBatch rs d => exact execMotBatch_ignoresModelFields rs d
  | parFrame rs d => exact execParFrame_ignoresModelFields rs d
  | serMeta | serVecs =>
    refine ignoresModelFields_of_body fun s p moves word => ?_
    simp only [State.withModelFields_pointerFault]
    split
    · rfl
    · exact ite_eq_map Iff.rfl rfl (s.withModelFields_append moves word _)
  | rasGet | rasSet | blkLd | blkSt | refPush | refReset | colBlk2Ycc | colBlk2Rgb | sobPix | sobMap | serIntra | serFrame
  | parPeek | parMeta | parIntra | parVecs =>
    refine ignoresModelFields_of_body fun s p moves word => ?_
    simp only [State.withModelFields_resolveRaster, State.withModelFields_resolveWritable, State.withModelFields_windowFault,
      State.withModelFields_pointerFault, State.withModelFields_blkPosX, State.withModelFields_blkPosY,
      State.withModelFields_blkSize, State.withModelFields_splSize, State.withModelFields_blkIgn,
      State.withModelFields_heldBlock, State.withModelFields_unread, State.withModelFields_storeCells,
      State.withModelFields_storeGroups, State.withModelFields_append, State.withModelFields_storePixels]
    repeat' split
    all_goals rfl

end Sys2Proof.Machine
end

section
/-! Executions of a program as runs of the machine (spec/30_encoding.md R92). -/

namespace Sys2Proof.Machine

/-! ### Other moves to come

Each agent's move does the same whatever moves are to come after it (log 1). -/

/-- `s` with other moves to come. -/
def State.withAgenda (s : State) (moves : List Event) : State := { s with agenda := moves }

/-- `s` with another word read (log 9). -/
def State.withLastRead (s : State) (word : Option Word) : State := { s with lastRead := word }

theorem State.withAgenda_nil {s : State} (h : s.agenda = []) : s.withAgenda [] = s := by
  rw [State.withAgenda, ← h]

theorem State.writeReg_withAgenda (s : State) (moves : List Event) (g : Reg) (v : Word) :
    (s.withAgenda moves).writeReg g v = (s.writeReg g v).withAgenda moves := by
  have idle (t u : State) (h : u = t.withAgenda moves) : (s.withAgenda moves).whenIdle u = (s.whenIdle t).withAgenda moves := by
    rw [h]; exact (apply_ite (fun u : State => u.withAgenda moves) (s.busy = true) s.commandError t).symm
  cases g with
  | id | faultCode | faultInfo | refCnt | emapDim | r | a => rfl
  | ctrl =>
    cases hv : v.getLsbD 0 with
    | false => rw [State.writeReg_ctrl_enables hv, State.writeReg_ctrl_enables hv]; rfl
    | true => rw [State.writeReg_ctrl_softReset hv, State.writeReg_ctrl_softReset hv]; rfl
  | status => simp only [State.writeReg, State.writeStatus_eq]; rfl
  | cmd =>
    exact (apply_ite (fun u : State => u.withAgenda moves) ((s.busy || s.statusFault) = true) s.commandError
      { s with pend := some ⟨v, s.args⟩, cmd := v, statusDone := false }).symm
  | frameW | frameH | refCap | madTol | edgeThr | blkPosX | blkPosY | blkSz | splSz | coefSz | sLen | rPtr => exact idle _ _ rfl

theorem State.writeWordAt_withAgenda (s : State) (moves : List Event) (g : Region) (a : Nat) (v : Word) :
    (s.withAgenda moves).writeWordAt g a v = (s.writeWordAt g a v).withAgenda moves := by
  by_cases hg : g = .registers
  · simp only [State.writeWordAt, if_pos hg]
    cases regAt a with
    | none => rfl
    | some reg => exact s.writeReg_withAgenda moves reg v
  · rw [State.writeWordAt_buffer hg, State.writeWordAt_buffer hg]; rfl

theorem State.readWordAt_withAgenda (s : State) (moves : List Event) (g : Region) (a : Nat) :
    (s.withAgenda moves).readWordAt g a = s.readWordAt g a := by
  by_cases hg : g = .registers
  · simp only [State.readWordAt, if_pos hg]
    cases regAt a with
    | none => rfl
    | some reg => cases reg <;> rfl
  · simp only [State.readWordAt, if_neg hg]; rfl

/-- The bus serves the same accesses whatever moves are to come. -/
theorem State.grant_withAgenda {s t : State} {a size : Nat} {k k' : Region → State} (moves : List Event)
    (hk : ∀ g, k' g = (k g).withAgenda moves) (h : s.grant a size k = .next t) :
    (s.withAgenda moves).grant a size k' = .next (t.withAgenda moves) := by
  obtain ⟨rfl, ha, g, hg, served, rfl⟩ := State.grant_next h
  have free : g = .registers ∨ s.pend = none :=
    or_iff_not_imp_left.mpr fun hr => State.pend_of_busy_eq_false (by simpa [hr] using served)
  rw [State.grant_of_served (s := s.withAgenda moves) ha hg free, hk]

theorem State.hostAccess_withAgenda {s t : State} {a : HostAccess} (h : s.hostAccess a = .next t) (moves : List Event) :
    (s.withAgenda moves).hostAccess a = .next (t.withAgenda moves) := by
  cases a with
  | read x size => exact State.grant_withAgenda moves (fun g => by rw [State.readWordAt_withAgenda]; rfl) h
  | write x size v => exact State.grant_withAgenda moves (fun g => s.writeWordAt_withAgenda moves g x v) h

/-- A command keeps the model's own fields. -/
theorem exec_modelFields {i : Instr} {s t : State} (h : exec i s = .next t) :
    t.agenda = s.agenda ∧ t.lastRead = s.lastRead := by
  have same : exec i s = .next (t.withModelFields s.agenda s.lastRead) :=
    exec_ignoresModelFields i s t s.agenda s.lastRead h
  rw [h] at same
  injection same with same
  rw [same]
  exact ⟨rfl, rfl⟩

theorem exec_withAgenda {i : Instr} {s t : State} (h : exec i s = .next t) (moves : List Event) :
    exec i (s.withAgenda moves) = .next (t.withAgenda moves) := by
  obtain ⟨_, word⟩ := exec_modelFields h
  have kept : t.withModelFields moves s.lastRead = t.withAgenda moves := by rw [← word]; rfl
  rw [← kept]
  exact exec_ignoresModelFields i s t moves s.lastRead h

theorem exec_withLastRead {i : Instr} {s t : State} (h : exec i s = .next t) (word : Option Word) :
    exec i (s.withLastRead word) = .next (t.withLastRead word) := by
  obtain ⟨moves, _⟩ := exec_modelFields h
  have kept : t.withModelFields s.agenda word = t.withLastRead word := by rw [← moves]; rfl
  rw [← kept]
  exact exec_ignoresModelFields i s t s.agenda word h

theorem State.completion_withAgenda {s t : State} (h : s.completion = .next t) (moves : List Event) :
    (s.withAgenda moves).completion = .next (t.withAgenda moves) := by
  rcases s.completion_cases with ⟨hp, hc⟩ | ⟨p, i, hp, hd, hc⟩ | ⟨p, e, hp, hd, hc⟩
  · cases hc.symm.trans h
    simp only [State.completion, State.fetch, State.withAgenda, hp, Option.map_none]
  · rw [State.completion_of_decode_ok (s := s.withAgenda moves) hp hd]
    exact exec_withAgenda (hc.symm.trans h) moves
  · cases hc.symm.trans h
    exact State.completion_of_decode_error (s := s.withAgenda moves) hp hd

theorem State.move_withAgenda {s t : State} {e : Event} (h : s.move e = .next t) (moves : List Event) :
    (s.withAgenda moves).move e = .next (t.withAgenda moves) := by
  cases e with
  | host a => exact State.hostAccess_withAgenda h moves
  | completion => exact State.completion_withAgenda h moves
  | hardReset => cases h; rfl

/-! ### Playing one event -/

theorem State.play_eq_some {s t : State} {e : Event} : s.play e = some t ↔ (s.withAgenda []).move e = .next t := by
  have turn : step { s with agenda := [e] } = (s.withAgenda []).move e := rfl
  rw [State.play, turn]
  cases (s.withAgenda []).move e <;> simp

theorem State.agenda_of_play {s t : State} {e : Event} (h : s.play e = some t) : t.agenda = [] := by
  have move := State.play_eq_some.mp h
  have same : (s.withAgenda []).move e = .next (t.withAgenda []) := State.move_withAgenda move []
  rw [move] at same
  injection same with same
  rw [same]
  rfl

/-- An event played alone is the first step of a run on the events that follow it. -/
theorem State.step_of_play {s t : State} {e : Event} (h : s.play e = some t) (rest : List Event) :
    step (s.withAgenda (e :: rest)) = .next (t.withAgenda rest) :=
  State.move_withAgenda (State.play_eq_some.mp h) rest

/-! ### Turns -/

/-- Everything a turn can be: the unfolding of a line, or one event on the machine. -/
theorem ProgramRun.turn_cases {p q : ProgramRun} {u : Turn} {events : List Event} (h : p.turn u = some (q, events)) :
    (events = [] ∧ q.machine = p.machine) ∨ ∃ e, events = [e] ∧ p.machine.play e = some q.machine := by
  unfold ProgramRun.turn at h
  split at h
  · split at h
    · cases h
    · split at h
      · next a _ =>
        obtain ⟨t, ht, done⟩ := Option.map_eq_some_iff.mp h
        cases done
        exact .inr ⟨.host a, rfl, ht⟩
      · obtain ⟨ls, _, done⟩ := Option.map_eq_some_iff.mp h
        cases done
        exact .inl ⟨rfl, rfl⟩
  · split at h
    · obtain ⟨t, ht, done⟩ := Option.map_eq_some_iff.mp h
      cases done
      exact .inr ⟨.completion, rfl, ht⟩
    · cases h

theorem ProgramRun.run_cons {us : List Turn} {u : Turn} {p r : ProgramRun} {events : List Event}
    (h : ProgramRun.run (u :: us) p = some (r, events)) :
    ∃ q first later, p.turn u = some (q, first) ∧ ProgramRun.run us q = some (r, later) ∧ events = first ++ later := by
  unfold ProgramRun.run at h
  split at h
  · cases h
  · next q first ht =>
    obtain ⟨⟨_, later⟩, hr, done⟩ := Option.map_eq_some_iff.mp h
    cases done
    exact ⟨q, first, later, ht, hr, rfl⟩

theorem core_run_succ {n : Nat} {s t : State} (h : step s = .next t) :
    Sys2Proof.core.run (n + 1) s = Sys2Proof.core.run n t := by
  have moved : Sys2Proof.core.step s = .next t := h
  simp only [Host.Core.run, moved]

/-- R92: the machine of a run is the run of the machine on its events. -/
theorem ProgramRun.run_machine (turns : List Turn) (p q : ProgramRun) (events : List Event) (h : p.machine.agenda = [])
    (hr : ProgramRun.run turns p = some (q, events)) :
    Sys2Proof.core.run events.length (p.machine.withAgenda events) = .next q.machine := by
  induction turns generalizing p events with
  | nil =>
    cases hr
    rw [State.withAgenda_nil h]
    rfl
  | cons u us ih =>
    obtain ⟨r, first, later, ht, hl, rfl⟩ := ProgramRun.run_cons hr
    rcases ProgramRun.turn_cases ht with ⟨rfl, same⟩ | ⟨e, rfl, played⟩
    · rw [List.nil_append, ← same]
      exact ih r later (same ▸ h) hl
    · rw [List.singleton_append, List.length_cons, core_run_succ (State.step_of_play played later)]
      exact ih r later (State.agenda_of_play played) hl

end Sys2Proof.Machine
end

section
/-! `DO` (spec/30_encoding.md R84, R91): its operands are written, its command issued, and `STATUS` polled until the completion. -/

namespace Sys2Proof.Machine

/-! ### The lines of a `DO` -/

/-- The values of named things found by name, in the order of the names, with a key for each. -/
theorem flatMap_filter_zip {α β γ δ : Type} [DecidableEq α] (g : γ → β → δ) (names : List α) (distinct : names.Nodup)
    (keys : List γ) (values : List β) (h : values.length = names.length) (hk : names.length ≤ keys.length) :
    ((names.zip keys).flatMap fun q => ((names.zip values).filter fun o => decide (o.1 = q.1)).map fun o => g q.2 o.2)
      = (keys.zip values).map fun q => g q.1 q.2 := by
  induction names generalizing keys values with
  | nil => simp [List.length_eq_zero_iff.mp h]
  | cons n names ih =>
    obtain ⟨k, keys, rfl⟩ := List.exists_cons_of_length_pos (lt_of_lt_of_le (Nat.succ_pos _) hk)
    obtain ⟨v, values, rfl⟩ := List.exists_cons_of_length_eq_add_one h
    obtain ⟨fresh, distinct⟩ := List.nodup_cons.mp distinct
    have here : ((n, v) :: names.zip values).filter (fun o => decide (o.1 = n)) = [(n, v)] := by
      rw [List.filter_cons_of_pos (by simp), List.filter_eq_nil_iff.mpr]
      intro o ho same
      exact fresh (of_decide_eq_true same ▸ (List.of_mem_zip ho).1)
    have others : ∀ q ∈ names.zip keys,
        (((n, v) :: names.zip values).filter fun o => decide (o.1 = q.1)).map (fun o => g q.2 o.2)
          = ((names.zip values).filter fun o => decide (o.1 = q.1)).map fun o => g q.2 o.2 := by
      intro q hq
      have apart : n ≠ q.1 := fun same => fresh (same ▸ (List.of_mem_zip hq).1)
      rw [List.filter_cons_of_neg (by simpa using apart)]
    simp only [List.zip_cons_cons, List.flatMap_cons, List.map_cons, here, List.flatMap_congr others]
    rw [ih distinct keys values (by simpa using h) (by simpa using hk)]
    rfl

theorem operandsIn_nodup (i : Instr) : (operandsIn i).Nodup := by
  cases i with
  | _ => simp [operandsIn]

theorem operandsIn_length_le (i : Instr) : (operandsIn i).length ≤ 8 := by
  cases i with
  | _ => simp [operandsIn]

/-- The writes of values to the argument registers, from `A0` on. -/
def argumentWrites (values : List Word) : List Line :=
  ((List.finRange 8).zip values).map fun q => .wr (.a q.1) (literal q.2)

theorem doLines_eq (i : Instr) (values : List Word) (h : values.length = (operandsIn i).length) :
    doLines i ((operandsIn i).zip (values.map literal)) = some (argumentWrites values ++ [.command i, .wait]) := by
  have named : (((operandsIn i).zip (values.map literal)).all fun o => decide (o.1 ∈ operandsIn i)) = true :=
    List.all_eq_true.mpr fun o ho => decide_eq_true (List.of_mem_zip ho).1
  have writes := flatMap_filter_zip (fun k v => Line.wr (.a k) v) (operandsIn i) (operandsIn_nodup i) (List.finRange 8)
    (values.map literal) (by rw [List.length_map, h]) (by simpa using operandsIn_length_le i)
  rw [doLines, if_pos named, writes, List.zip_map_right, List.map_map]
  rfl

/-! ### The argument registers after the writes -/

/-- Each register of `keys` holds its value, every other register what it held. -/
theorem getElem_foldl_set {keys : List (Fin 8)} (distinct : keys.Nodup) (values : List Word) (args : Vector Word 8) (k : Fin 8) :
    ((keys.zip values).foldl (fun a q => a.set q.1 q.2) args)[k]
      = if k ∈ keys then (values[keys.idxOf k]?).getD args[k] else args[k] := by
  induction keys generalizing values args with
  | nil => simp
  | cons n keys ih =>
    obtain ⟨fresh, distinct⟩ := List.nodup_cons.mp distinct
    cases values with
    | nil => simp
    | cons v values =>
      rw [List.zip_cons_cons, List.foldl_cons, ih distinct]
      by_cases hk : k = n
      · subst hk
        simp [fresh]
      · have kept : (args.set n v)[k] = args[k] := Vector.getElem_set_ne _ _ (by omega)
        rw [kept]
        simp [hk, List.idxOf_cons_ne keys (Ne.symm hk)]

/-- The values from `A0` on, and what the other registers held. -/
theorem foldl_set_eq_ofFn (values : List Word) (args : Vector Word 8) :
    ((List.finRange 8).zip values).foldl (fun a q => a.set q.1 q.2) args
      = Vector.ofFn fun k : Fin 8 => (values[k.val]?).getD args[k] := by
  apply Vector.ext
  intro k hk
  have written := getElem_foldl_set (List.nodup_finRange 8) values args ⟨k, hk⟩
  rw [if_pos (List.mem_finRange _), List.idxOf_finRange] at written
  rw [Vector.getElem_ofFn]
  exact written

/-! ### Turns that reach a run -/

/-- The turns lead from one run to the other, whatever events they play. -/
def ProgramRun.Reaches (turns : List Turn) (p q : ProgramRun) : Prop := ∃ events, ProgramRun.run turns p = some (q, events)

theorem ProgramRun.Reaches.refl (p : ProgramRun) : ProgramRun.Reaches [] p p := ⟨[], rfl⟩

theorem ProgramRun.Reaches.cons {u : Turn} {us : List Turn} {p q r : ProgramRun} {events : List Event}
    (h : p.turn u = some (q, events)) (hr : ProgramRun.Reaches us q r) : ProgramRun.Reaches (u :: us) p r := by
  obtain ⟨later, hl⟩ := hr
  exact ⟨events ++ later, by simp only [ProgramRun.run, h, hl, Option.map_some]⟩

theorem ProgramRun.Reaches.append {us vs : List Turn} {p q r : ProgramRun} (h : ProgramRun.Reaches us p q)
    (hr : ProgramRun.Reaches vs q r) : ProgramRun.Reaches (us ++ vs) p r := by
  induction us generalizing p with
  | nil => obtain ⟨_, done⟩ := h; cases done; exact hr
  | cons u us ih =>
    obtain ⟨_, run⟩ := h
    obtain ⟨_, _, later, turn, rest, _⟩ := ProgramRun.run_cons run
    exact .cons turn (ih ⟨later, rest⟩)

section
variable {l : Line} {rest : List Line} {reads : List Word} {m t : State}

theorem ProgramRun.turn_unfold {ls : List Line} (ha : l.access reads = none) (hu : l.unfold m = some ls) :
    ProgramRun.turn ⟨l :: rest, reads, m⟩ .host = some (⟨ls ++ rest, reads, m⟩, []) := by
  simp only [ProgramRun.turn, ha, hu, Option.map_some]

theorem ProgramRun.turn_access {a : HostAccess} (ha : l.access reads = some a) (hp : m.play (.host a) = some t) :
    ProgramRun.turn ⟨l :: rest, reads, m⟩ .host
      = some (ProgramRun.accessed ⟨l :: rest, reads, m⟩ l rest t, [.host a]) := by
  simp only [ProgramRun.turn, ha, hp, Option.map_some]

theorem ProgramRun.turn_engine {todo : List Line} (busy : m.busy = true) (hp : m.play .completion = some t) :
    ProgramRun.turn ⟨todo, reads, m⟩ .engine = some (⟨todo, reads, t⟩, [.completion]) := by
  simp only [ProgramRun.turn, if_pos busy, hp, Option.map_some]

end

/-! ### What the turns of a `DO` play -/

theorem State.play_writeReg {m : State} (h : m.agenda = []) (g : Reg) (v : Word) :
    m.play (.host (.write g.offset 4 v)) = some (m.writeReg g v) := by
  refine State.play_eq_some.mpr ?_
  rw [State.withAgenda_nil h, State.move, State.hostAccess_write g.offset_aligned (regionAt_of_lt g.offset_lt) (.inl rfl),
    State.writeWordAt_register]

theorem State.play_readReg {m : State} (h : m.agenda = []) (g : Reg) :
    m.play (.host (.read g.offset 4)) = some (m.withLastRead (some (m.readReg g))) := by
  refine State.play_eq_some.mpr ?_
  rw [State.withAgenda_nil h, State.move, State.hostAccess_read g.offset_aligned (regionAt_of_lt g.offset_lt) (.inl rfl),
    State.readWordAt_register]
  rfl

theorem State.play_completion {m t : State} {p : Pend} {i : Instr} (h : m.agenda = []) (hp : m.pend = some p)
    (hd : decode p.cmd = .ok i) (he : exec i m = .next t) : m.play .completion = some t := by
  refine State.play_eq_some.mpr ?_
  rw [State.withAgenda_nil h, State.move, State.completion_of_decode_ok hp hd, he]

theorem State.statusWord_busy (s : State) : s.statusWord.getLsbD 0 = s.busy := by
  have bit : ∀ b d f c : Bool, (flagBit 0 b ||| flagBit 1 d ||| flagBit 2 f ||| flagBit 3 c).getLsbD 0 = b := by decide
  exact bit _ _ _ _

/-! ### The turns of a `DO` -/

/-- The host writes the values to the argument registers. -/
theorem ProgramRun.reaches_writes (writes : List (Fin 8 × Word)) (rest : List Line) (reads : List Word) (m : State)
    (h : m.agenda = []) :
    ProgramRun.Reaches (List.replicate writes.length Turn.host)
      ⟨writes.map (fun q => Line.wr (.a q.1) (literal q.2)) ++ rest, reads, m⟩
      ⟨rest, reads, { m with args := writes.foldl (fun a q => a.set q.1 q.2) m.args }⟩ := by
  induction writes generalizing m with
  | nil => exact .refl _
  | cons q writes ih =>
    exact .cons (ProgramRun.turn_access rfl (State.play_writeReg h (.a q.1) q.2))
      (ih { m with args := m.args.set q.1 q.2 } h)

/-- A poll reads `STATUS` and ends the line unless it reads `BUSY` = 1 (R91). -/
theorem ProgramRun.turn_poll {rest : List Line} {reads : List Word} {m : State} (h : m.agenda = []) :
    ProgramRun.turn ⟨.wait :: rest, reads, m⟩ .host
      = some (⟨if m.busy then .wait :: rest else rest, reads, m.withLastRead (some m.statusWord)⟩,
          [.host (.read Reg.status.offset 4)]) := by
  rw [ProgramRun.turn_access rfl (State.play_readReg h .status), ← m.statusWord_busy]
  rfl

/-- While the command is in flight the polls change only the word read. -/
theorem ProgramRun.reaches_polls (polls : Nat) (rest : List Line) (reads : List Word) (m : State) (h : m.agenda = [])
    (busy : m.busy = true) :
    ∃ word, ProgramRun.Reaches (List.replicate polls Turn.host) ⟨.wait :: rest, reads, m⟩
      ⟨.wait :: rest, reads, m.withLastRead word⟩ := by
  induction polls generalizing m with
  | zero => exact ⟨m.lastRead, .refl _⟩
  | succ polls ih =>
    obtain ⟨word, later⟩ := ih (m.withLastRead (some m.statusWord)) h busy
    have poll := ProgramRun.turn_poll (rest := rest) (reads := reads) h
    rw [if_pos busy] at poll
    exact ⟨word, .cons poll later⟩

/-- After the command's completion, `BUSY` is 0 and the moves to come are those before it. -/
theorem exec_answers {i : Instr} {s : State} {p : Pend} (hp : s.pend = some p) :
    ∃ t, exec i s = .next t ∧ t.busy = false ∧ t.agenda = s.agenda := by
  rcases commandFaultsOrCompletes i s p hp with ⟨_, _, _, _, he⟩ | ⟨t, he, idle, _⟩
  · exact ⟨_, he, rfl, rfl⟩
  · exact ⟨t, he, by rw [State.busy, idle]; rfl, (exec_modelFields he).1⟩

/-- The registers after the host has written the values to `A0` and on. -/
def State.withArguments (m : State) (values : List Word) : State :=
  { m with args := Vector.ofFn fun k : Fin 8 => (values[k.val]?).getD m.args[k] }

theorem State.withArguments_eq_foldl (m : State) (values : List Word) :
    { m with args := ((List.finRange 8).zip values).foldl (fun a q => a.set q.1 q.2) m.args } = m.withArguments values := by
  rw [foldl_set_eq_ofFn]; rfl

section
variable {i : Instr} (hi : i.wf = true) {m t : State} (ha : m.agenda = []) (idle : m.busy = false)
  (clear : m.statusFault = false) (rest : List Line) (reads : List Word) (polls : Nat)
include hi ha idle clear

/-- A command issued to an idle engine, any number of polls, its completion and the poll that ends the line. -/
theorem ProgramRun.reaches_command (he : exec i (m.issue (encode i)) = .next t) :
    ProgramRun.Reaches (Turn.host :: (List.replicate polls Turn.host ++ [Turn.engine, Turn.host]))
      ⟨.command i :: .wait :: rest, reads, m⟩ ⟨rest, reads, t.withLastRead (some t.statusWord)⟩ := by
  have issued := State.issue_of_idle (State.pend_of_busy_eq_false idle) clear (encode i)
  have inFlight : (m.issue (encode i)).pend = some ⟨encode i, m.args⟩ := by rw [issued]
  have busy : (m.issue (encode i)).busy = true := by rw [issued]; rfl
  have noMoves : (m.issue (encode i)).agenda = [] := by rw [issued]; exact ha
  obtain ⟨_, he', idle', kept⟩ := exec_answers (i := i) inFlight
  cases he.symm.trans he'
  have issue := ProgramRun.turn_access (l := .command i) (rest := .wait :: rest) (reads := reads) rfl
    (State.play_writeReg ha .cmd (encode i))
  obtain ⟨word, polled⟩ := ProgramRun.reaches_polls polls rest reads (m.issue (encode i)) noMoves busy
  have complete := ProgramRun.turn_engine (todo := .wait :: rest) (reads := reads)
    (m := (m.issue (encode i)).withLastRead word) busy
    (State.play_completion noMoves inFlight (decodeReadsEncodedWord i hi) (exec_withLastRead he word))
  have last := ProgramRun.turn_poll (rest := rest) (reads := reads) (m := t.withLastRead word) (kept.trans noMoves)
  rw [show (t.withLastRead word).busy = false from idle'] at last
  exact .cons issue (polled.append (.cons complete (.cons last (.refl _))))

/-- R91: `DO` ends with the meaning of its command on the operands that it names. -/
theorem ProgramRun.reaches_do {values : List Word} (hv : values.length = (operandsIn i).length)
    (he : exec i ((m.withArguments values).issue (encode i)) = .next t) :
    ProgramRun.Reaches (List.replicate (values.length + 2 + polls) Turn.host ++ [Turn.engine, Turn.host])
      ⟨.doCommand i ((operandsIn i).zip (values.map literal)) :: rest, reads, m⟩
      ⟨rest, reads, t.withLastRead (some t.statusWord)⟩ := by
  have count : ((List.finRange 8).zip values).length = values.length := by
    have few := operandsIn_length_le i
    simp only [List.length_zip, List.length_finRange]; omega
  have turns : List.replicate (values.length + 2 + polls) Turn.host ++ [Turn.engine, Turn.host]
      = Turn.host :: (List.replicate values.length Turn.host
          ++ Turn.host :: (List.replicate polls Turn.host ++ [Turn.engine, Turn.host])) := by
    rw [show values.length + 2 + polls = (values.length + (polls + 1)) + 1 by omega, List.replicate_succ,
      List.replicate_add, List.replicate_succ]
    simp only [List.cons_append, List.append_assoc]
  have unfolded := ProgramRun.turn_unfold (l := .doCommand i ((operandsIn i).zip (values.map literal))) (rest := rest)
    (reads := reads) (m := m) rfl (doLines_eq i values hv)
  have written := ProgramRun.reaches_writes ((List.finRange 8).zip values) (.command i :: .wait :: rest) reads m ha
  rw [count, State.withArguments_eq_foldl] at written
  have commanded := ProgramRun.reaches_command hi (m := m.withArguments values) ha idle clear rest reads polls he
  rw [turns]
  refine .cons unfolded ?_
  rw [List.append_assoc]
  exact written.append commanded

end

end Sys2Proof.Machine
end

section
/-! `PARTITION` and `SPLIT` (spec/30_encoding.md R91, spec/40_raster_block.md R107): the tiles of a raster and the sub-blocks of a
block, in the order of the loops. -/

namespace Sys2Proof.Machine

/-! ### Two loops as one -/

/-- Rows outside and columns inside visit the cells of a grid in row-major order. -/
theorem flatMap_range_map_range {α : Type} (f : Nat → Nat → α) (rows columns : Nat) :
    ((List.range rows).flatMap fun j => (List.range columns).map fun i => f i j)
      = (List.range (rows * columns)).map fun k => f (k % columns) (k / columns) := by
  induction rows with
  | zero => simp
  | succ rows ih =>
    rw [List.range_succ, List.flatMap_append, ih, Nat.succ_mul, List.range_add, List.map_append, List.map_map]
    congr 1
    rw [List.flatMap_singleton]
    refine List.map_congr_left fun i hi => ?_
    have inside : i < columns := List.mem_range.mp hi
    have row : (rows * columns + i) / columns = rows := by
      rw [Nat.mul_comm, Nat.mul_add_div (by omega), Nat.div_eq_of_lt inside, Nat.add_zero]
    have column : (rows * columns + i) % columns = i := by
      rw [Nat.mul_comm, Nat.mul_add_mod, Nat.mod_eq_of_lt inside]
    simp only [Function.comp, row, column]

/-! ### The tiles of `PARTITION` -/

theorem partitionTiles_eq (w h s : Nat) :
    partitionTiles w h s
      = (List.range ((h + s - 1) / s * ((w + s - 1) / s))).map fun k =>
          (k % ((w + s - 1) / s) * s, k / ((w + s - 1) / s) * s) := by
  rw [← flatMap_range_map_range fun i j => (i * s, j * s)]
  simp only [partitionTiles, multiplesBelow, List.flatMap_map, List.map_map]
  rfl

theorem partitionTiles_length (w h s : Nat) :
    (partitionTiles w h s).length = (w + s - 1) / s * ((h + s - 1) / s) := by
  rw [partitionTiles_eq, List.length_map, List.length_range, Nat.mul_comm]

theorem partitionTiles_getElem {w h s k : Nat} (hk : k < (partitionTiles w h s).length) :
    (partitionTiles w h s)[k]? = some (k % ((w + s - 1) / s) * s, k / ((w + s - 1) / s) * s) := by
  rw [partitionTiles_length, Nat.mul_comm] at hk
  rw [partitionTiles_eq, List.getElem?_map, List.getElem?_range hk, Option.map_some]

/-- The multiples of `s` below `n` are the starts of its segments of length `s`. -/
theorem mem_multiplesBelow {s n b : Nat} (hs : 0 < s) : b ∈ multiplesBelow s n ↔ s ∣ b ∧ b < n := by
  have below (i : Nat) : i < (n + s - 1) / s ↔ i * s < n := by
    rw [Nat.lt_iff_add_one_le, Nat.le_div_iff_mul_le hs, Nat.succ_mul]; omega
  simp only [multiplesBelow, List.mem_map, List.mem_range, below]
  constructor
  · rintro ⟨i, hi, rfl⟩
    exact ⟨Nat.dvd_mul_left s i, hi⟩
  · rintro ⟨⟨i, rfl⟩, hi⟩
    exact ⟨i, by rwa [Nat.mul_comm], Nat.mul_comm i s⟩

theorem mem_partitionTiles {w h s : Nat} (hs : 0 < s) {q : Nat × Nat} :
    q ∈ partitionTiles w h s ↔ (s ∣ q.1 ∧ q.1 < w) ∧ s ∣ q.2 ∧ q.2 < h := by
  obtain ⟨bx, by'⟩ := q
  simp only [partitionTiles, List.mem_flatMap, List.mem_map, Prod.mk.injEq, mem_multiplesBelow hs]
  constructor
  · rintro ⟨_, column, _, row, rfl, rfl⟩
    exact ⟨row, column⟩
  · rintro ⟨row, column⟩
    exact ⟨by', column, bx, row, rfl, rfl⟩

/-- One multiple of `s` starts the segment of length `s` that holds `x`. -/
theorem segment_iff {s b x : Nat} (hs : 0 < s) (hb : s ∣ b) : b ≤ x ∧ x < b + s ↔ b = x / s * s := by
  obtain ⟨c, rfl⟩ := hb
  constructor
  · rintro ⟨h1, h2⟩
    have quotient : x / s = c := Nat.div_eq_of_lt_le (by rwa [Nat.mul_comm]) (by rwa [Nat.succ_mul, Nat.mul_comm])
    rw [quotient, Nat.mul_comm]
  · intro h
    rw [h]
    exact ⟨Nat.div_mul_le_self x s, Nat.lt_div_mul_add hs⟩

/-- Each pixel of the raster lies in exactly one tile. -/
theorem existsUnique_tile {w h s x y : Nat} (hs : 0 < s) (hx : x < w) (hy : y < h) :
    ∃! q, q ∈ partitionTiles w h s ∧ (q.1 ≤ x ∧ x < q.1 + s) ∧ (q.2 ≤ y ∧ y < q.2 + s) := by
  have start (n : Nat) : s ∣ n / s * s ∧ n / s * s ≤ n := ⟨Nat.dvd_mul_left s _, Nat.div_mul_le_self n s⟩
  refine ⟨(x / s * s, y / s * s), ⟨?_, ?_, ?_⟩, ?_⟩
  · exact (mem_partitionTiles hs).mpr ⟨⟨(start x).1, (start x).2.trans_lt hx⟩, (start y).1, (start y).2.trans_lt hy⟩
  · exact (segment_iff hs (start x).1).mpr rfl
  · exact (segment_iff hs (start y).1).mpr rfl
  · rintro ⟨bx, by'⟩ ⟨mem, column, row⟩
    obtain ⟨⟨hbx, _⟩, hby, _⟩ := (mem_partitionTiles hs).mp mem
    exact Prod.ext ((segment_iff hs hbx).mp column) ((segment_iff hs hby).mp row)

/-! ### The sub-blocks of `SPLIT` -/

/-- A block of `k` sub-blocks a side has `k·k` of them, in row-major order, before those outside the raster are left out. -/
theorem splitTiles_eq (w h x y k t : Nat) (ht : 0 < t) :
    splitTiles w h x y (k * t) t
      = ((List.range (k * k)).map fun e => (x + e % k * t, y + e / k * t)).filter
          fun q => decide (q.1 < w) && decide (q.2 < h) := by
  rw [← flatMap_range_map_range fun i j => (x + i * t, y + j * t), List.filter_flatMap, splitTiles, Nat.mul_div_cancel k ht]

/-! ### What the two lines stand for -/

section
variable {m : State} {cmd : Word} {rs : RasterSel} {d : BitVec 4} {v : RasterView} {size : Nat}
  {body : Nat → Nat → List Line}

theorem unfold_partition (hv : m.resolveRaster cmd rs d = .ok v) (hs : size ≠ 0) :
    Line.unfold m (.partition rs d size body)
      = some ((partitionTiles v.w v.h size).flatMap fun q => loopPass rs d size body q.1 q.2) := by
  simp only [Line.unfold, if_neg hs, State.rasterSize_eq hv, Option.map_some]

theorem unfold_split {k : Nat} (hv : m.resolveRaster cmd rs d = .ok v) (hs : size ≠ 0) (hk : k ∈ [2, 4])
    (hb : m.blkSize.toNat = k * size) :
    Line.unfold m (.split rs d size body)
      = some ((splitTiles v.w v.h (u32 m.blkPosX) (u32 m.blkPosY) (k * size) size).flatMap
          fun q => loopPass rs d size body q.1 q.2) := by
  have sides : size ≠ 0 ∧ (m.blkSize.toNat = 2 * size ∨ m.blkSize.toNat = 4 * size) := by
    rw [hb]
    simp only [List.mem_cons, List.not_mem_nil, or_false] at hk
    exact ⟨hs, hk.imp (congrArg (· * size)) (congrArg (· * size))⟩
  simp only [Line.unfold, if_pos sides, State.rasterSize_eq hv, Option.map_some]
  rw [hb]

theorem unfold_split_of_other (hb : m.blkSize.toNat ∉ [2 * size, 4 * size]) :
    Line.unfold m (.split rs d size body) = none := by
  have sides : ¬ (size ≠ 0 ∧ (m.blkSize.toNat = 2 * size ∨ m.blkSize.toNat = 4 * size)) := by
    rintro ⟨_, h⟩
    exact hb (by simpa using h)
  simp only [Line.unfold, if_neg sides]

end

/-- Settles O60: the run of an execution, a `DO` turn by turn, and the passes of the two loops. -/
theorem programLinesDenoteTheirSteps : Obligations.ProgramLinesDenoteTheirSteps := by
  unfold Obligations.ProgramLinesDenoteTheirSteps
  refine ⟨fun turns p q events => ProgramRun.run_machine turns p q events, ?_, ?_⟩
  · intro m i values reads rest polls idle clear noMoves hi hv args issued
    obtain ⟨t, he, _⟩ := exec_answers (i := i) (s := issued) rfl
    have issues : (m.withArguments values).issue (encode i) = issued :=
      State.issue_of_idle (s := m.withArguments values) (State.pend_of_busy_eq_false idle) clear (encode i)
    obtain ⟨events, run⟩ := ProgramRun.reaches_do hi noMoves idle clear rest reads polls hv (issues ▸ he)
    exact ⟨t, events, he, run⟩
  · intro m cmd rs d v size body hv hs pass
    have positive : 0 < size := Nat.pos_of_ne_zero hs
    refine ⟨⟨partitionTiles v.w v.h size, unfold_partition hv hs, ⟨partitionTiles_length _ _ _, ?_⟩, ?_⟩, ?_, ?_⟩
    · exact fun k hk => partitionTiles_getElem hk
    · exact fun x y hx hy => existsUnique_tile positive hx hy
    · intro k hk hb
      rw [unfold_split hv hs hk hb, splitTiles_eq _ _ _ _ _ _ positive]
      rfl
    · exact unfold_split_of_other

end Sys2Proof.Machine
end

section
/-! `REF.PUSH` and `REF.RESET` (spec/40_raster_block.md R110, R111): their two faults, the copy of `CUR`, and the entries that the
capacity keeps. -/

namespace Sys2Proof.Machine

variable {s : State} {p : Pend}

/-! ### The copy of `CUR` -/

theorem State.curCopy_pix_length (s : State) : s.curCopy.pix.length = s.frameW.toNat * s.frameH.toNat := by
  simp [State.curCopy, RasterView.pixels, State.frameView]

theorem State.curCopy_pix_getElem (s : State) {k : Nat} (hk : k < s.frameW.toNat * s.frameH.toNat) :
    s.curCopy.pix[k]? = some (s.wordAt (curBase + 4 * k)) := by
  simp [State.curCopy, RasterView.pixels, State.frameView, hk]

/-! ### Eviction -/

theorem evict_suffix (cap : Nat) (window : List Raster) : evict cap window <:+ window := List.drop_suffix _ _

theorem evict_length (cap : Nat) (window : List Raster) : (evict cap window).length = min window.length cap := by
  rw [evict, List.length_drop]
  omega

/-- `REFCNT` shows the length of every window that the capacity's four bits bound (R30). -/
theorem State.refCnt_toNat {cap : BitVec 4} (h : s.refs.length ≤ cap.toNat) : s.refCnt.toNat = s.refs.length := by
  rw [State.refCnt, BitVec.toNat_ofNat, Nat.mod_eq_of_lt (Nat.lt_of_le_of_lt h cap.isLt)]

/-! ### The two commands -/

/-- R110, R111: both commands test the frame dimensions, then the capacity. -/
theorem exec_window_faults (hp : s.pend = some p) : ∀ i ∈ [Instr.refPush, .refReset],
    (¬ s.frameLegal → exec i s = .next (s.takeFault ⟨.illegalConfig, 0⟩))
      ∧ (s.frameLegal → s.refCap = 0 → exec i s = .next (s.takeFault ⟨.illegalConfig, 1⟩)) := by
  have illegalFrame (hf : ¬ s.frameLegal) : s.windowFault = some ⟨.illegalConfig, 0⟩ := by
    rw [State.windowFault, if_pos hf]
  have noCapacity (hf : s.frameLegal) (hc : s.refCap = 0) : s.windowFault = some ⟨.illegalConfig, 1⟩ := by
    rw [State.windowFault, if_neg (not_not.mpr hf), if_pos hc]
  simp only [List.forall_mem_cons]
  refine ⟨⟨fun hf => ?_, fun hf hc => ?_⟩, ⟨fun hf => ?_, fun hf hc => ?_⟩, nofun⟩
  · exact State.runCommand_error hp (by simp only [illegalFrame hf])
  · exact State.runCommand_error hp (by simp only [noCapacity hf hc])
  · exact State.runCommand_error hp (by simp only [illegalFrame hf])
  · exact State.runCommand_error hp (by simp only [noCapacity hf hc])

theorem exec_refPush_of_legal (hp : s.pend = some p) (hf : s.windowFault = none) :
    exec .refPush s = .next { s with refs := evict s.refCap.toNat (s.refs ++ [s.curCopy]) }.complete :=
  State.runCommand_ok hp (by simp only [hf])

theorem exec_refReset_of_legal (hp : s.pend = some p) (hf : s.windowFault = none) :
    exec .refReset s = .next { s with refs := [s.curCopy] }.complete :=
  State.runCommand_ok hp (by simp only [hf])

/-- Settles O32: the window is a suffix of the old one with the copy behind it, as long as the capacity allows. -/
theorem refPushAppendsAndEvicts : Obligations.RefPushAppendsAndEvicts := by
  unfold Obligations.RefPushAppendsAndEvicts
  refine ⟨decodeReadsEncodedWord .refPush rfl, ?_⟩
  intro s p hp w h legal
  obtain ⟨illegalFrame, noCapacity⟩ := exec_window_faults hp .refPush (by decide)
  refine ⟨illegalFrame, noCapacity, fun hf hc => ?_⟩
  have size : (evict s.refCap.toNat (s.refs ++ [s.curCopy])).length = min (s.refs.length + 1) s.refCap.toNat := by
    rw [evict_length, List.length_append, List.length_singleton]
  exact ⟨_, s.curCopy, exec_refPush_of_legal hp (State.windowFault_eq_none.mpr ⟨hf, hc⟩), rfl, rfl, rfl,
    s.curCopy_pix_length, fun k => s.curCopy_pix_getElem, evict_suffix _ _, size,
    State.refCnt_toNat (cap := s.refCap) (size.le.trans (Nat.min_le_right _ _))⟩

/-- Settles O33. -/
theorem refResetReseeds : Obligations.RefResetReseeds := by
  unfold Obligations.RefResetReseeds
  refine ⟨decodeReadsEncodedWord .refReset rfl, ?_⟩
  intro s p hp w h legal
  obtain ⟨illegalFrame, noCapacity⟩ := exec_window_faults hp .refReset (by decide)
  refine ⟨illegalFrame, noCapacity, fun hf hc => ?_⟩
  exact ⟨_, s.curCopy, exec_refReset_of_legal hp (State.windowFault_eq_none.mpr ⟨hf, hc⟩), rfl, rfl, rfl,
    s.curCopy_pix_length, fun k => s.curCopy_pix_getElem, rfl⟩

end Sys2Proof.Machine
end

section
/-! `BLK.LD` (spec/40_raster_block.md R104, R105): the places of a block's cells, and the words that its buffers
hold after a load. -/

namespace Sys2Proof.Machine

/-! ### Row-major order -/

section
variable {n i j : Nat}

theorem rowMajor_lt (hi : i < n) (hj : j < n) : j * n + i < n * n := by
  have rows : (j + 1) * n ≤ n * n := Nat.mul_le_mul_right n hj
  rw [Nat.succ_mul] at rows
  omega

theorem rowMajor_mod (hi : i < n) : (j * n + i) % n = i := by
  rw [Nat.mul_add_mod', Nat.mod_eq_of_lt hi]

theorem rowMajor_div (hi : i < n) : (j * n + i) / n = j := by
  rw [Nat.mul_comm, Nat.mul_add_div (Nat.zero_lt_of_lt hi), Nat.div_eq_of_lt hi, Nat.add_zero]

/-- Every index of a square is that of one column and one row. -/
theorem rowMajor_of_lt {k : Nat} (hk : k < n * n) : k % n < n ∧ k / n < n ∧ k / n * n + k % n = k := by
  have hn : 0 < n := Nat.pos_of_ne_zero (by rintro rfl; omega)
  exact ⟨Nat.mod_lt _ hn, Nat.div_lt_of_lt_mul hk, Nat.div_add_mod' k n⟩

end

/-! ### A loaded block -/

section
variable {v : RasterView} {x y n i j : Nat}

/-- R104: a cell inside the raster has its pixel. -/
theorem loadBlock_inside (hi : i < n) (hj : j < n) (inside : x + i < v.w ∧ y + j < v.h) :
    (loadBlock v x y n)[j * n + i]? = some ⟨i, j, v.at (x + i) (y + j), false⟩ := by
  simp [loadBlock, rowMajor_lt hi hj, rowMajor_mod hi, rowMajor_div hi, inside]

/-- R104: a cell beyond the raster is ignored and has the sentinel. -/
theorem loadBlock_outside (hi : i < n) (hj : j < n) (outside : ¬ (x + i < v.w ∧ y + j < v.h)) :
    (loadBlock v x y n)[j * n + i]? = some ⟨i, j, Config.sentinel, true⟩ := by
  simp [loadBlock, rowMajor_lt hi hj, rowMajor_mod hi, rowMajor_div hi, outside]

end

section
variable {s : State} {cells : List BlockCell} (x y : Word) (n : Nat)

/-- R42, R105: the two words of a cell. -/
theorem State.placeBlock_wordAt {k : Nat} {q : BlockCell} (hl : cells.length ≤ 4096) (hq : cells[k]? = some q) :
    (s.placeBlock cells x y n).wordAt (blkPixBase + 4 * k) = q.colour
      ∧ (s.placeBlock cells x y n).wordAt (blkIgnBase + 4 * k) = ignWord q.ignored := by
  obtain ⟨hk, rfl⟩ := List.getElem?_eq_some_iff.mp hq
  let colours := s.writeWords blkPixBase (cells.map (·.colour))
  have apart : blkPixBase + 4 * k + 4 ≤ blkIgnBase := by
    simp only [blkPixBase, blkIgnBase]
    omega
  constructor
  · calc (colours.writeWords blkIgnBase (cells.map fun q => ignWord q.ignored)).wordAt (blkPixBase + 4 * k)
      _ = colours.wordAt (blkPixBase + 4 * k) := colours.wordAt_writeWords_outside _ _ _ (.inl apart)
      _ = (cells.map (·.colour))[k]'(by simpa using hk) := s.wordAt_writeWords_inside _ _ k (by simpa using hk)
      _ = cells[k].colour := List.getElem_map ..
  · calc (colours.writeWords blkIgnBase (cells.map fun q => ignWord q.ignored)).wordAt (blkIgnBase + 4 * k)
      _ = (cells.map fun q => ignWord q.ignored)[k]'(by simpa using hk) :=
        colours.wordAt_writeWords_inside _ _ k (by simpa using hk)
      _ = ignWord cells[k].ignored := List.getElem_map ..

/-- R105: no byte beyond the words of the cells changes. -/
theorem State.placeBlock_keepsBytes : s.KeepsBytes (s.placeBlock cells x y n)
    fun a => inRun blkPixBase (4 * cells.length) a ∨ inRun blkIgnBase (4 * cells.length) a := by
  intro a ha
  let colours := s.writeWords blkPixBase (cells.map (·.colour))
  calc (colours.writeWords blkIgnBase (cells.map fun q => ignWord q.ignored)).byteAt a
    _ = colours.byteAt a := colours.byteAt_writeWords_outside _ _ _ (by rw [List.length_map]; omega)
    _ = s.byteAt a := s.byteAt_writeWords_outside _ _ _ (by rw [List.length_map]; omega)

end

/-! ### The command -/

theorem exec_blkLd_of_inside {s : State} {p : Pend} {rs : RasterSel} {d : BitVec 4} {v : RasterView}
    (hp : s.pend = some p) (hv : s.resolveRaster p.cmd rs d = .ok v) (hs : u32 (p.arg 2) ∈ Config.blockSizes)
    (hx : u32 (p.arg 0) < v.w) (hy : u32 (p.arg 1) < v.h) :
    exec (.blkLd rs d) s = .next (s.placeBlock (loadBlock v (u32 (p.arg 0)) (u32 (p.arg 1)) (u32 (p.arg 2))) (p.arg 0)
      (p.arg 1) (u32 (p.arg 2))).complete := by
  have inside : ¬ (v.w ≤ u32 (p.arg 0) ∨ v.h ≤ u32 (p.arg 1)) := by omega
  exact State.runCommand_ok hp (by simp only [hv, sizeFault_legal hs (by decide), if_neg inside])

/-- Settles O30: the words of each cell of `LoadBlock`. -/
theorem blkLdLoadsBlock : Obligations.BlkLdLoadsBlock := by
  unfold Obligations.BlkLdLoadsBlock
  intro s p rs d v hp hv hs hx hy x y n
  have area : (loadBlock v x y n).length ≤ 4096 := by
    rw [loadBlock_length]
    exact sq_le_of_blockSize hs
  refine ⟨_, exec_blkLd_of_inside hp hv hs hx hy, ?_, fun i j hi hj => ⟨fun inside => ?_, fun outside => ?_⟩, ?_⟩
  · rw [← BitVec.ofNat_toNat]
    rfl
  · rw [State.complete_wordAt, State.complete_wordAt]
    exact State.placeBlock_wordAt _ _ _ area (loadBlock_inside hi hj inside)
  · rw [State.complete_wordAt, State.complete_wordAt]
    exact State.placeBlock_wordAt _ _ _ area (loadBlock_outside hi hj outside)
  · rw [← loadBlock_length v x y n]
    exact State.placeBlock_keepsBytes (p.arg 0) (p.arg 1) n

end Sys2Proof.Machine
end

section
/-! `BLK.ST` (spec/40_raster_block.md R106): the cells that `BLK` holds, the addresses of their pixels, and the words
and bytes that the write pass leaves. -/

namespace Sys2Proof.Machine

/-! ### The cells of the held block -/

/-- The cell in column `i` and row `j` of a block of size `n` (R42). -/
def State.heldCell (s : State) (n i j : Nat) : BlockCell := ⟨i, j, s.blkPix (j * n + i), s.blkIgn (j * n + i)⟩

section
variable {s : State} {n : Nat}

/-- The held block's cells in row-major order, by column and row. -/
theorem State.heldBlock_eq_map :
    s.heldBlock n = (List.range (n * n)).map fun k => s.heldCell n (k % n) (k / n) := by
  simp only [State.heldBlock, State.heldCell, Nat.div_add_mod']

theorem State.mem_heldBlock {q : BlockCell} : q ∈ s.heldBlock n ↔ ∃ i j, i < n ∧ j < n ∧ q = s.heldCell n i j := by
  simp only [State.heldBlock_eq_map, List.mem_map, List.mem_range]
  constructor
  · rintro ⟨k, hk, rfl⟩
    obtain ⟨hi, hj, _⟩ := rowMajor_of_lt hk
    exact ⟨k % n, k / n, hi, hj, rfl⟩
  · rintro ⟨i, j, hi, hj, rfl⟩
    exact ⟨j * n + i, rowMajor_lt hi hj, by rw [rowMajor_mod hi, rowMajor_div hi]⟩

end

theorem BlockCell.outside_iff {q : BlockCell} {x0 y0 w h : Nat} :
    q.outside x0 y0 w h = true ↔ q.ignored = false ∧ (w ≤ x0 + q.i ∨ h ≤ y0 + q.j) := by
  simp [BlockCell.outside]

/-! ### Places in a raster -/

/-- The place of cell `q`'s pixel in the raster order of `t` when its block stands at `(x0, y0)` (R13). -/
def RasterTarget.place (t : RasterTarget) (x0 y0 : Nat) (q : BlockCell) : Nat := (y0 + q.j) * t.w + (x0 + q.i)

/-- Two cells inside a raster share a pixel only if they stand in the same column and row. -/
theorem RasterTarget.place_injective {t : RasterTarget} {x0 y0 : Nat} {q r : BlockCell} (hq : x0 + q.i < t.w)
    (hr : x0 + r.i < t.w) (same : t.place x0 y0 q = t.place x0 y0 r) : q.i = r.i ∧ q.j = r.j := by
  have column : x0 + q.i = x0 + r.i := by
    have mods := congrArg (· % t.w) same
    simpa only [RasterTarget.place, rowMajor_mod hq, rowMajor_mod hr] using mods
  have row : y0 + q.j = y0 + r.j := by
    have quotients := congrArg (· / t.w) same
    simpa only [RasterTarget.place, rowMajor_div hq, rowMajor_div hr] using quotients
  omega

/-! ### The write pass -/

/-- Words at aligned places from one base are equal or share no byte. -/
theorem State.wordAt_writeWord_place (s : State) (base k l : Nat) (w : Word) :
    (s.writeWord (base + 4 * k) w).wordAt (base + 4 * l) = if k = l then w else s.wordAt (base + 4 * l) := by
  split
  · next same => rw [same, State.wordAt_writeWord]
  · next differ =>
    rw [State.writeWord_eq_writeWords, State.wordAt_writeWords_outside]
    rw [List.length_singleton]
    omega

section
variable {s : State} {t : RasterTarget} {x0 y0 : Nat} {cells : List BlockCell}

theorem State.storeCells_cons (q : BlockCell) :
    s.storeCells t x0 y0 (q :: cells)
      = (if q.ignored then s else s.writeWord (t.base + 4 * t.place x0 y0 q) q.colour).storeCells t x0 y0 cells := rfl

/-- The write pass changes the memory only. -/
theorem State.storeCells_eq : s.storeCells t x0 y0 cells = { s with mem := (s.storeCells t x0 y0 cells).mem } := by
  induction cells generalizing s with
  | nil => rfl
  | cons q cells ih =>
    rw [State.storeCells_cons]
    cases q.ignored with
    | true => exact ih
    | false => exact ih

/-- The write pass changes no byte but those of the pixels of visible cells. -/
theorem State.byteAt_storeCells {a : Nat}
    (away : ∀ q ∈ cells, q.ignored = false → ¬ inRun (t.base + 4 * t.place x0 y0 q) 4 a) :
    (s.storeCells t x0 y0 cells).byteAt a = s.byteAt a := by
  induction cells generalizing s with
  | nil => rfl
  | cons q cells ih =>
    obtain ⟨first, others⟩ := List.forall_mem_cons.mp away
    rw [State.storeCells_cons, ih others]
    cases visible : q.ignored with
    | true => rfl
    | false =>
      have apart := first visible
      exact State.byteAt_writeWord_outside _ _ _ _ (by omega)

/-- A pixel whose every visible cell has colour `c` reads `c` after the write pass, when it did before or has such a cell. -/
theorem State.wordAt_storeCells {k : Nat} {c : Word}
    (agree : ∀ q ∈ cells, q.ignored = false → t.place x0 y0 q = k → q.colour = c)
    (stored : s.wordAt (t.base + 4 * k) = c ∨ ∃ q ∈ cells, q.ignored = false ∧ t.place x0 y0 q = k) :
    (s.storeCells t x0 y0 cells).wordAt (t.base + 4 * k) = c := by
  induction cells generalizing s with
  | nil => exact stored.resolve_right (by simp)
  | cons q cells ih =>
    obtain ⟨first, others⟩ := List.forall_mem_cons.mp agree
    rw [State.storeCells_cons]
    refine ih others ?_
    by_cases here : q.ignored = false ∧ t.place x0 y0 q = k
    · obtain ⟨visible, place⟩ := here
      left
      rw [visible, if_neg Bool.false_ne_true, State.wordAt_writeWord_place, if_pos place, first visible place]
    · refine stored.imp (fun before => ?_) (fun ⟨r, hr, cell⟩ => ?_)
      · cases visible : q.ignored with
        | true => exact before
        | false =>
          rw [if_neg Bool.false_ne_true, State.wordAt_writeWord_place, if_neg fun place => here ⟨visible, place⟩, before]
      · rcases List.mem_cons.mp hr with rfl | hr
        · exact absurd cell here
        · exact ⟨r, hr, cell⟩

end

/-! ### The command -/

theorem exec_blkSt_of_inside {s : State} {p : Pend} {rs : RasterSel} {d : BitVec 4} {r : RasterTarget}
    (hp : s.pend = some p) (hr : s.resolveWritable p.cmd rs d = .ok r) (hs : s.blkSize.toNat ∈ Config.blockSizes)
    (inside : ∀ q ∈ s.heldBlock s.blkSize.toNat, q.ignored = false →
      u32 s.blkPosX + q.i < r.w ∧ u32 s.blkPosY + q.j < r.h) :
    exec (.blkSt rs d) s
      = .next (s.storeCells r (u32 s.blkPosX) (u32 s.blkPosY) (s.heldBlock s.blkSize.toNat)).complete := by
  have none_outside : (s.heldBlock s.blkSize.toNat).find? (·.outside (u32 s.blkPosX) (u32 s.blkPosY) r.w r.h) = none := by
    refine List.find?_eq_none.mpr fun q hq beyond => ?_
    obtain ⟨visible, beyond⟩ := BlockCell.outside_iff.mp beyond
    obtain ⟨column, row⟩ := inside q hq visible
    omega
  exact State.runCommand_ok hp (by simp only [hr, sizeFault_legal hs (by decide), none_outside])

/-- Settles O31: visible cells stand at different pixels, so each pixel keeps the one colour that is stored there. -/
theorem blkStStoresVisibleCells : Obligations.BlkStStoresVisibleCells := by
  unfold Obligations.BlkStStoresVisibleCells
  intro s p rs d r hp hr hs n x y visible address inside
  have cellsInside : ∀ q ∈ s.heldBlock n, q.ignored = false → x + q.i < r.w ∧ y + q.j < r.h := by
    intro q hq shown
    obtain ⟨i, j, hi, hj, rfl⟩ := State.mem_heldBlock.mp hq
    exact inside i j ⟨hi, hj, shown⟩
  refine ⟨_, exec_blkSt_of_inside hp hr hs cellsInside, ?_, fun i j ⟨hi, hj, shown⟩ => ?_, fun a away => ?_⟩
  · rw [State.storeCells_eq]
    rfl
  · have held : s.heldCell n i j ∈ s.heldBlock n := State.mem_heldBlock.mpr ⟨i, j, hi, hj, rfl⟩
    rw [State.complete_wordAt]
    refine State.wordAt_storeCells (k := r.place x y (s.heldCell n i j)) (fun q hq shown' same => ?_)
      (.inr ⟨_, held, shown, rfl⟩)
    obtain ⟨a, b, _, _, rfl⟩ := State.mem_heldBlock.mp hq
    obtain ⟨rfl, rfl⟩ := RasterTarget.place_injective (cellsInside _ hq shown').1 (cellsInside _ held shown).1 same
    rfl
  · rw [State.complete_byteAt]
    refine State.byteAt_storeCells fun q hq shown near => away ?_
    obtain ⟨i, j, hi, hj, rfl⟩ := State.mem_heldBlock.mp hq
    exact ⟨i, j, ⟨hi, hj, shown⟩, near⟩

end Sys2Proof.Machine
end

section
/-! `OutOfBounds` (spec/40_raster_block.md R100, R105, R106, spec/42_sobel.md R147, spec/44_motion.md R203, R206): a named
position, the first visible cell of a block, or the first entry of a batch outside its raster. -/

namespace Sys2Proof.Machine

/-! ### The first cell outside -/

/-- Cell `(i, j)` of the held block is visible and outside a `w` by `h` raster, and no visible cell before it in row-major order is
outside (R106). -/
def State.FirstOutside (s : State) (w h i j : Nat) : Prop :=
  i < s.blkSize.toNat ∧ j < s.blkSize.toNat ∧ s.blkIgn (j * s.blkSize.toNat + i) = false
    ∧ (w ≤ u32 s.blkPosX + i ∨ h ≤ u32 s.blkPosY + j)
    ∧ ∀ a b, a < s.blkSize.toNat → b < s.blkSize.toNat → b * s.blkSize.toNat + a < j * s.blkSize.toNat + i →
        s.blkIgn (b * s.blkSize.toNat + a) = false → u32 s.blkPosX + a < w ∧ u32 s.blkPosY + b < h

/-- The test pass over the held block reports that cell. -/
theorem State.FirstOutside.find {s : State} {w h i j : Nat} (first : s.FirstOutside w h i j) :
    (s.heldBlock s.blkSize.toNat).find? (·.outside (u32 s.blkPosX) (u32 s.blkPosY) w h)
      = some (s.heldCell s.blkSize.toNat i j) := by
  obtain ⟨hi, hj, visible, beyond, before⟩ := first
  rw [State.heldBlock_eq_map, List.find?_map, Option.map_eq_some_iff]
  refine ⟨j * s.blkSize.toNat + i, List.find?_range_eq_some.mpr ⟨?_, List.mem_range.mpr (rowMajor_lt hi hj), ?_⟩, ?_⟩
  · rw [Function.comp_apply, rowMajor_mod hi, rowMajor_div hi]
    exact BlockCell.outside_iff.mpr ⟨visible, beyond⟩
  · intro k hk
    obtain ⟨ha, hb, same⟩ := rowMajor_of_lt (hk.trans (rowMajor_lt hi hj))
    rw [Bool.not_eq_true', Function.comp_apply, ← Bool.not_eq_true, BlockCell.outside_iff]
    rintro ⟨shown, past⟩
    have inside := before _ _ ha hb (same.symm ▸ hk) shown
    simp only [State.heldCell] at past
    omega
  · rw [rowMajor_mod hi, rowMajor_div hi]

/-! ### The fault -/

/-- R100: the information word of the fault. -/
theorem State.takeFault_outOfBoundsAt (s : State) (x y : Nat) :
    s.takeFault (outOfBoundsAt x y)
      = { s with faultCode := 7#8, faultInfo := BitVec.ofNat 32 (y % 65536 * 65536 + x % 65536), statusFault := true
                 pend := none } := by
  rw [State.takeFault, outOfBoundsAt, pairInfo_eq]
  rfl

section
variable {s : State} {p : Pend} {rs : RasterSel} {d : BitVec 4}

/-- R101, R105, R145: the commands that read a raster at a position. -/
theorem exec_rasterRead_outOfBounds (hp : s.pend = some p) {v : RasterView} (hv : s.resolveRaster p.cmd rs d = .ok v)
    (out : v.w ≤ u32 (p.arg 0) ∨ v.h ≤ u32 (p.arg 1)) :
    exec (.rasGet rs d) s = .next (s.takeFault (outOfBoundsAt (u32 (p.arg 0)) (u32 (p.arg 1))))
      ∧ exec (.sobPix rs d) s = .next (s.takeFault (outOfBoundsAt (u32 (p.arg 0)) (u32 (p.arg 1))))
      ∧ (u32 (p.arg 2) ∈ Config.blockSizes →
          exec (.blkLd rs d) s = .next (s.takeFault (outOfBoundsAt (u32 (p.arg 0)) (u32 (p.arg 1))))) :=
  ⟨State.runCommand_error hp (by simp only [hv, if_pos out]), State.runCommand_error hp (by simp only [hv, if_pos out]),
    fun hs => State.runCommand_error hp (by simp only [hv, sizeFault_legal hs (by decide), if_pos out])⟩

theorem exec_rasSet_outOfBounds (hp : s.pend = some p) {t : RasterTarget} (ht : s.resolveWritable p.cmd rs d = .ok t)
    (out : t.w ≤ u32 (p.arg 0) ∨ t.h ≤ u32 (p.arg 1)) :
    exec (.rasSet rs d) s = .next (s.takeFault (outOfBoundsAt (u32 (p.arg 0)) (u32 (p.arg 1)))) :=
  State.runCommand_error hp (by simp only [ht, if_pos out])

variable {i j : Nat}

theorem exec_blkSt_outOfBounds (hp : s.pend = some p) {t : RasterTarget} (ht : s.resolveWritable p.cmd rs d = .ok t)
    (hs : s.blkSize.toNat ∈ Config.blockSizes) (first : s.FirstOutside t.w t.h i j) :
    exec (.blkSt rs d) s = .next (s.takeFault (outOfBoundsAt (u32 s.blkPosX + i) (u32 s.blkPosY + j))) :=
  State.runCommand_error hp (by simp only [ht, sizeFault_legal hs (by decide), first.find, State.heldCell])

theorem exec_sobBlkFlag_outOfBounds (hp : s.pend = some p) (hs : s.blkSize.toNat ∈ Config.blockSizes)
    (hd : ¬ (s.emapW = 0 ∨ s.emapW ≠ s.frameW ∨ s.emapH ≠ s.frameH))
    (first : s.FirstOutside s.emapW.toNat s.emapH.toNat i j) :
    exec .sobBlkFlag s = .next (s.takeFault (outOfBoundsAt (u32 s.blkPosX + i) (u32 s.blkPosY + j))) :=
  State.runCommand_error hp (by simp only [sizeFault_legal hs (by decide), if_neg hd, first.find, State.heldCell])

theorem exec_motSearch_outOfBounds (hp : s.pend = some p) {ref : RasterView} (hr : s.resolveRef p.cmd rs d = .ok ref)
    (legal : s.frameLegal) (hs : s.blkSize.toNat ∈ Config.blockSizes)
    (hd : ¬ (ref.w ≠ s.frameW.toNat ∨ ref.h ≠ s.frameH.toNat)) (first : s.FirstOutside ref.w ref.h i j) :
    exec (.motSearch rs d) s = .next (s.takeFault (outOfBoundsAt (u32 s.blkPosX + i) (u32 s.blkPosY + j))) :=
  State.runCommand_error hp (by
    simp only [hr, if_neg (not_not.mpr legal), sizeFault_legal hs (by decide), if_neg hd, first.find, State.heldCell])

end

/-- R206: an entry with a legal size whose origin lies outside the frame. -/
theorem State.entryFault_outOfBounds {s : State} {e : Nat} (hs : u32 (s.vtab e 2) % 256 ∈ Config.blockSizes)
    (out : ¬ (u32 (s.vtab e 0) < s.frameW.toNat ∧ u32 (s.vtab e 1) < s.frameH.toNat)) :
    s.entryFault e = some ⟨.outOfBounds, BitVec.ofNat 32 e⟩ := by
  have beyond : s.frameW.toNat ≤ u32 (s.vtab e 0) ∨ s.frameH.toNat ≤ u32 (s.vtab e 1) := by omega
  simp only [State.entryFault, s.entrySize_eq, sizeFault_legal hs (by decide), if_pos beyond]

/-- Settles O25: each command reaches its position test and takes the fault there. -/
theorem positionOutOfBoundsFaults : Obligations.PositionOutOfBoundsFaults := by
  unfold Obligations.PositionOutOfBoundsFaults
  intro s p rs d hp x y faulted position sizes n x0 y0 firstOutside
  have fault (x y : Nat) : Host.Outcome.next (s.takeFault (outOfBoundsAt x y)) = faulted (position x y) :=
    congrArg _ (s.takeFault_outOfBoundsAt x y)
  refine ⟨fun v hv out => ?_, fun t ht out => (exec_rasSet_outOfBounds hp ht out).trans (fault _ _),
    fun t i j ht hs first => (exec_blkSt_outOfBounds hp ht hs first).trans (fault _ _), fun i j hs h0 hw hh first => ?_,
    fun ref hr legal hw hh => ?_⟩
  · obtain ⟨rasGet, sobPix, blkLd⟩ := exec_rasterRead_outOfBounds hp hv out
    exact ⟨rasGet.trans (fault _ _), sobPix.trans (fault _ _), fun hs => (blkLd hs).trans (fault _ _)⟩
  · have equal : ¬ (s.emapW = 0 ∨ s.emapW ≠ s.frameW ∨ s.emapH ≠ s.frameH) := by tauto
    exact (exec_sobBlkFlag_outOfBounds hp hs equal first).trans (fault _ _)
  · have equal : ¬ (ref.w ≠ s.frameW.toNat ∨ ref.h ≠ s.frameH.toNat) := by simp [hw, hh]
    refine ⟨fun i j hs first => (exec_motSearch_outOfBounds hp hr legal hs equal first).trans (fault _ _), ?_⟩
    intro size inside e he hn before hs out
    have passed (k : Nat) (hk : k < e) : s.entryFault k = none := by
      obtain ⟨hsk, hx, hy⟩ := before k hk
      exact State.entryFault_eq_none hsk hx hy
    exact exec_motBatch_entryFault hp hr legal (Nat.not_lt.mpr hn) equal he (State.entryFault_outOfBounds hs out) passed

end Sys2Proof.Machine
end

section
/-! Rounding and clamping (spec/00_scope.md R15), the channels of a composed pixel (R14), and the colour formulas
(spec/41_colour.md R121 to R123, R129). -/

namespace Sys2Proof.Machine

/-! ### Rounding and clamping -/

/-- R15: the integer rounding of a quotient is the rounding of the real quotient. -/
theorem rndDiv_eq_rndReal (a : Int) {b : Int} (hb : 0 < b) : rndDiv a b = rndReal ((a : ℝ) / b) := by
  have hb' : (b : ℝ) ≠ 0 := Int.cast_ne_zero.mpr hb.ne'
  have half : (a : ℝ) / b + 1 / 2 = ((2 * a + b : Int) : ℝ) / ((2 * b : Int) : ℝ) := by
    push_cast
    field_simp
  rw [rndDiv, rndReal, half, Int.floor_div_cast_of_nonneg (by omega), Int.floor_intCast]

/-- The rounding of a quotient is at most a half away from it. -/
theorem rndDiv_bounds (a : Int) {b : Int} (hb : 0 < b) :
    2 * a - b < 2 * b * rndDiv a b ∧ 2 * b * rndDiv a b ≤ 2 * a + b := by
  have floor := Int.mul_ediv_add_emod (2 * a + b) (2 * b)
  have low := Int.emod_nonneg (2 * a + b) (show 2 * b ≠ 0 by omega)
  have high := Int.emod_lt_of_pos (2 * a + b) (show 0 < 2 * b by omega)
  rw [rndDiv]
  omega

theorem clamp255_range (n : Int) : 0 ≤ clamp255 n ∧ clamp255 n ≤ 255 := by
  rw [clamp255]
  omega

/-- Clamping brings a number no farther from a channel value. -/
theorem clamp255_near {n c : Int} (hc : 0 ≤ c ∧ c ≤ 255) : (clamp255 n - c).natAbs ≤ (n - c).natAbs := by
  rw [clamp255]
  omega

/-- A quotient less than one and a half away from a channel value is rounded and clamped to within 1 of it. -/
theorem clamp255_rndDiv_near {a b c : Int} (hb : 0 < b) (hc : 0 ≤ c ∧ c ≤ 255)
    (low : 2 * (b * c) - 3 * b < 2 * a) (high : 2 * a < 2 * (b * c) + 3 * b) :
    (clamp255 (rndDiv a b) - c).natAbs ≤ 1 := by
  obtain ⟨h1, h2⟩ := rndDiv_bounds a hb
  have above : c - 2 < rndDiv a b := by nlinarith
  have below : rndDiv a b < c + 2 := by nlinarith
  exact (clamp255_near hc).trans (by omega)

/-! ### Channels -/

theorem chR_lt (w : Word) : chR w < 256 := BitVec.isLt _

theorem chG_lt (w : Word) : chG w < 256 := BitVec.isLt _

theorem chB_lt (w : Word) : chB w < 256 := BitVec.isLt _

theorem toNat_ofInt_byte {n : Int} (h : 0 ≤ n ∧ n ≤ 255) : ((BitVec.ofInt 8 n).toNat : Int) = n := by
  rw [BitVec.toNat_ofInt]
  omega

section
variable {a r g b : Int}

/-- R14: a composed pixel has the channels it is made of. -/
theorem chR_argb (hr : 0 ≤ r ∧ r ≤ 255) : (chR (argb a r g b) : Int) = r := by
  have byte : (argb a r g b).extractLsb' 16 8 = BitVec.ofInt 8 r :=
    (BitVec.extractLsb'_append_eq_of_le (by decide)).trans
      ((BitVec.extractLsb'_append_eq_of_le (by decide)).trans BitVec.extractLsb'_append_eq_right)
  rw [chR, byte, toNat_ofInt_byte hr]

theorem chG_argb (hg : 0 ≤ g ∧ g ≤ 255) : (chG (argb a r g b) : Int) = g := by
  have byte : (argb a r g b).extractLsb' 8 8 = BitVec.ofInt 8 g :=
    (BitVec.extractLsb'_append_eq_of_le (by decide)).trans BitVec.extractLsb'_append_eq_right
  rw [chG, byte, toNat_ofInt_byte hg]

theorem chB_argb (hb : 0 ≤ b ∧ b ≤ 255) : (chB (argb a r g b) : Int) = b := by
  have byte : (argb a r g b).extractLsb' 0 8 = BitVec.ofInt 8 b := BitVec.extractLsb'_append_eq_right
  rw [chB, byte, toNat_ofInt_byte hb]

end

/-- A number of a luma or chroma is read back from its word (R12). -/
theorem s32_w32 {n : Int} (h : 0 ≤ n ∧ n ≤ 256) : s32 (w32 n) = n := by
  rw [s32, w32, BitVec.toInt_ofInt, Int.bmod_eq_of_le (by omega) (by omega)]

/-! ### The forward formulas -/

section
variable {r g b : Int}

/-- The unrounded luma times 1000 lies in the range that R121 derives. -/
theorem lumaSum_range (hr : 0 ≤ r ∧ r ≤ 255) (hg : 0 ≤ g ∧ g ≤ 255) (hb : 0 ≤ b ∧ b ≤ 255) :
    0 ≤ lumaSum r g b ∧ lumaSum r g b ≤ 255000 := by
  rw [lumaSum]
  omega

theorem luma_eq (r g b : Int) : luma r g b = (2 * lumaSum r g b + 1000) / 2000 := rfl

theorem chromaB_eq (r g b : Int) : chromaB r g b = 128 + (2 * (1000 * b - lumaSum r g b) + 1772) / 3544 := rfl

theorem chromaR_eq (r g b : Int) : chromaR r g b = 128 + (2 * (1000 * r - lumaSum r g b) + 1402) / 2804 := rfl

/-- R121. -/
theorem luma_range (hr : 0 ≤ r ∧ r ≤ 255) (hg : 0 ≤ g ∧ g ≤ 255) (hb : 0 ≤ b ∧ b ≤ 255) :
    0 ≤ luma r g b ∧ luma r g b ≤ 255 := by
  have T := lumaSum_range hr hg hb
  rw [luma_eq]
  omega

/-- R122. -/
theorem chromaB_range (hr : 0 ≤ r ∧ r ≤ 255) (hg : 0 ≤ g ∧ g ≤ 255) (hb : 0 ≤ b ∧ b ≤ 255) :
    1 ≤ chromaB r g b ∧ chromaB r g b ≤ 256 := by
  rw [chromaB_eq, lumaSum]
  omega

theorem chromaR_range (hr : 0 ≤ r ∧ r ≤ 255) (hg : 0 ≤ g ∧ g ≤ 255) (hb : 0 ≤ b ∧ b ≤ 255) :
    1 ≤ chromaR r g b ∧ chromaR r g b ≤ 256 := by
  rw [chromaR_eq, lumaSum]
  omega

/-! ### Forward and back

Each inverse formula cancels the forward ones up to their rounding errors, whose weighted sum stays under one and a half. -/

/-- R129 for the red channel: the errors sum to at most 1/2 + 1402/2000. -/
theorem invR_forward_near (g b : Int) (hr : 0 ≤ r ∧ r ≤ 255) :
    (invR (luma r g b) (chromaB r g b) (chromaR r g b) - r).natAbs ≤ 1 := by
  have y := rndDiv_bounds (lumaSum r g b) (show (0 : Int) < 1000 by decide)
  have cr := rndDiv_bounds (1000 * r - lumaSum r g b) (show (0 : Int) < 1402 by decide)
  refine clamp255_rndDiv_near (by decide) hr ?_ ?_ <;> rw [luma, chromaR] <;> omega

/-- R129 for the green channel: the errors sum to at most 1/2 + (202008 + 419198)/1174000. -/
theorem invG_forward_near (r b : Int) (hg : 0 ≤ g ∧ g ≤ 255) :
    (invG (luma r g b) (chromaB r g b) (chromaR r g b) - g).natAbs ≤ 1 := by
  have T : lumaSum r g b = 299 * r + 587 * g + 114 * b := rfl
  have y := rndDiv_bounds (lumaSum r g b) (show (0 : Int) < 1000 by decide)
  have cb := rndDiv_bounds (1000 * b - lumaSum r g b) (show (0 : Int) < 1772 by decide)
  have cr := rndDiv_bounds (1000 * r - lumaSum r g b) (show (0 : Int) < 1402 by decide)
  refine clamp255_rndDiv_near (by decide) hg ?_ ?_ <;> rw [luma, chromaB, chromaR] <;> omega

/-- R129 for the blue channel: the errors sum to at most 1/2 + 1772/2000. -/
theorem invB_forward_near (r g : Int) (hb : 0 ≤ b ∧ b ≤ 255) :
    (invB (luma r g b) (chromaB r g b) (chromaR r g b) - b).natAbs ≤ 1 := by
  have y := rndDiv_bounds (lumaSum r g b) (show (0 : Int) < 1000 by decide)
  have cb := rndDiv_bounds (1000 * b - lumaSum r g b) (show (0 : Int) < 1772 by decide)
  refine clamp255_rndDiv_near (by decide) hb ?_ ?_ <;> rw [luma, chromaB] <;> omega

end

end Sys2Proof.Machine
end

section
/-! The single-pixel colour commands and the ranges of the colour formulas (spec/41_colour.md R121 to R126, R129). -/

namespace Sys2Proof.Machine

/-- A channel as an integer. -/
theorem channel_range {n : Nat} (h : n < 256) : (0 : Int) ≤ n ∧ (n : Int) ≤ 255 := by omega

/-! ### The inverse formulas over the reals -/

/-- R123: the three quotients that are rounded and clamped. -/
theorem invR_eq_rndReal (y cb cr : Int) :
    invR y cb cr = max 0 (min 255 (rndReal (y + 1402 * ((cr : ℝ) - 128) / 1000))) := by
  have quotient : (y : ℝ) + 1402 * ((cr : ℝ) - 128) / 1000
      = ((1000 * y + 1402 * (cr - 128) : Int) : ℝ) / ((1000 : Int) : ℝ) := by
    push_cast
    ring
  rw [quotient, ← rndDiv_eq_rndReal _ (by decide)]
  rfl

theorem invG_eq_rndReal (y cb cr : Int) :
    invG y cb cr
      = max 0 (min 255 (rndReal (y - (202008 * ((cb : ℝ) - 128) + 419198 * ((cr : ℝ) - 128)) / 587000))) := by
  have quotient : (y : ℝ) - (202008 * ((cb : ℝ) - 128) + 419198 * ((cr : ℝ) - 128)) / 587000
      = ((587000 * y - (202008 * (cb - 128) + 419198 * (cr - 128)) : Int) : ℝ) / ((587000 : Int) : ℝ) := by
    push_cast
    ring
  rw [quotient, ← rndDiv_eq_rndReal _ (by decide)]
  rfl

theorem invB_eq_rndReal (y cb cr : Int) :
    invB y cb cr = max 0 (min 255 (rndReal (y + 1772 * ((cb : ℝ) - 128) / 1000))) := by
  have quotient : (y : ℝ) + 1772 * ((cb : ℝ) - 128) / 1000
      = ((1000 * y + 1772 * (cb - 128) : Int) : ℝ) / ((1000 : Int) : ℝ) := by
    push_cast
    ring
  rw [quotient, ← rndDiv_eq_rndReal _ (by decide)]
  rfl

/-! ### The commands -/

/-- What completing with three results changes. -/
theorem State.complete_threeResults (s : State) (a b c : Word) :
    (((s.setResult 0 a).setResult 1 b).setResult 2 c).complete
      = { s with results := ((s.results.set 0 a).set 1 b).set 2 c, statusDone := true, pend := none } := by
  rw [State.complete_setResult]
  rfl

section
variable {s : State} {p : Pend}

/-- R124. -/
theorem exec_colRgb2Ycc (hp : s.pend = some p) :
    exec .colRgb2Ycc s = .next
      { s with results := ((s.results.set 0 (w32 (pixLuma (p.arg 0)))).set 1 (w32 (pixCb (p.arg 0)))).set 2
                 (w32 (pixCr (p.arg 0)))
               statusDone := true, pend := none } := by
  rw [← State.complete_threeResults]
  change execColRgb2Ycc s = _
  exact State.runCommand_ok hp rfl

/-- R125. -/
theorem exec_colYcc2Rgb (hp : s.pend = some p) :
    exec .colYcc2Rgb s = .next
      { s with results := s.results.set 0 (yccPixel (s32 (p.arg 0)) (s32 (p.arg 1)) (s32 (p.arg 2)))
               statusDone := true, pend := none } := by
  change execColYcc2Rgb s = .next (s.setResult 0 _).complete
  exact State.runCommand_ok hp rfl

/-- R126. -/
theorem exec_colGray (hp : s.pend = some p) :
    exec .colGray s
      = .next { s with results := s.results.set 0 (w32 (pixLuma (p.arg 0))), statusDone := true, pend := none } := by
  change execColGray s = .next (s.setResult 0 _).complete
  exact State.runCommand_ok hp rfl

end

/-- Settles O34. -/
theorem pixelColourCommands : Obligations.PixelColourCommands := by
  unfold Obligations.PixelColourCommands
  exact ⟨fun s p hp => ⟨exec_colRgb2Ycc hp, exec_colGray hp, exec_colYcc2Rgb hp⟩,
    fun y cb cr => ⟨invR_eq_rndReal y cb cr, invG_eq_rndReal y cb cr, invB_eq_rndReal y cb cr⟩⟩

/-- Settles O35: the closed forms are those of the definitions, the ranges follow from the channels'. -/
theorem forwardColourFormulasAndRanges : Obligations.ForwardColourFormulasAndRanges := by
  unfold Obligations.ForwardColourFormulasAndRanges
  refine ⟨fun r g b hr hg hb => ?_, by decide⟩
  have hr := channel_range (Nat.lt_succ_of_le hr)
  have hg := channel_range (Nat.lt_succ_of_le hg)
  have hb := channel_range (Nat.lt_succ_of_le hb)
  exact ⟨lumaSum_range hr hg hb, luma_eq r g b, luma_range hr hg hb, chromaB_eq r g b, chromaB_range hr hg hb,
    chromaR_eq r g b, chromaR_range hr hg hb⟩

/-! ### Forward and back -/

section
variable (y cb cr : Int)

/-- R125: the channels of the pixel of three samples. -/
theorem chR_yccPixel : (chR (yccPixel y cb cr) : Int) = invR y cb cr := chR_argb (clamp255_range _)

theorem chG_yccPixel : (chG (yccPixel y cb cr) : Int) = invG y cb cr := chG_argb (clamp255_range _)

theorem chB_yccPixel : (chB (yccPixel y cb cr) : Int) = invB y cb cr := chB_argb (clamp255_range _)

end

section
variable (p : Word)

/-- The three words that `COL.RGB2YCC` reports are read back as the numbers they stand for. -/
theorem s32_w32_samples :
    s32 (w32 (pixLuma p)) = pixLuma p ∧ s32 (w32 (pixCb p)) = pixCb p ∧ s32 (w32 (pixCr p)) = pixCr p := by
  have hr := channel_range (chR_lt p)
  have hg := channel_range (chG_lt p)
  have hb := channel_range (chB_lt p)
  have y : 0 ≤ pixLuma p ∧ pixLuma p ≤ 255 := luma_range hr hg hb
  have cb : 1 ≤ pixCb p ∧ pixCb p ≤ 256 := chromaB_range hr hg hb
  have cr : 1 ≤ pixCr p ∧ pixCr p ≤ 256 := chromaR_range hr hg hb
  exact ⟨s32_w32 ⟨y.1, by omega⟩, s32_w32 ⟨by omega, cb.2⟩, s32_w32 ⟨by omega, cr.2⟩⟩

/-- R129 for a pixel and the pixel of its three samples. -/
theorem yccPixel_samples_near :
    ((chR (yccPixel (pixLuma p) (pixCb p) (pixCr p)) : Int) - chR p).natAbs ≤ 1
      ∧ ((chG (yccPixel (pixLuma p) (pixCb p) (pixCr p)) : Int) - chG p).natAbs ≤ 1
      ∧ ((chB (yccPixel (pixLuma p) (pixCb p) (pixCr p)) : Int) - chB p).natAbs ≤ 1 := by
  rw [chR_yccPixel, chG_yccPixel, chB_yccPixel]
  exact ⟨invR_forward_near _ _ (channel_range (chR_lt p)), invG_forward_near _ _ (channel_range (chG_lt p)),
    invB_forward_near _ _ (channel_range (chB_lt p))⟩

end

/-- Settles O36: the back conversion's operands are the pixel's samples, and (0, 0, 5) is evaluated. -/
theorem colourRoundTripWithinOne : Obligations.ColourRoundTripWithinOne := by
  unfold Obligations.ColourRoundTripWithinOne
  refine ⟨fun s t u p q hp ht hq h0 h1 h2 => ?_, by decide⟩
  obtain rfl := Host.Outcome.next.inj ((exec_colRgb2Ycc hp).symm.trans ht)
  obtain ⟨y, cb, cr⟩ := s32_w32_samples (p.arg 0)
  have operands : q.arg 0 = w32 (pixLuma (p.arg 0)) ∧ q.arg 1 = w32 (pixCb (p.arg 0)) ∧ q.arg 2 = w32 (pixCr (p.arg 0)) := by
    rw [h0, h1, h2]
    simp
  refine ⟨_, exec_colYcc2Rgb hq, ?_⟩
  rw [Vector.getElem_set_self, operands.1, operands.2.1, operands.2.2, y, cb, cr]
  exact yccPixel_samples_near (p.arg 0)

end Sys2Proof.Machine
end

section
/-! What runs of stored words leave in memory (spec/10_state.md R42, R43), and the two block colour commands
(spec/41_colour.md R127, R128). -/

namespace Sys2Proof.Machine

/-! ### Runs of stored words -/

section
variable {s t : State} {base n : Nat} {f : Nat → Word}

/-- The words that a store of `f 0`, `f 1`, and so on leaves. -/
theorem State.holdsWords_writeWords (s : State) (base n : Nat) (f : Nat → Word) :
    (s.writeWords base ((List.range n).map f)).HoldsWords base n f := by
  intro k hk
  rw [s.wordAt_writeWords_inside base _ k (by simpa using hk), List.getElem_map, List.getElem_range]

/-- A store beside a run of words leaves them. -/
theorem State.HoldsWords.writeWords (h : t.HoldsWords base n f) {start : Nat} {ws : List Word}
    (apart : base + 4 * n ≤ start ∨ start + 4 * ws.length ≤ base) : (t.writeWords start ws).HoldsWords base n f := by
  intro k hk
  rw [t.wordAt_writeWords_outside start ws _ (by omega), h k hk]

/-- A store inside the addresses that may change keeps the bytes outside them. -/
theorem State.KeepsBytes.writeWords {stored : Nat → Prop} (h : s.KeepsBytes t stored) {start : Nat} {ws : List Word}
    (inside : ∀ a, inRun start (4 * ws.length) a → stored a) : s.KeepsBytes (t.writeWords start ws) stored := by
  intro a ha
  have outside : ¬ inRun start (4 * ws.length) a := fun hr => ha (inside a hr)
  rw [t.byteAt_writeWords_outside start ws a (by omega), h a ha]

/-- The end of the command and the size of the block or of the planes leave the memory. -/
theorem State.HoldsWords.complete_sizes (h : t.HoldsWords base n f) {b m : BitVec 8} :
    (State.complete { t with blkSize := b, splSize := m }).HoldsWords base n f := h

theorem State.KeepsBytes.complete_sizes {stored : Nat → Prop} (h : s.KeepsBytes t stored) {b m : BitVec 8} :
    s.KeepsBytes (State.complete { t with blkSize := b, splSize := m }) stored := h

end

/-! ### The buffers of a block -/

/-- The state after `n` words are stored in each plane of `SPL` (R43). -/
def State.fillPlanes (s : State) (n : Nat) (y cb cr : Nat → Word) : State :=
  ((s.writeWords splYBase ((List.range n).map y)).writeWords splCbBase ((List.range n).map cb)).writeWords splCrBase
    ((List.range n).map cr)

/-- The state after `n` words are stored in each buffer of `BLK` (R42). -/
def State.fillBlock (s : State) (n : Nat) (pix ign : Nat → Word) : State :=
  (s.writeWords blkPixBase ((List.range n).map pix)).writeWords blkIgnBase ((List.range n).map ign)

section
variable (s : State) {n : Nat}

/-- Filling the planes changes the memory only. -/
theorem State.fillPlanes_eq (y cb cr : Nat → Word) :
    s.fillPlanes n y cb cr = { s with mem := (s.fillPlanes n y cb cr).mem } := by
  cases s
  rfl

theorem State.fillPlanes_holdsWords (hn : n ≤ 256) (y cb cr : Nat → Word) :
    (s.fillPlanes n y cb cr).HoldsWords splYBase n y ∧ (s.fillPlanes n y cb cr).HoldsWords splCbBase n cb
      ∧ (s.fillPlanes n y cb cr).HoldsWords splCrBase n cr := by
  have apart (base : Nat) : base + 4 * n ≤ base + 1024 := by omega
  exact ⟨((State.holdsWords_writeWords _ _ _ _).writeWords (.inl (apart splYBase))).writeWords
      (.inl ((apart splYBase).trans (by decide))),
    (State.holdsWords_writeWords _ _ _ _).writeWords (.inl (apart splCbBase)), State.holdsWords_writeWords _ _ _ _⟩

theorem State.fillPlanes_keepsBytes (y cb cr : Nat → Word) : s.KeepsBytes (s.fillPlanes n y cb cr)
    fun a => inRun splYBase (4 * n) a ∨ inRun splCbBase (4 * n) a ∨ inRun splCrBase (4 * n) a := by
  have start : s.KeepsBytes s
      fun a => inRun splYBase (4 * n) a ∨ inRun splCbBase (4 * n) a ∨ inRun splCrBase (4 * n) a := fun _ _ => rfl
  refine ((start.writeWords ?_).writeWords ?_).writeWords ?_
  all_goals
    rw [List.length_map, List.length_range]
    tauto

/-- Filling the buffers of the block changes the memory only. -/
theorem State.fillBlock_eq (pix ign : Nat → Word) :
    s.fillBlock n pix ign = { s with mem := (s.fillBlock n pix ign).mem } := by
  cases s
  rfl

theorem State.fillBlock_holdsWords (hn : n ≤ 4096) (pix ign : Nat → Word) :
    (s.fillBlock n pix ign).HoldsWords blkPixBase n pix ∧ (s.fillBlock n pix ign).HoldsWords blkIgnBase n ign := by
  have apart : blkPixBase + 4 * n ≤ blkIgnBase := by
    simp only [blkPixBase, blkIgnBase]
    omega
  exact ⟨(State.holdsWords_writeWords _ _ _ _).writeWords (.inl apart), State.holdsWords_writeWords _ _ _ _⟩

theorem State.fillBlock_keepsBytes (pix ign : Nat → Word) : s.KeepsBytes (s.fillBlock n pix ign)
    fun a => inRun blkPixBase (4 * n) a ∨ inRun blkIgnBase (4 * n) a := by
  have start : s.KeepsBytes s fun a => inRun blkPixBase (4 * n) a ∨ inRun blkIgnBase (4 * n) a := fun _ _ => rfl
  refine (start.writeWords ?_).writeWords ?_
  all_goals
    rw [List.length_map, List.length_range]
    tauto

end

/-! ### The commands -/

section
variable {s : State} {p : Pend}

/-- R127: a block without ignored cells. -/
theorem exec_colBlk2Ycc_of_visible (hp : s.pend = some p) (hs : s.blkSize.toNat ∈ Config.xformSizes)
    (visible : ∀ k < s.blkSize.toNat * s.blkSize.toNat, s.blkIgn k = false) :
    exec .colBlk2Ycc s = .next (State.complete
      { s.fillPlanes (s.blkSize.toNat * s.blkSize.toNat) (fun k => w32 (pixLuma (s.blkPix k)))
          (fun k => w32 (pixCb (s.blkPix k))) (fun k => w32 (pixCr (s.blkPix k))) with splSize := s.blkSize }) := by
  have none_ignored : (List.range (s.blkSize.toNat * s.blkSize.toNat)).find? s.blkIgn = none :=
    List.find?_eq_none.mpr fun k hk => ne_true_of_eq_false (visible k (List.mem_range.mp hk))
  exact State.runCommand_ok hp (by simp only [sizeFault_legal hs (by decide), none_ignored, State.fillPlanes])

/-- R127: the lowest ignored cell. -/
theorem exec_colBlk2Ycc_of_ignored (hp : s.pend = some p) (hs : s.blkSize.toNat ∈ Config.xformSizes) {k : Nat}
    (hk : k < s.blkSize.toNat * s.blkSize.toNat) (ignored : s.blkIgn k = true) (lowest : ∀ j < k, s.blkIgn j = false) :
    exec .colBlk2Ycc s = .next (s.takeFault ⟨.maskedCell, BitVec.ofNat 32 k⟩) := by
  have found : (List.range (s.blkSize.toNat * s.blkSize.toNat)).find? s.blkIgn = some k :=
    List.find?_range_eq_some.mpr ⟨ignored, List.mem_range.mpr hk, fun j hj => by rw [lowest j hj, Bool.not_false]⟩
  exact State.runCommand_error hp (by simp only [sizeFault_legal hs (by decide), found])

/-- R128. -/
theorem exec_colBlk2Rgb_of_legal (hp : s.pend = some p) (hs : s.splSize.toNat ∈ Config.xformSizes) :
    exec .colBlk2Rgb s = .next (State.complete
      { s.fillBlock (s.splSize.toNat * s.splSize.toNat)
          (fun k => yccPixel (s32 (s.wordAt (splYBase + 4 * k))) (s32 (s.wordAt (splCbBase + 4 * k)))
            (s32 (s.wordAt (splCrBase + 4 * k)))) (fun _ => 0#32) with blkSize := s.splSize }) :=
  State.runCommand_ok hp (by simp only [sizeFault_legal hs (by decide), State.fillBlock])

end

/-- Settles O37: the test pass over the ignore flags finds none, or the lowest one. -/
theorem blockColourForward : Obligations.BlockColourForward := by
  unfold Obligations.BlockColourForward
  intro s p hp hs n
  refine ⟨fun visible => ?_, fun k hk ignored lowest => exec_colBlk2Ycc_of_ignored hp hs hk ignored lowest⟩
  obtain ⟨y, cb, cr⟩ := s.fillPlanes_holdsWords (sq_le_of_xformSize hs) (fun k => w32 (pixLuma (s.blkPix k)))
    (fun k => w32 (pixCb (s.blkPix k))) (fun k => w32 (pixCr (s.blkPix k)))
  refine ⟨_, exec_colBlk2Ycc_of_visible hp hs visible, ?_, y.complete_sizes, cb.complete_sizes, cr.complete_sizes,
    (s.fillPlanes_keepsBytes _ _ _).complete_sizes⟩
  rw [State.fillPlanes_eq]
  rfl

/-- Settles O38: the two buffers of the block, filled. -/
theorem blockColourBack : Obligations.BlockColourBack := by
  unfold Obligations.BlockColourBack
  intro s p hp hs n y cb cr
  have area : n ≤ 4096 := (sq_le_of_xformSize hs).trans (by decide)
  obtain ⟨pix, ign⟩ := s.fillBlock_holdsWords area (fun k => yccPixel (y k) (cb k) (cr k)) fun _ => 0
  refine ⟨_, exec_colBlk2Rgb_of_legal hp hs, ?_, pix.complete_sizes, ign.complete_sizes,
    (s.fillBlock_keepsBytes _ _).complete_sizes⟩
  rw [State.fillBlock_eq]
  rfl

end Sys2Proof.Machine
end

section
/-! The Sobel gradients as kernel sums, their ranges, and the commands that report them (spec/42_sobel.md R140 to R146). -/

namespace Sys2Proof.Machine

/-! ### Samples -/

/-- R121, R140: the luma of a pixel. -/
theorem pixLuma_range (p : Word) : 0 ≤ pixLuma p ∧ pixLuma p ≤ 255 :=
  luma_range (channel_range (chR_lt p)) (channel_range (chG_lt p)) (channel_range (chB_lt p))

section
variable (v : RasterView)

theorem sobelSample_range (x y : Int) : 0 ≤ sobelSample v x y ∧ sobelSample v x y ≤ 255 := pixLuma_range _

section
variable (x y x' y' x'' y'' : Int)

/-- R143: one side of a gradient, three samples of weights 1, 2 and 1. -/
theorem sobelSample_side_range :
    0 ≤ sobelSample v x y + 2 * sobelSample v x' y' + sobelSample v x'' y''
      ∧ sobelSample v x y + 2 * sobelSample v x' y' + sobelSample v x'' y'' ≤ 1020 := by
  have first := sobelSample_range v x y
  have middle := sobelSample_range v x' y'
  have last := sobelSample_range v x'' y''
  omega

/-- R144: twice three samples. -/
theorem sobelSample_triple_range :
    0 ≤ 2 * (sobelSample v x y + sobelSample v x' y' + sobelSample v x'' y'')
      ∧ 2 * (sobelSample v x y + sobelSample v x' y' + sobelSample v x'' y'') ≤ 1530 := by
  have first := sobelSample_range v x y
  have middle := sobelSample_range v x' y'
  have last := sobelSample_range v x'' y''
  omega

end

end

/-! ### Kernels -/

/-- The sum of a 3 by 3 kernel, rows top to bottom, over the samples around `(x, y)` (R143). -/
def kernelSum (sample : Int → Int → Int) (kernel : List (List Int)) (x y : Int) : Int :=
  ∑ j ∈ Finset.range 3, ∑ i ∈ Finset.range 3, (kernel.getD j []).getD i 0 * sample (x + i - 1) (y + j - 1)

/-- The nine terms of a kernel sum. -/
theorem kernelSum_eq (sample : Int → Int → Int) (a b c d e f g h k x y : Int) :
    kernelSum sample [[a, b, c], [d, e, f], [g, h, k]] x y
      = (a * sample (x - 1) (y - 1) + b * sample x (y - 1) + c * sample (x + 1) (y - 1))
        + (d * sample (x - 1) y + e * sample x y + f * sample (x + 1) y)
        + (g * sample (x - 1) (y + 1) + h * sample x (y + 1) + k * sample (x + 1) (y + 1)) := by
  have before (z : Int) : z + ((0 : Nat) : Int) - 1 = z - 1 := by omega
  have at_center (z : Int) : z + ((1 : Nat) : Int) - 1 = z := by omega
  have after (z : Int) : z + ((2 : Nat) : Int) - 1 = z + 1 := by omega
  simp only [kernelSum, Finset.sum_range_succ, Finset.sum_range_zero, zero_add, before, at_center, after,
    List.getD_cons_zero, List.getD_cons_succ]

section
variable (v : RasterView)

/-- R143: the two gradients by their printed kernels. -/
theorem sobelGx_eq_kernelSum (x y : Int) :
    sobelGx v x y = kernelSum (sobelSample v) [[-1, 0, 1], [-2, 0, 2], [-1, 0, 1]] x y := by
  rw [kernelSum_eq, sobelGx]
  ring

theorem sobelGy_eq_kernelSum (x y : Int) :
    sobelGy v x y = kernelSum (sobelSample v) [[-1, -2, -1], [0, 0, 0], [1, 2, 1]] x y := by
  rw [kernelSum_eq, sobelGy]
  ring

/-! ### Ranges -/

/-- R143: a gradient is the difference of two sums of weight 4. -/
theorem sobelGx_natAbs_le (x y : Int) : (sobelGx v x y).natAbs ≤ 1020 := by
  have right := sobelSample_side_range v (x + 1) (y - 1) (x + 1) y (x + 1) (y + 1)
  have left := sobelSample_side_range v (x - 1) (y - 1) (x - 1) y (x - 1) (y + 1)
  rw [sobelGx]
  omega

theorem sobelGy_natAbs_le (x y : Int) : (sobelGy v x y).natAbs ≤ 1020 := by
  have below := sobelSample_side_range v (x - 1) (y + 1) x (y + 1) (x + 1) (y + 1)
  have above := sobelSample_side_range v (x - 1) (y - 1) x (y - 1) (x + 1) (y - 1)
  rw [sobelGy]
  omega

/-- R144: in the sum and in the difference of the gradients two corners cancel, which leaves twice three samples less twice
three others. -/
theorem sobelGx_add_sobelGy (x y : Int) :
    sobelGx v x y + sobelGy v x y
      = 2 * (sobelSample v (x + 1) y + sobelSample v (x + 1) (y + 1) + sobelSample v x (y + 1))
        - 2 * (sobelSample v (x - 1) (y - 1) + sobelSample v (x - 1) y + sobelSample v x (y - 1)) := by
  rw [sobelGx, sobelGy]
  ring

theorem sobelGx_sub_sobelGy (x y : Int) :
    sobelGx v x y - sobelGy v x y
      = 2 * (sobelSample v x (y - 1) + sobelSample v (x + 1) (y - 1) + sobelSample v (x + 1) y)
        - 2 * (sobelSample v (x - 1) y + sobelSample v (x - 1) (y + 1) + sobelSample v x (y + 1)) := by
  rw [sobelGx, sobelGy]
  ring

/-- R144: the magnitude is the larger of the sum's and the difference's absolute value. -/
theorem sobelMag_le (x y : Nat) : sobelMag v x y ≤ 1530 := by
  have sum : (sobelGx v x y + sobelGy v x y).natAbs ≤ 1530 := by
    have added := sobelSample_triple_range v (x + 1) y (x + 1) (y + 1) x (y + 1)
    have taken := sobelSample_triple_range v (x - 1) (y - 1) (x - 1) y x (y - 1)
    rw [sobelGx_add_sobelGy]
    omega
  have difference : (sobelGx v x y - sobelGy v x y).natAbs ≤ 1530 := by
    have added := sobelSample_triple_range v x (y - 1) (x + 1) (y - 1) (x + 1) y
    have taken := sobelSample_triple_range v (x - 1) y (x - 1) (y + 1) x (y + 1)
    rw [sobelGx_sub_sobelGy]
    omega
  rw [sobelMag]
  omega

/-- R144: equal samples cancel in both gradients. -/
theorem sobelMag_of_uniform (uniform : ∀ k l, pixLuma (v.pix k) = pixLuma (v.pix l)) (x y : Nat) : sobelMag v x y = 0 := by
  have sample (x' y' : Int) : sobelSample v x' y' = pixLuma (v.pix 0) := uniform _ _
  have gx : sobelGx v x y = 0 := by
    simp only [sobelGx, sample]
    omega
  have gy : sobelGy v x y = 0 := by
    simp only [sobelGy, sample]
    omega
  rw [sobelMag, gx, gy]
  rfl

end

/-- White but for a black corner at `(0, 0)`, where the clamped neighbours repeat the black. -/
def blackCorner : RasterView := ⟨2, 2, fun k => if k = 0 then 0xFF000000#32 else 0xFFFFFFFF#32⟩

theorem sobelMag_blackCorner : sobelMag blackCorner 0 0 = 1530 := by decide

/-- Settles O39: the range of the lumas bounds the kernel sums, and a black corner reaches the greatest magnitude. -/
theorem sobelBounds : Obligations.SobelBounds := by
  unfold Obligations.SobelBounds
  exact ⟨fun v x y => ⟨sobelGx_eq_kernelSum v x y, sobelGy_eq_kernelSum v x y, rfl, sobelGx_natAbs_le v x y,
      sobelGy_natAbs_le v x y, sobelMag_le v x y, fun uniform => sobelMag_of_uniform v uniform x y⟩,
    blackCorner, 0, 0, by decide, by decide, sobelMag_blackCorner⟩

/-! ### `SOB.PIX` and `SOB.MAP` -/

section
variable {s : State} {p : Pend} {rs : RasterSel} {d : BitVec 4} {v : RasterView}

/-- R145: inside the raster the command takes neither the fault of its operand nor that of its position. -/
theorem exec_sobPix_of_inside (hp : s.pend = some p) (hv : s.resolveRaster p.cmd rs d = .ok v)
    (hx : u32 (p.arg 0) < v.w) (hy : u32 (p.arg 1) < v.h) :
    exec (.sobPix rs d) s
      = .next (s.setResult 0 (BitVec.ofNat 32 (sobelMag v (u32 (p.arg 0)) (u32 (p.arg 1))))).complete := by
  have inside : ¬ (v.w ≤ u32 (p.arg 0) ∨ v.h ≤ u32 (p.arg 1)) := by omega
  exact State.runCommand_ok hp (by simp only [hv, if_neg inside])

/-- R146. -/
theorem exec_sobMap_of_resolved (hp : s.pend = some p) (hv : s.resolveRaster p.cmd rs d = .ok v) :
    exec (.sobMap rs d) s = .next (State.complete
      { s.writeWords emapBase (sobelMap v) with emapW := BitVec.ofNat 13 v.w, emapH := BitVec.ofNat 13 v.h }) :=
  State.runCommand_ok hp (by simp only [hv])

end

theorem sobelMap_length (v : RasterView) : (sobelMap v).length = v.w * v.h := by
  rw [sobelMap, List.length_map, List.length_range]

/-- R146: the place of a position's magnitude in the map. -/
theorem sobelMap_getElem {v : RasterView} {x y : Nat} (hx : x < v.w) (hy : y < v.h) :
    (sobelMap v)[y * v.w + x]? = some (BitVec.ofNat 32 (sobelMag v x y)) := by
  have place : y * v.w + x < v.w * v.h := by
    have rows : (y + 1) * v.w ≤ v.h * v.w := Nat.mul_le_mul_right v.w hy
    rw [Nat.succ_mul] at rows
    rw [Nat.mul_comm v.w]
    omega
  rw [sobelMap, List.getElem?_map, List.getElem?_range place, Option.map_some, rowMajor_mod hx, rowMajor_div hx]

/-- Settles O40: the map is stored as one run of words from `EMAP` up. -/
theorem sobelMagnitudeCommands : Obligations.SobelMagnitudeCommands := by
  unfold Obligations.SobelMagnitudeCommands
  intro s p rs d v hp hv
  refine ⟨fun hx hy => exec_sobPix_of_inside hp hv hx hy, _, exec_sobMap_of_resolved hp hv, rfl, fun x y hx hy => ?_, ?_⟩
  · obtain ⟨place, magnitude⟩ := List.getElem?_eq_some_iff.mp (sobelMap_getElem hx hy)
    exact (s.wordAt_writeWords_inside emapBase (sobelMap v) _ place).trans magnitude
  · rw [← sobelMap_length v]
    exact (State.KeepsBytes.writeWords (fun _ _ => rfl) fun _ stored => stored : s.KeepsBytes (s.writeWords _ _) _)

end Sys2Proof.Machine
end

section
/-! `SOB.BLKFLAG` (spec/42_sobel.md R147): the largest map word over a block's visible cells, and the mark of an edge block. -/

namespace Sys2Proof.Machine

/-! ### The largest magnitude -/

/-- The map's number at the position of a cell (R147). -/
def State.cellMagnitude (s : State) (q : BlockCell) : Nat :=
  u32 (s.emap ((u32 s.blkPosY + q.j) * s.emapW.toNat + (u32 s.blkPosX + q.i)))

theorem State.ofNat_cellMagnitude (s : State) (q : BlockCell) :
    BitVec.ofNat 32 (s.cellMagnitude q)
      = s.emap ((u32 s.blkPosY + q.j) * s.emapW.toNat + (u32 s.blkPosX + q.i)) := by
  rw [State.cellMagnitude, u32, BitVec.ofNat_toNat, BitVec.setWidth_eq]

section
variable {s : State} {cells : List BlockCell}

/-- What a cell makes of the largest number so far. -/
def State.raisePeak (s : State) (m : Nat) (q : BlockCell) : Nat := if q.ignored then m else max m (s.cellMagnitude q)

theorem State.peakMagnitude_eq_foldl : s.peakMagnitude cells = cells.foldl s.raisePeak 0 := rfl

theorem State.raisePeak_le_iff {m bound : Nat} {q : BlockCell} :
    s.raisePeak m q ≤ bound ↔ m ≤ bound ∧ (q.ignored = false → s.cellMagnitude q ≤ bound) := by
  rw [State.raisePeak]
  cases q.ignored <;> simp

theorem State.foldl_raisePeak_le_iff {m bound : Nat} :
    cells.foldl s.raisePeak m ≤ bound ↔ m ≤ bound ∧ ∀ q ∈ cells, q.ignored = false → s.cellMagnitude q ≤ bound := by
  induction cells generalizing m with
  | nil => simp
  | cons q cells ih => rw [List.foldl_cons, ih, State.raisePeak_le_iff, List.forall_mem_cons, and_assoc]

/-- R147: the peak is the least bound of the visible cells' numbers. -/
theorem State.peakMagnitude_le_iff {bound : Nat} :
    s.peakMagnitude cells ≤ bound ↔ ∀ q ∈ cells, q.ignored = false → s.cellMagnitude q ≤ bound := by
  rw [State.peakMagnitude_eq_foldl, State.foldl_raisePeak_le_iff, and_iff_right (Nat.zero_le bound)]

/-- R147: the peak is 0 or the number of a visible cell. -/
theorem State.peakMagnitude_attained :
    s.peakMagnitude cells = 0 ∨ ∃ q ∈ cells, q.ignored = false ∧ s.peakMagnitude cells = s.cellMagnitude q := by
  rw [State.peakMagnitude_eq_foldl]
  refine List.foldlRecOn (motive := fun m => m = 0 ∨ ∃ q ∈ cells, q.ignored = false ∧ m = s.cellMagnitude q)
    cells s.raisePeak (.inl rfl) fun m attained q hq => ?_
  cases visible : q.ignored with
  | true => rwa [State.raisePeak, visible, if_pos rfl]
  | false =>
    rw [State.raisePeak, visible, if_neg Bool.false_ne_true]
    rcases max_choice m (s.cellMagnitude q) with larger | larger
    · rwa [larger]
    · exact .inr ⟨q, hq, visible, larger⟩

/-- The peak is read back from its word. -/
theorem State.u32_peakMagnitude : u32 (BitVec.ofNat 32 (s.peakMagnitude cells)) = s.peakMagnitude cells := by
  have bounded : s.peakMagnitude cells ≤ 2 ^ 32 - 1 :=
    State.peakMagnitude_le_iff.mpr fun q _ _ => Nat.le_pred_of_lt (BitVec.isLt _)
  rw [u32, BitVec.toNat_ofNat, Nat.mod_eq_of_lt (by omega)]

end

/-! ### The command -/

/-- The test pass over the held block finds no cell outside when every visible one lies inside. -/
theorem State.find_outside_eq_none {s : State} {n x0 y0 w h : Nat}
    (inside : ∀ i j, i < n ∧ j < n ∧ s.blkIgn (j * n + i) = false → x0 + i < w ∧ y0 + j < h) :
    (s.heldBlock n).find? (·.outside x0 y0 w h) = none := by
  refine List.find?_eq_none.mpr fun q hq beyond => ?_
  obtain ⟨i, j, hi, hj, rfl⟩ := State.mem_heldBlock.mp hq
  obtain ⟨visible, past⟩ := BlockCell.outside_iff.mp beyond
  have within := inside i j ⟨hi, hj, visible⟩
  simp only [State.heldCell] at past
  omega

theorem exec_sobBlkFlag_of_inside {s : State} {p : Pend} (hp : s.pend = some p)
    (hs : s.blkSize.toNat ∈ Config.blockSizes) (hd : ¬ (s.emapW = 0 ∨ s.emapW ≠ s.frameW ∨ s.emapH ≠ s.frameH))
    (inside : ∀ i j, i < s.blkSize.toNat ∧ j < s.blkSize.toNat ∧ s.blkIgn (j * s.blkSize.toNat + i) = false →
      u32 s.blkPosX + i < s.emapW.toNat ∧ u32 s.blkPosY + j < s.emapH.toNat) :
    exec .sobBlkFlag s = .next (State.complete
      { s.setResult 0 (BitVec.ofNat 32 (s.peakMagnitude (s.heldBlock s.blkSize.toNat))) with
        blkEdge := decide (u32 s.edgeThr < s.peakMagnitude (s.heldBlock s.blkSize.toNat)) }) :=
  State.runCommand_ok hp (by
    simp only [sizeFault_legal hs (by decide), if_neg hd, State.find_outside_eq_none inside])

/-- Settles O41: the peak over the held block is the least bound of the visible cells' words, and one of them or 0. -/
theorem sobBlkFlagMarksEdgeBlock : Obligations.SobBlkFlagMarksEdgeBlock := by
  unfold Obligations.SobBlkFlagMarksEdgeBlock
  intro s p hp hs h0 hw hh n x y visible word inside
  have equal : ¬ (s.emapW = 0 ∨ s.emapW ≠ s.frameW ∨ s.emapH ≠ s.frameH) := by tauto
  refine ⟨BitVec.ofNat 32 (s.peakMagnitude (s.heldBlock n)), ?_, fun i j ⟨hi, hj, shown⟩ => ?_, ?_⟩
  · rw [exec_sobBlkFlag_of_inside hp hs equal inside, State.u32_peakMagnitude]
    rfl
  · rw [State.u32_peakMagnitude]
    exact State.peakMagnitude_le_iff.mp le_rfl (s.heldCell n i j) (State.mem_heldBlock.mpr ⟨i, j, hi, hj, rfl⟩) shown
  · rcases State.peakMagnitude_attained (s := s) (cells := s.heldBlock n) with zero | ⟨q, hq, shown, peak⟩
    · exact .inl (congrArg (BitVec.ofNat 32) zero)
    · obtain ⟨i, j, hi, hj, rfl⟩ := State.mem_heldBlock.mp hq
      exact .inr ⟨i, j, ⟨hi, hj, shown⟩, by rw [peak, State.ofNat_cellMagnitude]; rfl⟩

end Sys2Proof.Machine
end

section
/-! The exact sums of the transform in the real numbers (spec/43_transform.md R161, R162, R167, R181). -/

namespace Sys2Proof.Machine

/-! ### Sums of exact numbers -/

theorem Tower.eval_sum_range (L n : Nat) (g : Nat → Tower L) :
    Tower.eval L (Tower.sum L ((List.range n).map g)) = ∑ i ∈ Finset.range n, Tower.eval L (g i) := by
  rw [Tower.eval_sum, List.map_map, Finset.sum, Finset.range_val, Multiset.range, Multiset.map_coe, Multiset.sum_coe]
  rfl

/-- A double sum taken row by row is the double sum over all cells (R162, "separable"). -/
theorem Tower.eval_separableSum (L n : Nat) (a b : Nat → Tower L) (f : Nat → Nat → Int) :
    Tower.eval L (Tower.sum L ((List.range n).map fun y =>
      Tower.mul L (b y) (Tower.sum L ((List.range n).map fun x => Tower.smul L (f x y) (a x)))))
      = ∑ x ∈ Finset.range n, ∑ y ∈ Finset.range n, Tower.eval L (a x) * Tower.eval L (b y) * f x y := by
  rw [Tower.eval_sum_range, Finset.sum_comm]
  refine Finset.sum_congr rfl fun y _ => ?_
  rw [Tower.eval_mul, Tower.eval_sum_range, Finset.mul_sum]
  refine Finset.sum_congr rfl fun x _ => ?_
  rw [Tower.eval_smul]
  ring

/-- The two factors `2·√n` of the basis values of a product. -/
theorem Tower.eval_basis_mul (L k l x y : Nat) (hL : 1 ≤ L) :
    Tower.eval L (Tower.basis L k x) * Tower.eval L (Tower.basis L l y)
      = 4 * 2 ^ L * (basisR (2 ^ L) k x * basisR (2 ^ L) l y) := by
  have square : √((2 ^ L : Nat) : ℝ) * √((2 ^ L : Nat) : ℝ) = 2 ^ L := by
    rw [Real.mul_self_sqrt (Nat.cast_nonneg _), Nat.cast_pow, Nat.cast_ofNat]
  rw [Tower.eval_basis L k x hL, Tower.eval_basis L l y hL, ← square]
  ring

theorem eval_dctSum (L : Nat) (f : Nat → Nat → Int) (u v : Nat) (hL : 1 ≤ L) :
    Tower.eval L (dctSum L f u v) = 4 * 2 ^ L * dctReal (2 ^ L) (fun x y => (f x y : ℝ)) u v := by
  rw [dctSum, Tower.eval_separableSum, dctReal]
  simp only [Tower.eval_basis_mul L _ _ _ _ hL, Finset.mul_sum, mul_assoc]

theorem eval_idctSum (L : Nat) (F : Nat → Nat → Int) (x y : Nat) (hL : 1 ≤ L) :
    Tower.eval L (idctSum L F x y) = 4 * 2 ^ L * idctReal (2 ^ L) (fun u v => (F u v : ℝ)) x y := by
  rw [idctSum, Tower.eval_separableSum L _ (fun u => Tower.basis L u x) (fun v => Tower.basis L v y), idctReal]
  simp only [Tower.eval_basis_mul L _ _ _ _ hL, Finset.mul_sum, mul_assoc]

/-! ### The real transform -/

/-- The transform is linear in its plane: a divisor of every sample divides every coefficient. -/
theorem dctReal_div (n : Nat) (f : Nat → Nat → ℝ) (c : ℝ) (u v : Nat) :
    dctReal n (fun x y => f x y / c) u v = dctReal n f u v / c := by
  simp only [dctReal, Finset.sum_div, mul_div_assoc]

/-- The transform reads the cells of its plane only. -/
theorem dctReal_congr {n : Nat} {f g : Nat → Nat → ℝ} (h : ∀ x < n, ∀ y < n, f x y = g x y) (u v : Nat) :
    dctReal n f u v = dctReal n g u v :=
  Finset.sum_congr rfl fun x hx => Finset.sum_congr rfl fun y hy => by
    rw [h x (Finset.mem_range.mp hx) y (Finset.mem_range.mp hy)]

/-- The inverse transform reads the cells of its plane only. -/
theorem idctReal_congr {n : Nat} {F G : Nat → Nat → ℝ} (h : ∀ u < n, ∀ v < n, F u v = G u v) (x y : Nat) :
    idctReal n F x y = idctReal n G x y :=
  Finset.sum_congr rfl fun u hu => Finset.sum_congr rfl fun v hv => by
    rw [h u (Finset.mem_range.mp hu) v (Finset.mem_range.mp hv)]

/-! ### The rounded sums -/

theorem dctCoef_eq_rndReal {L scale : Nat} (hL : 1 ≤ L) (hs : 1 ≤ scale) (f : Nat → Nat → Int) (u v : Nat) :
    dctCoef L scale f u v = rndReal (dctReal (2 ^ L) (fun x y => (f x y : ℝ) / scale) u v) := by
  have pos : 0 < scale * (4 * 2 ^ L) := by positivity
  rw [dctCoef, Tower.rndDiv_eq _ _ _ pos, eval_dctSum L f u v hL, dctReal_div, rndReal]
  congr 2
  push_cast
  field_simp

theorem idctSample_eq_rndReal {L : Nat} (hL : 1 ≤ L) (F : Nat → Nat → Int) (x y : Nat) :
    idctSample L F x y = rndReal (idctReal (2 ^ L) (fun u v => (F u v : ℝ)) x y) := by
  have pos : 0 < 4 * 2 ^ L := by positivity
  rw [idctSample, Tower.rndDiv_eq _ _ _ pos, eval_idctSum L F x y hL, rndReal]
  congr 2
  push_cast
  field_simp

/-- Settles O42: the value of each exact sum, divided by its factor and rounded. -/
theorem transformIsRoundedExactSum : Obligations.TransformIsRoundedExactSum := by
  unfold Obligations.TransformIsRoundedExactSum
  exact fun L scale f u v hL hs => ⟨dctCoef_eq_rndReal hL hs f u v, idctSample_eq_rndReal hL f u v⟩

end Sys2Proof.Machine
end

section
/-! The transform of a constant plane and its inverse, at every side that is a power of 2 (spec/43_transform.md R179, R180). -/

namespace Sys2Proof.Machine

/-! ### The sum of a basis row -/

/-- The cosines at the odd multiples of an angle, times `2·sin` of it: the differences of sines telescope. -/
theorem two_sin_mul_sum_cos_odd (θ : ℝ) (n : Nat) :
    2 * Real.sin θ * ∑ x ∈ Finset.range n, Real.cos ((2 * x + 1) * θ) = Real.sin (2 * n * θ) := by
  induction n with
  | zero => simp
  | succ n ih =>
    have upper := Real.sin_add ((2 * n + 1) * θ) θ
    have lower := Real.sin_sub ((2 * n + 1) * θ) θ
    rw [show (2 * (n : ℝ) + 1) * θ + θ = 2 * (n + 1) * θ by ring] at upper
    rw [show (2 * (n : ℝ) + 1) * θ - θ = 2 * n * θ by ring] at lower
    rw [Finset.sum_range_succ, mul_add, ih, Nat.cast_succ, upper, lower]
    ring

/-- Rows other than row 0 are orthogonal to the constant row (R179). -/
theorem sum_basisR_of_ne_zero {n k : Nat} (hk : k ≠ 0) (hn : k < n) : ∑ x ∈ Finset.range n, basisR n k x = 0 := by
  have pos : (0 : ℝ) < k := Nat.cast_pos.mpr (Nat.pos_of_ne_zero hk)
  have below : (k : ℝ) < n := Nat.cast_lt.mpr hn
  have side : (n : ℝ) ≠ 0 := (pos.trans below).ne'
  have angle : Real.sin (2 * n * (k * Real.pi / (2 * n))) = 0 := by
    rw [mul_div_cancel₀ _ (mul_ne_zero two_ne_zero side), Real.sin_nat_mul_pi]
  have sine : Real.sin (k * Real.pi / (2 * n)) ≠ 0 := by
    refine (Real.sin_pos_of_pos_of_lt_pi (by positivity) ?_).ne'
    rw [div_lt_iff₀ (by positivity), mul_comm]
    exact mul_lt_mul_of_pos_left (by linarith) Real.pi_pos
  have cosines : ∑ x ∈ Finset.range n, Real.cos ((2 * x + 1) * (k * Real.pi / (2 * n))) = 0 := by
    have telescoped := two_sin_mul_sum_cos_odd (k * Real.pi / (2 * n)) n
    rw [angle] at telescoped
    exact (mul_eq_zero.mp telescoped).resolve_left (mul_ne_zero two_ne_zero sine)
  simp only [basisR, if_neg hk, ← Finset.mul_sum, mul_assoc, mul_div_assoc] at cosines ⊢
  rw [cosines, mul_zero]

theorem sum_basisR_zero (n : Nat) : ∑ x ∈ Finset.range n, basisR n 0 x = √n := by
  simp only [basisR, if_true, Finset.sum_const, Finset.card_range, nsmul_eq_mul, mul_one_div, Real.div_sqrt]

theorem sum_basisR {n k : Nat} (hn : k < n) : ∑ x ∈ Finset.range n, basisR n k x = if k = 0 then √n else 0 := by
  split
  next hk => rw [hk, sum_basisR_zero]
  next hk => exact sum_basisR_of_ne_zero hk hn

/-! ### The constant plane -/

/-- R179: the coefficients of a constant plane. -/
theorem dctReal_const {n u v : Nat} (hu : u < n) (hv : v < n) (c : ℝ) :
    dctReal n (fun _ _ => c) u v = if u = 0 ∧ v = 0 then n * c else 0 := by
  have product : dctReal n (fun _ _ => c) u v
      = (∑ x ∈ Finset.range n, basisR n u x) * (∑ y ∈ Finset.range n, basisR n v y) * c := by
    rw [dctReal, Finset.sum_mul_sum, Finset.sum_mul]
    exact Finset.sum_congr rfl fun x _ => (Finset.sum_mul ..).symm
  rw [product, sum_basisR hu, sum_basisR hv, ite_and]
  split
  next =>
    split
    next => rw [Real.mul_self_sqrt (Nat.cast_nonneg n)]
    next => rw [mul_zero, zero_mul]
  next => rw [zero_mul, zero_mul]

/-- R180: the inverse of a plane whose one coefficient is at `(0, 0)`. -/
theorem idctReal_single {n : Nat} (hn : 0 < n) (c : ℝ) (x y : Nat) :
    idctReal n (fun u v => if u = 0 ∧ v = 0 then n * c else 0) x y = c := by
  have first : 0 ∈ Finset.range n := Finset.mem_range.mpr hn
  have side : (n : ℝ) ≠ 0 := Nat.cast_ne_zero.mpr hn.ne'
  rw [idctReal, Finset.sum_eq_single_of_mem 0 first, Finset.sum_eq_single_of_mem 0 first]
  · rw [if_pos ⟨rfl, rfl⟩, basisR, if_pos rfl, basisR, if_pos rfl, div_mul_div_comm,
      Real.mul_self_sqrt (Nat.cast_nonneg n)]
    field_simp
  · exact fun v _ hv => by rw [if_neg fun both => hv both.2, mul_zero]
  · exact fun u _ hu => Finset.sum_eq_zero fun v _ => by rw [if_neg fun both => hu both.1, mul_zero]

theorem rndReal_intCast (z : Int) : rndReal z = z :=
  Int.floor_eq_iff.mpr ⟨by linarith, by linarith⟩

/-- A coefficient or sample plane with one word at `(0, 0)`, in the real numbers. -/
theorem cast_single (L : Nat) (c : Int) (u v : Nat) :
    ((if u = 0 ∧ v = 0 then 2 ^ L * c else 0 : Int) : ℝ) = if u = 0 ∧ v = 0 then ((2 ^ L : Nat) : ℝ) * c else 0 := by
  push_cast
  rfl

/-- Settles O46: both real values are integers, so the rounding keeps them. -/
theorem constantBlockRoundTrip : Obligations.ConstantBlockRoundTrip := by
  unfold Obligations.ConstantBlockRoundTrip
  intro L c hL _
  refine ⟨fun u v hu hv => ?_, fun x y _ _ => ?_⟩
  · rw [dctCoef_eq_rndReal hL le_rfl, dctReal_div, dctReal_const hu hv, Nat.cast_one, div_one, ← cast_single,
      rndReal_intCast]
  · simp only [idctSample_eq_rndReal hL, cast_single]
    rw [idctReal_single (by positivity), rndReal_intCast]

end Sys2Proof.Machine
end

section
/-! The input range of the transform commands (spec/43_transform.md R163): the scan of the three planes finds no word beyond
the limit, or the first one. -/

namespace Sys2Proof.Machine

/-- Every one of the first `count` words of a plane lies within the limit (R163). -/
def State.PlaneInRange (s : State) (base count : Nat) : Prop :=
  ∀ k < count, (s32 (s.wordAt (base + 4 * k))).natAbs ≤ Config.planeLimit

/-- The test of one numbered plane. -/
def planeFault (p : Nat × List Int) : Option EngineFault :=
  (p.2.findIdx? fun z => decide (Config.planeLimit < z.natAbs)).map fun k =>
    ⟨.operandRange, BitVec.ofNat 2 p.1 ++ 0#14 ++ BitVec.ofNat 16 k⟩

theorem rangeFault_eq (planes : List (Nat × List Int)) : rangeFault planes = planes.findSome? planeFault := rfl

section
variable {s : State} {base count k : Nat}

theorem State.plane_length : (s.plane base count).length = count := by rw [State.plane, List.length_map, List.length_range]

theorem State.plane_getElem (h : k < (s.plane base count).length) :
    (s.plane base count)[k] = s32 (s.wordAt (base + 4 * k)) := by
  simp only [State.plane, List.getElem_map, List.getElem_range]

theorem planeFault_of_inRange (h : s.PlaneInRange base count) (c : Nat) : planeFault (c, s.plane base count) = none := by
  rw [planeFault, Option.map_eq_none_iff, List.findIdx?_eq_none_iff_findIdx_eq, List.findIdx_eq_length]
  intro z hz
  obtain ⟨k, hk, rfl⟩ := List.mem_iff_getElem.mp hz
  rw [State.plane_getElem, decide_eq_false_iff_not, Nat.not_lt]
  exact h k (by rwa [State.plane_length] at hk)

/-- The first word beyond the limit is the one that the test of its plane names. -/
theorem planeFault_of_first (hk : k < count) (large : Config.planeLimit < (s32 (s.wordAt (base + 4 * k))).natAbs)
    (before : s.PlaneInRange base k) (c : Nat) :
    planeFault (c, s.plane base count) = some ⟨.operandRange, BitVec.ofNat 2 c ++ 0#14 ++ BitVec.ofNat 16 k⟩ := by
  have inside : k < (s.plane base count).length := by rwa [State.plane_length]
  have found : (s.plane base count).findIdx? (fun z => decide (Config.planeLimit < z.natAbs)) = some k := by
    refine List.findIdx?_eq_some_iff_getElem.mpr ⟨inside, ?_, fun j hj => ?_⟩
    · rw [State.plane_getElem]
      exact decide_eq_true large
    · rw [State.plane_getElem, Bool.not_eq_true, decide_eq_false_iff_not, Nat.not_lt]
      exact before j hj
  rw [planeFault, found, Option.map_some]

end

/-! ### The scan over numbered planes -/

/-- The planes numbered from 0 that stand at the addresses `base` and have `size` words in use. -/
def State.planes (s : State) (count : Nat) (base size : Nat → Nat) : List (Nat × List Int) :=
  (List.range count).map fun c => (c, s.plane (base c) (size c))

section
variable {s : State} {count : Nat} {base size : Nat → Nat}

theorem rangeFault_of_inRange (h : ∀ c < count, s.PlaneInRange (base c) (size c)) :
    rangeFault (s.planes count base size) = none := by
  rw [rangeFault_eq, State.planes, List.findSome?_map]
  exact List.findSome?_eq_none_iff.mpr fun c hc => planeFault_of_inRange (h c (List.mem_range.mp hc)) c

theorem rangeFault_of_first {c k : Nat} (hc : c < count) (hk : k < size c)
    (large : Config.planeLimit < (s32 (s.wordAt (base c + 4 * k))).natAbs) (before : s.PlaneInRange (base c) k)
    (earlier : ∀ d < c, s.PlaneInRange (base d) (size d)) :
    rangeFault (s.planes count base size) = some ⟨.operandRange, BitVec.ofNat 2 c ++ 0#14 ++ BitVec.ofNat 16 k⟩ := by
  rw [rangeFault_eq, State.planes, List.findSome?_map]
  exact findSome_range_eq hc (planeFault_of_first hk large before c) fun d hd => planeFault_of_inRange (earlier d hd) d

end

/-- The information word of R163 as a number. -/
theorem rangeInfo_eq {c k : Nat} (hc : c < 4) (hk : k < 65536) :
    BitVec.ofNat 2 c ++ 0#14 ++ BitVec.ofNat 16 k = BitVec.ofNat 32 (c * 2 ^ 30 + k) := by
  refine eq_ofNat_of_toNat_eq ?_
  rw [BitVec.toNat_append, BitVec.toNat_append, BitVec.toNat_ofNat, BitVec.toNat_ofNat, BitVec.toNat_ofNat,
    Nat.mod_eq_of_lt hc, Nat.mod_eq_of_lt hk, Nat.zero_mod, Nat.or_zero, ← Nat.shiftLeft_add_eq_or_of_lt hk,
    Nat.shiftLeft_eq, Nat.shiftLeft_eq, mul_assoc, ← pow_add]

theorem State.takeFault_operandRange (s : State) {c k : Nat} (hc : c < 4) (hk : k < 65536) :
    s.takeFault ⟨.operandRange, BitVec.ofNat 2 c ++ 0#14 ++ BitVec.ofNat 16 k⟩
      = { s with faultCode := 9, faultInfo := BitVec.ofNat 32 (c * 2 ^ 30 + k), statusFault := true, pend := none } := by
  rw [State.takeFault, ← rangeInfo_eq hc hk]
  rfl

/-! ### The planes of the two commands -/

/-- The planes that `DCT.FWD` reads (R170). -/
def State.splPlanes (s : State) : List (Nat × List Int) :=
  s.planes 3 (fun c => splYBase + 0x400 * c) fun _ => s.splSize.toNat * s.splSize.toNat

/-- The planes that `DCT.INV` reads (R175). -/
def State.coefPlanes (s : State) : List (Nat × List Int) :=
  s.planes 3 (fun c => if c = 0 then coefYBase else if c = 1 then coefCbBase else coefCrBase) fun c =>
    if c = 0 then s.coefSize.toNat * s.coefSize.toNat else s.coefSize.toNat / 2 * (s.coefSize.toNat / 2)

section
variable {s : State} {p : Pend} {f : EngineFault}

theorem State.splPlanes_eq : s.splPlanes
    = [(0, s.plane splYBase (s.splSize.toNat * s.splSize.toNat)), (1, s.plane splCbBase (s.splSize.toNat * s.splSize.toNat)),
      (2, s.plane splCrBase (s.splSize.toNat * s.splSize.toNat))] := rfl

theorem State.coefPlanes_eq : s.coefPlanes
    = [(0, s.plane coefYBase (s.coefSize.toNat * s.coefSize.toNat)),
      (1, s.plane coefCbBase (s.coefSize.toNat / 2 * (s.coefSize.toNat / 2))),
      (2, s.plane coefCrBase (s.coefSize.toNat / 2 * (s.coefSize.toNat / 2)))] := rfl

theorem exec_dctFwd_of_rangeFault (hp : s.pend = some p) (hs : s.splSize.toNat ∈ Config.xformSizes)
    (hf : rangeFault s.splPlanes = some f) : exec .dctFwd s = .next (s.takeFault f) := by
  rw [State.splPlanes_eq] at hf
  exact State.runCommand_error hp (by simp only [sizeFault_legal hs (by decide), hf])

theorem exec_dctInv_of_rangeFault (hp : s.pend = some p) (hs : s.coefSize.toNat ∈ Config.xformSizes)
    (hf : rangeFault s.coefPlanes = some f) : exec .dctInv s = .next (s.takeFault f) := by
  rw [State.coefPlanes_eq] at hf
  exact State.runCommand_error hp (by simp only [sizeFault_legal hs (by decide), hf])

end

/-- No plane of a legal size has an index beyond 16 bits. -/
theorem index_lt_of_size {n k area : Nat} (hn : n ∈ Config.xformSizes) (harea : area ≤ n * n) (hk : k < area) : k < 65536 :=
  (hk.trans_le (harea.trans (sq_le_of_xformSize hn))).trans (by decide)

/-- Settles O45: the scan of the planes names the first word beyond the limit. -/
theorem transformInputRangeFault : Obligations.TransformInputRangeFault := by
  unfold Obligations.TransformInputRangeFault
  intro s p c k hp hc faulted big first
  have scan {base size : Nat → Nat} (h : first base size) : rangeFault (s.planes 3 base size)
      = some ⟨.operandRange, BitVec.ofNat 2 c ++ 0#14 ++ BitVec.ofNat 16 k⟩ := by
    obtain ⟨hk, large, small⟩ := h
    exact rangeFault_of_first hc hk large
      (fun j hj => Nat.not_lt.mp (small c j le_rfl (hj.trans hk) (.inr hj)))
      fun d hd j hj => Nat.not_lt.mp (small d j hd.le hj (.inl hd))
  have faulted_eq (hk : k < 65536) :
      faulted = .next (s.takeFault ⟨.operandRange, BitVec.ofNat 2 c ++ 0#14 ++ BitVec.ofNat 16 k⟩) := by
    rw [s.takeFault_operandRange (hc.trans (by decide)) hk]
  refine ⟨fun hs h => ?_, fun hs h => ?_⟩
  · rw [faulted_eq (index_lt_of_size hs le_rfl h.1)]
    exact exec_dctFwd_of_rangeFault hp hs (scan h)
  · have area : (if c = 0 then s.coefSize.toNat * s.coefSize.toNat else s.coefSize.toNat / 2 * (s.coefSize.toNat / 2))
        ≤ s.coefSize.toNat * s.coefSize.toNat := by
      split
      · exact le_rfl
      · exact Nat.mul_le_mul (Nat.div_le_self _ 2) (Nat.div_le_self _ 2)
    rw [faulted_eq (index_lt_of_size hs area h.1)]
    exact exec_dctInv_of_rangeFault hp hs (scan h)

end Sys2Proof.Machine
end

section
/-! `DCT.FWD` and `DCT.INV` (spec/43_transform.md R164 to R168, R170, R175): the planes as numbers, the rounded transforms of
planes in memory, and the buffers that the commands fill. -/

namespace Sys2Proof.Machine

/-! ### Sides -/

/-- A side of a transformed plane (R160): a power of 2, at least 2. -/
def TransformSide (n : Nat) : Prop := 1 ≤ planeLevel n ∧ 2 ^ planeLevel n = n

section
variable {n : Nat}

theorem transformSide_of_xformSize (h : n ∈ Config.xformSizes) : TransformSide n := by
  unfold TransformSide
  rcases mem_xformSizes.mp h with rfl | rfl | rfl <;> decide

theorem transformSide_half_of_xformSize (h : n ∈ Config.xformSizes) : TransformSide (n / 2) := by
  unfold TransformSide
  rcases mem_xformSizes.mp h with rfl | rfl | rfl <;> decide

theorem TransformSide.dctCoef_eq (h : TransformSide n) {scale : Nat} (hs : 1 ≤ scale) (f : Nat → Nat → Int) (u v : Nat) :
    dctCoef (planeLevel n) scale f u v = rndReal (dctReal n (fun x y => (f x y : ℝ) / scale) u v) := by
  obtain ⟨level, side⟩ := h
  rw [dctCoef_eq_rndReal level hs, side]

theorem TransformSide.idctSample_eq (h : TransformSide n) (F : Nat → Nat → Int) (x y : Nat) :
    idctSample (planeLevel n) F x y = rndReal (idctReal n (fun u v => (F u v : ℝ)) x y) := by
  obtain ⟨level, side⟩ := h
  rw [idctSample_eq_rndReal level, side]

end

/-! ### Planes in memory -/

/-- Element `(x, y)` of a plane of side `n` in memory (R43, R44, R161). -/
def State.element (s : State) (base n x y : Nat) : Int := s32 (s.wordAt (base + 4 * (y * n + x)))

/-- `Sub(c)(i, j)` of a plane of side `n` in memory (R164). -/
noncomputable def State.groupMean (s : State) (base n i j : Nat) : ℝ :=
  ((s.element base n (2 * i) (2 * j) : ℝ) + s.element base n (2 * i + 1) (2 * j) + s.element base n (2 * i) (2 * j + 1)
    + s.element base n (2 * i + 1) (2 * j + 1)) / 4

section
variable {s : State} {base n : Nat}

theorem planeAt_plane {x y : Nat} (hx : x < n) (hy : y < n) :
    planeAt (s.plane base (n * n)) n x y = s.element base n x y := by
  have inside : y * n + x < (s.plane base (n * n)).length := by
    rw [State.plane_length]
    exact rowMajor_lt hx hy
  rw [planeAt, List.getD_eq_getElem _ _ inside, State.plane_getElem, State.element]

/-- R164, R165: a quarter of the integer that the model carries. -/
theorem centredSub4_plane {i j : Nat} (hi : i < n / 2) (hj : j < n / 2) :
    ((centredSub4 (s.plane base (n * n)) n i j : Int) : ℝ) / (4 : Nat) = s.groupMean base n i j - 128 := by
  rw [centredSub4, planeAt_plane (by omega) (by omega), planeAt_plane (by omega) (by omega),
    planeAt_plane (by omega) (by omega), planeAt_plane (by omega) (by omega), State.groupMean, Config.chromaBias]
  push_cast
  ring

/-- R166: a coefficient of a plane in memory. -/
theorem dctCoef_plane (hn : TransformSide n) (u v : Nat) :
    dctCoef (planeLevel n) 1 (planeAt (s.plane base (n * n)) n) u v
      = rndReal (dctReal n (fun x y => (s.element base n x y : ℝ)) u v) := by
  rw [hn.dctCoef_eq le_rfl, dctReal_congr fun x hx y hy => ?_]
  rw [planeAt_plane hx hy, Nat.cast_one, div_one]

/-- R164, R165, R166: a coefficient of a chroma plane, from the means of its 2 by 2 groups. -/
theorem dctCoef_centredSub4 (hn : TransformSide (n / 2)) (u v : Nat) :
    dctCoef (planeLevel (n / 2)) 4 (centredSub4 (s.plane base (n * n)) n) u v
      = rndReal (dctReal (n / 2) (fun i j => s.groupMean base n i j - 128) u v) := by
  rw [hn.dctCoef_eq (by decide), dctReal_congr fun i hi j hj => centredSub4_plane hi hj]

/-- R167: a sample of the inverse of a plane in memory. -/
theorem idctSample_plane (hn : TransformSide n) (x y : Nat) :
    idctSample (planeLevel n) (planeAt (s.plane base (n * n)) n) x y
      = rndReal (idctReal n (fun u v => (s.element base n u v : ℝ)) x y) := by
  rw [hn.idctSample_eq, idctReal_congr fun u hu v hv => ?_]
  rw [planeAt_plane hu hv]

end

/-! ### Stored planes -/

/-- The word at index `k` of a plane of side `n` (R161). -/
def elementWord (n : Nat) (f : Nat → Nat → Int) (k : Nat) : Word := w32 (f (k % n) (k / n))

theorem planeWords_eq (n : Nat) (f : Nat → Nat → Int) :
    planeWords n f = (List.range (n * n)).map (elementWord n f) := rfl

/-- The word of a stored plane at a column and a row. -/
theorem State.HoldsWords.element {t : State} {base n : Nat} {f : Nat → Nat → Int}
    (h : t.HoldsWords base (n * n) (elementWord n f)) {x y : Nat} (hx : x < n) (hy : y < n) :
    t.wordAt (base + 4 * (y * n + x)) = w32 (f x y) := by
  rw [h _ (rowMajor_lt hx hy), elementWord, rowMajor_mod hx, rowMajor_div hx]

/-- The state after `n` words are stored in `COEF.Y` and `l` words in each chroma plane of `COEF` (R44). -/
def State.fillCoefs (s : State) (n l : Nat) (y cb cr : Nat → Word) : State :=
  ((s.writeWords coefYBase ((List.range n).map y)).writeWords coefCbBase ((List.range l).map cb)).writeWords coefCrBase
    ((List.range l).map cr)

section
variable (s : State) {n l : Nat}

/-- Filling the coefficient planes changes the memory only. -/
theorem State.fillCoefs_eq (y cb cr : Nat → Word) :
    s.fillCoefs n l y cb cr = { s with mem := (s.fillCoefs n l y cb cr).mem } := by
  cases s
  rfl

theorem State.fillCoefs_holdsWords (hn : n ≤ 256) (hl : l ≤ 64) (y cb cr : Nat → Word) :
    (s.fillCoefs n l y cb cr).HoldsWords coefYBase n y ∧ (s.fillCoefs n l y cb cr).HoldsWords coefCbBase l cb
      ∧ (s.fillCoefs n l y cb cr).HoldsWords coefCrBase l cr := by
  have luma : coefYBase + 4 * n ≤ coefCbBase := by
    simp only [coefYBase, coefCbBase]
    omega
  have chroma : coefCbBase + 4 * l ≤ coefCrBase := by
    simp only [coefCbBase, coefCrBase]
    omega
  exact ⟨((State.holdsWords_writeWords _ _ _ _).writeWords (.inl luma)).writeWords (.inl (luma.trans (by decide))),
    (State.holdsWords_writeWords _ _ _ _).writeWords (.inl chroma), State.holdsWords_writeWords _ _ _ _⟩

theorem State.fillCoefs_keepsBytes (y cb cr : Nat → Word) : s.KeepsBytes (s.fillCoefs n l y cb cr)
    fun a => inRun coefYBase (4 * n) a ∨ inRun coefCbBase (4 * l) a ∨ inRun coefCrBase (4 * l) a := by
  have start : s.KeepsBytes s
      fun a => inRun coefYBase (4 * n) a ∨ inRun coefCbBase (4 * l) a ∨ inRun coefCrBase (4 * l) a := fun _ _ => rfl
  refine ((start.writeWords ?_).writeWords ?_).writeWords ?_
  all_goals
    rw [List.length_map, List.length_range]
    tauto

end

/-! ### The commands -/

section
variable {s t : State} {base n : Nat}

/-- The end of the command and the size of the coefficient planes leave the memory. -/
theorem State.HoldsWords.complete_coefSize {f : Nat → Word} (h : t.HoldsWords base n f) {m : BitVec 8} :
    (State.complete { t with coefSize := m }).HoldsWords base n f := h

theorem State.KeepsBytes.complete_coefSize {stored : Nat → Prop} (h : s.KeepsBytes t stored) {m : BitVec 8} :
    s.KeepsBytes (State.complete { t with coefSize := m }) stored := h

end

section
variable {s : State} {p : Pend}

/-- R170: the coefficient words of `DCT.FWD`, and `COEFSZ`. -/
theorem exec_dctFwd_of_inRange (hp : s.pend = some p) (hs : s.splSize.toNat ∈ Config.xformSizes)
    (hf : rangeFault s.splPlanes = none) :
    exec .dctFwd s = .next (State.complete
      { s.fillCoefs (s.splSize.toNat * s.splSize.toNat) (s.splSize.toNat / 2 * (s.splSize.toNat / 2))
          (elementWord s.splSize.toNat (dctCoef (planeLevel s.splSize.toNat) 1
            (planeAt (s.plane splYBase (s.splSize.toNat * s.splSize.toNat)) s.splSize.toNat)))
          (elementWord (s.splSize.toNat / 2) (dctCoef (planeLevel (s.splSize.toNat / 2)) 4
            (centredSub4 (s.plane splCbBase (s.splSize.toNat * s.splSize.toNat)) s.splSize.toNat)))
          (elementWord (s.splSize.toNat / 2) (dctCoef (planeLevel (s.splSize.toNat / 2)) 4
            (centredSub4 (s.plane splCrBase (s.splSize.toNat * s.splSize.toNat)) s.splSize.toNat))) with
        coefSize := s.splSize }) := by
  rw [State.splPlanes_eq] at hf
  exact State.runCommand_ok hp (by simp only [sizeFault_legal hs (by decide), hf, planeWords_eq, State.fillCoefs])

/-- Four neighbours share one sample of a chroma plane of half the side, with the bias added (R168). -/
def replicatedSample (plane : List Int) (n x y : Nat) : Int :=
  idctSample (planeLevel n) (planeAt plane n) (x / 2) (y / 2) + Config.chromaBias

/-- R175: the sample words of `DCT.INV`, and `SPLSZ`. -/
theorem exec_dctInv_of_inRange (hp : s.pend = some p) (hs : s.coefSize.toNat ∈ Config.xformSizes)
    (hf : rangeFault s.coefPlanes = none) :
    exec .dctInv s = .next (State.complete
      { s.fillPlanes (s.coefSize.toNat * s.coefSize.toNat)
          (elementWord s.coefSize.toNat (idctSample (planeLevel s.coefSize.toNat)
            (planeAt (s.plane coefYBase (s.coefSize.toNat * s.coefSize.toNat)) s.coefSize.toNat)))
          (elementWord s.coefSize.toNat (replicatedSample
            (s.plane coefCbBase (s.coefSize.toNat / 2 * (s.coefSize.toNat / 2))) (s.coefSize.toNat / 2)))
          (elementWord s.coefSize.toNat (replicatedSample
            (s.plane coefCrBase (s.coefSize.toNat / 2 * (s.coefSize.toNat / 2))) (s.coefSize.toNat / 2))) with
        splSize := s.coefSize }) := by
  rw [State.coefPlanes_eq] at hf
  exact State.runCommand_ok hp (by
    simp only [sizeFault_legal hs (by decide), hf, planeWords_eq, State.fillPlanes]
    rfl)

end

/-- Settles O43: the planes pass the range test, and each stored coefficient is that of its plane. -/
theorem dctFwdWritesRoundedCoefficients : Obligations.DctFwdWritesRoundedCoefficients := by
  unfold Obligations.DctFwdWritesRoundedCoefficients
  intro s p hp hs m h sample mean limit
  have inRange : rangeFault s.splPlanes = none := by
    simp only [List.forall_mem_cons] at limit
    obtain ⟨y, cb, cr, _⟩ := limit
    rw [State.splPlanes]
    refine rangeFault_of_inRange fun c hc => ?_
    match c, hc with
    | 0, _ => exact y
    | 1, _ => exact cb
    | 2, _ => exact cr
  have luma := transformSide_of_xformSize hs
  have chroma := transformSide_half_of_xformSize hs
  obtain ⟨y, cb, cr⟩ := s.fillCoefs_holdsWords (sq_le_of_xformSize hs) (half_sq_le_of_xformSize hs)
    (elementWord m (dctCoef (planeLevel m) 1 (planeAt (s.plane splYBase (m * m)) m)))
    (elementWord h (dctCoef (planeLevel h) 4 (centredSub4 (s.plane splCbBase (m * m)) m)))
    (elementWord h (dctCoef (planeLevel h) 4 (centredSub4 (s.plane splCrBase (m * m)) m)))
  refine ⟨_, exec_dctFwd_of_inRange hp hs inRange, ?_, fun u v hu hv => ?_, fun u v hu hv => ⟨?_, ?_⟩,
    (s.fillCoefs_keepsBytes _ _ _).complete_coefSize⟩
  · rw [State.fillCoefs_eq]
    rfl
  · exact (y.complete_coefSize.element hu hv).trans (congrArg w32 (dctCoef_plane luma u v))
  · exact (cb.complete_coefSize.element hu hv).trans (congrArg w32 (dctCoef_centredSub4 chroma u v))
  · exact (cr.complete_coefSize.element hu hv).trans (congrArg w32 (dctCoef_centredSub4 chroma u v))

/-- Settles O44: the planes pass the range test, and each stored sample is that of its plane. -/
theorem dctInvWritesRoundedSamples : Obligations.DctInvWritesRoundedSamples := by
  unfold Obligations.DctInvWritesRoundedSamples
  intro s p hp hs m h coef lumaLimit chromaLimit
  have inRange : rangeFault s.coefPlanes = none := by
    simp only [List.forall_mem_cons] at chromaLimit
    obtain ⟨cb, cr, _⟩ := chromaLimit
    rw [State.coefPlanes]
    refine rangeFault_of_inRange fun c hc => ?_
    match c, hc with
    | 0, _ => exact lumaLimit
    | 1, _ => exact cb
    | 2, _ => exact cr
  have luma := transformSide_of_xformSize hs
  have chroma := transformSide_half_of_xformSize hs
  have replicated (base x y : Nat) : replicatedSample (s.plane base (h * h)) h x y
      = rndReal (idctReal h (coef base h) (x / 2) (y / 2)) + 128 :=
    congrArg (· + Config.chromaBias) (idctSample_plane chroma (x / 2) (y / 2))
  obtain ⟨y, cb, cr⟩ := s.fillPlanes_holdsWords (sq_le_of_xformSize hs)
    (elementWord m (idctSample (planeLevel m) (planeAt (s.plane coefYBase (m * m)) m)))
    (elementWord m (replicatedSample (s.plane coefCbBase (h * h)) h))
    (elementWord m (replicatedSample (s.plane coefCrBase (h * h)) h))
  refine ⟨_, exec_dctInv_of_inRange hp hs inRange, ?_, fun i j hi hj => ⟨?_, ?_, ?_⟩,
    (s.fillPlanes_keepsBytes _ _ _).complete_sizes⟩
  · rw [State.fillPlanes_eq]
    rfl
  · exact (y.complete_sizes.element hi hj).trans (congrArg w32 (idctSample_plane luma i j))
  · exact (cb.complete_sizes.element hi hj).trans (congrArg w32 (replicated _ i j))
  · exact (cr.complete_sizes.element hi hj).trans (congrArg w32 (replicated _ i j))

end Sys2Proof.Machine
end

section
/-! The motion search (spec/44_motion.md R191 to R196): the cost and the valid positions of the held block, and what the rounds and
the final probes keep. -/

namespace Sys2Proof.Machine

/-! ### The cost of a position and the valid positions -/

/-- A sum over a rectangle in row-major order is the double sum over its rows and columns (R13). -/
theorem sum_range_rowMajor (m n : Nat) (g : Nat → Nat → Nat) :
    ∑ k ∈ Finset.range (m * n), g (k % n) (k / n) = ∑ j ∈ Finset.range m, ∑ i ∈ Finset.range n, g i j := by
  induction m with
  | zero => rw [Nat.zero_mul, Finset.sum_range_zero, Finset.sum_range_zero]
  | succ m ih =>
    have lastRow : ∑ i ∈ Finset.range n, g ((m * n + i) % n) ((m * n + i) / n) = ∑ i ∈ Finset.range n, g i m :=
      Finset.sum_congr rfl fun i hi => by
        rw [rowMajor_mod (Finset.mem_range.mp hi), rowMajor_div (Finset.mem_range.mp hi)]
    rw [Nat.succ_mul, Finset.sum_range_add, ih, lastRow, Finset.sum_range_succ]

/-- A sum over the cells that are not ignored is one over all cells in which an ignored one counts 0. -/
theorem sum_visible_cells (cells : List BlockCell) (g : BlockCell → Nat) :
    ((cells.filter (!·.ignored)).map g).sum = (cells.map fun q => if q.ignored then 0 else g q).sum := by
  induction cells with
  | nil => rfl
  | cons q cells ih => cases visible : q.ignored <;> simp [visible, ih]

section
variable {s : State} {n : Nat} {ref : RasterView}

/-- A sum over the held block's cells is the double sum over its rows and columns (R42). -/
theorem State.sum_heldBlock (g : BlockCell → Nat) :
    ((s.heldBlock n).map g).sum = ∑ j ∈ Finset.range n, ∑ i ∈ Finset.range n, g (s.heldCell n i j) := by
  rw [State.heldBlock_eq_map, List.map_map, ← sum_range_rowMajor n n fun i j => g (s.heldCell n i j)]
  rfl

/-- R191: `SR`, `SG` or `SB` of the held block at a position. -/
theorem State.channelSum_heldBlock (channel : Word → Nat) (cx cy : Nat) :
    channelSum channel (s.heldBlock n) ref (cx, cy)
      = ∑ j ∈ Finset.range n, ∑ i ∈ Finset.range n,
          if s.blkIgn (j * n + i) then 0
          else ((channel (s.blkPix (j * n + i)) : Int) - channel (ref.pix ((cy + j) * ref.w + (cx + i)))).natAbs := by
  rw [channelSum, sum_visible_cells, State.sum_heldBlock]
  rfl

/-- R192: `Valid` of the held block. -/
theorem State.validAt_heldBlock (cx cy : Int) :
    validAt (s.heldBlock n) ref (cx, cy) = true ↔
      0 ≤ cx ∧ 0 ≤ cy ∧ ∀ i j : Nat, i < n → j < n → s.blkIgn (j * n + i) = false → cx + i < ref.w ∧ cy + j < ref.h := by
  have cellTest (q : BlockCell) :
      (q.ignored || (decide (cx + q.i < ref.w) && decide (cy + q.j < ref.h))) = true
        ↔ (q.ignored = false → cx + q.i < ref.w ∧ cy + q.j < ref.h) := by
    cases q.ignored <;> simp
  simp only [validAt, Bool.and_eq_true, decide_eq_true_eq, and_assoc, List.all_eq_true, cellTest, State.mem_heldBlock]
  refine and_congr_right' (and_congr_right' ⟨fun h i j hi hj => h _ ⟨i, j, hi, hj, rfl⟩, ?_⟩)
  rintro h _ ⟨i, j, hi, hj, rfl⟩
  exact h i j hi hj

end

/-! ### What probes and rounds keep -/

section
variable {cells : List BlockCell} {ref : RasterView}

/-- `r` is `c`, or a valid position with its cost, cheaper than `c` (R194). -/
def Improves (cells : List BlockCell) (ref : RasterView) (c r : Candidate) : Prop :=
  r = c ∨ (validAt cells ref r.pos = true ∧ r.cost = cost2 cells ref r.pos ∧ r.cost < c.cost)

theorem Improves.cost_le {c r : Candidate} (h : Improves cells ref c r) : r.cost ≤ c.cost := by
  rcases h with rfl | ⟨_, _, cheaper⟩
  · exact le_rfl
  · exact cheaper.le

theorem Improves.trans {c b r : Candidate} (first : Improves cells ref c b) (second : Improves cells ref b r) :
    Improves cells ref c r := by
  rcases second with rfl | ⟨valid, cost, cheaper⟩
  · exact first
  · exact .inr ⟨valid, cost, cheaper.trans_le first.cost_le⟩

theorem IsBest.improves {c r : Candidate} {probes : List (Int × Int)} (h : IsBest cells ref c probes r) :
    Improves cells ref c r := by
  rcases h with ⟨same, _⟩ | ⟨_, _, _, valid, cost, cheaper, _⟩
  · exact .inl same
  · exact .inr ⟨valid, cost, cheaper⟩

/-- The best of a list of probes is the start, or cheaper and one of them. -/
theorem IsBest.eq_or_mem {c r : Candidate} {probes : List (Int × Int)} (h : IsBest cells ref c probes r) :
    r = c ∨ (r.cost < c.cost ∧ r.pos ∈ probes) := by
  rcases h with ⟨same, _⟩ | ⟨before, after, split, _, _, cheaper, _⟩
  · exact .inl same
  · exact .inr ⟨cheaper, by simp [split]⟩

theorem CoarseRounds.improves {t : Nat} {c last : Candidate} (h : CoarseRounds cells ref t c last) :
    Improves cells ref c last := by
  induction h with
  | stop => exact .inl rfl
  | halve t c last _ _ _ ih => exact ih
  | recentre t c b last _ _ best _ ih => exact best.improves.trans ih

/-! ### The loop of rounds -/

/-- A probe of a round stands at another position than the centre (R193). -/
theorem ne_of_mem_coarseProbes {c p : Int × Int} {t : Int} (ht : t ≠ 0) (hp : p ∈ coarseProbes c t) : p ≠ c := by
  rintro rfl
  obtain ⟨x, y⟩ := p
  simp only [coarseProbes, List.mem_cons, Prod.mk.injEq, List.not_mem_nil, and_true, true_and, or_false] at hp
  rcases hp with left | right | up | down
  all_goals omega

/-- The best over all rounds after one whose best is `b` (R195). -/
def cheaperOf (best b : Candidate) : Candidate := if b.cost < best.cost then b else best

theorem coarseSearch_stop {fuel t : Nat} {c best : Candidate} (ht : t ≤ 1) :
    coarseSearch cells ref fuel t c best = (c, best) := by
  cases fuel with
  | zero => rfl
  | succ fuel => rw [coarseSearch, if_pos ht]

/-- Everything a round can do (R195): without a cheaper probe the step is halved, else the centre moves to the best probe. -/
theorem coarseSearch_round (cells : List BlockCell) (ref : RasterView) {t : Nat} (ht : 1 < t) (c : Candidate) :
    ∃ b, IsBest cells ref c (coarseProbes c.pos t) b
      ∧ ((b = c ∧ ∀ fuel best, coarseSearch cells ref (fuel + 1) t c best
            = coarseSearch cells ref fuel (t / 2) c (cheaperOf best c))
        ∨ (b.pos ≠ c.pos ∧ b.cost < c.cost ∧ ∀ fuel best, coarseSearch cells ref (fuel + 1) t c best
            = coarseSearch cells ref fuel t b (cheaperOf best b))) := by
  have best := foldl_probe_isBest cells ref (coarseProbes c.pos t) c
  refine ⟨_, best, ?_⟩
  rcases best.eq_or_mem with same | ⟨cheaper, probed⟩
  · refine .inl ⟨same, fun fuel best => ?_⟩
    simp only [coarseSearch, if_neg (Nat.not_le.mpr ht), same, if_true, cheaperOf]
  · have moved := ne_of_mem_coarseProbes (by omega) probed
    refine .inr ⟨moved, cheaper, fun fuel best => ?_⟩
    simp only [coarseSearch, if_neg (Nat.not_le.mpr ht), if_neg moved, cheaperOf]

/-- A bound on the rounds from a centre of cost `cost` and step `t` (R196 (b)): each lowers the cost or halves the step. -/
def roundsBound (cost t : Nat) : Nat := cost + Nat.log2 t

theorem roundsBound_half {cost t : Nat} (ht : 1 < t) : roundsBound cost t = roundsBound cost (t / 2) + 1 := by
  rw [roundsBound, Nat.log2_def, if_pos (show 2 ≤ t from ht)]
  rfl

theorem roundsBound_lt {cost cost' t : Nat} (h : cost < cost') : roundsBound cost t < roundsBound cost' t :=
  Nat.add_lt_add_right h _

theorem roundsBound_pos {cost t : Nat} (ht : 1 < t) : 0 < roundsBound cost t := by
  rw [roundsBound_half ht]
  exact Nat.succ_pos _

/-- The model's bound suffices (log 12). -/
theorem roundsBound_step0_le (cost : Nat) : roundsBound cost Config.step0 ≤ cost + 4 :=
  Nat.add_le_add_left (by decide) cost

/-- With enough rounds allowed the loop runs the rounds of R195 to their end. -/
theorem coarseSearch_coarseRounds {fuel t : Nat} {c : Candidate} (enough : roundsBound c.cost t ≤ fuel) (best : Candidate) :
    CoarseRounds cells ref t c (coarseSearch cells ref fuel t c best).1 := by
  induction fuel generalizing t c best with
  | zero =>
    have ht : t ≤ 1 := Nat.not_lt.mp fun ht => (roundsBound_pos ht).not_ge enough
    exact .stop t c ht
  | succ fuel ih =>
    by_cases ht : t ≤ 1
    · rw [coarseSearch_stop ht]
      exact .stop t c ht
    · have ht := Nat.lt_of_not_le ht
      obtain ⟨b, isBest, ⟨rfl, halved⟩ | ⟨moved, cheaper, recentred⟩⟩ := coarseSearch_round cells ref ht c
      · rw [halved]
        exact .halve t b _ ht isBest (ih (by rw [roundsBound_half ht] at enough; omega) _)
      · rw [recentred]
        have fewer := roundsBound_lt (t := t) cheaper
        exact .recentre t c b _ ht moved isBest (ih (by omega) _)

/-- R196 (a): a search that begins with its centre as the best keeps them equal. -/
theorem coarseSearch_best_eq_centre (fuel t : Nat) (c : Candidate) :
    (coarseSearch cells ref fuel t c c).1 = (coarseSearch cells ref fuel t c c).2 := by
  induction fuel generalizing t c with
  | zero => rfl
  | succ fuel ih =>
    by_cases ht : t ≤ 1
    · rw [coarseSearch_stop ht]
    · obtain ⟨b, _, ⟨rfl, halved⟩ | ⟨_, cheaper, recentred⟩⟩ := coarseSearch_round cells ref (Nat.lt_of_not_le ht) c
      · rw [halved, cheaperOf, if_neg (lt_irrefl _)]
        exact ih _ _
      · rw [recentred, cheaperOf, if_pos cheaper]
        exact ih _ _

/-- R196 (b): rounds allowed beyond the bound change nothing. -/
theorem coarseSearch_add {fuel t : Nat} {c : Candidate} (enough : roundsBound c.cost t ≤ fuel) (more : Nat) (best : Candidate) :
    coarseSearch cells ref (fuel + more) t c best = coarseSearch cells ref fuel t c best := by
  induction fuel generalizing t c best with
  | zero =>
    have ht : t ≤ 1 := Nat.not_lt.mp fun ht => (roundsBound_pos ht).not_ge enough
    rw [coarseSearch_stop ht, coarseSearch_stop ht]
  | succ fuel ih =>
    by_cases ht : t ≤ 1
    · rw [coarseSearch_stop ht, coarseSearch_stop ht]
    · have ht := Nat.lt_of_not_le ht
      rw [Nat.add_right_comm]
      obtain ⟨b, _, ⟨rfl, halved⟩ | ⟨_, cheaper, recentred⟩⟩ := coarseSearch_round cells ref ht c
      · rw [halved, halved]
        exact ih (by rw [roundsBound_half ht] at enough; omega) _
      · rw [recentred, recentred]
        have fewer := roundsBound_lt (t := t) cheaper
        exact ih (by omega) _

end

/-! ### The whole search -/

section
variable (cells : List BlockCell) (ref : RasterView)

/-- The block's own position with its cost (R190). -/
def ownPosition (bx by' : Nat) : Candidate := ⟨(bx, by'), cost2 cells ref (bx, by')⟩

/-- The last centre and the best over all rounds of the search (R195). -/
def coarseEnd (bx by' : Nat) : Candidate × Candidate :=
  let start := ownPosition cells ref bx by'
  coarseSearch cells ref (start.cost + 4) Config.step0 start start

theorem motionSearch_eq_foldl (bx by' : Nat) :
    motionSearch cells ref bx by'
      = (finalProbes (coarseEnd cells ref bx by').1.pos).foldl (probe cells ref) (coarseEnd cells ref bx by').2 := rfl

/-- R195: the search is the rounds from the block's own position and the final probes around their last centre. -/
theorem motionSearch_rounds (bx by' : Nat) :
    ∃ last, CoarseRounds cells ref 8 (ownPosition cells ref bx by') last
      ∧ IsBest cells ref last (finalProbes last.pos) (motionSearch cells ref bx by') := by
  have bestIsCentre : (coarseEnd cells ref bx by').1 = (coarseEnd cells ref bx by').2 := coarseSearch_best_eq_centre ..
  refine ⟨(coarseEnd cells ref bx by').1, coarseSearch_coarseRounds (roundsBound_step0_le _) _, ?_⟩
  rw [motionSearch_eq_foldl, ← bestIsCentre]
  exact foldl_probe_isBest ..

theorem motionSearch_improves (bx by' : Nat) :
    Improves cells ref (ownPosition cells ref bx by') (motionSearch cells ref bx by') := by
  obtain ⟨last, rounds, best⟩ := motionSearch_rounds cells ref bx by'
  exact rounds.improves.trans best.improves

end

/-- R196 (c): what holds of a candidate that improves on the block's own position. -/
theorem Improves.of_ownPosition {cells : List BlockCell} {ref : RasterView} {bx by' : Nat} {r : Candidate}
    (h : Improves cells ref (ownPosition cells ref bx by') r) :
    r.cost ≤ cost2 cells ref (bx, by') ∧ r.cost = cost2 cells ref r.pos
      ∧ (validAt cells ref (bx, by') = true → validAt cells ref r.pos = true) := by
  refine ⟨h.cost_le, ?_⟩
  rcases h with rfl | ⟨valid, cost, _⟩
  · exact ⟨rfl, id⟩
  · exact ⟨cost, fun _ => valid⟩

/-- Settles O47: cost and validity cell by cell, and the search by its rounds. -/
theorem motionSearchFacts : Obligations.MotionSearchFacts := by
  unfold Obligations.MotionSearchFacts
  refine ⟨fun s n ref => ⟨fun cx cy => ?_, State.validAt_heldBlock⟩, fun cells ref =>
    ⟨motionSearch_rounds cells ref, coarseSearch_best_eq_centre,
      fun more c b => coarseSearch_add (roundsBound_step0_le c.cost) more b,
      fun bx by' => (motionSearch_improves cells ref bx by').of_ownPosition⟩⟩
  simp only [cost2, State.channelSum_heldBlock]

end Sys2Proof.Machine
end

section
/-! `MOT.SEARCH` and `MOT.BATCH` (spec/44_motion.md R201, R203, R206, R208): the words of a record, and the entries of the vector
table after a batch. -/

namespace Sys2Proof.Machine

section
variable {s : State} {p : Pend} {rs : RasterSel} {d : BitVec 4} {ref : RasterView}

/-! ### The record of the held block -/

/-- R203: the command ends without a fault when every visible cell lies inside the reference. -/
theorem exec_motSearch_of_inside (hp : s.pend = some p) (hr : s.resolveRef p.cmd rs d = .ok ref) (legal : s.frameLegal)
    (hs : s.blkSize.toNat ∈ Config.blockSizes) (hd : ¬ (ref.w ≠ s.frameW.toNat ∨ ref.h ≠ s.frameH.toNat))
    (inside : ∀ i j, i < s.blkSize.toNat ∧ j < s.blkSize.toNat ∧ s.blkIgn (j * s.blkSize.toNat + i) = false →
      u32 s.blkPosX + i < ref.w ∧ u32 s.blkPosY + j < ref.h) :
    exec (.motSearch rs d) s = .next (s.setResults (searchRecord (s.heldBlock s.blkSize.toNat) ref (u32 s.blkPosX)
      (u32 s.blkPosY) s.blkEdge d s.madTol)).complete :=
  State.runCommand_ok hp (by
    simp only [hr, if_neg (not_not.mpr legal), sizeFault_legal hs (by decide), if_neg hd, State.find_outside_eq_none inside])

/-- What completing with a record of eight words changes: the result registers, `DONE` and the command in flight. -/
theorem State.complete_setResults (s : State) (a b c d e f g h : Word) :
    (s.setResults [a, b, c, d, e, f, g, h]).complete
      = { s with results := #v[a, b, c, d, e, f, g, h], statusDone := true, pend := none } := rfl

/-- R197: the record of an edge block. -/
theorem searchRecord_edge (cells : List BlockCell) (ref : RasterView) (x y : Nat) (d : BitVec 4) (m : Word) :
    searchRecord cells ref x y true d m = [2, 0, 0, 0, 0, 0, 0, 0] := rfl

/-- R200, R201: the record of a block that is searched. -/
theorem searchRecord_searched (cells : List BlockCell) (ref : RasterView) (x y : Nat) (d : BitVec 4) (m : Word) :
    searchRecord cells ref x y false d m =
      let best := motionSearch cells ref x y
      [if best.cost ≤ u32 m ^ 2 then 1 else 0, w32 best.pos.1, w32 best.pos.2, w32 (x - best.pos.1), w32 (y - best.pos.2),
        d.setWidth 32, BitVec.ofNat 32 (best.cost % 2 ^ 32), BitVec.ofNat 32 (best.cost / 2 ^ 32)] := by
  rw [sq]
  rfl

/-- Settles O48: the completion with the record of the held block, by its edge flag. -/
theorem motSearchReportsRecord : Obligations.MotSearchReportsRecord := by
  unfold Obligations.MotSearchReportsRecord
  intro s p rs d ref hp hr legal hs hw hh n x y best inside
  have equal : ¬ (ref.w ≠ s.frameW.toNat ∨ ref.h ≠ s.frameH.toNat) := by simp [hw, hh]
  have completed := exec_motSearch_of_inside hp hr legal hs equal fun i j ⟨hi, hj, visible⟩ => inside i j hi hj visible
  refine ⟨fun edge => ?_, fun searched => ?_⟩
  · rwa [edge, searchRecord_edge, State.complete_setResults] at completed
  · rwa [searched, searchRecord_searched, State.complete_setResults] at completed

/-! ### The work pass of a batch -/

theorem State.writeRecords_succ (s : State) (ref : RasterView) (d : BitVec 4) (n : Nat) :
    s.writeRecords ref d (n + 1)
      = (s.writeRecords ref d n).writeWords (vtabBase + 64 * n + 16) (s.entryRecord ref d n) := by
  rw [State.writeRecords, List.range_succ, List.foldl_append]
  rfl

/-- The work pass changes the memory only. -/
theorem State.writeRecords_eq (n : Nat) : s.writeRecords ref d n = { s with mem := (s.writeRecords ref d n).mem } := by
  induction n with
  | zero => rfl
  | succ n ih =>
    rw [State.writeRecords_succ, ih]
    rfl

theorem State.entryRecord_length (s : State) (ref : RasterView) (d : BitVec 4) (e : Nat) :
    (s.entryRecord ref d e).length = 8 := searchRecord_length ..

/-- The words that a store of a list of words leaves. -/
theorem State.holdsWords_writeWords_getD (s : State) (base : Nat) (ws : List Word) :
    (s.writeWords base ws).HoldsWords base ws.length (fun k => ws.getD k 0) := by
  intro k hk
  rw [s.wordAt_writeWords_inside base ws k hk]
  exact (List.getD_eq_getElem ws 0 hk).symm

/-- R208: each entry holds its own record, since the records of others stand beside it. -/
theorem State.writeRecords_holdsWords {e n : Nat} (he : e < n) :
    (s.writeRecords ref d n).HoldsWords (vtabBase + 64 * e + 16) 8 (fun k => (s.entryRecord ref d e).getD k 0) := by
  induction n with
  | zero => exact absurd he (Nat.not_lt_zero e)
  | succ n ih =>
    rw [State.writeRecords_succ]
    rcases Nat.lt_succ_iff_lt_or_eq.mp he with earlier | rfl
    · exact (ih earlier).writeWords (.inl (by omega))
    · rw [← s.entryRecord_length ref d e]
      exact State.holdsWords_writeWords_getD _ _ _

/-- R206: no byte beyond words 4 to 11 of the entries changes. -/
theorem State.writeRecords_keepsBytes (n : Nat) :
    s.KeepsBytes (s.writeRecords ref d n) (fun a => ∃ e < n, inRun (vtabBase + 64 * e + 16) 32 a) := by
  induction n with
  | zero => exact fun _ _ => rfl
  | succ n ih =>
    have before : s.KeepsBytes (s.writeRecords ref d n) (fun a => ∃ e < n + 1, inRun (vtabBase + 64 * e + 16) 32 a) :=
      fun a away => ih a fun ⟨e, he, stored⟩ => away ⟨e, he.trans n.lt_succ_self, stored⟩
    rw [State.writeRecords_succ]
    refine before.writeWords fun a stored => ⟨n, n.lt_succ_self, ?_⟩
    rwa [State.entryRecord_length] at stored

/-- R206: the command ends without a fault when every entry passes its test. -/
theorem exec_motBatch_of_passed (hp : s.pend = some p) (hr : s.resolveRef p.cmd rs d = .ok ref) (legal : s.frameLegal)
    (hn : ¬ Config.vtabN < u32 (p.arg 0)) (hd : ¬ (ref.w ≠ s.frameW.toNat ∨ ref.h ≠ s.frameH.toNat))
    (passed : ∀ e < u32 (p.arg 0), s.entryFault e = none) :
    exec (.motBatch rs d) s = .next (s.writeRecords ref d (u32 (p.arg 0))).complete := by
  have none_faulty : (List.range (u32 (p.arg 0))).findSome? s.entryFault = none :=
    List.findSome?_eq_none_iff.mpr fun e he => passed e (List.mem_range.mp he)
  exact State.runCommand_ok hp (by simp only [hr, if_neg (not_not.mpr legal), if_neg hn, if_neg hd, none_faulty])

end

/-- Settles O49: every entry passes its test, and the work pass leaves the records. -/
theorem motBatchFillsEntries : Obligations.MotBatchFillsEntries := by
  unfold Obligations.MotBatchFillsEntries
  intro s p rs d ref hp hr legal hn hw hh n x y size entries
  have equal : ¬ (ref.w ≠ s.frameW.toNat ∨ ref.h ≠ s.frameH.toNat) := by simp [hw, hh]
  have passed (e : Nat) (he : e < n) : s.entryFault e = none := by
    obtain ⟨hs, hx, hy⟩ := entries e he
    exact State.entryFault_eq_none hs hx hy
  refine ⟨_, exec_motBatch_of_passed hp hr legal (Nat.not_lt.mpr hn) equal passed, ?_, fun e he k hk => ?_, fun a away => ?_⟩
  · rw [State.writeRecords_eq]
    rfl
  · rw [State.complete_wordAt, State.writeRecords_holdsWords he k hk, State.entryRecord, State.entrySize_eq]
  · rw [State.complete_byteAt, State.writeRecords_keepsBytes n a away]

end Sys2Proof.Machine
end

section
/-! The numbers of the stream (spec/45_bitstream.md R221, R223, R234): each reader of a literal or of a number takes exactly the
spellings of the grammar, and the writer's form is one of them. -/

namespace Sys2Proof.Machine

/-! ### Literals -/

theorem readLit_eq_some {lit bs rest : List Byte} : readLit lit bs = some rest ↔ bs = lit ++ rest := by
  induction lit generalizing bs with
  | nil => simp [readLit]
  | cons c cs ih =>
    cases bs with
    | nil => simp [readLit]
    | cons b bs =>
      by_cases h : c = b
      · simp [readLit, h, ih]
      · simp [readLit, h, Ne.symm h]

theorem readLit_append (lit rest : List Byte) : readLit lit (lit ++ rest) = some rest := readLit_eq_some.mpr rfl

/-! ### Digits -/

theorem digitValue_digitByte : ∀ d : Fin 10, digitValue (digitByte d.val) = some d.val := by decide

theorem digitValue_eq_some {b : Byte} {v : Nat} (h : digitValue b = some v) : ∃ d : Fin 10, b = digitByte d.val ∧ v = d.val := by
  unfold digitValue at h
  split at h
  · next range =>
    injection h with h
    refine ⟨⟨v, by omega⟩, BitVec.eq_of_toNat_eq ?_, rfl⟩
    simp only [digitByte, BitVec.toNat_ofNat]
    omega
  · cases h

theorem digitByte_ne_minus : ∀ d : Fin 10, digitByte d.val ≠ ascii '-' := by decide

/-- A digit string ends before `rest` (R223): at the end of the stream or before a byte that is no digit. -/
def EndsDigits (rest : List Byte) : Prop := ∀ b ∈ rest.head?, digitValue b = none

theorem EndsDigits.cons {b : Byte} {rest : List Byte} (h : digitValue b = none) : EndsDigits (b :: rest) := by
  simpa [EndsDigits] using h

/-- A literal whose first character is no digit ends a digit string. -/
theorem EndsDigits.literal (c : Char) (cs : List Char) (rest : List Byte) (h : digitValue (ascii c) = none) :
    EndsDigits (asciiList (c :: cs) ++ rest) := .cons h

/-- The number that a digit string spells behind the digits that spell `acc`. -/
abbrev digitsValueFrom (acc : Nat) (ds : List (Fin 10)) : Nat := ds.foldl (fun n d => 10 * n + d.val) acc

theorem readDigits_eq {acc n : Nat} {bs rest : List Byte} :
    readDigits acc bs = (n, rest)
      ↔ ∃ ds, n = digitsValueFrom acc ds ∧ bs = digitText ds ++ rest ∧ EndsDigits rest := by
  constructor
  · intro h
    induction bs generalizing acc with
    | nil =>
      cases h
      exact ⟨[], rfl, rfl, nofun⟩
    | cons b bs ih =>
      unfold readDigits at h
      split at h
      · next v hv =>
        obtain ⟨d, rfl, rfl⟩ := digitValue_eq_some hv
        obtain ⟨ds, rfl, rfl, ends⟩ := ih h
        exact ⟨d :: ds, rfl, rfl, ends⟩
      · next hv =>
        cases h
        exact ⟨[], rfl, rfl, .cons hv⟩
  · rintro ⟨ds, rfl, rfl, ends⟩
    induction ds generalizing acc with
    | nil =>
      cases rest with
      | nil => rfl
      | cons b rest =>
        have stop : digitValue b = none := ends b rfl
        simp [digitText, readDigits, stop]
    | cons d ds ih =>
      simp only [digitText, List.map_cons, List.cons_append, readDigits, digitValue_digitByte]
      exact ih

theorem readDigits1_eq_some {n : Nat} {bs rest : List Byte} :
    readDigits1 bs = some (n, rest)
      ↔ ∃ ds, ds ≠ [] ∧ n = digitsValue ds ∧ bs = digitText ds ++ rest ∧ EndsDigits rest := by
  constructor
  · intro h
    unfold readDigits1 at h
    split at h
    · cases h
    · next b bs =>
      split at h
      · next v hv =>
        obtain ⟨d, rfl, rfl⟩ := digitValue_eq_some hv
        obtain ⟨ds, rfl, rfl, ends⟩ := readDigits_eq.mp (Option.some.inj h)
        exact ⟨d :: ds, List.cons_ne_nil d ds, by simp [digitsValue], rfl, ends⟩
      · cases h
  · rintro ⟨ds, nonempty, rfl, rfl, ends⟩
    cases ds with
    | nil => exact absurd rfl nonempty
    | cons d ds =>
      have tail : readDigits d.val (digitText ds ++ rest) = (digitsValueFrom d.val ds, rest) :=
        readDigits_eq.mpr ⟨ds, rfl, rfl, ends⟩
      have first : readDigits1 (digitText (d :: ds) ++ rest) = some (readDigits d.val (digitText ds ++ rest)) := by
        simp [readDigits1, digitText, digitValue_digitByte]
      rw [first, tail]
      simp [digitsValue]

/-! ### `<nat>` and `<int>` -/

/-- R223: the reader of a `<nat>` takes its spellings of value at most `limit`, up to the first byte that is no digit. -/
theorem readNat_eq_some {limit n : Nat} {bs rest : List Byte} :
    readNat limit bs = some (n, rest)
      ↔ ∃ ds, natLegal limit ds ∧ n = digitsValue ds ∧ bs = digitText ds ++ rest ∧ EndsDigits rest := by
  constructor
  · intro h
    unfold readNat at h
    split at h
    · next m r hm =>
      split at h
      · next bound =>
        cases h
        obtain ⟨ds, nonempty, rfl, rfl, ends⟩ := readDigits1_eq_some.mp hm
        exact ⟨ds, ⟨nonempty, bound⟩, rfl, rfl, ends⟩
      · cases h
    · cases h
  · rintro ⟨ds, ⟨nonempty, bound⟩, rfl, rfl, ends⟩
    have digits := readDigits1_eq_some.mpr ⟨ds, nonempty, rfl, rfl, ends⟩
    simp only [readNat, digits, if_pos bound]

@[simp] theorem IntText.value_negative (ds : List (Fin 10)) : IntText.value ⟨true, ds⟩ = -(digitsValue ds : Int) := rfl

@[simp] theorem IntText.value_unsigned (ds : List (Fin 10)) : IntText.value ⟨false, ds⟩ = digitsValue ds := rfl

theorem readNat_text {limit : Nat} {ds : List (Fin 10)} {rest : List Byte} (legal : natLegal limit ds) (ends : EndsDigits rest) :
    readNat limit (digitText ds ++ rest) = some (digitsValue ds, rest) := readNat_eq_some.mpr ⟨ds, legal, rfl, rfl, ends⟩

theorem readNat_before {limit : Nat} {ds : List (Fin 10)} (legal : natLegal limit ds) (c : Char) (cs : List Char)
    (rest : List Byte) (h : digitValue (ascii c) = none) :
    readNat limit (digitText ds ++ (asciiList (c :: cs) ++ rest)) = some (digitsValue ds, asciiList (c :: cs) ++ rest) :=
  readNat_text legal (.literal c cs rest h)

/-- R223: the reader of an `<int>` takes its legal spellings, up to the first byte that is no digit. -/
theorem readInt_eq_some {z : Int} {bs rest : List Byte} :
    readInt bs = some (z, rest)
      ↔ ∃ t : IntText, t.legal ∧ z = t.value ∧ bs = t.text ++ rest ∧ EndsDigits rest := by
  constructor
  · intro h
    unfold readInt at h
    split at h
    · cases h
    · next b bs =>
      split at h
      · next minus =>
        split at h
        · next n r hn =>
          split at h
          · next bound =>
            cases h
            obtain ⟨ds, nonempty, rfl, rfl, ends⟩ := readDigits1_eq_some.mp hn
            exact ⟨⟨true, ds⟩, ⟨nonempty, by rw [IntText.value_negative]; omega⟩, rfl, by simp [IntText.text, minus], ends⟩
          · cases h
        · cases h
      · split at h
        · next n r hn =>
          split at h
          · next bound =>
            cases h
            obtain ⟨ds, nonempty, rfl, digits, ends⟩ := readDigits1_eq_some.mp hn
            exact ⟨⟨false, ds⟩, ⟨nonempty, by rw [IntText.value_unsigned]; omega⟩, rfl, digits, ends⟩
          · cases h
        · cases h
  · rintro ⟨⟨negative, ds⟩, ⟨nonempty, low, high⟩, rfl, rfl, ends⟩
    have digits := readDigits1_eq_some.mpr ⟨ds, nonempty, rfl, rfl, ends⟩
    cases negative with
    | true =>
      have bound : digitsValue ds ≤ 2147483648 := by rw [IntText.value_negative] at low; omega
      simp [readInt, IntText.text, digits, bound]
    | false =>
      have bound : digitsValue ds ≤ 2147483647 := by rw [IntText.value_unsigned] at high; omega
      cases ds with
      | nil => exact absurd rfl nonempty
      | cons d ds =>
        simp only [digitText, List.map_cons, List.cons_append] at digits
        simp [readInt, IntText.text, digitText, digitByte_ne_minus, digits, bound]

theorem readInt_text {t : IntText} {rest : List Byte} (legal : t.legal) (ends : EndsDigits rest) :
    readInt (t.text ++ rest) = some (t.value, rest) := readInt_eq_some.mpr ⟨t, legal, rfl, rfl, ends⟩

theorem readInt_before {t : IntText} (legal : t.legal) (c : Char) (cs : List Char) (rest : List Byte)
    (h : digitValue (ascii c) = none) :
    readInt (t.text ++ (asciiList (c :: cs) ++ rest)) = some (t.value, asciiList (c :: cs) ++ rest) :=
  readInt_text legal (.literal c cs rest h)

/-! ### The writer's form -/

/-- The digits of the writer's form of `n`: no leading zero (R223, R234). -/
def shortestDigits (n : Nat) : List (Fin 10) :=
  if n < 10 then [Fin.ofNat 10 n] else shortestDigits (n / 10) ++ [Fin.ofNat 10 n]

theorem shortestDigits_ne_nil (n : Nat) : shortestDigits n ≠ [] := by
  unfold shortestDigits
  split <;> simp

theorem digitsValue_shortestDigits (n : Nat) : digitsValue (shortestDigits n) = n := by
  induction n using shortestDigits.induct with
  | case1 n small =>
    rw [shortestDigits, if_pos small]
    simpa [digitsValue] using small
  | case2 n large ih =>
    rw [shortestDigits, if_neg large]
    simp only [digitsValue] at ih
    simp only [digitsValue, List.foldl_append, ih, List.foldl_cons, List.foldl_nil, Fin.ofNat]
    omega

theorem decDigits_eq {fuel n : Nat} {tail : List Byte} (enough : n < fuel) :
    decDigits fuel n tail = digitText (shortestDigits n) ++ tail := by
  induction fuel generalizing n tail with
  | zero => omega
  | succ fuel ih =>
    unfold decDigits shortestDigits
    split
    · next small => simp [digitText, Nat.mod_eq_of_lt small]
    · next large =>
      rw [ih (by omega)]
      simp [digitText]

theorem decNat_eq (n : Nat) : decNat n = digitText (shortestDigits n) := by
  rw [decNat, decDigits_eq n.lt_succ_self, List.append_nil]

theorem natLegal_shortestDigits {limit n : Nat} (h : n ≤ limit) : natLegal limit (shortestDigits n) :=
  ⟨shortestDigits_ne_nil n, by rwa [digitsValue_shortestDigits]⟩

/-- The writer's form of an integer (R223, R234). -/
def IntText.shortest (z : Int) : IntText := ⟨decide (z < 0), shortestDigits z.natAbs⟩

theorem IntText.value_shortest (z : Int) : (IntText.shortest z).value = z := by
  by_cases h : z < 0
  · simp [IntText.shortest, IntText.value, digitsValue_shortestDigits, h, abs_of_neg h]
  · simp [IntText.shortest, IntText.value, digitsValue_shortestDigits, h, abs_of_nonneg (not_lt.mp h)]

theorem IntText.text_shortest (z : Int) : (IntText.shortest z).text = decInt z := by
  by_cases h : z < 0
  · simp [IntText.shortest, IntText.text, decInt, decNat_eq, h]
  · simp [IntText.shortest, IntText.text, decInt, decNat_eq, h]

theorem IntText.shortest_legal {z : Int} (low : -2147483648 ≤ z) (high : z ≤ 2147483647) : (IntText.shortest z).legal :=
  ⟨shortestDigits_ne_nil _, by rwa [IntText.value_shortest], by rwa [IntText.value_shortest]⟩

end Sys2Proof.Machine
end

section
/-! The pixel stream (spec/45_bitstream.md R225, R226): the reader takes exactly the texts of the grammar, and the writer's tokens,
one for each maximal run, are such a text. -/

namespace Sys2Proof.Machine

/-! ### Tokens -/

/-- What stands behind a token (R226): `.` or `?`. -/
abbrev EndsToken (rest : List Byte) : Prop := ∃ b tail, rest = b :: tail ∧ (b = ascii '.' ∨ b = ascii '?')

theorem EndsToken.endsDigits {rest : List Byte} (h : EndsToken rest) : EndsDigits rest := by
  obtain ⟨b, tail, rfl, rfl | rfl⟩ := h
  · exact .cons (by decide)
  · exact .cons (by decide)

theorem EndsToken.no_count {rest : List Byte} (h : EndsToken rest) : readLit [ascii '~'] rest = none := by
  obtain ⟨b, tail, rfl, rfl | rfl⟩ := h
  · exact if_neg (by decide)
  · exact if_neg (by decide)

theorem readToken_text {t : TokenText} {rest : List Byte} (legal : t.legal) (ends : EndsToken rest) :
    readToken (t.text ++ rest) = some (t.meaning, rest) := by
  obtain ⟨number, count⟩ := t
  obtain ⟨hnumber, hcount⟩ := legal
  cases count with
  | none =>
    have value : readInt (number.text ++ rest) = some (number.value, rest) :=
      readInt_text hnumber ends.endsDigits
    simp [readToken, TokenText.text, TokenText.meaning, value, ends.no_count]
  | some c =>
    have value : readInt (number.text ++ (asciiList ['~'] ++ (digitText c ++ rest)))
        = some (number.value, asciiList ['~'] ++ (digitText c ++ rest)) :=
      readInt_before hnumber _ _ _ (by decide)
    have repetitions : readNat maxNat (digitText c ++ rest) = some (digitsValue c, rest) :=
      readNat_text (hcount c rfl) ends.endsDigits
    have text : TokenText.text ⟨number, some c⟩ ++ rest = number.text ++ (asciiList ['~'] ++ (digitText c ++ rest)) := by
      simp [TokenText.text, asciiList]
    have tilde : readLit [ascii '~'] (asciiList ['~'] ++ (digitText c ++ rest)) = some (digitText c ++ rest) :=
      readLit_append _ _
    simp only [readToken, text, value, tilde, repetitions, TokenText.meaning]

theorem text_of_readToken {bs rest : List Byte} {r : Word × Nat} (h : readToken bs = some (r, rest)) :
    ∃ t : TokenText, t.legal ∧ r = t.meaning ∧ bs = t.text ++ rest := by
  unfold readToken at h
  split at h
  · cases h
  · next z after hz =>
    obtain ⟨number, hnumber, rfl, rfl, -⟩ := readInt_eq_some.mp hz
    split at h
    · next behind htilde =>
      obtain rfl := readLit_eq_some.mp htilde
      split at h
      · next n last hn =>
        cases h
        obtain ⟨c, hc, rfl, rfl, -⟩ := readNat_eq_some.mp hn
        exact ⟨⟨number, some c⟩, ⟨hnumber, by rintro _ ⟨⟩; exact hc⟩, rfl, by simp [TokenText.text]⟩
      · cases h
    · cases h
      exact ⟨⟨number, none⟩, ⟨hnumber, nofun⟩, rfl, by simp [TokenText.text]⟩

/-! ### The stream as accepted -/

/-- A list of tokens whose numbers obey the number rule. -/
abbrev TokensLegal (ts : List TokenText) : Prop := ∀ t ∈ ts, t.legal

theorem pixelText_cons (finalDot : Bool) (t u : TokenText) (ts : List TokenText) :
    pixelText finalDot (t :: u :: ts) = t.text ++ [ascii '.'] ++ pixelText finalDot (u :: ts) := rfl

theorem length_le_pixelText (finalDot : Bool) (ts : List TokenText) : ts.length ≤ (pixelText finalDot ts).length := by
  induction ts with
  | nil => exact Nat.zero_le _
  | cons t ts ih =>
    cases ts with
    | nil => simp only [pixelText, List.length_append, List.length_cons, List.length_nil]; omega
    | cons u ts => rw [pixelText_cons]; simp only [List.length_append, List.length_cons] at ih ⊢; omega

/-- No number begins with `?`. -/
theorem IntText.readLit_question {t : IntText} (legal : t.legal) (rest : List Byte) :
    readLit [ascii '?'] (t.text ++ rest) = none := by
  obtain ⟨negative, digits⟩ := t
  cases negative with
  | true => exact if_neg (by decide)
  | false =>
    cases digits with
    | nil => exact absurd rfl legal.1
    | cons d ds =>
      have other : ∀ d : Fin 10, ascii '?' ≠ digitByte d.val := by decide
      exact if_neg (other d)

theorem TokenText.readLit_question {t : TokenText} (legal : t.legal) (rest : List Byte) :
    readLit [ascii '?'] (t.text ++ rest) = none := by
  rw [TokenText.text, List.append_assoc]
  exact IntText.readLit_question legal.1 _

theorem pixelText_readLit_question {finalDot : Bool} {t : TokenText} {ts : List TokenText} (legal : t.legal) (rest : List Byte) :
    readLit [ascii '?'] (pixelText finalDot (t :: ts) ++ rest) = none := by
  cases ts with
  | nil => simp only [pixelText, List.append_assoc]; exact TokenText.readLit_question legal _
  | cons u ts => simp only [pixelText_cons, List.append_assoc]; exact TokenText.readLit_question legal _

theorem readLit_question_dot (rest : List Byte) : readLit [ascii '?'] ([ascii '.'] ++ rest) = none := if_neg (by decide)

theorem readTokens_text {finalDot : Bool} {fuel : Nat} {t : TokenText} {ts : List TokenText} {rest : List Byte}
    (legal : TokensLegal (t :: ts)) (enough : ts.length < fuel) :
    readTokens fuel (pixelText finalDot (t :: ts) ++ rest) = some ((t :: ts).map TokenText.meaning, rest) := by
  induction ts generalizing fuel t with
  | nil =>
    obtain ⟨fuel, rfl⟩ := Nat.exists_eq_add_one.mpr enough
    obtain ⟨ht, -⟩ := List.forall_mem_cons.mp legal
    cases finalDot with
    | true =>
      have token := readToken_text (rest := [ascii '.'] ++ ([ascii '?'] ++ rest)) ht ⟨_, _, rfl, .inl rfl⟩
      have text : pixelText true [t] ++ rest = t.text ++ ([ascii '.'] ++ ([ascii '?'] ++ rest)) := by simp [pixelText]
      simp only [readTokens, text, token, readLit_question_dot, readLit_append]
      rfl
    | false =>
      have token := readToken_text (rest := [ascii '?'] ++ rest) ht ⟨_, _, rfl, .inr rfl⟩
      have text : pixelText false [t] ++ rest = t.text ++ ([ascii '?'] ++ rest) := by simp [pixelText]
      simp only [readTokens, text, token, readLit_append]
      rfl
  | cons u ts ih =>
    obtain ⟨fuel, rfl⟩ := Nat.exists_eq_add_one.mpr (Nat.zero_lt_of_lt enough)
    obtain ⟨ht, others⟩ := List.forall_mem_cons.mp legal
    have more := ih (fuel := fuel) others (by simpa using enough)
    have question := pixelText_readLit_question (finalDot := finalDot) (ts := ts) (others u List.mem_cons_self) rest
    have token := readToken_text (rest := [ascii '.'] ++ (pixelText finalDot (u :: ts) ++ rest)) ht ⟨_, _, rfl, .inl rfl⟩
    have text : pixelText finalDot (t :: u :: ts) ++ rest
        = t.text ++ ([ascii '.'] ++ (pixelText finalDot (u :: ts) ++ rest)) := by simp [pixelText_cons]
    simp only [readTokens, text, token, readLit_question_dot, readLit_append, question, more]
    rfl

theorem text_of_readTokens {fuel : Nat} {bs rest : List Byte} {runs : List (Word × Nat)}
    (h : readTokens fuel bs = some (runs, rest)) :
    ∃ (finalDot : Bool) (t : TokenText) (ts : List TokenText), TokensLegal (t :: ts)
      ∧ bs = pixelText finalDot (t :: ts) ++ rest ∧ runs = (t :: ts).map TokenText.meaning := by
  induction fuel generalizing bs runs with
  | zero => cases h
  | succ fuel ih =>
    unfold readTokens at h
    split at h
    · cases h
    · next r behind hr =>
      obtain ⟨t, ht, rfl, rfl⟩ := text_of_readToken hr
      have single : TokensLegal [t] := List.forall_mem_singleton.mpr ht
      split at h
      · next after hend =>
        cases h
        obtain rfl := readLit_eq_some.mp hend
        exact ⟨false, t, [], single, by simp [pixelText], rfl⟩
      · split at h
        · cases h
        · next behindDot hdot =>
          obtain rfl := readLit_eq_some.mp hdot
          split at h
          · next after hend =>
            cases h
            obtain rfl := readLit_eq_some.mp hend
            exact ⟨true, t, [], single, by simp [pixelText], rfl⟩
          · split at h
            · next rs after hmore =>
              cases h
              obtain ⟨finalDot, u, us, others, rfl, rfl⟩ := ih hmore
              exact ⟨finalDot, t, u :: us, List.forall_mem_cons.mpr ⟨ht, others⟩, by simp [pixelText_cons], rfl⟩
            · cases h

/-- R226: the reader takes a text of the grammar, with the meanings of its tokens. -/
theorem readPixels_text {finalDot : Bool} {ts : List TokenText} (legal : TokensLegal ts) (rest : List Byte) :
    readPixels (pixelText finalDot ts ++ rest) = some (ts.map TokenText.meaning, rest) := by
  cases ts with
  | nil => rfl
  | cons t ts =>
    have count := length_le_pixelText finalDot (t :: ts)
    rw [List.length_cons] at count
    have tokens := readTokens_text (finalDot := finalDot) (rest := rest) legal
      (show ts.length < (pixelText finalDot (t :: ts) ++ rest).length + 1 by rw [List.length_append]; omega)
    simp only [readPixels, pixelText_readLit_question (legal t List.mem_cons_self), tokens]

/-- R226: what the reader takes is a text of the grammar. -/
theorem text_of_readPixels {bs rest : List Byte} {runs : List (Word × Nat)} (h : readPixels bs = some (runs, rest)) :
    ∃ (tokens : List TokenText) (finalDot : Bool),
      TokensLegal tokens ∧ bs = pixelText finalDot tokens ++ rest ∧ runs = tokens.map TokenText.meaning := by
  unfold readPixels at h
  split at h
  · next after hend =>
    cases h
    exact ⟨[], false, nofun, readLit_eq_some.mp hend, rfl⟩
  · obtain ⟨finalDot, t, ts, legal, text, meaning⟩ := text_of_readTokens h
    exact ⟨t :: ts, finalDot, legal, text, meaning⟩

theorem readPixels_eq_none {bs : List Byte} (noText : ∀ finalDot (tokens : List TokenText), TokensLegal tokens →
    ¬ ∃ rest, bs = pixelText finalDot tokens ++ rest) : readPixels bs = none := by
  refine Option.eq_none_iff_forall_ne_some.mpr fun ⟨runs, rest⟩ taken => ?_
  obtain ⟨tokens, finalDot, legal, text, -⟩ := text_of_readPixels taken
  exact noText finalDot tokens legal ⟨rest, text⟩

/-- Settles O53: what the reader takes is a text, and each text is taken. -/
theorem pixelReaderAcceptsExactlyTheGrammar : Obligations.PixelReaderAcceptsExactlyTheGrammar := by
  unfold Obligations.PixelReaderAcceptsExactlyTheGrammar
  intro bs rest runs
  constructor
  · exact text_of_readPixels
  · rintro ⟨tokens, finalDot, legal, rfl, rfl⟩
    exact readPixels_text legal rest

/-! ### Runs -/

/-- What one more word in front does to the runs: it lengthens the first run, or begins one that differs from it (R225). -/
theorem runsOf_cons (w : Word) (ws : List Word) :
    (∃ k rest, runsOf ws = (w, k) :: rest ∧ runsOf (w :: ws) = (w, k + 1) :: rest)
      ∨ ((∀ r ∈ (runsOf ws).head?, w ≠ r.1) ∧ runsOf (w :: ws) = (w, 1) :: runsOf ws) := by
  cases h : runsOf ws with
  | nil => exact .inr ⟨nofun, by simp [runsOf, h]⟩
  | cons r rest =>
    obtain ⟨v, k⟩ := r
    by_cases same : w = v
    · subst same
      exact .inl ⟨k, rest, rfl, by simp [runsOf, h]⟩
    · exact .inr ⟨by simpa using same, by simp [runsOf, h, same]⟩

theorem expandRuns_cons (r : Word × Nat) (rs : List (Word × Nat)) :
    expandRuns (r :: rs) = List.replicate r.2 r.1 ++ expandRuns rs := List.flatMap_cons

theorem expandRuns_runsOf (ws : List Word) : expandRuns (runsOf ws) = ws := by
  induction ws with
  | nil => rfl
  | cons w ws ih =>
    rcases runsOf_cons w ws with ⟨k, rest, before, after⟩ | ⟨-, after⟩
    · rw [before, expandRuns_cons] at ih
      rw [after, expandRuns_cons, List.replicate_succ, List.cons_append, ih]
    · rw [after, expandRuns_cons, ih]
      rfl

theorem runsOf_pos (ws : List Word) : ∀ r ∈ runsOf ws, 1 ≤ r.2 := by
  induction ws with
  | nil => nofun
  | cons w ws ih =>
    rcases runsOf_cons w ws with ⟨k, rest, before, after⟩ | ⟨-, after⟩
    · rw [before] at ih
      obtain ⟨-, others⟩ := List.forall_mem_cons.mp ih
      rw [after]
      exact List.forall_mem_cons.mpr ⟨Nat.le_add_left 1 k, others⟩
    · rw [after]
      exact List.forall_mem_cons.mpr ⟨le_rfl, ih⟩

/-- The runs are maximal: neighbours hold different words. -/
theorem runsOf_isChain (ws : List Word) : (runsOf ws).IsChain (fun r q => r.1 ≠ q.1) := by
  induction ws with
  | nil => exact .nil
  | cons w ws ih =>
    rcases runsOf_cons w ws with ⟨k, rest, before, after⟩ | ⟨new, after⟩
    · rw [before, List.isChain_cons] at ih
      rw [after, List.isChain_cons]
      exact ih
    · rw [after, List.isChain_cons]
      exact ⟨new, ih⟩

theorem runTotal_runsOf (ws : List Word) : runTotal (runsOf ws) = ws.length := by
  rw [← expandRuns_length, expandRuns_runsOf]

theorem runsOf_le_length {ws : List Word} {r : Word × Nat} (h : r ∈ runsOf ws) : r.2 ≤ ws.length := by
  rw [← runTotal_runsOf]
  exact List.le_sum_of_mem (List.mem_map_of_mem h)

/-! ### The stream as written -/

/-- The token that the writer makes of a run (R225). -/
def TokenText.ofRun (r : Word × Nat) : TokenText :=
  ⟨IntText.shortest (s32 r.1), if r.2 = 1 then none else some (shortestDigits (r.2 - 1))⟩

theorem TokenText.text_ofRun (r : Word × Nat) : (TokenText.ofRun r).text ++ [ascii '.'] = tokenBytes r := by
  by_cases h : r.2 = 1
  · simp [TokenText.ofRun, TokenText.text, tokenBytes, IntText.text_shortest, h]
  · simp [TokenText.ofRun, TokenText.text, tokenBytes, IntText.text_shortest, decNat_eq, h]

theorem TokenText.meaning_ofRun {r : Word × Nat} (pos : 1 ≤ r.2) : (TokenText.ofRun r).meaning = r := by
  obtain ⟨w, k⟩ := r
  have word : w32 (s32 w) = w := BitVec.ofInt_toInt
  by_cases h : k = 1
  · simp [TokenText.ofRun, TokenText.meaning, IntText.value_shortest, word, h]
  · simp only [TokenText.ofRun, TokenText.meaning, IntText.value_shortest, word, h, if_false, digitsValue_shortestDigits,
      Nat.sub_add_cancel pos]

theorem TokenText.ofRun_legal {r : Word × Nat} (h : r.2 ≤ 2 ^ 32) : (TokenText.ofRun r).legal := by
  have low : -2147483648 ≤ s32 r.1 := BitVec.le_toInt r.1
  have high : s32 r.1 < 2147483648 := BitVec.toInt_lt
  refine ⟨IntText.shortest_legal low (by omega), fun c hc => ?_⟩
  by_cases one : r.2 = 1
  · simp [TokenText.ofRun, one] at hc
  · simp only [TokenText.ofRun, one, if_false, Option.mem_def, Option.some.injEq] at hc
    rw [← hc]
    exact natLegal_shortestDigits (by omega)

theorem pixelText_true (ts : List TokenText) :
    pixelText true ts = (ts.flatMap fun t => t.text ++ [ascii '.']) ++ [ascii '?'] := by
  induction ts with
  | nil => rfl
  | cons t ts ih =>
    cases ts with
    | nil => simp [pixelText]
    | cons u ts => rw [pixelText_cons, ih]; simp

theorem encodePixels_eq (ws : List Word) : encodePixels ws = pixelText true ((runsOf ws).map TokenText.ofRun) := by
  simp only [pixelText_true, List.flatMap_map, TokenText.text_ofRun]
  rfl

/-- R250: the reader gets back the writer's runs. -/
theorem readPixels_encodePixels {ws : List Word} (h : ws.length ≤ 2 ^ 32) (rest : List Byte) :
    readPixels (encodePixels ws ++ rest) = some (runsOf ws, rest) := by
  have legal : TokensLegal ((runsOf ws).map TokenText.ofRun) :=
    List.forall_mem_map.mpr fun r hr => TokenText.ofRun_legal ((runsOf_le_length hr).trans h)
  have meaning : ((runsOf ws).map TokenText.ofRun).map TokenText.meaning = runsOf ws := by
    rw [List.map_map]
    exact (List.map_congr_left fun r hr => TokenText.meaning_ofRun (runsOf_pos ws r hr)).trans (List.map_id' _)
  rw [encodePixels_eq, readPixels_text legal, meaning]

/-- Settles O52: the writer's tokens are a text of the grammar, one token for each maximal run. -/
theorem pixelStreamRoundTrip : Obligations.PixelStreamRoundTrip := by
  unfold Obligations.PixelStreamRoundTrip
  intro ws rest h
  refine ⟨readPixels_encodePixels h rest, expandRuns_runsOf ws, runsOf_pos ws, fun k r q hr hq => ?_⟩
  obtain ⟨hk, rfl⟩ := List.getElem?_eq_some_iff.mp hr
  obtain ⟨hk', rfl⟩ := List.getElem?_eq_some_iff.mp hq
  exact List.isChain_iff_getElem.mp (runsOf_isChain ws) k hk'

end Sys2Proof.Machine
end

section
/-! The records beside the pixel stream (spec/45_bitstream.md R224, R227, R228): the readers of metadata, of markers and of vector
groups take exactly the texts of the grammar, and what the writer writes is such a text. -/

namespace Sys2Proof.Machine

/-! ### Metadata -/

/-- The reader of a metadata record reads its parts one behind the other. -/
theorem readMeta_eq_bind (bs : List Byte) :
    readMeta bs = (readLit (asciiList ['M', 'E', 'T', 'A', '[', 'D', '[']) bs).bind fun r1 =>
      (readNat maxNat r1).bind fun w => (readLit (asciiList [',']) w.2).bind fun r3 =>
      (readNat maxNat r3).bind fun h => (readLit (asciiList [']', 'F', 'C', '[']) h.2).bind fun r5 =>
      (readNat maxNat r5).bind fun n => (readLit (asciiList [']', ']']) n.2).bind fun r7 => some (w.1, h.1, n.1, r7) := by
  simp only [readMeta, Option.bind, asciiList, List.map_cons, List.map_nil]
  repeat' split
  all_goals simp_all

/-- R224: the reader of a metadata record takes it in every spelling of its numbers. -/
theorem readMeta_text {w h n : List (Fin 10)} (hw : natLegal maxNat w) (hh : natLegal maxNat h) (hn : natLegal maxNat n)
    (rest : List Byte) :
    readMeta (metaText w h n ++ rest) = some (digitsValue w, digitsValue h, digitsValue n, rest) := by
  simp (disch := decide) only [metaText, List.append_assoc, readMeta_eq_bind, readLit_append, Option.bind_some,
    readNat_before hw, readNat_before hh,
    readNat_before hn]

/-- R224: what that reader takes is such a record. -/
theorem text_of_readMeta {bs rest : List Byte} {w h n : Nat} (taken : readMeta bs = some (w, h, n, rest)) :
    ∃ ds es fs, natLegal maxNat ds ∧ natLegal maxNat es ∧ natLegal maxNat fs ∧ bs = metaText ds es fs ++ rest := by
  simp only [readMeta_eq_bind, Option.bind_eq_some_iff, readLit_eq_some] at taken
  obtain ⟨_, rfl, ⟨_, r2⟩, hw, r3, rfl, ⟨_, r4⟩, hh, r5, rfl, ⟨_, r6⟩, hn, r7, rfl, same⟩ := taken
  cases same
  obtain ⟨ds, hds, rfl, rfl, -⟩ := readNat_eq_some.mp hw
  obtain ⟨es, hes, rfl, rfl, -⟩ := readNat_eq_some.mp hh
  obtain ⟨fs, hfs, rfl, rfl, -⟩ := readNat_eq_some.mp hn
  exact ⟨ds, es, fs, hds, hes, hfs, by simp only [metaText, List.append_assoc]⟩

theorem readMeta_eq_none {bs : List Byte} (noText : ∀ ds es fs, natLegal maxNat ds → natLegal maxNat es → natLegal maxNat fs →
    ¬ ∃ rest, bs = metaText ds es fs ++ rest) : readMeta bs = none := by
  refine Option.eq_none_iff_forall_ne_some.mpr fun ⟨w, h, n, rest⟩ taken => ?_
  obtain ⟨ds, es, fs, hds, hes, hfs, text⟩ := text_of_readMeta taken
  exact noText ds es fs hds hes hfs ⟨rest, text⟩

theorem metaRecord_eq (w h n : Nat) :
    metaRecord w h n = metaText (shortestDigits w) (shortestDigits h) (shortestDigits n) := by
  simp only [metaRecord, metaText, decNat_eq]
  rfl

/-! ### Markers -/

theorem readMarker_eq_bind (lit bs : List Byte) :
    readMarker lit bs = (readLit lit bs).bind fun r1 => (readNat maxNat r1).bind fun i =>
      (readLit (asciiList ['$']) i.2).bind fun r3 => some (i.1, r3) := by
  simp only [readMarker, Option.bind, asciiList, List.map_cons, List.map_nil]
  repeat' split
  all_goals simp_all

/-- R227, R228: the reader of a marker takes it in every spelling of its index. -/
theorem readMarker_text (letter : Char) {ds : List (Fin 10)} (legal : natLegal maxNat ds) (rest : List Byte) :
    readMarker (asciiList ['$', letter]) (markerText letter ds ++ rest) = some (digitsValue ds, rest) := by
  simp (disch := decide) only [markerText, List.append_assoc, readMarker_eq_bind, readLit_append, Option.bind_some,
    readNat_before legal]

/-- R227, R228: what that reader takes is such a marker. -/
theorem text_of_readMarker {letter : Char} {bs rest : List Byte} {i : Nat}
    (taken : readMarker (asciiList ['$', letter]) bs = some (i, rest)) :
    ∃ ds, natLegal maxNat ds ∧ bs = markerText letter ds ++ rest := by
  simp only [readMarker_eq_bind, Option.bind_eq_some_iff, readLit_eq_some] at taken
  obtain ⟨_, rfl, ⟨_, r2⟩, hi, r3, rfl, same⟩ := taken
  cases same
  obtain ⟨ds, hds, rfl, rfl, -⟩ := readNat_eq_some.mp hi
  exact ⟨ds, hds, by simp only [markerText, List.append_assoc]⟩

/-! ### Groups -/

/-- What a group of a vector record means (R228). -/
def GroupText.meaning (g : GroupText) : VecGroup := ⟨digitsValue g.x, digitsValue g.y, g.sx.value, g.sy.value⟩

/-- The characters of a group behind its `[`. -/
def GroupText.inner (g : GroupText) : List Byte :=
  digitText g.x ++ asciiList [','] ++ digitText g.y ++ asciiList [';'] ++ g.sx.text ++ asciiList [','] ++ g.sy.text
    ++ asciiList [']']

theorem GroupText.text_eq (g : GroupText) : g.text = ascii '[' :: g.inner := by
  simp [GroupText.text, GroupText.inner, asciiList]

theorem readGroup_eq_bind (bs : List Byte) :
    readGroup bs = (readNat maxGroupPos bs).bind fun x => (readLit (asciiList [',']) x.2).bind fun r2 =>
      (readNat maxGroupPos r2).bind fun y => (readLit (asciiList [';']) y.2).bind fun r4 =>
      (readInt r4).bind fun sx => (readLit (asciiList [',']) sx.2).bind fun r6 =>
      (readInt r6).bind fun sy => (readLit (asciiList [']']) sy.2).bind fun r8 => some (⟨x.1, y.1, sx.1, sy.1⟩, r8) := by
  simp only [readGroup, Option.bind, asciiList, List.map_cons, List.map_nil]
  repeat' split
  all_goals simp_all

/-- R228: the reader of a group takes it in every spelling of its numbers. -/
theorem readGroup_text {g : GroupText} (legal : g.legal) (rest : List Byte) :
    readGroup (g.inner ++ rest) = some (g.meaning, rest) := by
  obtain ⟨hx, hy, hsx, hsy⟩ := legal
  simp (disch := decide) only [GroupText.inner, List.append_assoc, readGroup_eq_bind, readLit_append, Option.bind_some, maxGroupPos,
    readNat_before hx, readNat_before hy,
    readInt_before hsx, readInt_before hsy]
  rfl

/-- R228: what that reader takes is such a group. -/
theorem text_of_readGroup {bs rest : List Byte} {g : VecGroup} (taken : readGroup bs = some (g, rest)) :
    ∃ t : GroupText, t.legal ∧ g = t.meaning ∧ bs = t.inner ++ rest := by
  simp only [readGroup_eq_bind, Option.bind_eq_some_iff, readLit_eq_some] at taken
  obtain ⟨⟨_, r1⟩, hx, r2, rfl, ⟨_, r3⟩, hy, r4, rfl, ⟨_, r5⟩, hsx, r6, rfl, ⟨_, r7⟩, hsy, r8, rfl, same⟩ := taken
  cases same
  obtain ⟨x, lx, rfl, rfl, -⟩ := readNat_eq_some.mp hx
  obtain ⟨y, ly, rfl, rfl, -⟩ := readNat_eq_some.mp hy
  obtain ⟨sx, lsx, rfl, rfl, -⟩ := readInt_eq_some.mp hsx
  obtain ⟨sy, lsy, rfl, rfl, -⟩ := readInt_eq_some.mp hsy
  exact ⟨⟨x, y, sx, sy⟩, ⟨lx, ly, lsx, lsy⟩, rfl, by simp only [GroupText.inner, List.append_assoc]⟩

theorem length_le_groupsText (gs : List GroupText) : gs.length ≤ (gs.flatMap GroupText.text).length := by
  induction gs with
  | nil => exact le_rfl
  | cons g gs ih => simp only [List.flatMap_cons, List.length_append, GroupText.text_eq, List.length_cons]; omega

theorem readGroups_text {fuel : Nat} {gs : List GroupText} {rest : List Byte} (legal : ∀ g ∈ gs, g.legal)
    (ends : endsGroups rest) (enough : gs.length < fuel) :
    readGroups fuel (gs.flatMap GroupText.text ++ rest) = some (gs.map GroupText.meaning, rest) := by
  obtain ⟨fuel, rfl⟩ := Nat.exists_eq_add_one.mpr (Nat.zero_lt_of_lt enough)
  induction gs generalizing fuel with
  | nil =>
    cases rest with
    | nil => rfl
    | cons b rest =>
      obtain rfl : b = ascii '$' := by simpa [endsGroups] using ends
      simp [readGroups]
  | cons g gs ih =>
    obtain ⟨hg, others⟩ := List.forall_mem_cons.mp legal
    rw [List.length_cons] at enough
    obtain ⟨fuel, rfl⟩ := Nat.exists_eq_add_one.mpr (show 0 < fuel by omega)
    have more := ih others fuel (by omega)
    have first := readGroup_text hg (gs.flatMap GroupText.text ++ rest)
    have bracket : ascii '[' ≠ ascii '$' := by decide
    have text : (g :: gs).flatMap GroupText.text ++ rest
        = ascii '[' :: (g.inner ++ (gs.flatMap GroupText.text ++ rest)) := by simp [GroupText.text_eq]
    rw [text, readGroups, if_neg bracket, if_pos rfl]
    simp only [first, more, List.map_cons]

/-- R228: the reader of groups takes each list of them, in every spelling. -/
theorem readGroups_of_text {gs : List GroupText} {rest : List Byte} (legal : ∀ g ∈ gs, g.legal) (ends : endsGroups rest) :
    readGroups ((gs.flatMap GroupText.text ++ rest).length + 1) (gs.flatMap GroupText.text ++ rest)
      = some (gs.map GroupText.meaning, rest) := by
  have count := length_le_groupsText gs
  exact readGroups_text legal ends (by rw [List.length_append]; omega)

/-- R228: what that reader takes is such a list. -/
theorem text_of_readGroups {fuel : Nat} {bs rest : List Byte} {gs : List VecGroup}
    (taken : readGroups fuel bs = some (gs, rest)) :
    ∃ ts : List GroupText, (∀ t ∈ ts, t.legal) ∧ endsGroups rest ∧ bs = ts.flatMap GroupText.text ++ rest := by
  induction fuel generalizing bs gs with
  | zero => cases taken
  | succ fuel ih =>
    cases bs with
    | nil =>
      cases taken
      exact ⟨[], nofun, .inl rfl, rfl⟩
    | cons b bs =>
      unfold readGroups at taken
      split at taken
      · next dollar =>
        cases taken
        exact ⟨[], nofun, .inr (congrArg some dollar), rfl⟩
      · split at taken
        · next bracket =>
          split at taken
          · cases taken
          · next g behind hg =>
            split at taken
            · next more after hmore =>
              cases taken
              obtain ⟨t, ht, -, rfl⟩ := text_of_readGroup hg
              obtain ⟨ts, others, ends, rfl⟩ := ih hmore
              exact ⟨t :: ts, List.forall_mem_cons.mpr ⟨ht, others⟩, ends, by simp [bracket, GroupText.text_eq]⟩
            · cases taken
        · cases taken

theorem readGroups_eq_none {fuel : Nat} {bs : List Byte} (noText : ∀ (ts : List GroupText) (rest : List Byte),
    (∀ t ∈ ts, t.legal) → endsGroups rest → bs ≠ ts.flatMap GroupText.text ++ rest) : readGroups fuel bs = none := by
  refine Option.eq_none_iff_forall_ne_some.mpr fun ⟨gs, rest⟩ taken => ?_
  obtain ⟨ts, legal, ends, text⟩ := text_of_readGroups taken
  exact noText ts rest legal ends text

/-- The text that the writer makes of a group (R228). -/
def GroupText.ofGroup (g : VecGroup) : GroupText :=
  ⟨shortestDigits g.x, shortestDigits g.y, .shortest g.sx, .shortest g.sy⟩

theorem GroupText.text_ofGroup (g : VecGroup) : (GroupText.ofGroup g).text = groupBytes g.x g.y g.sx g.sy := by
  simp only [GroupText.ofGroup, GroupText.text, groupBytes, decNat_eq, IntText.text_shortest]
  rfl

theorem GroupText.meaning_ofGroup (g : VecGroup) : (GroupText.ofGroup g).meaning = g := by
  simp only [GroupText.ofGroup, GroupText.meaning, digitsValue_shortestDigits, IntText.value_shortest]

/-- Settles O54: what the writer writes is a text that the reader takes. -/
theorem metaAndVectorTextRoundTrip : Obligations.MetaAndVectorTextRoundTrip := by
  unfold Obligations.MetaAndVectorTextRoundTrip
  constructor
  · intro w h n rest hw hh hn
    have taken := readMeta_text (natLegal_shortestDigits (Nat.le_of_lt_succ hw)) (natLegal_shortestDigits (Nat.le_of_lt_succ hh))
      (natLegal_shortestDigits (Nat.le_of_lt_succ hn)) rest
    rw [metaRecord_eq, taken]
    simp only [digitsValue_shortestDigits]
  · intro groups rest ends bounds text
    have legal : ∀ t ∈ groups.map GroupText.ofGroup, t.legal := List.forall_mem_map.mpr fun g hg =>
      have ⟨hx, hy, lsx, hsx, lsy, hsy⟩ := bounds g hg
      ⟨natLegal_shortestDigits hx, natLegal_shortestDigits hy, IntText.shortest_legal lsx hsx, IntText.shortest_legal lsy hsy⟩
    have taken := readGroups_of_text legal ends
    simpa only [List.flatMap_map, GroupText.text_ofGroup, List.map_map, Function.comp_def, GroupText.meaning_ofGroup,
      List.map_id'] using taken

end Sys2Proof.Machine
end

section
/-! The writer commands (spec/45_bitstream.md R233, R236 to R239): each appends one record to the stream, or takes a fault. -/

namespace Sys2Proof.Machine

section
variable {s : State} {p : Pend} {bytes : List Byte}

/-! ### `Append` -/

theorem State.append_overflow (h : Config.strmCap < u32 s.sLen + bytes.length) :
    s.append bytes = .error ⟨.streamOverflow, saturated bytes.length⟩ := if_pos h

/-- R233: the record stands behind the stream, and nothing but its bytes and `SLEN` differs. -/
theorem State.append_appended {t : State} (h : s.append bytes = .ok t) : s.Appended t.complete bytes := by
  obtain ⟨-, rfl⟩ := State.append_ok h
  refine ⟨rfl, fun k hk => ?_, fun a outside => ?_⟩
  · have stored := s.byteAt_writeBytes (strmBase + u32 s.sLen) bytes (strmBase + u32 s.sLen + k)
    rw [if_pos ⟨Nat.le_add_right _ k, by omega⟩, Nat.add_sub_cancel_left, List.getElem?_eq_getElem hk] at stored
    exact stored
  · exact s.byteAt_writeBytes_outside (strmBase + u32 s.sLen) bytes a (by omega)

theorem State.u32_sLen_of_append {t : State} (h : s.append bytes = .ok t) : u32 t.sLen = u32 s.sLen + bytes.length := by
  obtain ⟨fits, rfl⟩ := State.append_ok h
  rw [Config.strmCap] at fits
  exact Nat.mod_eq_of_lt (by omega)

/-! ### A command that appends a record -/

/-- R233 at command level: the record is appended whole, or `StreamOverflow` is taken with its length. -/
abbrev State.AppendsRecord (s : State) (outcome : Host.Outcome State Fault Refusal) (record : List Byte) : Prop :=
  (u32 s.sLen + record.length ≤ 16777216 → ∃ t, outcome = .next t ∧ s.Appended t record)
    ∧ (16777216 < u32 s.sLen + record.length → outcome = .next (s.takeFault ⟨.streamOverflow, saturated record.length⟩))

theorem State.runCommand_append {body : Pend → Except EngineFault State} (hp : s.pend = some p)
    (hb : body p = s.append bytes) : s.AppendsRecord (s.runCommand body) bytes := by
  constructor
  · intro room
    have appended := State.append_of_fits room
    exact ⟨_, State.runCommand_ok hp (hb.trans appended), State.append_appended appended⟩
  · intro full
    exact State.runCommand_error hp (hb.trans (State.append_overflow full))

/-! ### The records -/

/-- The group of entry `e` (R239). -/
abbrev State.entryGroup (s : State) (e : Nat) : List Byte :=
  groupBytes (u32 (s.vtab e 5)) (u32 (s.vtab e 6)) (s32 (s.vtab e 7)) (s32 (s.vtab e 8))

/-- R239: only the entries whose `STAT.FOUND` is 1 add a group. -/
theorem State.flatMap_entryBytes (s : State) (entries : List Nat) :
    entries.flatMap s.entryBytes = (entries.filter fun e => (s.vtab e 4).getLsbD 0).flatMap s.entryGroup := by
  induction entries with
  | nil => rfl
  | cons e entries ih =>
    by_cases found : (s.vtab e 4).getLsbD 0 = true
    · rw [List.filter_cons, if_pos found, List.flatMap_cons, List.flatMap_cons, ih, State.entryBytes, if_pos found]
    · rw [List.filter_cons, if_neg found, List.flatMap_cons, ih, State.entryBytes, if_neg found, List.nil_append]

/-! ### The commands -/

variable (hp : s.pend = some p) (legal : s.pointerFault = none)
include hp legal

theorem exec_serMeta_illegalFrame (illegal : ¬ s.frameLegal) : exec .serMeta s = .next (s.takeFault ⟨.illegalConfig, 0⟩) :=
  State.runCommand_error hp (by simp only [legal, if_pos illegal])

theorem exec_serMeta_appends (frame : s.frameLegal) :
    s.AppendsRecord (exec .serMeta s) (metaRecord s.frameW.toNat s.frameH.toNat (u32 (p.arg 0))) :=
  State.runCommand_append hp (by simp only [legal, if_neg (not_not.mpr frame)])

theorem exec_serIntra_appends {rs : RasterSel} {d : BitVec 4} {v : RasterView} (hv : s.resolveRaster p.cmd rs d = .ok v) :
    s.AppendsRecord (exec (.serIntra rs d) s) (intraRecord v.pixels) :=
  State.runCommand_append hp (by simp only [hv, legal])

theorem exec_serFrame_appends {rs : RasterSel} {d : BitVec 4} {v : RasterView} (hv : s.resolveRaster p.cmd rs d = .ok v) :
    s.AppendsRecord (exec (.serFrame rs d) s) (frameRecord (u32 (p.arg 0)) v.pixels) :=
  State.runCommand_append hp (by simp only [hv, legal])

theorem exec_serVecs_tooMany (many : Config.vtabN < u32 (p.arg 1)) :
    exec .serVecs s = .next (s.takeFault ⟨.tableOverflow, p.arg 1⟩) :=
  State.runCommand_error hp (by simp only [legal, if_pos many])

theorem exec_serVecs_appends (few : u32 (p.arg 1) ≤ Config.vtabN) :
    s.AppendsRecord (exec .serVecs s) (s.vecsRecord (u32 (p.arg 0)) (u32 (p.arg 1))) :=
  State.runCommand_append hp (by simp only [legal, if_neg (Nat.not_lt.mpr few)])

end

/-- Settles O50: by whether the record fits. -/
theorem appendWholeOrNothing : Obligations.AppendWholeOrNothing := by
  unfold Obligations.AppendWholeOrNothing
  intro s bytes
  constructor
  · intro room
    have appended := State.append_of_fits room
    exact ⟨_, appended, State.u32_sLen_of_append appended, State.append_appended appended⟩
  · exact State.append_overflow

/-- Settles O51: each command reaches `Append` with its record, or one of the two tests before it. -/
theorem writersAppendTheirRecords : Obligations.WritersAppendTheirRecords := by
  unfold Obligations.WritersAppendTheirRecords
  intro s p hp behind bound faulted appends
  have legal : s.pointerFault = none := State.pointerFault_eq_none.mpr ⟨behind, bound⟩
  refine ⟨exec_serMeta_illegalFrame hp legal, exec_serMeta_appends hp legal, fun rs d v hv =>
    ⟨exec_serIntra_appends hp legal hv, exec_serFrame_appends hp legal hv⟩, exec_serVecs_tooMany hp legal, fun few => ?_⟩
  have appended := exec_serVecs_appends hp legal few
  rw [State.vecsRecord, State.flatMap_entryBytes] at appended
  exact appended

end Sys2Proof.Machine
end

section
/-! What the reader commands answer (spec/45_bitstream.md R222, R235, R243 to R247), by what their readers make of the unread bytes;
`PAR.PEEK` and `PAR.META` whole. -/

namespace Sys2Proof.Machine

/-! ### The kind of a record -/

theorem readLit_isSome {lit bs : List Byte} : (readLit lit bs).isSome = true ↔ ∃ rest, bs = lit ++ rest := by
  simp only [Option.isSome_iff_exists, readLit_eq_some]

/-- R243: a metadata record shows its kind, whatever follows the marker. -/
theorem peekKind_meta (rest : List Byte) : peekKind (asciiList ['M', 'E', 'T', 'A', '['] ++ rest) = some (1, 0) := by
  rw [peekKind, if_neg (by simp [asciiList]), if_pos (readLit_isSome.mpr ⟨rest, rfl⟩)]

section
variable {bs : List Byte}

theorem not_isEmpty_of_dollar (dollar : bs.head? = some (ascii '$')) : ¬ bs.isEmpty = true := by
  rw [List.isEmpty_iff]
  rintro rfl
  cases dollar

theorem not_meta_of_dollar (dollar : bs.head? = some (ascii '$')) :
    ¬ (readLit (asciiList ['M', 'E', 'T', 'A', '[']) bs).isSome = true := by
  rw [readLit_isSome]
  rintro ⟨rest, rfl⟩
  exact absurd (Option.some.inj dollar) (by decide)

theorem peekKind_of_readMarker_frame (dollar : bs.head? = some (ascii '$'))
    (other : ¬ (readLit (asciiList ['$', 'S', '$']) bs).isSome = true) {i : Nat} {rest : List Byte}
    (frame : readMarker (asciiList ['$', 'P']) bs = some (i, rest)) : peekKind bs = some (3, i) := by
  rw [peekKind, if_neg (not_isEmpty_of_dollar dollar), if_neg (not_meta_of_dollar dollar), if_neg other]
  simp only [frame]

theorem peekKind_of_readMarker_vecs (dollar : bs.head? = some (ascii '$'))
    (other : ¬ (readLit (asciiList ['$', 'S', '$']) bs).isSome = true) (noFrame : readMarker (asciiList ['$', 'P']) bs = none)
    {i : Nat} {rest : List Byte} (vecs : readMarker (asciiList ['$', 'V']) bs = some (i, rest)) :
    peekKind bs = some (4, i) := by
  rw [peekKind, if_neg (not_isEmpty_of_dollar dollar), if_neg (not_meta_of_dollar dollar), if_neg other]
  simp only [noFrame, vecs]

end

theorem peekKind_intra (rest : List Byte) : peekKind (asciiList ['$', 'S', '$'] ++ rest) = some (2, 0) := by
  rw [peekKind, if_neg (not_isEmpty_of_dollar rfl), if_neg (not_meta_of_dollar rfl), if_pos (readLit_isSome.mpr ⟨rest, rfl⟩)]

/-- The letter of a marker tells it from a literal with another letter. -/
theorem readLit_markerText {c letter : Char} (h : ascii c ≠ ascii letter) (cs : List Char) (ds : List (Fin 10))
    (rest : List Byte) : readLit (asciiList ('$' :: c :: cs)) (markerText letter ds ++ rest) = none := by
  simp [asciiList, markerText, readLit, h]

theorem not_intra_of_marker {letter : Char} (h : ascii 'S' ≠ ascii letter) (ds : List (Fin 10)) (rest : List Byte) :
    ¬ (readLit (asciiList ['$', 'S', '$']) (markerText letter ds ++ rest)).isSome = true := by
  rw [readLit_markerText h]
  decide

theorem peekKind_frame {ds : List (Fin 10)} (legal : natLegal maxNat ds) (rest : List Byte) :
    peekKind (markerText 'P' ds ++ rest) = some (3, digitsValue ds) :=
  peekKind_of_readMarker_frame rfl (not_intra_of_marker (by decide) ds rest) (readMarker_text 'P' legal rest)

theorem peekKind_vecs {ds : List (Fin 10)} (legal : natLegal maxNat ds) (rest : List Byte) :
    peekKind (markerText 'V' ds ++ rest) = some (4, digitsValue ds) := by
  have noFrame : readMarker (asciiList ['$', 'P']) (markerText 'V' ds ++ rest) = none := by
    simp only [readMarker, readLit_markerText (show ascii 'P' ≠ ascii 'V' by decide)]
  exact peekKind_of_readMarker_vecs rfl (not_intra_of_marker (by decide) ds rest) noFrame (readMarker_text 'V' legal rest)

/-- R243: bytes that show a kind are none, or begin with one of the markers. -/
theorem text_of_peekKind {bs : List Byte} {k : Nat × Nat} (shown : peekKind bs = some k) :
    bs = [] ∨ (∃ rest, bs = asciiList ['M', 'E', 'T', 'A', '['] ++ rest) ∨ (∃ rest, bs = asciiList ['$', 'S', '$'] ++ rest)
      ∨ ∃ ds, natLegal maxNat ds ∧ ((∃ rest, bs = markerText 'P' ds ++ rest) ∨ ∃ rest, bs = markerText 'V' ds ++ rest) := by
  unfold peekKind at shown
  split at shown
  · next empty => exact .inl (List.isEmpty_iff.mp empty)
  · split at shown
    · next found => exact .inr (.inl (readLit_isSome.mp found))
    · split at shown
      · next found => exact .inr (.inr (.inl (readLit_isSome.mp found)))
      · split at shown
        · next i rest taken =>
          obtain ⟨ds, legal, text⟩ := text_of_readMarker taken
          exact .inr (.inr (.inr ⟨ds, legal, .inl ⟨rest, text⟩⟩))
        · split at shown
          · next i rest taken =>
            obtain ⟨ds, legal, text⟩ := text_of_readMarker taken
            exact .inr (.inr (.inr ⟨ds, legal, .inr ⟨rest, text⟩⟩))
          · cases shown

theorem peekKind_eq_none {bs : List Byte} (nonempty : bs ≠ [])
    (noMeta : ¬ ∃ rest, bs = asciiList ['M', 'E', 'T', 'A', '['] ++ rest)
    (noIntra : ¬ ∃ rest, bs = asciiList ['$', 'S', '$'] ++ rest)
    (noMarker : ∀ ds, natLegal maxNat ds →
      (¬ ∃ rest, bs = markerText 'P' ds ++ rest) ∧ ¬ ∃ rest, bs = markerText 'V' ds ++ rest) : peekKind bs = none := by
  refine Option.eq_none_iff_forall_ne_some.mpr fun kind shown => ?_
  rcases text_of_peekKind shown with empty | isMeta | isIntra | ⟨ds, hds, isFrame | isVecs⟩
  · exact nonempty empty
  · exact noMeta isMeta
  · exact noIntra isIntra
  · exact (noMarker ds hds).1 isFrame
  · exact (noMarker ds hds).2 isVecs

/-! ### What the end of `PAR.PEEK` and `PAR.META` changes -/

theorem State.complete_twoResults (s : State) (a b : Word) :
    ((s.setResult 0 a).setResult 1 b).complete
      = { s with results := (s.results.set 0 a).set 1 b, statusDone := true, pend := none } := by
  rw [State.complete_setResult]
  rfl

/-- The results and `RPTR` are written apart. -/
theorem State.advanceTo_setResult (s : State) (k : Fin 8) (v : Word) (rest : List Byte) :
    (s.setResult k v).advanceTo rest = (s.advanceTo rest).setResult k v := rfl

theorem State.complete_threeResults_advanceTo (s : State) (a b c : Word) (rest : List Byte) :
    ((((s.setResult 0 a).setResult 1 b).setResult 2 c).advanceTo rest).complete
      = { s with results := ((s.results.set 0 a).set 1 b).set 2 c, rPtr := BitVec.ofNat 32 (u32 s.sLen - rest.length)
                 statusDone := true, pend := none } := by
  simp only [State.advanceTo_setResult, State.complete_threeResults]
  rfl

/-! ### The pointers -/

section
variable {s : State} {p : Pend} {rs : RasterSel} {d : BitVec 4}

theorem State.pointerFault_of_illegal (illegal : ¬ (u32 s.rPtr ≤ u32 s.sLen ∧ u32 s.sLen ≤ Config.strmCap)) :
    s.pointerFault = some ⟨.illegalConfig, 2⟩ := if_neg illegal

variable (hp : s.pend = some p)
include hp

/-- R222: the stream commands without a raster operand test the pointers first. -/
theorem exec_stream_pointerFault {f : EngineFault} (illegal : s.pointerFault = some f) :
    ∀ i ∈ [Instr.serMeta, .serVecs, .parPeek, .parMeta, .parVecs], exec i s = .next (s.takeFault f) := by
  simp only [List.forall_mem_cons]
  exact ⟨State.runCommand_error hp (by simp only [illegal]), State.runCommand_error hp (by simp only [illegal]),
    State.runCommand_error hp (by simp only [illegal]), State.runCommand_error hp (by simp only [illegal]),
    State.runCommand_error hp (by simp only [illegal]), nofun⟩

/-- R222: the others test them when the raster operand is resolved. -/
theorem exec_writeRaster_pointerFault {f : EngineFault} (illegal : s.pointerFault = some f) {v : RasterView}
    (hv : s.resolveRaster p.cmd rs d = .ok v) :
    exec (.serIntra rs d) s = .next (s.takeFault f) ∧ exec (.serFrame rs d) s = .next (s.takeFault f) :=
  ⟨State.runCommand_error hp (by simp only [hv, illegal]), State.runCommand_error hp (by simp only [hv, illegal])⟩

theorem exec_readRaster_pointerFault {f : EngineFault} (illegal : s.pointerFault = some f) {r : RasterTarget}
    (hr : s.resolveWritable p.cmd rs d = .ok r) :
    exec (.parIntra rs d) s = .next (s.takeFault f) ∧ exec (.parFrame rs d) s = .next (s.takeFault f) :=
  ⟨State.runCommand_error hp (by simp only [hr, illegal]), State.runCommand_error hp (by simp only [hr, illegal])⟩

variable (legal : s.pointerFault = none)
include legal

/-! ### `PAR.PEEK` and `PAR.META` -/

theorem exec_parPeek_of_shown {kind i : Nat} (shown : peekKind s.unread = some (kind, i)) :
    exec .parPeek s = .next { s with results := (s.results.set 0 (BitVec.ofNat 32 kind)).set 1 (BitVec.ofNat 32 i)
                                     statusDone := true, pend := none } := by
  rw [← State.complete_twoResults]
  exact State.runCommand_ok hp (by simp only [legal, shown])

theorem exec_parPeek_malformed (unknown : peekKind s.unread = none) : exec .parPeek s = .next (s.takeFault s.malformed) :=
  State.runCommand_error hp (by simp only [legal, unknown])

theorem exec_parMeta_of_taken {w h n : Nat} {rest : List Byte} (taken : readMeta s.unread = some (w, h, n, rest)) :
    exec .parMeta s = .next
      { s with results := ((s.results.set 0 (BitVec.ofNat 32 w)).set 1 (BitVec.ofNat 32 h)).set 2 (BitVec.ofNat 32 n)
               rPtr := BitVec.ofNat 32 (u32 s.sLen - rest.length), statusDone := true, pend := none } := by
  rw [← State.complete_threeResults_advanceTo]
  exact State.runCommand_ok hp (by simp only [legal, taken])

theorem exec_parMeta_malformed (refused : readMeta s.unread = none) : exec .parMeta s = .next (s.takeFault s.malformed) :=
  State.runCommand_error hp (by simp only [legal, refused])

/-! ### `PAR.INTRA` and `PAR.FRAME` -/

theorem exec_parIntra_of_taken {r : RasterTarget} (hr : s.resolveWritable p.cmd rs d = .ok r) {body rest : List Byte}
    {runs : List (Word × Nat)} (marked : readLit (asciiList ['$', 'S', '$']) s.unread = some body)
    (taken : readPixels body = some (runs, rest)) (count : runTotal runs = r.w * r.h) :
    exec (.parIntra rs d) s = .next ((s.writeWords r.base (expandRuns runs)).advanceTo rest).complete :=
  State.runCommand_ok hp (by simp only [hr, legal, marked, taken, State.storePixels, if_neg (not_not.mpr count)])

theorem exec_parIntra_mismatch {r : RasterTarget} (hr : s.resolveWritable p.cmd rs d = .ok r) {body rest : List Byte}
    {runs : List (Word × Nat)} (marked : readLit (asciiList ['$', 'S', '$']) s.unread = some body)
    (taken : readPixels body = some (runs, rest)) (count : runTotal runs ≠ r.w * r.h) :
    exec (.parIntra rs d) s = .next (s.takeFault ⟨.dimensionMismatch, saturated (runTotal runs)⟩) :=
  State.runCommand_error hp (by simp only [hr, legal, marked, taken, State.storePixels, if_pos count])

theorem exec_parIntra_malformed {r : RasterTarget} (hr : s.resolveWritable p.cmd rs d = .ok r)
    (refused : ∀ body, readLit (asciiList ['$', 'S', '$']) s.unread = some body → readPixels body = none) :
    exec (.parIntra rs d) s = .next (s.takeFault s.malformed) := by
  cases marked : readLit (asciiList ['$', 'S', '$']) s.unread with
  | none => exact State.runCommand_error hp (by simp only [hr, legal, marked])
  | some body => exact State.runCommand_error hp (by simp only [hr, legal, marked, refused body marked])

theorem exec_parFrame_of_taken {r : RasterTarget} (hr : s.resolveWritable p.cmd rs d = .ok r) {i : Nat} {body rest : List Byte}
    {runs : List (Word × Nat)} (marked : readMarker (asciiList ['$', 'P']) s.unread = some (i, body))
    (taken : readPixels body = some (runs, rest)) (count : runTotal runs = r.w * r.h) :
    exec (.parFrame rs d) s
      = .next (((s.writeWords r.base (expandRuns runs)).advanceTo rest).setResult 0 (BitVec.ofNat 32 i)).complete :=
  State.runCommand_ok hp (by simp only [hr, legal, marked, taken, State.storePixels, if_neg (not_not.mpr count)])

theorem exec_parFrame_mismatch {r : RasterTarget} (hr : s.resolveWritable p.cmd rs d = .ok r) {i : Nat} {body rest : List Byte}
    {runs : List (Word × Nat)} (marked : readMarker (asciiList ['$', 'P']) s.unread = some (i, body))
    (taken : readPixels body = some (runs, rest)) (count : runTotal runs ≠ r.w * r.h) :
    exec (.parFrame rs d) s = .next (s.takeFault ⟨.dimensionMismatch, saturated (runTotal runs)⟩) :=
  State.runCommand_error hp (by simp only [hr, legal, marked, taken, State.storePixels, if_pos count])

theorem exec_parFrame_malformed {r : RasterTarget} (hr : s.resolveWritable p.cmd rs d = .ok r)
    (refused : ∀ i body, readMarker (asciiList ['$', 'P']) s.unread = some (i, body) → readPixels body = none) :
    exec (.parFrame rs d) s = .next (s.takeFault s.malformed) := by
  cases marked : readMarker (asciiList ['$', 'P']) s.unread with
  | none => exact State.runCommand_error hp (by simp only [hr, legal, marked])
  | some q => exact State.runCommand_error hp (by simp only [hr, legal, marked, refused q.1 q.2 marked])

/-! ### `PAR.VECS` -/

theorem exec_parVecs_of_taken {i : Nat} {body rest : List Byte} {groups : List VecGroup}
    (marked : readMarker (asciiList ['$', 'V']) s.unread = some (i, body))
    (taken : readGroups (body.length + 1) body = some (groups, rest)) (few : groups.length ≤ Config.vtabN) :
    exec .parVecs s = .next ((((s.storeGroups 0 groups).setResult 0 (BitVec.ofNat 32 i)).setResult 1
      (BitVec.ofNat 32 groups.length)).advanceTo rest).complete :=
  State.runCommand_ok hp (by simp only [legal, marked, taken, if_neg (Nat.not_lt.mpr few)])

theorem exec_parVecs_tooMany {i : Nat} {body rest : List Byte} {groups : List VecGroup}
    (marked : readMarker (asciiList ['$', 'V']) s.unread = some (i, body))
    (taken : readGroups (body.length + 1) body = some (groups, rest)) (many : Config.vtabN < groups.length) :
    exec .parVecs s = .next (s.takeFault ⟨.tableOverflow, saturated groups.length⟩) :=
  State.runCommand_error hp (by simp only [legal, marked, taken, if_pos many])

theorem exec_parVecs_malformed
    (refused : ∀ i body, readMarker (asciiList ['$', 'V']) s.unread = some (i, body) → readGroups (body.length + 1) body = none) :
    exec .parVecs s = .next (s.takeFault s.malformed) := by
  cases marked : readMarker (asciiList ['$', 'V']) s.unread with
  | none => exact State.runCommand_error hp (by simp only [legal, marked])
  | some q => exact State.runCommand_error hp (by simp only [legal, marked, refused q.1 q.2 marked])

end

/-- Settles O55: each text shows its kind, and the metadata reader takes every spelling. -/
theorem peekAndMetaReport : Obligations.PeekAndMetaReport := by
  unfold Obligations.PeekAndMetaReport
  intro s p rest hp behind bound peeks number
  have legal : s.pointerFault = none := State.pointerFault_eq_none.mpr ⟨behind, bound⟩
  refine ⟨fun text => ?_, fun text => ?_, fun text => ?_, fun ds hds text => ?_, fun ds hds text => ?_,
    fun w h n hw hh hn text => ?_⟩
  · exact exec_parPeek_of_shown hp legal (by rw [text]; rfl)
  · exact exec_parPeek_of_shown hp legal (by rw [text, peekKind_meta])
  · exact exec_parPeek_of_shown hp legal (by rw [text, peekKind_intra])
  · exact exec_parPeek_of_shown hp legal (by rw [text, peekKind_frame hds])
  · exact exec_parPeek_of_shown hp legal (by rw [text, peekKind_vecs hds])
  · exact exec_parMeta_of_taken hp legal (by rw [text, readMeta_text hw hh hn])

/-- Settles O58: what a reader takes is a text of its grammar, so other bytes are malformed. -/
theorem streamFaults : Obligations.StreamFaults := by
  unfold Obligations.StreamFaults
  intro s p rs d hp faulted legal begins number
  have pointers (h : legal) : s.pointerFault = none := State.pointerFault_eq_none.mpr h
  refine ⟨fun illegal => exec_stream_pointerFault hp (State.pointerFault_of_illegal illegal),
    fun v illegal => exec_writeRaster_pointerFault hp (State.pointerFault_of_illegal illegal),
    fun r illegal => exec_readRaster_pointerFault hp (State.pointerFault_of_illegal illegal),
    fun hl nonempty noMeta noIntra noMarker => ?_, fun hl noText => ?_,
    fun r hl hr => ⟨fun noText => ?_, fun noText => ?_⟩, fun hl noText => ?_⟩
  · exact exec_parPeek_malformed hp (pointers hl) (peekKind_eq_none nonempty noMeta noIntra noMarker)
  · exact exec_parMeta_malformed hp (pointers hl) (readMeta_eq_none noText)
  · refine exec_parIntra_malformed hp (pointers hl) hr fun body marked => readPixels_eq_none ?_
    rintro finalDot tokens tokensLegal ⟨rest, rfl⟩
    exact noText finalDot tokens tokensLegal ⟨rest, by rw [readLit_eq_some.mp marked, List.append_assoc]⟩
  · refine exec_parFrame_malformed hp (pointers hl) hr fun i body marked => readPixels_eq_none ?_
    rintro finalDot tokens tokensLegal ⟨rest, rfl⟩
    obtain ⟨ds, hds, text⟩ := text_of_readMarker marked
    exact noText ds finalDot tokens hds tokensLegal ⟨rest, by rw [text, List.append_assoc]⟩
  · refine exec_parVecs_malformed hp (pointers hl) fun i body marked => readGroups_eq_none ?_
    rintro groups rest groupsLegal ends rfl
    obtain ⟨ds, hds, text⟩ := text_of_readMarker marked
    exact noText ds groups rest hds groupsLegal ends (by rw [text, List.append_assoc])

end Sys2Proof.Machine
end

section
/-! What the reader commands store (spec/45_bitstream.md R245 to R247, R250): the words of a raster, the entries of the vector table,
and the round trip of an intra record. -/

namespace Sys2Proof.Machine

/-! ### The words of a raster -/

section
variable {s : State} {p : Pend} {rs : RasterSel} {d : BitVec 4} {r : RasterTarget} {runs : List (Word × Nat)}

/-- R245, R246: the state after a record of as many words as the raster has pixels: the words, the results, and `RPTR` before
`rest`. -/
def State.rasterStored (s : State) (r : RasterTarget) (runs : List (Word × Nat)) (rest : List Byte) (results : Vector Word 8) :
    State :=
  { s.writeWords r.base (expandRuns runs) with results := results, rPtr := BitVec.ofNat 32 (u32 s.sLen - rest.length)
                                               statusDone := true, pend := none }

theorem State.rasterStored_eq (rest : List Byte) (results : Vector Word 8) :
    s.rasterStored r runs rest results
      = { s with mem := (s.rasterStored r runs rest results).mem, results := results
                 rPtr := BitVec.ofNat 32 (u32 s.sLen - rest.length), statusDone := true, pend := none } := rfl

theorem State.rasterStored_holdsWords (count : runTotal runs = r.w * r.h) (rest : List Byte) (results : Vector Word 8) :
    (s.rasterStored r runs rest results).HoldsWords r.base (r.w * r.h) (fun k => (expandRuns runs).getD k 0) := by
  rw [← count, ← expandRuns_length]
  exact s.holdsWords_writeWords_getD r.base (expandRuns runs)

theorem State.rasterStored_keepsBytes (count : runTotal runs = r.w * r.h) (rest : List Byte) (results : Vector Word 8) :
    s.KeepsBytes (s.rasterStored r runs rest results) (inRun r.base (4 * (r.w * r.h))) := by
  rw [← count, ← expandRuns_length]
  intro a outside
  exact s.byteAt_writeWords_outside r.base (expandRuns runs) a (by omega)

variable (hp : s.pend = some p) (legal : s.pointerFault = none) (hr : s.resolveWritable p.cmd rs d = .ok r)
include hp legal hr

theorem exec_parIntra_stores {body rest : List Byte} (text : s.unread = asciiList ['$', 'S', '$'] ++ body)
    (taken : readPixels body = some (runs, rest)) (count : runTotal runs = r.w * r.h) :
    exec (.parIntra rs d) s = .next (s.rasterStored r runs rest s.results) :=
  exec_parIntra_of_taken hp legal hr (readLit_eq_some.mpr text) taken count

theorem exec_parFrame_stores {ds : List (Fin 10)} (number : natLegal maxNat ds) {body rest : List Byte}
    (text : s.unread = markerText 'P' ds ++ body) (taken : readPixels body = some (runs, rest))
    (count : runTotal runs = r.w * r.h) :
    exec (.parFrame rs d) s
      = .next (s.rasterStored r runs rest (s.results.set 0 (BitVec.ofNat 32 (digitsValue ds)))) := by
  have marked : readMarker (asciiList ['$', 'P']) s.unread = some (digitsValue ds, body) := by
    rw [text, readMarker_text 'P' number]
  rw [exec_parFrame_of_taken hp legal hr marked taken count, State.complete_setResult]
  rfl

end

/-- Settles O56: the count of the record's words decides between the store and the fault. -/
theorem parIntraAndFrameStoreRaster : Obligations.ParIntraAndFrameStoreRaster := by
  unfold Obligations.ParIntraAndFrameStoreRaster
  intro s p rs d r body rest runs ds hp hr behind bound taken intra frame index count stored mismatch
  have legal : s.pointerFault = none := State.pointerFault_eq_none.mpr ⟨behind, bound⟩
  refine ⟨fun total => ⟨fun text => ?_, fun ⟨text, nonempty, small⟩ => ?_⟩,
    fun total => ⟨fun text => ?_, fun ⟨text, nonempty, small⟩ => ?_⟩⟩
  · exact ⟨_, exec_parIntra_stores hp legal hr text taken total, State.rasterStored_eq rest _,
      State.rasterStored_holdsWords total rest _, State.rasterStored_keepsBytes total rest _⟩
  · exact ⟨_, exec_parFrame_stores hp legal hr ⟨nonempty, small⟩ text taken total, State.rasterStored_eq rest _,
      State.rasterStored_holdsWords total rest _, State.rasterStored_keepsBytes total rest _⟩
  · exact exec_parIntra_mismatch hp legal hr (readLit_eq_some.mpr text) taken total
  · have marked : readMarker (asciiList ['$', 'P']) s.unread = some (digitsValue ds, body) := by
      rw [text]
      exact readMarker_text 'P' ⟨nonempty, small⟩ body
    exact exec_parFrame_mismatch hp legal hr marked taken total

/-! ### The entries of the vector table -/

section
variable {s : State}

theorem State.storeGroups_cons (e : Nat) (g : VecGroup) (gs : List VecGroup) :
    s.storeGroups e (g :: gs) = (s.writeWords (vtabBase + 64 * e) (groupEntry g)).storeGroups (e + 1) gs := rfl

/-- The store pass changes the memory only. -/
theorem State.storeGroups_eq (e : Nat) (gs : List VecGroup) :
    s.storeGroups e gs = { s with mem := (s.storeGroups e gs).mem } := by
  induction gs generalizing s e with
  | nil => rfl
  | cons g gs ih =>
    rw [State.storeGroups_cons, ih]
    rfl

/-- Words before the entries that are stored stay. -/
theorem State.HoldsWords.storeGroups {t : State} {base n : Nat} {f : Nat → Word} (h : t.HoldsWords base n f) {e : Nat}
    (before : base + 4 * n ≤ vtabBase + 64 * e) (gs : List VecGroup) : (t.storeGroups e gs).HoldsWords base n f := by
  induction gs generalizing t e with
  | nil => exact h
  | cons g gs ih => exact ih (h.writeWords (.inl before)) (by omega)

/-- R247: each group fills words 0 to 11 of its own entry. -/
theorem State.storeGroups_holdsWords {gs : List VecGroup} {k : Nat} {g : VecGroup} (hg : gs[k]? = some g) (e : Nat) :
    (s.storeGroups e gs).HoldsWords (vtabBase + 64 * (e + k)) 12 (fun j => (groupEntry g).getD j 0) := by
  induction gs generalizing s e k with
  | nil => cases hg
  | cons first gs ih =>
    cases k with
    | zero =>
      cases hg
      exact (s.holdsWords_writeWords_getD (vtabBase + 64 * e) (groupEntry g)).storeGroups
        (show vtabBase + 64 * e + 4 * 12 ≤ vtabBase + 64 * (e + 1) by omega) gs
    | succ k =>
      rw [State.storeGroups_cons, show e + (k + 1) = e + 1 + k by omega]
      exact ih hg (e + 1)

/-- R247: no byte beyond words 0 to 11 of the groups' entries changes. -/
theorem State.KeepsBytes.storeGroups {t : State} {stored : Nat → Prop} (h : s.KeepsBytes t stored) {e : Nat}
    {gs : List VecGroup} (inside : ∀ k < gs.length, ∀ a, inRun (vtabBase + 64 * (e + k)) 48 a → stored a) :
    s.KeepsBytes (t.storeGroups e gs) stored := by
  induction gs generalizing t e with
  | nil => exact h
  | cons g gs ih =>
    refine ih (h.writeWords (inside 0 (Nat.zero_lt_succ _))) fun k hk a ha => inside (k + 1) (Nat.succ_lt_succ hk) a ?_
    rwa [show e + (k + 1) = e + 1 + k by omega]

/-- R247: the state after a record of groups: their entries, the results, and `RPTR` before `rest`. -/
def State.groupsStored (s : State) (gs : List VecGroup) (rest : List Byte) (results : Vector Word 8) : State :=
  { s.storeGroups 0 gs with results := results, rPtr := BitVec.ofNat 32 (u32 s.sLen - rest.length)
                            statusDone := true, pend := none }

theorem State.groupsStored_eq (gs : List VecGroup) (rest : List Byte) (results : Vector Word 8) :
    s.groupsStored gs rest results
      = { s with mem := (s.groupsStored gs rest results).mem, rPtr := BitVec.ofNat 32 (u32 s.sLen - rest.length)
                 results := results, statusDone := true, pend := none } := by
  rw [State.groupsStored, State.storeGroups_eq]

/-- What completing `PAR.VECS` changes. -/
theorem State.complete_storeGroups (gs : List VecGroup) (a b : Word) (rest : List Byte) :
    ((((s.storeGroups 0 gs).setResult 0 a).setResult 1 b).advanceTo rest).complete
      = s.groupsStored gs rest ((s.results.set 0 a).set 1 b) := by
  have sLen : (s.storeGroups 0 gs).sLen = s.sLen := by rw [State.storeGroups_eq]
  have results : (s.storeGroups 0 gs).results = s.results := by rw [State.storeGroups_eq]
  rw [State.advanceTo_setResult, State.advanceTo_setResult, State.complete_twoResults, State.groupsStored, ← sLen, ← results]
  rfl

end

/-- R247: the entry of a group from the numbers that its text spells. -/
theorem groupEntry_meaning (g : GroupText) :
    groupEntry g.meaning
      = [w32 (digitsValue g.x + g.sx.value), w32 (digitsValue g.y + g.sy.value), 0, 0, 1, BitVec.ofNat 32 (digitsValue g.x),
        BitVec.ofNat 32 (digitsValue g.y), w32 g.sx.value, w32 g.sy.value, 1, 0, 0] := rfl

/-- Settles O57: the groups are read in any spelling, and stored one entry each. -/
theorem parVecsFillsTable : Obligations.ParVecsFillsTable := by
  unfold Obligations.ParVecsFillsTable
  intro s p ds groups rest hp behind bound number groupsLegal ends text
  have legal : s.pointerFault = none := State.pointerFault_eq_none.mpr ⟨behind, bound⟩
  have marked : readMarker (asciiList ['$', 'V']) s.unread = some (digitsValue ds, groups.flatMap GroupText.text ++ rest) := by
    rw [text, List.append_assoc, readMarker_text 'V' number]
  have taken := readGroups_of_text groupsLegal ends
  have length : (groups.map GroupText.meaning).length = groups.length := List.length_map _
  constructor
  · intro few
    have completed := exec_parVecs_of_taken hp legal marked taken (by rwa [length])
    rw [State.complete_storeGroups, length] at completed
    refine ⟨_, completed, State.groupsStored_eq .., fun e g hg k hk => ?_, fun a outside => ?_⟩
    · have entry : (groups.map GroupText.meaning)[e]? = some g.meaning := by rw [List.getElem?_map, hg]; rfl
      have held := s.storeGroups_holdsWords entry 0 k hk
      rw [Nat.zero_add, groupEntry_meaning] at held
      exact held
    · have kept : s.KeepsBytes (s.storeGroups 0 (groups.map GroupText.meaning))
          (fun a => ∃ e < groups.length, inRun (vtabBase + 64 * e) 48 a) :=
        State.KeepsBytes.storeGroups (fun _ _ => rfl) fun k hk a ha => ⟨k, by rwa [length] at hk, by rwa [Nat.zero_add] at ha⟩
      exact kept a outside
  · intro many
    rw [exec_parVecs_tooMany hp legal marked taken (by rwa [length]), length]
    rfl

/-! ### The round trip of an intra record -/

theorem RasterView.expandRuns_pixels (v : RasterView) {k : Nat} (hk : k < v.w * v.h) :
    (expandRuns (runsOf v.pixels)).getD k 0 = v.pix k := by
  rw [expandRuns_runsOf, RasterView.pixels, List.getD_eq_getElem _ _ (by simpa using hk), List.getElem_map, List.getElem_range]

theorem RasterView.runTotal_pixels (v : RasterView) : runTotal (runsOf v.pixels) = v.w * v.h := by
  rw [runTotal_runsOf, RasterView.pixels, List.length_map, List.length_range]

/-- A writable raster has at most 2^24 pixels (R29, R40). -/
theorem RasterTarget.area_le {s : State} {cmd : Word} {rs : RasterSel} {d : BitVec 4} {r : RasterTarget}
    (h : s.resolveWritable cmd rs d = .ok r) : r.w * r.h ≤ 4096 * 4096 := by
  obtain ⟨selected, -, -, width, -, height⟩ := State.resolveWritable_ok h
  rcases selected with ⟨-, rfl⟩ | ⟨-, rfl⟩
  · exact Nat.mul_le_mul width height
  · exact Nat.mul_le_mul width height

/-- R235: in a state that holds an appended record, with `RPTR` at its first byte and `SLEN` behind its last, it is what is left to
read. -/
theorem State.unread_of_appended {s t u : State} {bytes : List Byte} (appended : s.Appended t bytes)
    (sLen : u32 t.sLen = u32 s.sLen + bytes.length) (atFirst : u.rPtr = s.sLen) (atLast : u.sLen = t.sLen)
    (same : ∀ a, inRun (strmBase + u32 s.sLen) bytes.length a → u.byteAt a = t.byteAt a) : u.unread = bytes := by
  obtain ⟨-, stored, -⟩ := appended
  refine State.unread_eq (by rw [atLast, atFirst, sLen]; omega) fun k hk => ?_
  rw [State.strmByte, atFirst, ← Nat.add_assoc, same _ ⟨by omega, by omega⟩, stored k hk]

/-- Settles O59: what is left to read is the record, and its runs are those of the raster. -/
theorem intraRecordRoundTrip : Obligations.IntraRecordRoundTrip := by
  unfold Obligations.IntraRecordRoundTrip
  intro s p rs d v hp hv behind bound room
  have legal : s.pointerFault = none := State.pointerFault_eq_none.mpr ⟨behind, bound⟩
  obtain ⟨t, ended, appended⟩ := (exec_serIntra_appends hp legal hv).1 room
  have sLen : u32 t.sLen = u32 s.sLen + (intraRecord v.pixels).length := by
    rw [appended.1]
    exact Nat.mod_eq_of_lt (by omega)
  refine ⟨t, ended, fun u q rs' d' r hq hr area atFirst atLast same => ?_⟩
  have legal' : u.pointerFault = none :=
    State.pointerFault_eq_none.mpr ⟨by rw [atFirst, atLast, sLen]; omega, by rw [atLast, sLen]; exact room⟩
  have text := State.unread_of_appended appended sLen atFirst atLast same
  have short : v.pixels.length ≤ 2 ^ 32 := by
    have small := RasterTarget.area_le hr
    rw [← runTotal_runsOf, v.runTotal_pixels]
    omega
  have taken := readPixels_encodePixels short []
  rw [List.append_nil] at taken
  have total : runTotal (runsOf v.pixels) = r.w * r.h := v.runTotal_pixels.trans area.symm
  refine ⟨_, exec_parIntra_stores hq legal' hr text taken total, fun k hk => ?_, ?_, rfl⟩
  · exact (State.rasterStored_holdsWords total [] _ k (by rwa [area])).trans (v.expandRuns_pixels hk)
  · rw [State.rasterStored_eq]
    exact BitVec.ofNat_toNat ..

end Sys2Proof.Machine
end

section
/-! The idle engine (spec/70_reset_and_hazards.md R332, R350): it has nothing to complete. -/

namespace Sys2Proof.Machine

/-- R350: a completion is enabled only with a command in flight. -/
theorem State.completion_of_idle {s : State} (idle : s.pend = none) : s.completion = .next s := by
  simp only [State.completion, State.fetch, idle, Option.map_none]

/-- Settles O6: the engine's turn is a completion from the popped state, which is as idle as `s`. -/
theorem idleEngineStaysAsItIs : Obligations.IdleEngineStaysAsItIs := by
  unfold Obligations.IdleEngineStaysAsItIs
  intro s engine idle
  have idle' : s.popped.pend = none := s.popped_pend.trans idle
  calc step s = s.popped.completion := step_engine engine
    _ = .next s.popped := State.completion_of_idle idle'

end Sys2Proof.Machine
end
